-- ==== Sys2Proof/Word.lean ====
section
/-! DEFINITION. The word types of the block (spec/00_scope.md R5, R8): 8-bit data, 16-bit addresses. -/

namespace Sys2Proof

/-- A byte: the only unit a bus access moves (R60, R78), and the width of `A`, `X`, `Y`, `SP`, `P` (R5). -/
abbrev Byte := BitVec 8

/-- A 16-bit bus address; `PC` and every effective address have this type (R5). -/
abbrev Addr := BitVec 16

/-- The 15-bit scroll registers `v` and `t` of the PPU (R32). -/
abbrev Scroll := BitVec 15

/-- A colour number: one of the 64 entries of the hardware palette (R397). -/
abbrev Colour := BitVec 6

end Sys2Proof
end

