-- ==== Sys2Proof/Syntax.lean ====
section
/-! DEFINITION. The instructions as syntax: one constructor for each mnemonic of spec/opcode_table.json, its addressing
modes as operands, so that a (constructor, mode) pair is one row of the table (spec/30_encoding.md R128, R131, R132). -/

namespace Sys2Proof

/-- The addressing modes that yield an effective address from operand bytes (R116 to R123). -/
inductive AddrMode where
  | zp  (b : Byte)     -- `$nn`
  | zpx (b : Byte)     -- `$nn,X`
  | zpy (b : Byte)     -- `$nn,Y`
  | abs (w : Addr)     -- `$nnnn`
  | abx (w : Addr)     -- `$nnnn,X`
  | aby (w : Addr)     -- `$nnnn,Y`
  | izx (b : Byte)     -- `($nn,X)`
  | izy (b : Byte)     -- `($nn),Y`
deriving DecidableEq, Repr

/-- The operand of a read-class instruction (R150): the byte after the opcode (`imm`, R115) or a byte of memory. -/
inductive Source where
  | imm (b : Byte)
  | mem (m : AddrMode)
deriving DecidableEq, Repr

/-- The operand and destination of a shift or rotate (R210): register `A` (mode `acc`, R114) or a byte of memory. -/
inductive Target where
  | acc
  | mem (m : AddrMode)
deriving DecidableEq, Repr

/-- The two forms of JMP: mode `abs` (R221) and mode `ind` (R124, R222). -/
inductive JumpTarget where
  | abs (w : Addr)
  | ind (w : Addr)
deriving DecidableEq, Repr

/-- The instruction set: 56 official mnemonics (R128), the unofficial LAX and SAX and the unofficial forms of NOP (R131),
and the undefined bytes (R132), each constructor carrying the operand its encoding holds. Where several opcode bytes have
one mnemonic and mode (NOP) or one mnemonic (UNDEFINED), the constructor carries the opcode byte. -/
inductive Instr where
  -- load, store, transfer (spec/40)
  | lda (src : Source) | ldx (src : Source) | ldy (src : Source) | lax (m : AddrMode)
  | sta (m : AddrMode) | stx (m : AddrMode) | sty (m : AddrMode) | sax (m : AddrMode)
  | tax | tay | txa | tya | tsx | txs
  -- arithmetic and logic (spec/41)
  | adc (src : Source) | sbc (src : Source) | and (src : Source) | ora (src : Source) | eor (src : Source)
  | cmp (src : Source) | cpx (src : Source) | cpy (src : Source) | bit (m : AddrMode)
  | inc (m : AddrMode) | dec (m : AddrMode) | inx | iny | dex | dey
  -- shifts and rotates (spec/42)
  | asl (t : Target) | lsr (t : Target) | rol (t : Target) | ror (t : Target)
  -- control flow (spec/43)
  | jmp (t : JumpTarget) | jsr (w : Addr) | rts | rti
  | bpl (off : Byte) | bmi (off : Byte) | bvc (off : Byte) | bvs (off : Byte)
  | bcc (off : Byte) | bcs (off : Byte) | bne (off : Byte) | beq (off : Byte)
  | brk
  -- stack, flags, no-operation (spec/44)
  | pha | pla | php | plp
  | clc | sec | cli | sei | clv | cld | sed
  | nop (op : Byte) (src : Option Source)
  -- a byte without a table entry (R132, R421)
  | undefined (op : Byte)
deriving DecidableEq, Repr

end Sys2Proof
end

