-- ==== Sys2Proof/WellFormed.lean ====
section
/-! DEFINITION. Which terms of `Instr` are instructions of the opcode table: each mnemonic only in the addressing modes
that spec/30_encoding.md R128 and R131 give it, NOP only with the opcode bytes of its mode, UNDEFINED only with one of
the 72 bytes of R132. -/

namespace Sys2Proof

/-- The addressing modes without their operand, to say which of them a mnemonic has. -/
inductive ModeName where
  | zp | zpx | zpy | abs | abx | aby | izx | izy
deriving DecidableEq, Repr

/-- The name of a memory addressing mode. -/
def AddrMode.name : AddrMode → ModeName
  | .zp _ => .zp | .zpx _ => .zpx | .zpy _ => .zpy | .abs _ => .abs
  | .abx _ => .abx | .aby _ => .aby | .izx _ => .izx | .izy _ => .izy

/-- The mode of a memory operand is one of the listed ones. -/
def AddrMode.isIn (m : AddrMode) (modes : List ModeName) : Bool := modes.contains m.name

/-- A read-class operand is immediate or has one of the listed memory modes. -/
def Source.isIn (src : Source) (modes : List ModeName) : Bool :=
  match src with
  | .imm _ => true
  | .mem m => m.isIn modes

/-- A shift operand is the accumulator or has one of the listed memory modes. -/
def Target.isIn (t : Target) (modes : List ModeName) : Bool :=
  match t with
  | .acc => true
  | .mem m => m.isIn modes

/-- The seven memory modes of LDA, STA, ADC, SBC, AND, ORA, EOR, CMP (R128). -/
def Modes.full : List ModeName := [.zp, .zpx, .abs, .abx, .aby, .izx, .izy]

/-- The four memory modes of the read-modify-write instructions (R128). -/
def Modes.rmw : List ModeName := [.zp, .zpx, .abs, .abx]

/-- The 72 bytes without a table entry, as R132 lists them. -/
def undefinedOpcodes : List Byte :=
  [0x02, 0x03, 0x07, 0x0B, 0x0F, 0x12, 0x13, 0x17, 0x1B, 0x1F, 0x22, 0x23, 0x27, 0x2B, 0x2F] ++
  [0x32, 0x33, 0x37, 0x3B, 0x3F, 0x42, 0x43, 0x47, 0x4B, 0x4F, 0x52, 0x53, 0x57, 0x5B, 0x5F] ++
  [0x62, 0x63, 0x67, 0x6B, 0x6F, 0x72, 0x73, 0x77, 0x7B, 0x7F, 0x82, 0x89, 0x8B, 0x92, 0x93] ++
  [0x9B, 0x9C, 0x9E, 0x9F, 0xAB, 0xB2, 0xBB, 0xC2, 0xC3, 0xC7, 0xCB, 0xCF, 0xD2, 0xD3, 0xD7] ++
  [0xDB, 0xDF, 0xE2, 0xE3, 0xE7, 0xEB, 0xEF, 0xF2, 0xF3, 0xF7, 0xFB, 0xFF]

/-- The opcode bytes of NOP in each mode (R128, R131). -/
def nopOpcodes : Option Source → List Byte
  | none => [0xEA, 0x1A, 0x3A, 0x5A, 0x7A, 0xDA, 0xFA]
  | some (.imm _) => [0x80]
  | some (.mem (.zp _)) => [0x04, 0x44, 0x64]
  | some (.mem (.zpx _)) => [0x14, 0x34, 0x54, 0x74, 0xD4, 0xF4]
  | some (.mem (.abs _)) => [0x0C]
  | some (.mem (.abx _)) => [0x1C, 0x3C, 0x5C, 0x7C, 0xDC, 0xFC]
  | some (.mem _) => []

/-- The instruction is a row of the opcode table (R128, R131, R132). -/
def Instr.wellFormed : Instr → Bool
  | .lda s | .adc s | .sbc s | .and s | .ora s | .eor s | .cmp s => s.isIn Modes.full
  | .ldx s => s.isIn [.zp, .zpy, .abs, .aby]
  | .ldy s => s.isIn [.zp, .zpx, .abs, .abx]
  | .lax m => m.isIn [.zp, .zpy, .abs, .aby, .izx, .izy]
  | .sta m => m.isIn Modes.full
  | .stx m => m.isIn [.zp, .zpy, .abs]
  | .sty m => m.isIn [.zp, .zpx, .abs]
  | .sax m => m.isIn [.zp, .zpy, .abs, .izx]
  | .cpx s | .cpy s => s.isIn [.zp, .abs]
  | .bit m => m.isIn [.zp, .abs]
  | .inc m | .dec m => m.isIn Modes.rmw
  | .asl t | .lsr t | .rol t | .ror t => t.isIn Modes.rmw
  | .nop op src => (nopOpcodes src).contains op
  | .undefined op => undefinedOpcodes.contains op
  | .tax | .tay | .txa | .tya | .tsx | .txs | .inx | .iny | .dex | .dey => true
  | .jmp _ | .jsr _ | .rts | .rti | .brk => true
  | .bpl _ | .bmi _ | .bvc _ | .bvs _ | .bcc _ | .bcs _ | .bne _ | .beq _ => true
  | .pha | .pla | .php | .plp | .clc | .sec | .cli | .sei | .clv | .cld | .sed => true

end Sys2Proof
end

