-- ==== Sys2Proof/Decode.lean ====
section
/-! DEFINITION. The decoder (spec/30_encoding.md R110, R128 to R134) and, after it, the encoder. The decoder's table is
the 16 x 16 map of R129; the encoder is written from the per-mnemonic lists of the family files (R151 to R272). -/

namespace Sys2Proof

/-! ### Byte order (R76) -/

/-- The high byte of a 16-bit quantity (`v[15:8]`). -/
def hiByte (w : Addr) : Byte := w.extractLsb' 8 8

/-- The low byte of a 16-bit quantity (`v[7:0]`). -/
def loByte (w : Addr) : Byte := w.extractLsb' 0 8

/-- `{hi, lo}`: the 16-bit quantity with these bytes (R8). -/
def wordOf (hi lo : Byte) : Addr := hi ++ lo

/-- `zext_16(b)` (R8): the page-0 address with this low byte. -/
def zext16 (b : Byte) : Addr := b.setWidth 16

/-- `sext_16(b)` (R8). -/
def sext16 (b : Byte) : Addr := b.signExtend 16

/-! ### The opcode map (R129) -/

/-- What an opcode byte stands for: the instruction as a function of its operand, in the three formats of R110. -/
inductive Form where
  | f1 (i : Instr)              -- 1 byte
  | f2 (f : Byte → Instr)       -- opcode, operand byte
  | f3 (f : Addr → Instr)       -- opcode, low byte, high byte

namespace Form

/-- Mode `imm`. -/
def imm (f : Source → Instr) : Form := .f2 fun b => f (.imm b)
/-- Mode `zp`. -/
def zp (f : AddrMode → Instr) : Form := .f2 fun b => f (.zp b)
/-- Mode `zpx`. -/
def zpx (f : AddrMode → Instr) : Form := .f2 fun b => f (.zpx b)
/-- Mode `zpy`. -/
def zpy (f : AddrMode → Instr) : Form := .f2 fun b => f (.zpy b)
/-- Mode `izx`. -/
def izx (f : AddrMode → Instr) : Form := .f2 fun b => f (.izx b)
/-- Mode `izy`. -/
def izy (f : AddrMode → Instr) : Form := .f2 fun b => f (.izy b)
/-- Mode `abs`. -/
def abs (f : AddrMode → Instr) : Form := .f3 fun w => f (.abs w)
/-- Mode `abx`. -/
def abx (f : AddrMode → Instr) : Form := .f3 fun w => f (.abx w)
/-- Mode `aby`. -/
def aby (f : AddrMode → Instr) : Form := .f3 fun w => f (.aby w)
/-- Mode `rel`. -/
def rel (f : Byte → Instr) : Form := .f2 f

end Form

/-- A read-class constructor applied to a memory operand. -/
def rd (f : Source → Instr) (m : AddrMode) : Instr := f (.mem m)

/-- A shift constructor applied to a memory operand. -/
def sh (f : Target → Instr) (m : AddrMode) : Instr := f (.mem m)

/-- An unofficial NOP with a memory operand and this opcode byte. -/
def nopMem (op : Byte) (m : AddrMode) : Instr := .nop op (some (.mem m))

open Form Instr in
/-- Columns x0 to x7 of the opcode map (R129), one row for each high nibble; `none` is an undefined byte (`.`). -/
def opcodeMapLow : List (List (Option Form)) :=
  [ [some (f1 brk),     some (izx (rd ora)), none, none, some (zp (nopMem 0x04)),  some (zp (rd ora)),  some (zp (sh asl)),  none],
    [some (rel bpl),    some (izy (rd ora)), none, none, some (zpx (nopMem 0x14)), some (zpx (rd ora)), some (zpx (sh asl)), none],
    [some (f3 jsr),     some (izx (rd and)), none, none, some (zp bit),            some (zp (rd and)),  some (zp (sh rol)),  none],
    [some (rel bmi),    some (izy (rd and)), none, none, some (zpx (nopMem 0x34)), some (zpx (rd and)), some (zpx (sh rol)), none] ] ++
  [ [some (f1 rti),     some (izx (rd eor)), none, none, some (zp (nopMem 0x44)),  some (zp (rd eor)),  some (zp (sh lsr)),  none],
    [some (rel bvc),    some (izy (rd eor)), none, none, some (zpx (nopMem 0x54)), some (zpx (rd eor)), some (zpx (sh lsr)), none],
    [some (f1 rts),     some (izx (rd adc)), none, none, some (zp (nopMem 0x64)),  some (zp (rd adc)),  some (zp (sh ror)),  none],
    [some (rel bvs),    some (izy (rd adc)), none, none, some (zpx (nopMem 0x74)), some (zpx (rd adc)), some (zpx (sh ror)), none] ] ++
  [ [some (imm fun s => nop 0x80 (some s)), some (izx sta), none, some (izx sax), some (zp sty), some (zp sta), some (zp stx), some (zp sax)],
    [some (rel bcc),    some (izy sta), none, none, some (zpx sty), some (zpx sta), some (zpy stx), some (zpy sax)],
    [some (imm ldy),    some (izx (rd lda)), some (imm ldx), some (izx lax), some (zp (rd ldy)), some (zp (rd lda)), some (zp (rd ldx)), some (zp lax)],
    [some (rel bcs),    some (izy (rd lda)), none, some (izy lax), some (zpx (rd ldy)), some (zpx (rd lda)), some (zpy (rd ldx)), some (zpy lax)] ] ++
  [ [some (imm cpy),    some (izx (rd cmp)), none, none, some (zp (rd cpy)),       some (zp (rd cmp)),  some (zp dec),  none],
    [some (rel bne),    some (izy (rd cmp)), none, none, some (zpx (nopMem 0xD4)), some (zpx (rd cmp)), some (zpx dec), none],
    [some (imm cpx),    some (izx (rd sbc)), none, none, some (zp (rd cpx)),       some (zp (rd sbc)),  some (zp inc),  none],
    [some (rel beq),    some (izy (rd sbc)), none, none, some (zpx (nopMem 0xF4)), some (zpx (rd sbc)), some (zpx inc), none] ]

open Form Instr in
/-- Columns x8 to xF of the opcode map (R129). -/
def opcodeMapHigh : List (List (Option Form)) :=
  [ [some (f1 php), some (imm ora), some (f1 (asl .acc)),      none, some (abs (nopMem 0x0C)), some (abs (rd ora)), some (abs (sh asl)), none],
    [some (f1 clc), some (aby (rd ora)), some (f1 (nop 0x1A none)), none, some (abx (nopMem 0x1C)), some (abx (rd ora)), some (abx (sh asl)), none],
    [some (f1 plp), some (imm and), some (f1 (rol .acc)),      none, some (abs bit),           some (abs (rd and)), some (abs (sh rol)), none],
    [some (f1 sec), some (aby (rd and)), some (f1 (nop 0x3A none)), none, some (abx (nopMem 0x3C)), some (abx (rd and)), some (abx (sh rol)), none] ] ++
  [ [some (f1 pha), some (imm eor), some (f1 (lsr .acc)),      none, some (f3 fun w => jmp (.abs w)), some (abs (rd eor)), some (abs (sh lsr)), none],
    [some (f1 cli), some (aby (rd eor)), some (f1 (nop 0x5A none)), none, some (abx (nopMem 0x5C)), some (abx (rd eor)), some (abx (sh lsr)), none],
    [some (f1 pla), some (imm adc), some (f1 (ror .acc)),      none, some (f3 fun w => jmp (.ind w)), some (abs (rd adc)), some (abs (sh ror)), none],
    [some (f1 sei), some (aby (rd adc)), some (f1 (nop 0x7A none)), none, some (abx (nopMem 0x7C)), some (abx (rd adc)), some (abx (sh ror)), none] ] ++
  [ [some (f1 dey), none, some (f1 txa), none, some (abs sty), some (abs sta), some (abs stx), some (abs sax)],
    [some (f1 tya), some (aby sta), some (f1 txs), none, none, some (abx sta), none, none],
    [some (f1 tay), some (imm lda), some (f1 tax), none, some (abs (rd ldy)), some (abs (rd lda)), some (abs (rd ldx)), some (abs lax)],
    [some (f1 clv), some (aby (rd lda)), some (f1 tsx), none, some (abx (rd ldy)), some (abx (rd lda)), some (aby (rd ldx)), some (aby lax)] ] ++
  [ [some (f1 iny), some (imm cmp), some (f1 dex),             none, some (abs (rd cpy)),      some (abs (rd cmp)), some (abs dec), none],
    [some (f1 cld), some (aby (rd cmp)), some (f1 (nop 0xDA none)), none, some (abx (nopMem 0xDC)), some (abx (rd cmp)), some (abx dec), none],
    [some (f1 inx), some (imm sbc), some (f1 (nop 0xEA none)), none, some (abs (rd cpx)),      some (abs (rd sbc)), some (abs inc), none],
    [some (f1 sed), some (aby (rd sbc)), some (f1 (nop 0xFA none)), none, some (abx (nopMem 0xFC)), some (abx (rd sbc)), some (abx inc), none] ]

/-- The opcode map at an opcode byte: row = high nibble, column = low nibble (R129). -/
def opcodeCell (op : Byte) : Option Form :=
  let row := op.toNat / 16
  let col := op.toNat % 16
  if col < 8 then (opcodeMapLow.getD row []).getD col none
  else (opcodeMapHigh.getD row []).getD (col - 8) none

/-- `OPCODE_TABLE[op]` (R111, R134): total, an empty cell being an undefined byte (R132). -/
def opcodeForm (op : Byte) : Form := (opcodeCell op).getD (.f1 (.undefined op))

/-- The number of bytes of an instruction, known from its opcode byte alone (R110, R130). -/
def opcodeLength (op : Byte) : Nat :=
  match opcodeForm op with
  | .f1 _ => 1
  | .f2 _ => 2
  | .f3 _ => 3

/-! ### Decoding bytes -/

/-- Why a list of bytes holds no instruction. Every opcode byte decodes (R134), so only missing bytes can be a reason. -/
inductive DecodeError where
  | noOpcode                    -- the list is empty
  | missingOperand (op : Byte)  -- fewer bytes than the opcode's length (R130)
deriving DecidableEq, Repr

/-- Read one instruction from the front of a list of bytes (address ascending, R110) and answer it with the rest. -/
def decode : List Byte → Except DecodeError (Instr × List Byte)
  | [] => .error .noOpcode
  | op :: rest =>
    match opcodeForm op, rest with
    | .f1 i, rest => .ok (i, rest)
    | .f2 f, b :: rest => .ok (f b, rest)
    | .f3 f, lo :: hi :: rest => .ok (f (wordOf hi lo), rest)
    | _, _ => .error (.missingOperand op)

/-- The three bytes of a number whose bits are counted from the first byte up: bits 7..0 are the byte at the lowest
address. -/
def bytesOf (w : Nat) : List Byte := [BitVec.ofNat 8 w, BitVec.ofNat 8 (w / 256), BitVec.ofNat 8 (w / 65536)]

/-- The instruction the decoder reads from an instruction whose bits are `w`, numbered as spec/opcode_table.json numbers
them; every bit above `nbits` is 0. -/
def decodeTableWord (nbits w : Nat) : Option Instr :=
  match decode (bytesOf (w % 2 ^ nbits)) with
  | .ok (i, _) => some i
  | .error _ => none

/-! ### Encoding -/

/-- The operand bytes of a memory mode (R116 to R123): one byte, or a word with its low byte first (R76). -/
def AddrMode.bytes : AddrMode → List Byte
  | .zp b | .zpx b | .zpy b | .izx b | .izy b => [b]
  | .abs w | .abx w | .aby w => [loByte w, hiByte w]

/-- The operand bytes of a read-class operand. -/
def Source.bytes : Source → List Byte
  | .imm b => [b]
  | .mem m => m.bytes

/-- The operand bytes of a shift operand. -/
def Target.bytes : Target → List Byte
  | .acc => []
  | .mem m => m.bytes

/-- One mnemonic's opcode bytes by memory mode, in the order zp zpx zpy abs abx aby izx izy; 0 where it has none. -/
def AddrMode.pick (m : AddrMode) (zp zpx zpy abs abx aby izx izy : Byte) : Byte :=
  match m with
  | .zp _ => zp | .zpx _ => zpx | .zpy _ => zpy | .abs _ => abs
  | .abx _ => abx | .aby _ => aby | .izx _ => izx | .izy _ => izy

/-- One mnemonic's opcode bytes: immediate, then by memory mode as in `AddrMode.pick`. -/
def Source.pick (src : Source) (imm zp zpx zpy abs abx aby izx izy : Byte) : Byte :=
  match src with
  | .imm _ => imm
  | .mem m => m.pick zp zpx zpy abs abx aby izx izy

/-- One shift's opcode bytes: accumulator, then zp, zpx, abs, abx. -/
def Target.pick (t : Target) (acc zp zpx abs abx : Byte) : Byte :=
  match t with
  | .acc => acc
  | .mem m => m.pick zp zpx 0 abs abx 0 0 0

/-- The opcode byte of an instruction, from the lists of the family files (spec/40 to spec/44). -/
def Instr.opcode : Instr → Byte
  | .lda s => s.pick 0xA9 0xA5 0xB5 0 0xAD 0xBD 0xB9 0xA1 0xB1
  | .ldx s => s.pick 0xA2 0xA6 0 0xB6 0xAE 0 0xBE 0 0
  | .ldy s => s.pick 0xA0 0xA4 0xB4 0 0xAC 0xBC 0 0 0
  | .lax m => m.pick 0xA7 0 0xB7 0xAF 0 0xBF 0xA3 0xB3
  | .sta m => m.pick 0x85 0x95 0 0x8D 0x9D 0x99 0x81 0x91
  | .stx m => m.pick 0x86 0 0x96 0x8E 0 0 0 0
  | .sty m => m.pick 0x84 0x94 0 0x8C 0 0 0 0
  | .sax m => m.pick 0x87 0 0x97 0x8F 0 0 0x83 0
  | .tax => 0xAA | .tay => 0xA8 | .txa => 0x8A | .tya => 0x98 | .tsx => 0xBA | .txs => 0x9A
  | .adc s => s.pick 0x69 0x65 0x75 0 0x6D 0x7D 0x79 0x61 0x71
  | .sbc s => s.pick 0xE9 0xE5 0xF5 0 0xED 0xFD 0xF9 0xE1 0xF1
  | .and s => s.pick 0x29 0x25 0x35 0 0x2D 0x3D 0x39 0x21 0x31
  | .ora s => s.pick 0x09 0x05 0x15 0 0x0D 0x1D 0x19 0x01 0x11
  | .eor s => s.pick 0x49 0x45 0x55 0 0x4D 0x5D 0x59 0x41 0x51
  | .cmp s => s.pick 0xC9 0xC5 0xD5 0 0xCD 0xDD 0xD9 0xC1 0xD1
  | .cpx s => s.pick 0xE0 0xE4 0 0 0xEC 0 0 0 0
  | .cpy s => s.pick 0xC0 0xC4 0 0 0xCC 0 0 0 0
  | .bit m => m.pick 0x24 0 0 0x2C 0 0 0 0
  | .inc m => m.pick 0xE6 0xF6 0 0xEE 0xFE 0 0 0
  | .dec m => m.pick 0xC6 0xD6 0 0xCE 0xDE 0 0 0
  | .inx => 0xE8 | .iny => 0xC8 | .dex => 0xCA | .dey => 0x88
  | .asl t => t.pick 0x0A 0x06 0x16 0x0E 0x1E
  | .lsr t => t.pick 0x4A 0x46 0x56 0x4E 0x5E
  | .rol t => t.pick 0x2A 0x26 0x36 0x2E 0x3E
  | .ror t => t.pick 0x6A 0x66 0x76 0x6E 0x7E
  | .jmp (.abs _) => 0x4C | .jmp (.ind _) => 0x6C
  | .jsr _ => 0x20 | .rts => 0x60 | .rti => 0x40
  | .bpl _ => 0x10 | .bmi _ => 0x30 | .bvc _ => 0x50 | .bvs _ => 0x70
  | .bcc _ => 0x90 | .bcs _ => 0xB0 | .bne _ => 0xD0 | .beq _ => 0xF0
  | .brk => 0x00
  | .pha => 0x48 | .pla => 0x68 | .php => 0x08 | .plp => 0x28
  | .clc => 0x18 | .sec => 0x38 | .cli => 0x58 | .sei => 0x78 | .clv => 0xB8 | .cld => 0xD8 | .sed => 0xF8
  | .nop op _ => op
  | .undefined op => op

/-- The operand bytes of an instruction. -/
def Instr.operandBytes : Instr → List Byte
  | .lda s | .ldx s | .ldy s | .adc s | .sbc s | .and s | .ora s | .eor s | .cmp s | .cpx s | .cpy s => s.bytes
  | .lax m | .sta m | .stx m | .sty m | .sax m | .bit m | .inc m | .dec m => m.bytes
  | .asl t | .lsr t | .rol t | .ror t => t.bytes
  | .jmp (.abs w) | .jmp (.ind w) | .jsr w => [loByte w, hiByte w]
  | .bpl o | .bmi o | .bvc o | .bvs o | .bcc o | .bcs o | .bne o | .beq o => [o]
  | .nop _ (some s) => s.bytes
  | .nop _ none => []
  | .tax | .tay | .txa | .tya | .tsx | .txs | .inx | .iny | .dex | .dey => []
  | .rts | .rti | .brk | .pha | .pla | .php | .plp => []
  | .clc | .sec | .cli | .sei | .clv | .cld | .sed | .undefined _ => []

/-- The bytes of an instruction, address ascending (R110). -/
def encode (i : Instr) : List Byte := i.opcode :: i.operandBytes

/-- The length of an instruction in bytes, as R130 gives it for its mode. -/
def Instr.length (i : Instr) : Nat := (encode i).length

end Sys2Proof
end

