-- ==== Sys2Proof/Config.lean ====
section
/-! DEFINITION. What one instance of the block fixes: the named parameters of spec/00_scope.md section 4 with the
defaults the spec takes, and the free values (constants without a body) for what the spec leaves open. -/

namespace Sys2Proof

/-- `RESET_CYCLES`: the default of the value `raiseReset` gives the cycle counter (R5, R440; 92 D7). -/
def Config.resetCycles : Nat := 0

/-- `PPU_REG_BASE`: the default base of the PPU register window, a multiple of 32 (R5, R300; 92 D22). -/
def Config.ppuRegBase : Addr := 0x2000

/-- The address of the platform's DMA register used by the reference system (R460). -/
def Config.oamDmaAddr : Addr := 0x4014

/-- `TRAP_SLOTS`: how many register traps one AddressSpace can hold (R25; 93 part 1 row 18: fixed, not a parameter). -/
def Config.trapSlots : Nat := 4

/-- FREE VALUE. What a trap owned by a component outside the block (a joypad, a mapper, the DMA register's read path)
answers to a read when the input queue of `State` is empty: any byte (R72, R461; 93 part 1 row 21: "any value on reads
(external input)"). Its arguments are the trap's context, the address read and the number of external reads made so far.
UNVERIFIED by construction, safe: no statement can rest on a value of it (assumption log 4). -/
opaque Config.externalRead : Nat → Addr → Nat → Byte

/-- FREE VALUE. `PALETTE_RGB`: the 64 fixed RGB triples, which no source prints (R5, R397; 92 D37 "OPEN"). -/
opaque Config.paletteRgb : Colour → BitVec 24

/-- FREE VALUE. `PACK_RGB`: how a triple is packed into the 32-bit word of a pixel (R5, R398; 92 D37 "OPEN"). -/
opaque Config.packRgb : BitVec 24 → BitVec 32

end Sys2Proof
end

