-- ==== Sys2Proof/Machine/State.lean ====
section
/-! DEFINITION. Everything the spec gives the machine, as plain data (spec/10_state.md), the reasons a step can stop, and
the state at power-on (R44, R471). -/

namespace Sys2Proof.Machine

/-! ### Memory and the AddressSpaces (spec/10_state.md section 2, spec/20_memory.md) -/

/-- Bytes by address in one canonical form: addresses strictly rising, no entry equal to what an unlisted address reads
as (`Memory.wf` in Machine/Memory.lean). -/
abbrev Memory := List Host.Cell

/-- An externally owned byte buffer (R26): its length in bytes and its contents. -/
structure Buffer where
  len   : Nat
  cells : Memory
deriving DecidableEq, Repr

/-- One entry of a page table (R24). `buf` is a buffer handle: an index into `State.bufs`. -/
inductive PageEntry where
  | unmapped
  | mapped (buf base : Nat) (mask : Byte)
deriving DecidableEq, Repr

/-- A filled trap slot (R25): an inclusive address range, an opaque context and a callback. -/
structure Trap (κ : Type) where
  start    : Addr
  stop     : Addr
  context  : Nat
  callback : κ
deriving DecidableEq, Repr

/-- The callbacks a trap of `CpuBus` can have. -/
inductive CpuCallback where
  /-- The PPU register window (R301). -/
  | ppuWindow
  /-- The platform's trap around its DMA register: a write "on the DMA register's address", here `reg`, calls `copyOAM`
  (R460). Every other access of the trap's range is one of a component outside the block (DESIGN CHOICE, assumption
  log 22). -/
  | oamDma (reg : Addr)
  /-- A component outside the block (R72). -/
  | external
deriving DecidableEq, Repr

/-- The callbacks a trap of `PpuBus` can have. The block registers none there (R324), so only a component outside the
block can own one (DESIGN CHOICE, assumption log 13). -/
inductive PpuCallback where
  | external
deriving DecidableEq, Repr

/-- An AddressSpace (R24, R25, R60): 256 page entries indexed by `addr >> 8`, and the filled trap slots in order of
registration; `trapCount` is the length of `traps`. -/
structure AddressSpace (κ : Type) where
  pages : Vector PageEntry 256
  traps : List (Trap κ)
deriving DecidableEq, Repr

/-! ### CPU (spec/10_state.md section 1) -/

/-- The kinds of the error latch (R22): `None`, `UnknownOpcode`, `Break`. -/
inductive ErrKind where
  | none
  | unknownOpcode
  | brk
deriving DecidableEq, Repr

/-- The registers and latches of the CPU. -/
structure Cpu where
  /-- Accumulator (R10). -/
  a : Byte
  /-- Index register X (R10). -/
  x : Byte
  /-- Index register Y (R10). -/
  y : Byte
  /-- Stack pointer, an offset into page 1 (R12). -/
  sp : Byte
  /-- Status register: C Z I D B U V N at bits 0 to 7 (R13, R15). -/
  p : Byte
  /-- Program counter (R11). -/
  pc : Addr
  /-- Cycle counter `CYC`; the spec lets a model use an unbounded number (R20, 92 D8). -/
  cyc : Nat
  /-- Address of the instruction being executed (R21). -/
  instrPC : Addr
  /-- Whether this instruction's address computation crossed a page (R21). -/
  pageCrossed : Bool
  /-- The error latch's kind (R22). -/
  errKind : ErrKind
  /-- The error latch's offending opcode (R22). -/
  errOpcode : Byte
deriving DecidableEq, Repr

/-! ### PPU (spec/10_state.md section 3) -/

/-- One of the eight sprite slots (R38). -/
structure SpriteSlot where
  /-- Pattern plane 0, leftmost pixel in bit 7. -/
  sprLo : Byte
  /-- Pattern plane 1. -/
  sprHi : Byte
  /-- A copy of OAM byte 2. -/
  sprAttr : Byte
  /-- The remaining x delay. -/
  sprX : Byte
deriving DecidableEq, Repr

/-- The registers, latches, buffers and counters of the PPU. -/
structure Ppu where
  /-- Position counter, 0 to 340 (R27). -/
  dot : Nat
  /-- Position counter, 0 to 261 (R27). -/
  scanline : Nat
  /-- Frame counter, of which only the parity is read (R27). -/
  frame : Nat
  /-- Control register (R28). -/
  ctrl : Byte
  /-- Mask register (R29). -/
  mask : Byte
  /-- Status register: overflow, sprite-0 hit, vblank at bits 5 to 7, the rest 0 (R30). -/
  status : Byte
  /-- Index of the OAM data register (R31). -/
  oamAddr : Byte
  /-- Current video-memory address (R32). -/
  v : Scroll
  /-- Temporary video-memory address (R32). -/
  t : Scroll
  /-- Fine X (R32). -/
  x : BitVec 3
  /-- Write toggle: true is 1 (R32). -/
  w : Bool
  /-- Delay buffer of the data register (R33). -/
  readBuffer : Byte
  /-- Fetch latches (R34). -/
  ntLatch : Byte
  /-- Palette number of the tile, in bits 1:0 (R34). -/
  atLatch : Byte
  bgLoLatch : Byte
  bgHiLatch : Byte
  /-- Background shift registers (R35). -/
  bgShiftLo : BitVec 16
  bgShiftHi : BitVec 16
  atShiftLo : BitVec 16
  atShiftHi : BitVec 16
  /-- Primary OAM: 64 entries of Y, tile, attributes, X (R36). -/
  oam : Vector Byte 256
  /-- Secondary OAM: 8 entries (R37). -/
  secondaryOam : Vector Byte 32
  /-- How many entries the last evaluation filled (R37). -/
  secCount : Nat
  /-- Whether secondary entry 0 is primary entry 0 (R37). -/
  secHasSprite0 : Bool
  /-- Sprite slots (R38). -/
  slots : Vector SpriteSlot 8
  /-- Whether slot 0 was loaded from primary entry 0 (R38). -/
  slot0IsSprite0 : Bool
  /-- Frame buffer, pixel (x, y) at index `y * 256 + x` (R39), each pixel held as its colour number (R398: "A model that
  does not care about colours may store `c` instead"); `Ppu.pixelWord` in Machine/PpuRender.lean is its 32-bit word. -/
  frameBuffer : Vector Colour 61440
deriving DecidableEq, Repr

/-! ### The System Machine around the block (spec/60_exceptions.md section 5) -/

/-- The two AddressSpace instances (R24). -/
inductive Bus where
  | cpu
  | ppu
deriving DecidableEq, Repr

/-- Where `copyOAM` writes: the PPU's primary OAM (R460) or a buffer of the platform (R446). -/
inductive CopyDest where
  | oam
  | buffer (buf : Nat)
deriving DecidableEq, Repr

/-- A transition the System Machine issues (R6): `CPU.step`, `PPU.tick` and the host operations, the acts on its own
buffers (R26, R455) and on `PC` (R473); and `systemTick`, a `PPU.tick` whose NMI request (R456) the orchestrator then
queues as a transition of its own (assumption log 8). -/
inductive Transition where
  | cpuStep
  | ppuTick
  | systemTick
  | raiseIRQ
  | raiseNMI
  | raiseReset (resetCycles : Nat)
  | copyOAM (highByte : Byte) (dest : CopyDest)
  | map (bus : Bus) (buf : Nat) (start stop : Addr) (mask : Byte)
  | unmap (bus : Bus) (start stop : Addr)
  | mapCpuRegister (start stop : Addr) (context : Nat) (callback : CpuCallback)
  | mapPpuRegister (start stop : Addr) (context : Nat)
  | forcePC (pc : Addr)
  | createBuffer (len : Nat)
  | writeBuffer (buf offset : Nat) (b : Byte)
deriving DecidableEq, Repr

/-- An output event (93 part 1 row 21): a write to a trap owned by a component outside the block. -/
structure OutputEvent where
  context : Nat
  addr    : Addr
  value   : Byte
deriving DecidableEq, Repr

/-- The part of the System Machine the block's contract needs. -/
structure Platform where
  /-- Transitions the System Machine has decided to issue, oldest first; when there is none the reference schedule of R458
  chooses (the MODEL's own field, assumption log 8). -/
  pending : List Transition
  /-- PPU ticks made since the last `raiseReset`, plus 3 * RESET_CYCLES (R458). -/
  ppuDots : Nat
  /-- Answers the outside has ready for external reads, oldest first (R461; the MODEL's own field, assumption log 4). -/
  inputs : List Byte
  /-- External reads made so far: the argument of the free value `Config.externalRead` (the MODEL's own field,
  assumption log 4). -/
  extReads : Nat
  /-- Output events so far, oldest first (93 part 1 row 21). -/
  outputs : List OutputEvent
deriving DecidableEq, Repr

/-! ### The whole state -/

/-- The state of the block and of what it borrows: CPU, the two AddressSpaces, the buffers they point into (R26: "one
store indexed by buffer handle"), the PPU, and the platform. -/
structure State where
  cpu    : Cpu
  cpuBus : AddressSpace CpuCallback
  ppuBus : AddressSpace PpuCallback
  bufs   : List Buffer
  ppu    : Ppu
  plat   : Platform
deriving DecidableEq, Repr

/-! ### Why a step can stop -/

/-- Faults. There are none: R424 lists every exception and failure of the block; the two an instruction can raise are
recorded in the error latch and the CPU goes on to a halted state (R420 to R423), which is a next state here, and nothing
else faults (R424: "There is no address fault, no alignment fault, no access-rights fault ..."). -/
inductive Fault where
deriving DecidableEq, Repr

/-- Refusals: transitions the spec leaves without a state after them. No instruction refuses. -/
inductive Refusal where
  /-- Raised by `exec` for an instruction without a meaning; no arm does. Safe: the machine stops. -/
  | notModelled (mnemonic : String)
  /-- Raised by the host transition `map` when a precondition of R65 is violated ("no behaviour of the block is defined
  after a violated precondition"). Safe: the machine stops. -/
  | mapPrecondition
  /-- Raised by the host transition `unmap` when a precondition of R68 is violated. Safe: the machine stops. -/
  | unmapPrecondition
  /-- Raised by the host transitions that register a trap when a slot is free and `start > stop`, which R25 excludes of a
  filled slot (DESIGN CHOICE, assumption log 11). Safe: the machine stops. -/
  | trapRange
  /-- Raised by a host transition that names a buffer the platform has not created, writes past a buffer's end, or gives
  `copyOAM` a destination shorter than 256 bytes (DESIGN CHOICE, assumption log 9). Safe: the machine stops. -/
  | noSuchBuffer
deriving DecidableEq, Repr

/-! ### Power-on (R44, R471) -/

/-- An AddressSpace at construction: every page unmapped, no trap slot filled (R44). -/
def AddressSpace.empty (κ : Type) : AddressSpace κ := { pages := Vector.replicate 256 .unmapped, traps := [] }

/-- The CPU at power-on (R44; the spec's decision D6). -/
def Cpu.powerOn : Cpu :=
  { a := 0x00, x := 0x00, y := 0x00, sp := 0xFD, p := 0x24, pc := 0x0000, cyc := 0,
    instrPC := 0, pageCrossed := false, errKind := .none, errOpcode := 0 }

/-- The PPU at power-on (R44; the spec's decision D39). Primary OAM, secondary OAM and the frame buffer, which the spec
leaves unspecified, are all zero (DESIGN CHOICE, unsafe: assumption log 2). -/
def Ppu.powerOn : Ppu :=
  { dot := 0, scanline := 0, frame := 0, ctrl := 0x00, mask := 0x00, status := 0x00, oamAddr := 0x00,
    v := 0, t := 0, x := 0, w := false, readBuffer := 0x00,
    ntLatch := 0, atLatch := 0, bgLoLatch := 0, bgHiLatch := 0,
    bgShiftLo := 0, bgShiftHi := 0, atShiftLo := 0, atShiftHi := 0,
    oam := Vector.replicate 256 0, secondaryOam := Vector.replicate 32 0, secCount := 0, secHasSprite0 := false,
    slots := Vector.replicate 8 { sprLo := 0, sprHi := 0, sprAttr := 0, sprX := 0 }, slot0IsSprite0 := false,
    frameBuffer := Vector.replicate 61440 0 }

/-- The platform before its first act: nothing issued, no dot ticked, no input, no output. -/
def Platform.initial : Platform :=
  { pending := [], ppuDots := 0, inputs := [], extReads := 0, outputs := [] }

/-- The machine right after power-on (R44, R471): both AddressSpaces empty and no buffer created. -/
def State.reset : State :=
  { cpu := Cpu.powerOn, cpuBus := AddressSpace.empty CpuCallback, ppuBus := AddressSpace.empty PpuCallback,
    bufs := [], ppu := Ppu.powerOn, plat := Platform.initial }

/-! ### Replacing one component -/

/-- The state with another CPU. -/
def State.withCpu (s : State) (c : Cpu) : State := { s with cpu := c }

/-- The state with another PPU. -/
def State.withPpu (s : State) (p : Ppu) : State := { s with ppu := p }

/-- The state with another buffer store. -/
def State.withBufs (s : State) (b : List Buffer) : State := { s with bufs := b }

/-- The state with another platform. -/
def State.withPlat (s : State) (p : Platform) : State := { s with plat := p }

/-- The state with another `CpuBus`. -/
def State.withCpuBus (s : State) (b : AddressSpace CpuCallback) : State := { s with cpuBus := b }

/-- The state with another `PpuBus`. -/
def State.withPpuBus (s : State) (b : AddressSpace PpuCallback) : State := { s with ppuBus := b }

end Sys2Proof.Machine
end

