-- ==== Sys2Proof/Machine/Memory.lean ====
section
/-! DEFINITION. Bytes in buffers: the canonical memory, the externally owned buffers (spec/10_state.md R26) and the store
that holds them by handle. -/

namespace Sys2Proof.Machine

/-! ### Canonical memory -/

/-- What an address that is not listed reads as: 0x00 ("zero-filled unless a vector says otherwise", R89; DESIGN CHOICE,
unsafe, assumption log 3). -/
def Memory.unlisted : Byte := 0x00

/-- The byte at an address. -/
def Memory.read : Memory → Nat → Byte
  | [], _ => Memory.unlisted
  | (k, b) :: rest, a => if k = a then b else Memory.read rest a

/-- Store a byte, keeping the addresses rising and no entry equal to the unlisted byte. -/
def Memory.write : Memory → Nat → Byte → Memory
  | [], a, b => if b = Memory.unlisted then [] else [(a, b)]
  | (k, c) :: rest, a, b =>
    if a < k then (if b = Memory.unlisted then (k, c) :: rest else (a, b) :: (k, c) :: rest)
    else if a = k then (if b = Memory.unlisted then rest else (a, b) :: rest)
    else (k, c) :: Memory.write rest a b

/-- Every listed address is at least `lo`, the addresses rise strictly, and no entry holds the unlisted byte. -/
def Memory.wfFrom : Nat → Memory → Bool
  | _, [] => true
  | lo, (k, b) :: rest => decide (lo ≤ k) && decide (b ≠ Memory.unlisted) && Memory.wfFrom (k + 1) rest

/-- The canonical form: equal memories are equal lists. -/
def Memory.wf (m : Memory) : Bool := Memory.wfFrom 0 m

/-! ### Buffers and the store (R26) -/

/-- A zero-filled buffer of this length. -/
def Buffer.zero (len : Nat) : Buffer := { len := len, cells := [] }

/-- The byte at an offset. -/
def Buffer.read (b : Buffer) (off : Nat) : Byte := b.cells.read off

/-- Store a byte at an offset inside the buffer; an offset past its end changes nothing (assumption log 12). -/
def Buffer.write (b : Buffer) (off : Nat) (v : Byte) : Buffer :=
  if off < b.len then { b with cells := b.cells.write off v } else b

/-- The contents are in canonical form and lie inside the buffer. -/
def Buffer.wf (b : Buffer) : Bool := b.cells.wf && b.cells.all fun c => decide (c.1 < b.len)

/-- A place in the store: a buffer handle and an offset. -/
abbrev Loc := Nat × Nat

/-- `buf[off]` of the store; a handle without a buffer reads as the unlisted byte (assumption log 12). -/
def storeRead (bufs : List Buffer) (l : Loc) : Byte :=
  match bufs[l.1]? with
  | some b => b.read l.2
  | none => Memory.unlisted

/-- `buf[off] <- v` in the store; a handle without a buffer changes nothing (assumption log 12). -/
def storeWrite (bufs : List Buffer) (l : Loc) (v : Byte) : List Buffer :=
  bufs.modify l.1 fun b => b.write l.2 v

/-! ### Tables of 256 entries indexed by a byte -/

/-- The entry of a 256-entry table at a byte. -/
def atByte {α : Type} (t : Vector α 256) (i : Byte) : α := t[i.toNat]'i.isLt

/-- Replace the entry of a 256-entry table at a byte. -/
def setAtByte {α : Type} (t : Vector α 256) (i : Byte) (x : α) : Vector α 256 := t.set i.toNat x i.isLt

end Sys2Proof.Machine
end

