-- ==== Sys2Proof/Machine/Flags.lean ====
section
/-! DEFINITION. The status register and every flag computation (spec/10_state.md R13 to R17, spec/41_arithmetic_logic.md
section 1 to 4, spec/42_shift_rotate.md). -/

namespace Sys2Proof.Machine

/-! ### Bits of `P` (R15) -/

/-- The flags and the break-marker bits of `P`. -/
inductive Flag where
  | c | z | i | d | b | u | v | n
deriving DecidableEq, Repr

/-- The bit of `P` that holds a flag (R15). -/
def Flag.bit : Flag → Nat
  | .c => 0 | .z => 1 | .i => 2 | .d => 3 | .b => 4 | .u => 5 | .v => 6 | .n => 7

/-- The value of a flag in a status byte. -/
def getFlag (p : Byte) (f : Flag) : Bool := p.getLsbD f.bit

/-- A status byte with one flag replaced. -/
def setFlag (f : Flag) (on : Bool) (p : Byte) : Byte :=
  if on then p ||| (1#8 <<< f.bit) else p &&& ~~~(1#8 <<< f.bit)

/-- `setZN(v)` (R180). -/
def setZN (v : Byte) (p : Byte) : Byte := setFlag .n (v.getLsbD 7) (setFlag .z (v == 0) p)

/-- The status byte every push of `P` stores: both break bits 1 (R252, R430). -/
def pushedStatus (p : Byte) : Byte := p ||| 0x30

/-- The status a popped byte becomes: bit 4 masked to 0, bit 5 forced to 1 (R16). -/
def restoredStatus (b : Byte) : Byte := (b &&& 0xEF) ||| 0x20

/-! ### Add and subtract (R183, R184) -/

/-- The 9-bit sum `A + m + C` on unbounded numbers (R183). -/
def addSum (a m : Byte) (carry : Bool) : Nat := a.toNat + m.toNat + carry.toNat

/-- The result byte of ADC (R183). -/
def addResult (a m : Byte) (carry : Bool) : Byte := BitVec.ofNat 8 (addSum a m carry)

/-- `((a ^ r) & (m ^ r) & 0x80) != 0` (R183). -/
def addOverflow (a m r : Byte) : Bool := (a ^^^ r) &&& (m ^^^ r) &&& 0x80 != 0

/-- The status after ADC of `m` (R183): C, V, then Z and N of the result. `P.D` is not read (R17). -/
def addStatus (a m : Byte) (p : Byte) : Byte :=
  let carry := getFlag p .c
  let r := addResult a m carry
  setZN r (setFlag .v (addOverflow a m r) (setFlag .c (decide (addSum a m carry > 0xFF)) p))

/-- SBC is ADC of the one's complement of the operand: `255 - m` (R184). -/
def complement (m : Byte) : Byte := 255 - m

/-! ### Compare and bit test (R188, R192) -/

/-- The status after comparing a register with `m` (R188). -/
def compareStatus (reg m : Byte) (p : Byte) : Byte :=
  setFlag .n ((reg - m).getLsbD 7) (setFlag .z (reg == m) (setFlag .c (decide (m ≤ reg)) p))

/-- The status after BIT of `m` (R192). -/
def bitStatus (a m : Byte) (p : Byte) : Byte :=
  setFlag .n (m.getLsbD 7) (setFlag .v (m.getLsbD 6) (setFlag .z (a &&& m == 0) p))

/-! ### Shifts and rotates (R211 to R214) -/

/-- The result byte and the carry out of a one-bit shift or rotate. -/
structure Shifted where
  result : Byte
  carry  : Bool
deriving DecidableEq, Repr

/-- ASL (R211). -/
def shiftAsl (m : Byte) (_ : Bool) : Shifted := { result := m <<< 1, carry := m.getLsbD 7 }

/-- LSR (R212). -/
def shiftLsr (m : Byte) (_ : Bool) : Shifted := { result := m >>> 1, carry := m.getLsbD 0 }

/-- ROL (R213): the old carry enters bit 0. -/
def shiftRol (m : Byte) (c : Bool) : Shifted :=
  { result := (m <<< 1) ||| (if c then 0x01 else 0x00), carry := m.getLsbD 7 }

/-- ROR (R214): the old carry enters bit 7. -/
def shiftRor (m : Byte) (c : Bool) : Shifted :=
  { result := (m >>> 1) ||| (if c then 0x80 else 0x00), carry := m.getLsbD 0 }

/-- The status after a shift: C, then Z and N of the result (R211 to R214). -/
def shiftStatus (r : Shifted) (p : Byte) : Byte := setZN r.result (setFlag .c r.carry p)

end Sys2Proof.Machine
end

