-- ==== Sys2Proof/Machine/Bus.lean ====
section
/-! DEFINITION. The AddressSpace (spec/20_memory.md): how an address resolves (R61 to R63), the configuration operations
(R64 to R70), components outside the block (R72, R461), and the PPU's access to its bus (spec/47_ppu_registers.md R322,
R323). -/

namespace Sys2Proof.Machine

/-! ### Resolution (R61, R62, R63, R71) -/

/-- The trap that takes an access to an address: the filled slot with the lowest index whose range holds it (R62, R71). -/
def AddressSpace.trapAt {κ : Type} (bus : AddressSpace κ) (a : Addr) : Option (Trap κ) :=
  bus.traps.find? fun t => decide (t.start ≤ a) && decide (a ≤ t.stop)

/-- The byte of a buffer that an untrapped address names through the page table: page `addr >> 8`, offset
`base + ((addr & 0xFF) & mask)` (R62); none if the page is unmapped. -/
def AddressSpace.locate {κ : Type} (bus : AddressSpace κ) (a : Addr) : Option Loc :=
  match atByte bus.pages (hiByte a) with
  | .unmapped => none
  | .mapped buf base mask => some (buf, base + (loByte a &&& mask).toNat)

/-- What an untrapped read of an address returns: the mapped byte, or 0x00 from an unmapped page (R62). -/
def AddressSpace.peek {κ : Type} (bus : AddressSpace κ) (bufs : List Buffer) (a : Addr) : Byte :=
  match bus.locate a with
  | some l => storeRead bufs l
  | none => 0x00

/-- What an untrapped write of an address does to the store: the mapped byte changes, a write to an unmapped page is
discarded (R63). -/
def AddressSpace.poke {κ : Type} (bus : AddressSpace κ) (bufs : List Buffer) (a : Addr) (v : Byte) : List Buffer :=
  match bus.locate a with
  | some l => storeWrite bufs l v
  | none => bufs

/-! ### Components outside the block (R72, R461) -/

/-- A read of a trap owned by a component outside the block: the next ready input, or a free value if none is ready
(R461; 93 part 1 row 21; assumption log 4). -/
def externalRead (context : Nat) (a : Addr) (s : State) : Byte × State :=
  match s.plat.inputs with
  | b :: rest => (b, s.withPlat { s.plat with inputs := rest, extReads := s.plat.extReads + 1 })
  | [] => (Config.externalRead context a s.plat.extReads, s.withPlat { s.plat with extReads := s.plat.extReads + 1 })

/-- A write of a trap owned by a component outside the block: an output event (93 part 1 row 21; assumption log 5). -/
def externalWrite (context : Nat) (a : Addr) (v : Byte) (s : State) : State :=
  s.withPlat { s.plat with outputs := s.plat.outputs ++ [{ context := context, addr := a, value := v }] }

/-! ### PpuBus (R62, R63 on that bus; R322, R323) -/

/-- `MemRead(PpuBus, a, 1)` (R62). -/
def ppuBusRead (a : Addr) (s : State) : Byte × State :=
  match s.ppuBus.trapAt a with
  | some t => externalRead t.context a s
  | none => (s.ppuBus.peek s.bufs a, s)

/-- `MemWrite(PpuBus, a, 1, v)` (R63). -/
def ppuBusWrite (a : Addr) (v : Byte) (s : State) : State :=
  match s.ppuBus.trapAt a with
  | some t => externalWrite t.context a v s
  | none => s.withBufs (s.ppuBus.poke s.bufs a v)

/-- The address the PPU puts on `PpuBus`: 14 bits, the four palette addresses aliased 0x10 lower (R322, R82). -/
def ppuBusAddr (addr : Addr) : Addr :=
  let a := addr &&& 0x3FFF
  if a = 0x3F10 ∨ a = 0x3F14 ∨ a = 0x3F18 ∨ a = 0x3F1C then a - 0x10 else a

/-- `prd(addr)` (R322). -/
def ppuRead (addr : Addr) (s : State) : Byte × State := ppuBusRead (ppuBusAddr addr) s

/-- `pwr(addr, d)` (R323). -/
def ppuWrite (addr : Addr) (d : Byte) (s : State) : State := ppuBusWrite (ppuBusAddr addr) d s

/-! ### Configuration operations (R64 to R70) -/

/-- The page number of an address (R60). -/
def pageOf (a : Addr) : Nat := a.toNat / 256

/-- `srcPages` of R64. -/
def srcPages (len : Nat) : Nat := max 1 ((len + 255) / 256)

/-- `dstPages` of R64. -/
def dstPages (start stop : Addr) : Nat := (stop.toNat - start.toNat + 1) / 256

/-- The page range is aligned and not reversed (R65, R68). -/
def rangeAligned (start stop : Addr) : Bool :=
  decide (start.toNat % 256 = 0) && decide (stop.toNat % 256 = 255) && decide (start.toNat ≤ stop.toNat)

/-- The preconditions of `map` (R65). A buffer of no byte is refused with them: R65 asks "that every masked offset lies
inside the buffer" (DEDUCED, assumption log 10). -/
def mapAllowed (len : Nat) (start stop : Addr) (mask : Byte) : Bool :=
  rangeAligned start stop && decide (dstPages start stop % srcPages len = 0) &&
    (decide (0 < len ∧ len % 256 = 0) || decide (len < 256 ∧ mask.toNat < len))

/-- `page[first + k] <- entry k` for `k` from 0 to `n - 1`. -/
def fillPages (pages : Vector PageEntry 256) (first : Nat) (entry : Nat → PageEntry) : Nat → Vector PageEntry 256
  | 0 => pages
  | n + 1 => (fillPages pages first entry n).setIfInBounds (first + n) (entry n)

/-- `map(buf, start, end, mask)` of a buffer of `len` bytes with handle `buf`, its preconditions met (R64). -/
def AddressSpace.map {κ : Type} (bus : AddressSpace κ) (buf len : Nat) (start stop : Addr) (mask : Byte) :
    AddressSpace κ :=
  let entry := fun k => PageEntry.mapped buf (k % srcPages len * 256) mask
  { bus with pages := fillPages bus.pages (pageOf start) entry (dstPages start stop) }

/-- `unmap(start, end)`, its preconditions met (R68). -/
def AddressSpace.unmap {κ : Type} (bus : AddressSpace κ) (start stop : Addr) : AddressSpace κ :=
  { bus with pages := fillPages bus.pages (pageOf start) (fun _ => .unmapped) (dstPages start stop) }

/-- `mapRegister(start, end, context, callback)` (R69); when the four slots are filled it changes nothing (R70). -/
def AddressSpace.mapRegister {κ : Type} (bus : AddressSpace κ) (t : Trap κ) : AddressSpace κ :=
  if bus.traps.length < Config.trapSlots then { bus with traps := bus.traps ++ [t] } else bus

/-- `mapRegister` would fill a slot with a reversed range, which R25 excludes of a filled slot. With the four slots filled
no slot is written, so a call with a reversed range is then R70's like any other (DESIGN CHOICE, assumption log 11). -/
def AddressSpace.fillsReversed {κ : Type} (bus : AddressSpace κ) (t : Trap κ) : Bool :=
  decide (bus.traps.length < Config.trapSlots) && decide (t.stop < t.start)

end Sys2Proof.Machine
end

