-- ==== Sys2Proof/Machine/PpuRegs.lean ====
section
/-! DEFINITION. The PPU's eight CPU-visible registers (spec/47_ppu_registers.md R300 to R320). -/

namespace Sys2Proof.Machine

/-! ### Fields -/

/-- `renderingEnabled = MASK[3] | MASK[4]` (R352). -/
def Ppu.renderingEnabled (p : Ppu) : Bool := p.mask.getLsbD 3 || p.mask.getLsbD 4

/-- A visible scanline: 0 to 239 (R353). -/
def Ppu.visible (p : Ppu) : Bool := decide (p.scanline ≤ 239)

/-- Rendering is active: background or sprites shown, on a visible or the pre-render scanline (R311). -/
def Ppu.renderingActive (p : Ppu) : Bool := p.renderingEnabled && (p.visible || decide (p.scanline = 261))

/-- The 16-bit address held by a scroll register. -/
def scrollAddr (v : Scroll) : Addr := v.setWidth 16

/-- The data register's increment (R320). -/
def Ppu.increment (p : Ppu) : Scroll := if p.ctrl.getLsbD 2 then 32 else 1

/-- `v <- (v + inc) & 0x7FFF` (R320). -/
def Ppu.advanceV (p : Ppu) : Ppu := { p with v := p.v + p.increment }

/-! ### The eight registers (R302) -/

/-- The registers of the window in the order of R302. -/
inductive PpuReg where
  | ctrl | mask | status | oamAddr | oamData | scroll | addr | data
deriving DecidableEq, Repr

/-- The register an address of the window selects: `a & 7` (R300, R301). -/
def PpuReg.ofAddr (a : Addr) : PpuReg :=
  match a.toNat % 8 with
  | 0 => .ctrl
  | 1 => .mask
  | 2 => .status
  | 3 => .oamAddr
  | 4 => .oamData
  | 5 => .scroll
  | 6 => .addr
  | _ => .data

/-! ### Reads -/

/-- Read of `STATUS` (R307): the three flags, then vblank and the write toggle are cleared. -/
def readStatus (s : State) : Byte × State :=
  (s.ppu.status &&& 0xE0, s.withPpu { s.ppu with status := s.ppu.status &&& 0x7F, w := false })

/-- Read of `OAMDATA` (R310). -/
def readOamData (s : State) : Byte × State :=
  let p := s.ppu
  if p.renderingEnabled && p.visible && decide (1 ≤ p.dot) && decide (p.dot ≤ 64) then (0xFF, s)
  else (atByte p.oam p.oamAddr, s)

/-- Read of `DATA` (R318): palette addresses at once, others through the delay buffer; then the increment. -/
def readData (s : State) : Byte × State :=
  let a := scrollAddr s.ppu.v &&& 0x3FFF
  let (b, s1) := ppuRead a s
  if 0x3F00 ≤ a then (b, s1.withPpu s1.ppu.advanceV)
  else (s1.ppu.readBuffer, s1.withPpu ({ s1.ppu with readBuffer := b } : Ppu).advanceV)

/-- `RegRead(reg)` (R301 to R303): the write-only registers return 0x00 and change nothing. -/
def regRead : PpuReg → State → Byte × State
  | .status, s => readStatus s
  | .oamData, s => readOamData s
  | .data, s => readData s
  | .ctrl, s | .mask, s | .oamAddr, s | .scroll, s | .addr, s => (0x00, s)

/-! ### Writes -/

/-- Write of `CTRL` (R305): `t[11:10] <- d[1:0]`. -/
def writeCtrl (p : Ppu) (d : Byte) : Ppu :=
  { p with ctrl := d, t := (p.t &&& (0x73FF : Scroll)) ||| ((d &&& (3 : Byte)).setWidth 15 <<< 10) }

/-- Write of `OAMDATA` (R311): dropped, the increment included, while rendering is active. -/
def writeOamData (p : Ppu) (d : Byte) : Ppu :=
  if p.renderingActive then p
  else { p with oam := setAtByte p.oam p.oamAddr d, oamAddr := p.oamAddr + 1 }

/-- Write of `SCROLL` (R312). First: `t[4:0] <- d[7:3]`, `x <- d[2:0]`. Second: `t[14:12] <- d[2:0]`,
`t[9:5] <- d[7:3]`. -/
def writeScroll (p : Ppu) (d : Byte) : Ppu :=
  if p.w = false then
    { p with t := (p.t &&& (0x7FE0 : Scroll)) ||| (d >>> 3).setWidth 15, x := d.setWidth 3, w := true }
  else
    { p with t := (p.t &&& (0x0C1F : Scroll)) ||| ((d &&& (7 : Byte)).setWidth 15 <<< 12) ||| ((d >>> 3).setWidth 15 <<< 5), w := false }

/-- Write of `ADDR` (R313). First: `t[13:8] <- d[5:0]`, `t[14] <- 0`. Second: `t[7:0] <- d`, `v <- t`. -/
def writeAddr (p : Ppu) (d : Byte) : Ppu :=
  if p.w = false then
    { p with t := (p.t &&& (0x00FF : Scroll)) ||| ((d &&& (0x3F : Byte)).setWidth 15 <<< 8), w := true }
  else
    let t := (p.t &&& 0x7F00) ||| d.setWidth 15
    { p with t := t, v := t, w := false }

/-- Write of `DATA` (R319): unbuffered, then the increment. -/
def writeData (d : Byte) (s : State) : State :=
  let s1 := ppuWrite (scrollAddr s.ppu.v &&& 0x3FFF) d s
  s1.withPpu s1.ppu.advanceV

/-- `RegWrite(reg, d)` (R301, R302); a write of `STATUS` is ignored (R308). -/
def regWrite : PpuReg → Byte → State → State
  | .ctrl, d, s => s.withPpu (writeCtrl s.ppu d)
  | .mask, d, s => s.withPpu { s.ppu with mask := d }
  | .status, _, s => s
  | .oamAddr, d, s => s.withPpu { s.ppu with oamAddr := d }
  | .oamData, d, s => s.withPpu (writeOamData s.ppu d)
  | .scroll, d, s => s.withPpu (writeScroll s.ppu d)
  | .addr, d, s => s.withPpu (writeAddr s.ppu d)
  | .data, d, s => writeData d s

end Sys2Proof.Machine
end

