-- ==== Sys2Proof/Machine/Ops.lean ====
section
/-! DEFINITION. The CPU's shared operations: register updates, `rd` and `wr` on `CpuBus` with its traps, `fetch`, `push`
and `pop`, `copyOAM`, taking an exception (the error latch and the interrupt entry), the return from interrupt, and
reset. -/

namespace Sys2Proof.Machine

/-- The answer of a meaning. -/
abbrev Result := Host.Outcome State Fault Refusal

/-! ### Register updates (R10 to R22) -/

/-- `A <- v`. -/
def State.setA (s : State) (v : Byte) : State := s.withCpu { s.cpu with a := v }
/-- `X <- v`. -/
def State.setX (s : State) (v : Byte) : State := s.withCpu { s.cpu with x := v }
/-- `Y <- v`. -/
def State.setY (s : State) (v : Byte) : State := s.withCpu { s.cpu with y := v }
/-- `SP <- v`. -/
def State.setSP (s : State) (v : Byte) : State := s.withCpu { s.cpu with sp := v }
/-- `P <- v`. -/
def State.setP (s : State) (v : Byte) : State := s.withCpu { s.cpu with p := v }
/-- `PC <- v`. -/
def State.setPC (s : State) (v : Addr) : State := s.withCpu { s.cpu with pc := v }
/-- `pageCrossed <- v` (R21). -/
def State.setCrossed (s : State) (v : Bool) : State := s.withCpu { s.cpu with pageCrossed := v }
/-- `CYC <- CYC + n` (R485). -/
def State.charge (s : State) (n : Nat) : State := s.withCpu { s.cpu with cyc := s.cpu.cyc + n }
/-- `setZN(v)` on the state's `P` (R180). -/
def State.setZN (s : State) (v : Byte) : State := s.setP (Machine.setZN v s.cpu.p)

/-! ### `rd` and `copyOAM` (R62, R445, R446) -/

/-- The read path of a trap of `CpuBus` (R62, R301, R461). -/
def cpuTrapRead (t : Trap CpuCallback) (a : Addr) (s : State) : Byte × State :=
  match t.callback with
  | .ppuWindow => regRead (PpuReg.ofAddr a) s
  | .oamDma _ | .external => externalRead t.context a s

/-- `rd(a)`: `MemRead(CpuBus, a, 1)` (R62). -/
def cpuRead (a : Addr) (s : State) : Byte × State :=
  match s.cpuBus.trapAt a with
  | some t => cpuTrapRead t a s
  | none => (s.cpuBus.peek s.bufs a, s)

/-- `dest[i] <- b` (R446). -/
def writeDest (dest : CopyDest) (i : Byte) (b : Byte) (s : State) : State :=
  match dest with
  | .oam => s.withPpu { s.ppu with oam := setAtByte s.ppu.oam i b }
  | .buffer h => s.withBufs (storeWrite s.bufs (h, i.toNat) b)

/-- `dest[i] <- rd((highByte << 8) | i)` for the first `n` indexes, ascending (R446). -/
def copyBytes (highByte : Byte) (dest : CopyDest) : Nat → State → State
  | 0, s => s
  | n + 1, s =>
    let s1 := copyBytes highByte dest n s
    let i := BitVec.ofNat 8 n
    let (b, s2) := cpuRead (wordOf highByte i) s1
    writeDest dest i b s2

/-- What `copyOAM` adds to `CYC`: 514 if `CYC` is odd at the call, else 513 (R445). -/
def copyOamCost (cyc : Nat) : Nat := if cyc % 2 = 1 then 514 else 513

/-- `copyOAM(highByte, dest)` (R445, R446). -/
def copyOAM (highByte : Byte) (dest : CopyDest) (s : State) : State :=
  copyBytes highByte dest 256 (s.charge (copyOamCost s.cpu.cyc))

/-! ### `wr` (R63) -/

/-- The write path of a trap of `CpuBus` (R63, R301, R460, R461). R460 gives the DMA trap's write path "on the DMA
register's address" only: a write elsewhere in a wider range goes to the component outside the block that shares the trap
(DESIGN CHOICE, assumption log 22). -/
def cpuTrapWrite (t : Trap CpuCallback) (a : Addr) (v : Byte) (s : State) : State :=
  match t.callback with
  | .ppuWindow => regWrite (PpuReg.ofAddr a) v s
  | .oamDma reg => if a = reg then copyOAM v .oam s else externalWrite t.context a v s
  | .external => externalWrite t.context a v s

/-- `wr(a, v)`: `MemWrite(CpuBus, a, 1, v)` (R63). -/
def cpuWrite (a : Addr) (v : Byte) (s : State) : State :=
  match s.cpuBus.trapAt a with
  | some t => cpuTrapWrite t a v s
  | none => s.withBufs (s.cpuBus.poke s.bufs a v)

/-! ### `fetch`, `push`, `pop` (R112, R18, R19) -/

/-- `fetch()` (R112). -/
def fetch (s : State) : Byte × State :=
  let (b, s1) := cpuRead s.cpu.pc s
  (b, s1.setPC (s1.cpu.pc + 1))

/-- The address a push writes to: `0x0100 | SP` (R12, R18). -/
def stackAddr (sp : Byte) : Addr := wordOf 0x01 sp

/-- `push(v)` (R18). -/
def push (v : Byte) (s : State) : State :=
  let s1 := cpuWrite (stackAddr s.cpu.sp) v s
  s1.setSP (s1.cpu.sp - 1)

/-- `pop()` (R19): the read is at `0x0100 | ((SP + 1) & 0xFF)`. -/
def pop (s : State) : Byte × State :=
  let (b, s1) := cpuRead (stackAddr (s.cpu.sp + 1)) s
  (b, s1.setSP (s1.cpu.sp + 1))

/-- Two reads that make a little-endian word: low byte first (R76, R80). -/
def readWord (lo hi : Addr) (s : State) : Addr × State :=
  let (l, s1) := cpuRead lo s
  let (h, s2) := cpuRead hi s1
  (wordOf h l, s2)

/-- Two pops that make a word: low byte first (R224, R233). -/
def popWord (s : State) : Addr × State :=
  let (l, s1) := pop s
  let (h, s2) := pop s1
  (wordOf h l, s2)

/-- Push a word: high byte first (R223, R430). -/
def pushWord (w : Addr) (s : State) : State := push (loByte w) (push (hiByte w) s)

/-! ### Taking an exception: the error latch (R420 to R422) and the interrupt entry (R430) -/

/-- `raise Error(kind, op)` (R420): the latch is written and nothing else happens; `PC` keeps the value the opcode fetch
left. -/
def raiseError (kind : ErrKind) (op : Byte) (s : State) : State :=
  s.withCpu { s.cpu with errKind := kind, errOpcode := op }

/-- The NMI vector (R81, R430). -/
def vectorNMI : Addr := 0xFFFA
/-- The reset vector (R81, R440). -/
def vectorReset : Addr := 0xFFFC
/-- The IRQ vector (R81, R430). -/
def vectorIRQ : Addr := 0xFFFE

/-- Interrupt entry `enter(vec)` (R430). -/
def enterInterrupt (vec : Addr) (s : State) : State :=
  let s1 := pushWord s.cpu.pc s
  let s2 := push (pushedStatus s1.cpu.p) s1
  let s3 := s2.setP (setFlag .i true s2.cpu.p)
  let (target, s4) := readWord vec (vec + 1) s3
  (s4.setPC target).charge 7

/-- The return from interrupt (R233, R434): pop the status, then `PC` low, then `PC` high. -/
def returnFromInterrupt (s : State) : State :=
  let (b, s1) := pop s
  let s2 := s1.setP (restoredStatus b)
  let (target, s3) := popWord s2
  s3.setPC target

/-- `raiseIRQ()` (R431): honoured only if `P.I` is 0, else dropped. -/
def raiseIRQ (s : State) : State := if getFlag s.cpu.p .i then s else enterInterrupt vectorIRQ s

/-- `raiseNMI()` (R432): unconditional. -/
def raiseNMI (s : State) : State := enterInterrupt vectorNMI s

/-- The value `raiseReset` gives `SP` (R440). -/
def resetSP : Byte := 0xFD

/-- `raiseReset()` (R440) with `RESET_CYCLES` as its parameter. -/
def raiseReset (resetCycles : Nat) (s : State) : State :=
  let s1 := s.withCpu { s.cpu with sp := resetSP, cyc := resetCycles }
  let (target, s2) := readWord vectorReset (vectorReset + 1) s1
  s2.setPC target

end Sys2Proof.Machine
end

