-- ==== Sys2Proof/Machine/Operands.lean ====
section
/-! DEFINITION. Every operand form (spec/30_encoding.md R114 to R125), the access classes (spec/40_load_store_transfer.md
R150, spec/41_arithmetic_logic.md R182) and their costs (spec/70_reset_and_hazards.md R485, R486). `exec` runs after the
operand bytes have been fetched, so `PC` is the address after the instruction (R11). -/

namespace Sys2Proof.Machine

/-! ### Effective addresses -/

/-- Two addresses lie on different pages (R120, R225). -/
def crosses (a b : Addr) : Bool := hiByte a != hiByte b

/-- `ea <- (base + index) & 0xFFFF; pageCrossed <- (ea[15:8] != base[15:8])` (R120, R121, R123). -/
def indexed (base : Addr) (index : Byte) (s : State) : Addr × State :=
  let ea := base + zext16 index
  (ea, s.setCrossed (crosses ea base))

/-- The word a zero-page pointer holds; the step to its high byte wraps within page 0 (R122, R123). -/
def zeroPageWord (z : Byte) (s : State) : Addr × State := readWord (zext16 z) (zext16 (z + 1)) s

/-- The effective address of a memory mode (R116 to R123). -/
def resolve (m : AddrMode) (s : State) : Addr × State :=
  match m with
  | .zp b => (zext16 b, s)
  | .zpx b => (zext16 (b + s.cpu.x), s)
  | .zpy b => (zext16 (b + s.cpu.y), s)
  | .abs w => (w, s)
  | .abx w => indexed w s.cpu.x s
  | .aby w => indexed w s.cpu.y s
  | .izx b => zeroPageWord (b + s.cpu.x) s
  | .izy b =>
    let (base, s1) := zeroPageWord b s
    indexed base s1.cpu.y s1

/-- The target of `JMP` (R221, R222); the pointer of the indirect form wraps within its page (R124). -/
def jumpTarget (t : JumpTarget) (s : State) : Addr × State :=
  match t with
  | .abs w => (w, s)
  | .ind ptr => readWord ptr (wordOf (hiByte ptr) (loByte ptr + 1)) s

/-- The target of a relative branch: `(PC + sext_16(off)) & 0xFFFF`, `PC` being the next instruction's address (R125). -/
def branchTarget (off : Byte) (s : State) : Addr := s.cpu.pc + sext16 off

/-! ### Data accesses -/

/-- The operand of a read-class instruction: the immediate byte, which the operand fetch has already read (R115: "the
same bus read `fetch()` would make"), or `rd(ea)` (R150). -/
def load (src : Source) (s : State) : Byte × State :=
  match src with
  | .imm b => (b, s)
  | .mem m =>
    let (ea, s1) := resolve m s
    cpuRead ea s1

/-! ### Costs (R485, R486; the per-opcode table of R128 and R131 has the same numbers) -/

/-- Base cycles of the read class by operand. -/
def readBase : Source → Nat
  | .imm _ => 2
  | .mem m => match m with
    | .zp _ => 3
    | .zpx _ | .zpy _ => 4
    | .abs _ | .abx _ | .aby _ => 4
    | .izx _ => 6
    | .izy _ => 5

/-- The read-class operands whose opcodes are marked `+`: a page cross costs one cycle more (R127, R128, R131). -/
def pageCrossPenalty : Source → Bool
  | .imm _ => false
  | .mem m => match m with
    | .abx _ | .aby _ | .izy _ => true
    | .zp _ | .zpx _ | .zpy _ | .abs _ | .izx _ => false

/-- Cost of a read-class instruction, given `pageCrossed` (R485). -/
def readCost (src : Source) (crossed : Bool) : Nat :=
  readBase src + (if pageCrossPenalty src && crossed then 1 else 0)

/-- Cost of a write-class instruction (R486); `pageCrossed` is ignored (R150). -/
def writeCost : AddrMode → Nat
  | .zp _ => 3
  | .zpx _ | .zpy _ => 4
  | .abs _ => 4
  | .abx _ | .aby _ => 5
  | .izx _ | .izy _ => 6

/-- Cost of a read-modify-write instruction on memory (R182, R486). The table has zp, zpx, abs and abx only; the values
of the other modes stand for no row (assumption log 15). -/
def rmwCost : AddrMode → Nat
  | .zp _ => 5
  | .zpx _ | .zpy _ => 6
  | .abs _ => 6
  | .abx _ | .aby _ => 7
  | .izx _ | .izy _ => 8

/-! ### Access classes (R150, R182) -/

/-- A read-class instruction: one data read, then `act` on the byte read, then the cost (R150, R485). -/
def readClass (src : Source) (act : Byte → State → State) (s : State) : Result :=
  let (b, s1) := load src s
  .next ((act b s1).charge (readCost src s1.cpu.pageCrossed))

/-- A write-class instruction: one data write of `value`, then the cost (R150, R485). -/
def writeClass (m : AddrMode) (value : State → Byte) (s : State) : Result :=
  let (ea, s1) := resolve m s
  .next ((cpuWrite ea (value s1) s1).charge (writeCost m))

/-- A register-class instruction: no memory access after the opcode fetch, 2 cycles (R150, R486). -/
def registerClass (act : State → State) (s : State) : Result := .next ((act s).charge 2)

/-- A read-modify-write of the byte at `ea`: one read, `status` from the byte read, one write of `result` (R182, R193). -/
def modifyMemory (m : AddrMode) (result : Byte → Byte → Byte) (status : Byte → Byte → Byte) (s : State) : Result :=
  let (ea, s1) := resolve m s
  let (b, s2) := cpuRead ea s1
  let r := result b s2.cpu.p
  .next ((cpuWrite ea r (s2.setP (status b s2.cpu.p))).charge (rmwCost m))

/-- A shift or rotate (R210): of `A` in 2 cycles, or of a byte of memory. -/
def shiftClass (t : Target) (shift : Byte → Bool → Shifted) (s : State) : Result :=
  match t with
  | .acc =>
    let r := shift s.cpu.a (getFlag s.cpu.p .c)
    registerClass (fun s => (s.setP (shiftStatus r s.cpu.p)).setA r.result) s
  | .mem m =>
    modifyMemory m (fun b p => (shift b (getFlag p .c)).result) (fun b p => shiftStatus (shift b (getFlag p .c)) p) s

/-- A conditional branch (R225): 2 cycles, 1 more if taken, 2 more if taken to another page than that of the next
instruction. -/
def branchClass (cond : Bool) (off : Byte) (s : State) : Result :=
  if cond then
    let target := branchTarget off s
    let extra := if crosses target s.cpu.pc then 2 else 1
    .next ((s.setPC target).charge (2 + extra))
  else .next (s.charge 2)

end Sys2Proof.Machine
end

