-- ==== Sys2Proof/Machine/Arith.lean ====
section
/-! DEFINITION. Arithmetic, logic, compare, bit test, increment and decrement (spec/41_arithmetic_logic.md R183 to
R198). -/

namespace Sys2Proof.Machine

/-- `A <- A + m + C` with its flags: the body of ADC (R183), and of SBC on the complemented operand (R184). -/
def addToA (m : Byte) (s : State) : State :=
  (s.setA (addResult s.cpu.a m (getFlag s.cpu.p .c))).setP (addStatus s.cpu.a m s.cpu.p)

/-- ADC (R183). -/
def execAdc (src : Source) (s : State) : Result := readClass src addToA s
/-- SBC (R184). -/
def execSbc (src : Source) (s : State) : Result := readClass src (fun m => addToA (complement m)) s

/-- `A <- v; setZN(A)`: the end of the three logic instructions. -/
def logicToA (v : Byte) (s : State) : State := (s.setA v).setZN v

/-- AND (R185). -/
def execAnd (src : Source) (s : State) : Result := readClass src (fun m s => logicToA (s.cpu.a &&& m) s) s
/-- ORA (R186). -/
def execOra (src : Source) (s : State) : Result := readClass src (fun m s => logicToA (s.cpu.a ||| m) s) s
/-- EOR (R187). -/
def execEor (src : Source) (s : State) : Result := readClass src (fun m s => logicToA (s.cpu.a ^^^ m) s) s

/-- CMP (R189). -/
def execCmp (src : Source) (s : State) : Result :=
  readClass src (fun m s => s.setP (compareStatus s.cpu.a m s.cpu.p)) s
/-- CPX (R190). -/
def execCpx (src : Source) (s : State) : Result :=
  readClass src (fun m s => s.setP (compareStatus s.cpu.x m s.cpu.p)) s
/-- CPY (R191). -/
def execCpy (src : Source) (s : State) : Result :=
  readClass src (fun m s => s.setP (compareStatus s.cpu.y m s.cpu.p)) s
/-- BIT (R192). -/
def execBit (m : AddrMode) (s : State) : Result :=
  readClass (.mem m) (fun b s => s.setP (bitStatus s.cpu.a b s.cpu.p)) s

/-- INC (R193). -/
def execInc (m : AddrMode) (s : State) : Result := modifyMemory m (fun b _ => b + 1) (fun b p => setZN (b + 1) p) s
/-- DEC (R194). -/
def execDec (m : AddrMode) (s : State) : Result := modifyMemory m (fun b _ => b - 1) (fun b p => setZN (b - 1) p) s

/-- INX (R195). -/
def execInx (s : State) : Result := registerClass (fun s => (s.setX (s.cpu.x + 1)).setZN (s.cpu.x + 1)) s
/-- INY (R196). -/
def execIny (s : State) : Result := registerClass (fun s => (s.setY (s.cpu.y + 1)).setZN (s.cpu.y + 1)) s
/-- DEX (R197). -/
def execDex (s : State) : Result := registerClass (fun s => (s.setX (s.cpu.x - 1)).setZN (s.cpu.x - 1)) s
/-- DEY (R198). -/
def execDey (s : State) : Result := registerClass (fun s => (s.setY (s.cpu.y - 1)).setZN (s.cpu.y - 1)) s

end Sys2Proof.Machine
end

