-- ==== Sys2Proof/Machine/Control.lean ====
section
/-! DEFINITION. Jumps, subroutine calls, returns, branches, BRK and the undefined bytes (spec/43_control_flow.md R221 to
R240, spec/60_exceptions.md R420 to R422). -/

namespace Sys2Proof.Machine

/-- The base cycles of JMP: 3 absolute (R221), 5 indirect (R222). -/
def jumpCost : JumpTarget → Nat
  | .abs _ => 3
  | .ind _ => 5

/-- JMP (R221, R222). -/
def execJmp (t : JumpTarget) (s : State) : Result :=
  let (target, s1) := jumpTarget t s
  .next ((s1.setPC target).charge (jumpCost t))

/-- JSR (R223): pushes the address of its own last byte. -/
def execJsr (target : Addr) (s : State) : Result :=
  .next (((pushWord (s.cpu.pc - 1) s).setPC target).charge 6)

/-- RTS (R224). -/
def execRts (s : State) : Result :=
  let (ret, s1) := popWord s
  .next ((s1.setPC (ret + 1)).charge 6)

/-- RTI (R233). -/
def execRti (s : State) : Result := .next ((returnFromInterrupt s).charge 6)

/-- BPL (R226). -/
def execBpl (off : Byte) (s : State) : Result := branchClass (!getFlag s.cpu.p .n) off s
/-- BMI (R227). -/
def execBmi (off : Byte) (s : State) : Result := branchClass (getFlag s.cpu.p .n) off s
/-- BVC (R228). -/
def execBvc (off : Byte) (s : State) : Result := branchClass (!getFlag s.cpu.p .v) off s
/-- BVS (R229). -/
def execBvs (off : Byte) (s : State) : Result := branchClass (getFlag s.cpu.p .v) off s
/-- BCC (R230). -/
def execBcc (off : Byte) (s : State) : Result := branchClass (!getFlag s.cpu.p .c) off s
/-- BCS (R231). -/
def execBcs (off : Byte) (s : State) : Result := branchClass (getFlag s.cpu.p .c) off s
/-- BNE (R232). -/
def execBne (off : Byte) (s : State) : Result := branchClass (!getFlag s.cpu.p .z) off s
/-- BEQ (R234). -/
def execBeq (off : Byte) (s : State) : Result := branchClass (getFlag s.cpu.p .z) off s

/-- BRK (R240, R422): latches `Break`; no cycle is charged. -/
def execBrk (s : State) : Result := .next (raiseError .brk 0x00 s)

/-- A byte without a table entry (R421): latches `UnknownOpcode` with the byte; no cycle is charged. -/
def execUndefined (op : Byte) (s : State) : Result := .next (raiseError .unknownOpcode op s)

end Sys2Proof.Machine
end

