-- ==== Sys2Proof/Machine/LoadStore.lean ====
section
/-! DEFINITION. Load, store and register-transfer instructions (spec/40_load_store_transfer.md R151 to R171). -/

namespace Sys2Proof.Machine

/-- LDA (R151). -/
def execLda (src : Source) (s : State) : Result := readClass src (fun b s => (s.setA b).setZN b) s
/-- LDX (R152). -/
def execLdx (src : Source) (s : State) : Result := readClass src (fun b s => (s.setX b).setZN b) s
/-- LDY (R153). -/
def execLdy (src : Source) (s : State) : Result := readClass src (fun b s => (s.setY b).setZN b) s
/-- LAX (R170): one byte into both `A` and `X`. -/
def execLax (m : AddrMode) (s : State) : Result := readClass (.mem m) (fun b s => ((s.setA b).setX b).setZN b) s

/-- STA (R154). -/
def execSta (m : AddrMode) (s : State) : Result := writeClass m (fun s => s.cpu.a) s
/-- STX (R155). -/
def execStx (m : AddrMode) (s : State) : Result := writeClass m (fun s => s.cpu.x) s
/-- STY (R156). -/
def execSty (m : AddrMode) (s : State) : Result := writeClass m (fun s => s.cpu.y) s
/-- SAX (R171): stores `A & X`. -/
def execSax (m : AddrMode) (s : State) : Result := writeClass m (fun s => s.cpu.a &&& s.cpu.x) s

/-- TAX (R157). -/
def execTax (s : State) : Result := registerClass (fun s => (s.setX s.cpu.a).setZN s.cpu.a) s
/-- TAY (R158). -/
def execTay (s : State) : Result := registerClass (fun s => (s.setY s.cpu.a).setZN s.cpu.a) s
/-- TXA (R159). -/
def execTxa (s : State) : Result := registerClass (fun s => (s.setA s.cpu.x).setZN s.cpu.x) s
/-- TYA (R160). -/
def execTya (s : State) : Result := registerClass (fun s => (s.setA s.cpu.y).setZN s.cpu.y) s
/-- TSX (R162). -/
def execTsx (s : State) : Result := registerClass (fun s => (s.setX s.cpu.sp).setZN s.cpu.sp) s
/-- TXS (R163): the one transfer that leaves the flags alone. -/
def execTxs (s : State) : Result := registerClass (fun s => s.setSP s.cpu.x) s

end Sys2Proof.Machine
end

