-- ==== Sys2Proof/Machine/Shift.lean ====
section
/-! DEFINITION. Shifts and rotates (spec/42_shift_rotate.md R210 to R214). -/

namespace Sys2Proof.Machine

/-- ASL (R211). -/
def execAsl (t : Target) (s : State) : Result := shiftClass t shiftAsl s
/-- LSR (R212). -/
def execLsr (t : Target) (s : State) : Result := shiftClass t shiftLsr s
/-- ROL (R213). -/
def execRol (t : Target) (s : State) : Result := shiftClass t shiftRol s
/-- ROR (R214). -/
def execRor (t : Target) (s : State) : Result := shiftClass t shiftRor s

end Sys2Proof.Machine
end

