-- ==== Sys2Proof/Machine/StackFlags.lean ====
section
/-! DEFINITION. Stack, flag and no-operation instructions (spec/44_stack_flags_nop.md R250 to R272). -/

namespace Sys2Proof.Machine

/-- PHA (R250). -/
def execPha (s : State) : Result := .next ((push s.cpu.a s).charge 3)

/-- PLA (R251). -/
def execPla (s : State) : Result :=
  let (b, s1) := pop s
  .next (((s1.setA b).setZN b).charge 4)

/-- PHP (R252). -/
def execPhp (s : State) : Result := .next ((push (pushedStatus s.cpu.p) s).charge 3)

/-- PLP (R253). -/
def execPlp (s : State) : Result :=
  let (b, s1) := pop s
  .next ((s1.setP (restoredStatus b)).charge 4)

/-- One flag written and nothing else, 2 cycles (spec/44 section 2). -/
def flagClass (f : Flag) (on : Bool) (s : State) : Result := registerClass (fun s => s.setP (setFlag f on s.cpu.p)) s

/-- CLC (R254). -/
def execClc (s : State) : Result := flagClass .c false s
/-- SEC (R255). -/
def execSec (s : State) : Result := flagClass .c true s
/-- CLI (R256). -/
def execCli (s : State) : Result := flagClass .i false s
/-- SEI (R257). -/
def execSei (s : State) : Result := flagClass .i true s
/-- CLV (R258). -/
def execClv (s : State) : Result := flagClass .v false s
/-- CLD (R259). -/
def execCld (s : State) : Result := flagClass .d false s
/-- SED (R260). -/
def execSed (s : State) : Result := flagClass .d true s

/-- NOP: the implied forms only advance `PC` and `CYC` (R270, R271); the forms with an operand make their read-class
access and discard the byte (R272). The opcode byte plays no part. -/
def execNop (_ : Byte) (src : Option Source) (s : State) : Result :=
  match src with
  | none => registerClass id s
  | some src => readClass src (fun _ s => s) s

end Sys2Proof.Machine
end

