-- ==== Sys2Proof/Machine/PpuRender.lean ====
section
/-! DEFINITION. `PPU.tick` (spec/48_ppu_rendering.md R350 to R399): one dot of the dot and scanline machine, in the phase
order of R351. -/

namespace Sys2Proof.Machine

/-! ### The eight sprite slots (R38) -/

/-- Apply `f` to each of the eight slots. -/
def mapSlots (f : SpriteSlot → SpriteSlot) (v : Vector SpriteSlot 8) : Vector SpriteSlot 8 :=
  #v[f v[0], f v[1], f v[2], f v[3], f v[4], f v[5], f v[6], f v[7]]

/-- Apply `f` to slot `k`. -/
def Ppu.setSlot (p : Ppu) (k : Nat) (f : SpriteSlot → SpriteSlot) : Ppu :=
  if h : k < 8 then { p with slots := p.slots.set k (f p.slots[k]) } else p

/-! ### Status edges (R356, R357) -/

/-- A sprite slot with its pattern cleared. -/
def SpriteSlot.clearPattern (k : SpriteSlot) : SpriteSlot := { k with sprLo := 0, sprHi := 0 }

/-- Phase 1: VBlank starts at (241, 1) (R356); the pre-render clear at (261, 1) (R357). -/
def statusEdges (p : Ppu) : Ppu :=
  if p.scanline = 241 ∧ p.dot = 1 then { p with status := p.status ||| 0x80 }
  else if p.scanline = 261 ∧ p.dot = 1 then
    { p with status := p.status &&& 0x1F, slots := mapSlots SpriteSlot.clearPattern p.slots, slot0IsSprite0 := false }
  else p

/-! ### Background pipeline (R360 to R371) -/

/-- The dots on which the background shifters shift (R360). -/
def shiftDot (d : Nat) : Bool := (decide (2 ≤ d) && decide (d ≤ 257)) || (decide (322 ≤ d) && decide (d ≤ 337))

/-- Phase 2a: shift (R360). -/
def bgShift (p : Ppu) : Ppu :=
  if shiftDot p.dot then
    { p with bgShiftLo := p.bgShiftLo <<< 1, bgShiftHi := p.bgShiftHi <<< 1,
             atShiftLo := p.atShiftLo <<< 1, atShiftHi := p.atShiftHi <<< 1 }
  else p

/-- The dots on which the low halves are reloaded (R362). -/
def reloadDot (d : Nat) : Bool :=
  (decide (d % 8 = 1) && decide (9 ≤ d) && decide (d ≤ 257)) || decide (d = 329) || decide (d = 337)

/-- A shifter with its low half replaced (R362). -/
def reloadLow (reg : BitVec 16) (b : Byte) : BitVec 16 := (reg &&& 0xFF00) ||| b.setWidth 16

/-- Phase 2b: reload (R362). -/
def bgReload (p : Ppu) : Ppu :=
  if reloadDot p.dot then
    { p with bgShiftLo := reloadLow p.bgShiftLo p.bgLoLatch, bgShiftHi := reloadLow p.bgShiftHi p.bgHiLatch,
             atShiftLo := reloadLow p.atShiftLo (if p.atLatch.getLsbD 0 then 0xFF else 0x00),
             atShiftHi := reloadLow p.atShiftHi (if p.atLatch.getLsbD 1 then 0xFF else 0x00) }
  else p

/-- The dots of the background fetches (R354). -/
def fetchDot (d : Nat) : Bool := (decide (1 ≤ d) && decide (d ≤ 256)) || (decide (321 ≤ d) && decide (d ≤ 336))

/-- The address of the nametable byte (R363). -/
def nametableAddr (v : Scroll) : Addr := 0x2000 ||| (scrollAddr v &&& 0x0FFF)

/-- The address of the attribute byte (R364). -/
def attributeAddr (v : Scroll) : Addr :=
  let v := scrollAddr v
  (0x23C0 : Addr) ||| (v &&& (0x0C00 : Addr)) ||| ((v >>> 4) &&& (0x38 : Addr)) ||| ((v >>> 2) &&& (0x07 : Addr))

/-- The 2-bit palette number of the tile's quadrant (R364). -/
def attributeBits (v : Scroll) (b : Byte) : Byte :=
  let b1 := if v.getLsbD 6 then b >>> 4 else b
  let b2 := if v.getLsbD 1 then b1 >>> 2 else b1
  b2 &&& 3

/-- `patAddr` (R366). -/
def patternAddr (p : Ppu) : Addr :=
  (if p.ctrl.getLsbD 4 then (0x1000 : Addr) else 0x0000) ||| (p.ntLatch.setWidth 16 <<< 4) ||| (scrollAddr p.v >>> 12)

/-- Phase 2c: the fetch step of this dot (R363 to R367). -/
def bgFetch (s : State) : State :=
  if fetchDot s.ppu.dot then
    match s.ppu.dot % 8 with
    | 1 =>
      let (b, s1) := ppuRead (nametableAddr s.ppu.v) s
      s1.withPpu { s1.ppu with ntLatch := b }
    | 3 =>
      let (b, s1) := ppuRead (attributeAddr s.ppu.v) s
      s1.withPpu { s1.ppu with atLatch := attributeBits s.ppu.v b }
    | 5 =>
      let (b, s1) := ppuRead (patternAddr s.ppu) s
      s1.withPpu { s1.ppu with bgLoLatch := b }
    | 7 =>
      let (b, s1) := ppuRead (patternAddr s.ppu + 8) s
      s1.withPpu { s1.ppu with bgHiLatch := b }
    | _ => s
  else s

/-- The coarse-X increment (R368). -/
def incCoarseX (v : Scroll) : Scroll :=
  if v &&& 0x001F = 0x001F then (v &&& 0x7FE0) ^^^ 0x0400 else v + 1

/-- The fine-Y increment (R369). -/
def incFineY (v : Scroll) : Scroll :=
  if v &&& 0x7000 ≠ 0x7000 then v + 0x1000
  else
    let v := v &&& 0x0FFF
    if v &&& 0x03E0 = 0x03A0 then (v &&& 0x0C1F) ^^^ 0x0800
    else if v &&& 0x03E0 = 0x03E0 then v &&& 0x0C1F
    else v + 0x0020

/-- The horizontal copy (R370). -/
def copyHorizontal (v t : Scroll) : Scroll := (v &&& 0x7BE0) ||| (t &&& 0x041F)

/-- The vertical copy (R371). -/
def copyVertical (v t : Scroll) : Scroll := (v &&& 0x041F) ||| (t &&& 0x7BE0)

/-- The dots of the coarse-X increment (R368). -/
def coarseXDot (d : Nat) : Bool :=
  (decide (d % 8 = 0) && decide (8 ≤ d) && decide (d ≤ 256)) || decide (d = 328) || decide (d = 336)

/-- Phase 2d: increments and copies of `v`, in the order coarse X, fine Y, horizontal, vertical (R351, R368 to R371). -/
def updateV (p : Ppu) : Ppu :=
  let v1 := if coarseXDot p.dot then incCoarseX p.v else p.v
  let v2 := if p.dot = 256 then incFineY v1 else v1
  let v3 := if p.dot = 257 then copyHorizontal v2 p.t else v2
  let v4 := if p.scanline = 261 ∧ 280 ≤ p.dot ∧ p.dot ≤ 304 then copyVertical v3 p.t else v3
  { p with v := v4 }

/-! ### Sprites (R375 to R387) -/

/-- One slot's update: count the delay down, or shift (R387). -/
def SpriteSlot.update (k : SpriteSlot) : SpriteSlot :=
  if k.sprX ≠ 0 then { k with sprX := k.sprX - 1 }
  else { k with sprLo := k.sprLo <<< 1, sprHi := k.sprHi <<< 1 }

/-- Phase 2e: sprite slot update on dots 2 to 256 of a visible line (R387). -/
def spriteUpdate (p : Ppu) : Ppu :=
  if p.visible ∧ 2 ≤ p.dot ∧ p.dot ≤ 256 then { p with slots := mapSlots SpriteSlot.update p.slots } else p

/-- Phase 4a: secondary OAM clear on dots 1 to 64 (R375). -/
def secondaryClear (p : Ppu) : Ppu :=
  if 1 ≤ p.dot ∧ p.dot ≤ 64 then { p with secondaryOam := p.secondaryOam.setIfInBounds ((p.dot - 1) / 2) 0xFF } else p

/-- `h` of R378: the sprite height. -/
def Ppu.spriteHeight (p : Ppu) : Nat := if p.ctrl.getLsbD 5 then 16 else 8

/-- Byte `j` of primary OAM entry `n` (R36). -/
def Ppu.oamByte (p : Ppu) (n j : Nat) : Byte := p.oam.toList.getD (4 * n + j) 0

/-- Byte `j` of secondary OAM entry `k` (R37). -/
def Ppu.secByte (p : Ppu) (k j : Nat) : Byte := p.secondaryOam.toList.getD (4 * k + j) 0

/-- Entry `n`'s Y range includes the scanline (R378). -/
def Ppu.spriteInRange (p : Ppu) (n : Nat) : Bool :=
  let y := (p.oamByte n 0).toNat
  decide (y ≤ p.scanline) && decide (p.scanline < y + p.spriteHeight)

/-- Copy primary entry `n` into secondary entry `k`. -/
def copyEntry (p : Ppu) (n k : Nat) : Vector Byte 32 :=
  (((p.secondaryOam.setIfInBounds (4 * k) (p.oamByte n 0)).setIfInBounds (4 * k + 1) (p.oamByte n 1)).setIfInBounds
    (4 * k + 2) (p.oamByte n 2)).setIfInBounds (4 * k + 3) (p.oamByte n 3)

/-- One step of the evaluation's scan (R378). -/
def evalEntry (p : Ppu) (n : Nat) : Ppu :=
  if p.spriteInRange n ∧ p.secCount < 8 then
    { p with secondaryOam := copyEntry p n p.secCount, secCount := p.secCount + 1,
             secHasSprite0 := p.secHasSprite0 || decide (n = 0) }
  else p

/-- The scan of the first `n` entries, ascending (R378). -/
def evalEntries : Nat → Ppu → Ppu
  | 0, p => p
  | n + 1, p => evalEntry (evalEntries n p) n

/-- Phase 4b: sprite evaluation on dot 256 (R378). -/
def spriteEvaluation (p : Ppu) : Ppu :=
  if p.dot = 256 then evalEntries 64 { p with secCount := 0, secHasSprite0 := false } else p

/-- `sprAddr(k)` (R383). -/
def spriteAddr (p : Ppu) (k : Nat) : Addr :=
  let tile := p.secByte k 1
  let row0 := BitVec.ofNat 8 p.scanline - p.secByte k 0
  let row := if (p.secByte k 2).getLsbD 7 then BitVec.ofNat 8 (p.spriteHeight - 1) - row0 else row0
  let line := (row &&& 7).setWidth 16
  if p.spriteHeight = 8 then
    (if p.ctrl.getLsbD 3 then (0x1000 : Addr) else 0x0000) ||| (tile.setWidth 16 <<< 4) ||| line
  else
    let half := (tile &&& 0xFE) + (if row.getLsbD 3 then 1 else 0)
    (if tile.getLsbD 0 then (0x1000 : Addr) else 0x0000) ||| (half.setWidth 16 <<< 4) ||| line

/-- `flipH?(b)`: the byte with its bits reversed when attribute bit 6 is 1 (R380). -/
def flipH (attr : Byte) (b : Byte) : Byte := if attr.getLsbD 6 then b.reverse else b

/-- Dot 262 + 8k: pattern low, attributes and x of slot `k`; an empty slot makes no bus access (R380, R385). -/
def fetchSpriteLow (k : Nat) (s : State) : State :=
  if k < s.ppu.secCount then
    let attr := s.ppu.secByte k 2
    let x := s.ppu.secByte k 3
    let (b, s1) := ppuRead (spriteAddr s.ppu k) s
    s1.withPpu (s1.ppu.setSlot k fun slot => { slot with sprLo := flipH attr b, sprAttr := attr, sprX := x })
  else s.withPpu (s.ppu.setSlot k fun slot => { slot with sprLo := 0, sprAttr := 0, sprX := 0 })

/-- Dot 264 + 8k: pattern high of slot `k` (R380, R385). -/
def fetchSpriteHigh (k : Nat) (s : State) : State :=
  if k < s.ppu.secCount then
    let (b, s1) := ppuRead (spriteAddr s.ppu k + 8) s
    s1.withPpu (s1.ppu.setSlot k fun slot => { slot with sprHi := flipH (s.ppu.secByte k 2) b })
  else s.withPpu (s.ppu.setSlot k fun slot => { slot with sprHi := 0 })

/-- Phase 4c: the sprite fetch step of this dot (R380). -/
def spriteFetch (s : State) : State :=
  let d := s.ppu.dot
  if d = 257 then s.withPpu { s.ppu with slot0IsSprite0 := s.ppu.secHasSprite0 }
  else if 262 ≤ d ∧ d ≤ 318 ∧ d % 8 = 6 then fetchSpriteLow ((d - 262) / 8) s
  else if 264 ≤ d ∧ d ≤ 320 ∧ d % 8 = 0 then fetchSpriteHigh ((d - 264) / 8) s
  else s

/-! ### Pixel output (R390 to R398) -/

/-- A 2-bit number from its high and low bit. -/
def twoBits (hi lo : Bool) : BitVec 2 := (if hi then 2 else 0) ||| (if lo then 1 else 0)

/-- A layer's pixel: its 2-bit value (0 is transparent) and its palette. -/
structure BgPixel where
  pix : BitVec 2
  pal : BitVec 2
deriving DecidableEq, Repr

/-- The background pixel at screen column `px` (R392). -/
def bgPixel (p : Ppu) (px : Nat) : BgPixel :=
  if p.mask.getLsbD 3 && (decide (8 ≤ px) || p.mask.getLsbD 1) then
    let b := 15 - p.x.toNat
    { pix := twoBits (p.bgShiftHi.getLsbD b) (p.bgShiftLo.getLsbD b),
      pal := twoBits (p.atShiftHi.getLsbD b) (p.atShiftLo.getLsbD b) }
  else { pix := 0, pal := 0 }

/-- The sprite layer's pixel (R393). -/
structure SpritePixel where
  pix     : BitVec 2
  pal     : BitVec 2
  behind  : Bool
  isZero  : Bool
deriving DecidableEq, Repr

/-- The pixel a slot shows now. -/
def SpriteSlot.pix (k : SpriteSlot) : BitVec 2 := twoBits (k.sprHi.getLsbD 7) (k.sprLo.getLsbD 7)

/-- The slot shows an opaque pixel now (R393). -/
def SpriteSlot.opaquePixel (k : SpriteSlot) : Bool := decide (k.sprX = 0) && decide (k.pix ≠ 0)

/-- The first slot, by index from `i`, that shows an opaque pixel (R393: "lowest slot wins"). -/
def firstOpaque : List SpriteSlot → Nat → Option (Nat × SpriteSlot)
  | [], _ => none
  | k :: rest, i => if k.opaquePixel then some (i, k) else firstOpaque rest (i + 1)

/-- The sprite pixel at screen column `px` (R393). -/
def spritePixel (p : Ppu) (px : Nat) : SpritePixel :=
  if p.mask.getLsbD 4 && (decide (8 ≤ px) || p.mask.getLsbD 2) then
    match firstOpaque p.slots.toList 0 with
    | some (i, k) => { pix := k.pix, pal := k.sprAttr.setWidth 2, behind := k.sprAttr.getLsbD 5,
                       isZero := decide (i = 0) && p.slot0IsSprite0 }
    | none => { pix := 0, pal := 0, behind := false, isZero := false }
  else { pix := 0, pal := 0, behind := false, isZero := false }

/-- The palette entry of a layer: `(pal << 2) | pix`. -/
def paletteEntry (pal pix : BitVec 2) : BitVec 5 := (pal.setWidth 5 <<< 2) ||| pix.setWidth 5

/-- The compositor's priority rule: the palette entry `idx` of the output pixel (R394). -/
def composite (bg : BgPixel) (sp : SpritePixel) : BitVec 5 :=
  if sp.pix = 0 then (if bg.pix = 0 then 0 else paletteEntry bg.pal bg.pix)
  else if bg.pix = 0 then 0x10 ||| paletteEntry sp.pal sp.pix
  else if sp.behind then paletteEntry bg.pal bg.pix
  else 0x10 ||| paletteEntry sp.pal sp.pix

/-- Sprite-zero hit at this pixel (R396). -/
def spriteZeroHit (bg : BgPixel) (sp : SpritePixel) : Bool := decide (bg.pix ≠ 0) && decide (sp.pix ≠ 0) && sp.isZero

/-- The address of a palette entry (R397). -/
def paletteAddr (idx : BitVec 5) : Addr := 0x3F00 ||| idx.setWidth 16

/-- Phase 3: one pixel on dots 1 to 256 of a visible line (R390 to R398): the hit flag, the colour number looked up
through `prd`, the frame-buffer write at `y * 256 + x`. -/
def pixelOutput (s : State) : State :=
  let p := s.ppu
  if p.visible ∧ 1 ≤ p.dot ∧ p.dot ≤ 256 then
    let px := p.dot - 1
    let bg := bgPixel p px
    let sp := spritePixel p px
    let (b, s1) := ppuRead (paletteAddr (composite bg sp)) s
    s1.withPpu { s1.ppu with
      status := if spriteZeroHit bg sp then s1.ppu.status ||| 0x40 else s1.ppu.status,
      frameBuffer := s1.ppu.frameBuffer.setIfInBounds (p.scanline * 256 + px) (b.setWidth 6) }
  else s

/-- The 32-bit word of a pixel as the host reads it: `PACK_RGB(PALETTE_RGB(c))` (R39, R397, R398). -/
def Ppu.pixelWord (p : Ppu) (i : Fin 61440) : BitVec 32 := Config.packRgb (Config.paletteRgb (p.frameBuffer[i]))

/-! ### Counters (R358) and the tick (R350, R351) -/

/-- The length of the current scanline: 340 on the pre-render line of odd frames, else 341 (R358). -/
def Ppu.lineLength (p : Ppu) : Nat := if p.scanline = 261 ∧ p.frame % 2 = 1 then 340 else 341

/-- Phase 5: advance the counters (R358). -/
def advanceCounters (p : Ppu) : Ppu :=
  if p.dot + 1 = p.lineLength then
    if p.scanline + 1 = 262 then { p with dot := 0, scanline := 0, frame := p.frame + 1 }
    else { p with dot := 0, scanline := p.scanline + 1 }
  else { p with dot := p.dot + 1 }

/-- Phase 2, when rendering is enabled on a visible or the pre-render line (R351). -/
def backgroundPhase (s : State) : State :=
  if s.ppu.renderingActive then
    let s1 := bgFetch (s.withPpu (bgReload (bgShift s.ppu)))
    s1.withPpu (spriteUpdate (updateV s1.ppu))
  else s

/-- Phase 4, when rendering is enabled on a visible line (R351). -/
def spritePhase (s : State) : State :=
  if s.ppu.renderingEnabled && s.ppu.visible then
    spriteFetch (s.withPpu (spriteEvaluation (secondaryClear s.ppu)))
  else s

/-- The position (241, 1), whose tick returns `true` (R350, R356). -/
def Ppu.atVBlankEdge (p : Ppu) : Bool := decide (p.scanline = 241) && decide (p.dot = 1)

/-- `PPU.tick()` (R350, R351): process the stored position, then advance it. -/
def ppuTick (s : State) : Bool × State :=
  let s1 := s.withPpu (statusEdges s.ppu)
  let s2 := spritePhase (pixelOutput (backgroundPhase s1))
  (s.ppu.atVBlankEdge, s2.withPpu (advanceCounters s2.ppu))

end Sys2Proof.Machine
end

