-- ==== Sys2Proof/Machine/HostOps.lean ====
section
/-! DEFINITION. The host operations (spec/00_scope.md R6, spec/60_exceptions.md) as the System Machine issues them between
transitions, and the boot scripts of R475 and R89. -/

namespace Sys2Proof.Machine

/-- `PPU.tick` as a transition (R6): the host counts the dot (R458). Whether the tick returned `true` is `(ppuTick s).1`. -/
def countedTick (s : State) : State :=
  let s1 := (ppuTick s).2
  s1.withPlat { s1.plat with ppuDots := s1.plat.ppuDots + 1 }

/-- An NMI request among the pending transitions: `raiseNMI` "before the next `CPU.step`" (R456), after the host
operations that stand before that step (DESIGN CHOICE, assumption log 8). -/
def requestNMI : List Transition → List Transition
  | [] => [.raiseNMI]
  | .cpuStep :: rest => .raiseNMI :: .cpuStep :: rest
  | t :: rest => t :: requestNMI rest

/-- A PPU tick as the orchestrator makes it (R456): at the vblank edge, if `CTRL[7]` is 1 right after the tick, it requests
the NMI, which is a transition of its own (R6). -/
def systemTick (s : State) : State :=
  let s1 := countedTick s
  if (ppuTick s).1 && s1.ppu.ctrl.getLsbD 7 then
    s1.withPlat { s1.plat with pending := requestNMI s1.plat.pending }
  else s1

/-- `raiseReset` as the host calls it: its dot counter is set with `CYC` (R440, R458). -/
def hostReset (resetCycles : Nat) (s : State) : State :=
  let s1 := raiseReset resetCycles s
  s1.withPlat { s1.plat with ppuDots := 3 * resetCycles }

/-- The destination exists and has the 256 bytes `copyOAM` writes (R446). -/
def destOk (bufs : List Buffer) : CopyDest → Bool
  | .oam => true
  | .buffer h => match bufs[h]? with
    | some b => decide (256 ≤ b.len)
    | none => false

/-- `map` on one of the two buses (R64, R65): refused when a precondition is violated. -/
def hostMap (bus : Bus) (buf : Nat) (start stop : Addr) (mask : Byte) (s : State) : Result :=
  match s.bufs[buf]? with
  | none => .refused .noSuchBuffer
  | some b =>
    if mapAllowed b.len start stop mask then
      match bus with
      | .cpu => .next (s.withCpuBus (s.cpuBus.map buf b.len start stop mask))
      | .ppu => .next (s.withPpuBus (s.ppuBus.map buf b.len start stop mask))
    else .refused .mapPrecondition

/-- `unmap` on one of the two buses (R68): refused when a precondition is violated. -/
def hostUnmap (bus : Bus) (start stop : Addr) (s : State) : Result :=
  if rangeAligned start stop then
    match bus with
    | .cpu => .next (s.withCpuBus (s.cpuBus.unmap start stop))
    | .ppu => .next (s.withPpuBus (s.ppuBus.unmap start stop))
  else .refused .unmapPrecondition

/-- `mapRegister` on `CpuBus` (R69, R70); a reversed range is refused when it would fill a slot (R25, assumption log 11). -/
def hostMapCpuRegister (t : Trap CpuCallback) (s : State) : Result :=
  if s.cpuBus.fillsReversed t then .refused .trapRange else .next (s.withCpuBus (s.cpuBus.mapRegister t))

/-- `mapRegister` on `PpuBus` (R69, R70); a reversed range is refused when it would fill a slot (R25, assumption log 11). -/
def hostMapPpuRegister (t : Trap PpuCallback) (s : State) : Result :=
  if s.ppuBus.fillsReversed t then .refused .trapRange else .next (s.withPpuBus (s.ppuBus.mapRegister t))

/-- The platform writes one byte of a buffer it owns (R26, R455). -/
def hostWriteBuffer (buf off : Nat) (b : Byte) (s : State) : Result :=
  match s.bufs[buf]? with
  | some bf => if off < bf.len then .next (s.withBufs (storeWrite s.bufs (buf, off) b)) else .refused .noSuchBuffer
  | none => .refused .noSuchBuffer

/-! ### Boot scripts -/

/-- The PPU window registration (R300, R459) with the default `PPU_REG_BASE`. -/
def registerPpuWindow : Transition :=
  .mapCpuRegister Config.ppuRegBase (Config.ppuRegBase + 31) 0 .ppuWindow

/-- The DMA register's trap (R460). -/
def registerOamDma : Transition := .mapCpuRegister Config.oamDmaAddr Config.oamDmaAddr 0 (.oamDma Config.oamDmaAddr)

/-- `raiseReset` with the default `RESET_CYCLES` (R5, R440). -/
def defaultReset : Transition := .raiseReset Config.resetCycles

/-- The reference platform of R89 from power-on: 64 KB of RAM on `CpuBus` (handle 0); patterns (1), nametables (2) and
palette (3) on `PpuBus`. -/
def referencePlatform : List Transition :=
  [.createBuffer 65536, .createBuffer 8192, .createBuffer 4096, .createBuffer 32,
   .map .cpu 0 0x0000 0xFFFF 0xFF, .map .ppu 1 0x0000 0x1FFF 0xFF, .map .ppu 2 0x2000 0x2FFF 0xFF,
   .map .ppu 3 0x3F00 0x3FFF 0x1F]

end Sys2Proof.Machine
end

