-- ==== Sys2Proof/Machine/Schedule.lean ====
section
/-! DEFINITION. `CPU.step` (spec/30_encoding.md R111), the reference schedule (spec/60_exceptions.md R458), and placing an
instruction where the CPU fetches. -/

namespace Sys2Proof.Machine

/-! ### `CPU.step` (R111, R423) -/

/-- The start of a step: `instrPC <- PC; pageCrossed <- 0` (R111). -/
def beginStep (s : State) : State := s.withCpu { s.cpu with instrPC := s.cpu.pc, pageCrossed := false }

/-- Fetch one instruction: the opcode byte, then as many operand bytes as its format has, in ascending order (R80, R110,
R111); an undefined byte and BRK have no operand fetched (R420). -/
def fetchInstr (s : State) : Instr × State :=
  let (op, s1) := fetch s
  match opcodeForm op with
  | .f1 i => (i, s1)
  | .f2 f =>
    let (b, s2) := fetch s1
    (f b, s2)
  | .f3 f =>
    let (lo, s2) := fetch s1
    let (hi, s3) := fetch s2
    (f (wordOf hi lo), s3)

/-- The error latch is set (R22). -/
def State.hasError (s : State) : Bool := decide (s.cpu.errKind ≠ .none)

/-- `CPU.step()` (R111): one whole instruction; on a halted CPU it changes nothing (R423). -/
def cpuStep (s : State) : Result :=
  if s.hasError then .next s
  else
    let (i, s1) := fetchInstr (beginStep s)
    exec i s1

/-! ### The schedule (R6, R458) -/

/-- One transition issued by the System Machine (R6). -/
def issue (t : Transition) (s : State) : Result :=
  match t with
  | .cpuStep => cpuStep s
  | .ppuTick => .next (countedTick s)
  | .systemTick => .next (systemTick s)
  | .raiseIRQ => .next (raiseIRQ s)
  | .raiseNMI => .next (raiseNMI s)
  | .raiseReset n => .next (hostReset n s)
  | .copyOAM h dest => if destOk s.bufs dest then .next (copyOAM h dest s) else .refused .noSuchBuffer
  | .map bus buf start stop mask => hostMap bus buf start stop mask s
  | .unmap bus start stop => hostUnmap bus start stop s
  | .mapCpuRegister start stop context callback =>
    hostMapCpuRegister { start := start, stop := stop, context := context, callback := callback } s
  | .mapPpuRegister start stop context =>
    hostMapPpuRegister { start := start, stop := stop, context := context, callback := .external } s
  | .forcePC pc => .next (s.setPC pc)
  | .createBuffer len => .next (s.withBufs (s.bufs ++ [Buffer.zero len]))
  | .writeBuffer buf off b => hostWriteBuffer buf off b s

/-- One turn of the loop of R458: on an error nothing more is issued, a CPU step when the PPU has caught up, else a tick,
whose NMI, if the edge requests one, is then the next turn. -/
def referenceTurn (s : State) : Result :=
  if s.hasError then .next s
  else if 3 * s.cpu.cyc ≤ s.plat.ppuDots then cpuStep s
  else .next (systemTick s)

/-- One transition (R6): the oldest one the System Machine has pending, else the reference schedule's. -/
def transition (s : State) : Result :=
  match s.plat.pending with
  | [] => referenceTurn s
  | t :: rest => issue t (s.withPlat { s.plat with pending := rest })

/-! ### Placing an instruction where the CPU fetches -/

/-- `CpuBus` shows this address as a plain byte of a buffer: mapped with the full mask, inside an existing buffer. -/
def State.plainPage (s : State) (a : Addr) : Bool :=
  match atByte s.cpuBus.pages (hiByte a) with
  | .unmapped => false
  | .mapped buf base mask =>
    match s.bufs[buf]? with
    | some b => decide (mask = 0xFF) && decide (base + 256 ≤ b.len)
    | none => false

/-- Make an address readable as a plain byte: traps that cover it go, and a page that is not plain becomes a fresh
256-byte buffer. -/
def makePlain (a : Addr) (s : State) : State :=
  let s1 := s.withCpuBus { s.cpuBus with traps := s.cpuBus.traps.filter fun t => !(decide (t.start ≤ a) && decide (a ≤ t.stop)) }
  if s1.plainPage a then s1
  else (s1.withBufs (s1.bufs ++ [Buffer.zero 256])).withCpuBus
    { s1.cpuBus with pages := setAtByte s1.cpuBus.pages (hiByte a) (.mapped s1.bufs.length 0 0xFF) }

/-- Place bytes at ascending addresses. -/
def placeBytes : List Byte → Addr → State → State
  | [], _, s => s
  | b :: rest, a, s =>
    let s1 := makePlain a s
    placeBytes rest (a + 1) (s1.withBufs (s1.cpuBus.poke s1.bufs a b))

/-- The CPU is the next to move and is not halted: nothing pending, the PPU caught up, no error latched. -/
def readyToStep (s : State) : State :=
  (s.withPlat { s.plat with pending := [], ppuDots := max s.plat.ppuDots (3 * s.cpu.cyc) }).withCpu
    { s.cpu with errKind := .none, errOpcode := if s.hasError then 0 else s.cpu.errOpcode }

/-- The state with the instruction whose bits are `w` (bits above `nbits` zero) at `PC` and the CPU next to step. -/
def loadInstruction (s : State) (nbits w : Nat) : State :=
  placeBytes (bytesOf (w % 2 ^ nbits)) s.cpu.pc (readyToStep s)

end Sys2Proof.Machine
end

