-- ==== Sys2Proof/Machine/Step.lean ====
section
/-! DEFINITION. One step of the machine: exactly one transition of spec/00_scope.md R6. -/

namespace Sys2Proof.Machine

/-- One transition: the oldest pending one of the System Machine, else the one the reference schedule of R458 issues. -/
def step (s : State) : Host.Outcome State Fault Refusal := transition s

/-- The state in which the very next step fetches and runs the instruction whose bits are `w` (assumption log 1). -/
def State.withFetchWord (s : State) (nbits w : Nat) : State := loadInstruction s nbits w

end Sys2Proof.Machine
end

