-- ==== Sys2Proof/Safety.lean ====
section
/-! DEFINITION. The vocabulary of claims: which place of the buffers an access reaches, what it means that flags or memory
are kept, and the invariant of the machine. The block has no unsafe run: no instruction stops, and only a host operation
with a violated precondition is refused (spec/60_exceptions.md R424). -/

namespace Sys2Proof.Machine

/-! ### Flags and memory -/

/-- Every bit of the status register but those of the listed flags is the same in `p` and `q` (all eight bits, R15). -/
def FlagsKept (changed : List Flag) (p q : Byte) : Prop := ∀ f : Flag, f ∉ changed → getFlag q f = getFlag p f

/-- Every byte of every buffer but the one at `dest` is the same in `s` and `t`, and no buffer changes its length: all of
memory, since memory is the bytes of the buffers (R26). -/
def MemoryKeptBut (dest : Option Loc) (s t : State) : Prop :=
  (∀ l : Loc, some l ≠ dest → storeRead t.bufs l = storeRead s.bufs l) ∧
    t.bufs.map Buffer.len = s.bufs.map Buffer.len

/-- Neither AddressSpace is reconfigured (R83: no instruction changes the page table). -/
def BusesKept (s t : State) : Prop := t.cpuBus = s.cpuBus ∧ t.ppuBus = s.ppuBus

/-- The place of the buffers that `wr(a, v)` changes: the mapped byte if `a` is untrapped; behind the PPU's `DATA`
register the byte of video memory that `v` names; none for every other trap (R63, R301, R319, R323). -/
def cpuStoreLoc (s : State) (a : Addr) : Option Loc :=
  match s.cpuBus.trapAt a with
  | none => s.cpuBus.locate a
  | some t =>
    match t.callback, PpuReg.ofAddr a with
    | .ppuWindow, .data =>
      let b := ppuBusAddr (scrollAddr s.ppu.v &&& 0x3FFF)
      match s.ppuBus.trapAt b with
      | none => s.ppuBus.locate b
      | some _ => none
    | _, _ => none

/-! ### Addresses that are plain memory -/

/-- No trap of `CpuBus` covers the address. -/
def State.untrapped (s : State) (a : Addr) : Prop := s.cpuBus.trapAt a = none

/-- The byte `CpuBus` shows at an untrapped address (R62). -/
def State.byteAt (s : State) (a : Addr) : Byte := s.cpuBus.peek s.bufs a

/-- The little-endian word `CpuBus` shows at two untrapped addresses (R76). -/
def State.wordAt (s : State) (lo hi : Addr) : Addr := wordOf (s.byteAt hi) (s.byteAt lo)

/-- The next `n` bytes as `fetch` reads them one after the other, and the state after them (R80, R112). -/
def fetches : Nat → State → List Byte × State
  | 0, s => ([], s)
  | n + 1, s =>
    let (b, s1) := fetch s
    let (rest, s2) := fetches n s1
    (b :: rest, s2)

/-- The page-0 addresses an operand's pointer occupies, low byte first: two for `izx` and `izy`, none for the other modes
(R122, R123). -/
def pointerAddrs (m : AddrMode) (s : State) : List Addr :=
  match m with
  | .izx b => [zext16 (b + s.cpu.x), zext16 (b + s.cpu.x + 1)]
  | .izy b => [zext16 b, zext16 (b + 1)]
  | .zp _ | .zpx _ | .zpy _ | .abs _ | .abx _ | .aby _ => []

/-- A place inside an existing buffer. -/
def inStore (bufs : List Buffer) (l : Loc) : Prop := ∃ b, bufs[l.1]? = some b ∧ l.2 < b.len

/-- The address is readable and writable memory: no trap covers it and its page is mapped into an existing buffer. -/
def State.isMemory (s : State) (a : Addr) : Prop :=
  s.untrapped a ∧ ∃ l, s.cpuBus.locate a = some l ∧ inStore s.bufs l

/-- Page 1 is a stack: every address of it is memory, and no two of them are the same byte. -/
def State.hasStack (s : State) : Prop :=
  (∀ sp : Byte, s.isMemory (stackAddr sp)) ∧
    ∀ a b : Byte, s.cpuBus.locate (stackAddr a) = s.cpuBus.locate (stackAddr b) → a = b

/-! ### What the forms of one access class have in common -/

/-- `q` is the status `p` with Z and N set from `v` and every other bit kept (R180). -/
def ZNFrom (v p q : Byte) : Prop :=
  getFlag q .z = decide (v = 0) ∧ getFlag q .n = v.getLsbD 7 ∧ FlagsKept [.z, .n] p q

/-- `t` follows `s` by a read-class instruction on `src` that leaves the CPU registers `c`: `pageCrossed` as the address
computation left it, the cost added, everything outside the CPU as the one operand access left it; memory and both
AddressSpaces are as before, and an immediate operand changes nothing outside the CPU (R150, R485). -/
def AfterRead (src : Source) (s t : State) (c : Cpu) : Prop :=
  let s1 := (load src s).2
  t = s1.withCpu { c with pageCrossed := s1.cpu.pageCrossed, cyc := c.cyc + readCost src s1.cpu.pageCrossed } ∧
    t.bufs = s.bufs ∧ BusesKept s t ∧ (∀ b, src = .imm b → t.ppu = s.ppu ∧ t.plat = s.plat)

/-- `t` follows `s` by a write-class instruction on `m` that stores `v`: exactly one `wr(ea, v)` and the cost. No register
but `CYC` and `pageCrossed` changes, no byte of memory but the one the write reaches; on an untrapped address the PPU and
the platform are as the address computation left them, and on a memory address the byte is `v` (R150, R63). -/
def AfterWrite (m : AddrMode) (v : Byte) (s t : State) : Prop :=
  let ea := (resolve m s).1
  let s1 := (resolve m s).2
  t = (cpuWrite ea v s1).charge (writeCost m) ∧
    (∃ n, t.cpu = { s.cpu with pageCrossed := s1.cpu.pageCrossed, cyc := s.cpu.cyc + n + writeCost m } ∧
      (s.untrapped ea → n = 0)) ∧
    MemoryKeptBut (cpuStoreLoc s1 ea) s t ∧ BusesKept s t ∧
    (s.untrapped ea → t.ppu = s1.ppu ∧ t.plat = s1.plat) ∧
    (s.isMemory ea → (∀ b ∈ s.bufs, b.wf = true) → t.byteAt ea = v)

/-- `t` follows `s` by a read-modify-write instruction on `m` that turns the byte read into `r` of it and leaves the
status `p`: one `rd(ea)`, then one `wr(ea, r)`, then the cost (R182). -/
def AfterModify (m : AddrMode) (r : Byte → Byte) (p : Byte) (s t : State) : Prop :=
  let ea := (resolve m s).1
  let s1 := (resolve m s).2
  let b := (cpuRead ea s1).1
  let s2 := (cpuRead ea s1).2
  t = (cpuWrite ea (r b) (s2.setP p)).charge (rmwCost m) ∧
    (∃ n, t.cpu = { s.cpu with p := p, pageCrossed := s1.cpu.pageCrossed, cyc := s.cpu.cyc + n + rmwCost m } ∧
      (s.untrapped ea → n = 0)) ∧
    MemoryKeptBut (cpuStoreLoc s2 ea) s t ∧ BusesKept s t ∧
    (s.untrapped ea → t.ppu = s1.ppu ∧ t.plat = s1.plat) ∧
    (s.isMemory ea → (∀ b ∈ s.bufs, b.wf = true) → t.byteAt ea = r b)

/-- The byte a read-modify-write instruction on `m` reads. -/
def modifyOperand (m : AddrMode) (s : State) : Byte := (cpuRead (resolve m s).1 (resolve m s).2).1

/-- The opcode byte of one addressing mode, or that the mnemonic has no such mode. -/
def HasOpcode (i : Instr) (op : Option Byte) : Prop :=
  match op with
  | some op => i.wellFormed = true ∧ i.opcode = op
  | none => i.wellFormed = false

/-- The opcode bytes of a mnemonic by memory mode. -/
def MemOpcodes (f : AddrMode → Instr) (zp zpx zpy abs abx aby izx izy : Option Byte) : Prop :=
  ∀ (b : Byte) (w : Addr), HasOpcode (f (.zp b)) zp ∧ HasOpcode (f (.zpx b)) zpx ∧ HasOpcode (f (.zpy b)) zpy ∧
    HasOpcode (f (.abs w)) abs ∧ HasOpcode (f (.abx w)) abx ∧ HasOpcode (f (.aby w)) aby ∧
    HasOpcode (f (.izx b)) izx ∧ HasOpcode (f (.izy b)) izy

/-- The opcode bytes of a read-class mnemonic with an immediate form. -/
def ReadOpcodes (f : Source → Instr) (imm : Byte) (zp zpx zpy abs abx aby izx izy : Option Byte) : Prop :=
  (∀ b : Byte, HasOpcode (f (.imm b)) (some imm)) ∧ MemOpcodes (fun m => f (.mem m)) zp zpx zpy abs abx aby izx izy

/-- The opcode bytes of a shift. -/
def ShiftOpcodes (f : Target → Instr) (acc zp zpx abs abx : Byte) : Prop :=
  HasOpcode (f .acc) (some acc) ∧
    MemOpcodes (fun m => f (.mem m)) (some zp) (some zpx) none (some abs) (some abx) none none none

/-- The common rule of the eight branches (R225): taken or not, the target, the cost, nothing else. -/
def BranchRule (f : Byte → Instr) (op : Byte) (cond : Byte → Bool) : Prop :=
  ∀ (off : Byte) (s : State), HasOpcode (f off) (some op) ∧
    (cond s.cpu.p = false → exec (f off) s = .next (s.withCpu { s.cpu with cyc := s.cpu.cyc + 2 })) ∧
    (cond s.cpu.p = true →
      let target := BitVec.ofInt 16 (s.cpu.pc.toNat + off.toInt)
      let cost := if hiByte target = hiByte s.cpu.pc then 3 else 4
      exec (f off) s = .next (s.withCpu { s.cpu with pc := target, cyc := s.cpu.cyc + cost }))

/-- One flag written, two cycles, nothing else. -/
def FlagRule (i : Instr) (op : Byte) (f : Flag) (on : Bool) : Prop :=
  ∀ s : State, HasOpcode i (some op) ∧ ∃ t, exec i s = .next t ∧
    t = s.withCpu { s.cpu with p := t.cpu.p, cyc := s.cpu.cyc + 2 } ∧
    getFlag t.cpu.p f = on ∧ FlagsKept [f] s.cpu.p t.cpu.p

/-- A register written from a value with Z and N from it, two cycles, nothing else: `c` is the CPU after the write but for
its status and `CYC`. -/
def RegisterRule (i : Instr) (op : Byte) (value : Cpu → Byte) (write : Cpu → Byte → Cpu) : Prop :=
  ∀ s : State, HasOpcode i (some op) ∧ ∃ t, exec i s = .next t ∧
    t = s.withCpu { write s.cpu (value s.cpu) with p := t.cpu.p, cyc := s.cpu.cyc + 2 } ∧
    ZNFrom (value s.cpu) s.cpu.p t.cpu.p

/-! ### Lengths and costs by mode -/

/-- The length by mode of an instruction with a memory operand (R130). -/
def modeLength : AddrMode → Nat
  | .zp _ | .zpx _ | .zpy _ | .izx _ | .izy _ => 2
  | .abs _ | .abx _ | .aby _ => 3

/-- The length by mode of a read-class instruction (R130). -/
def sourceLength : Source → Nat
  | .imm _ => 2
  | .mem m => modeLength m

/-- The length by mode of a shift (R130). -/
def targetLength : Target → Nat
  | .acc => 1
  | .mem m => modeLength m

/-- The length of an instruction by its mode (R130). -/
def lengthByMode : Instr → Nat
  | .lda s | .ldx s | .ldy s | .adc s | .sbc s | .and s | .ora s | .eor s | .cmp s | .cpx s | .cpy s => sourceLength s
  | .lax m | .sta m | .stx m | .sty m | .sax m | .bit m | .inc m | .dec m => modeLength m
  | .asl t | .lsr t | .rol t | .ror t => targetLength t
  | .jmp _ | .jsr _ => 3
  | .bpl _ | .bmi _ | .bvc _ | .bvs _ | .bcc _ | .bcs _ | .bne _ | .beq _ => 2
  | .tax | .tay | .txa | .tya | .tsx | .txs | .inx | .iny | .dex | .dey => 1
  | .rts | .rti | .brk | .pha | .pla | .php | .plp => 1
  | .clc | .sec | .cli | .sei | .clv | .cld | .sed | .undefined _ => 1
  | .nop _ none => 1
  | .nop _ (some s) => sourceLength s

/-- The cost of an instruction that R485, R486 and the tables of R128 and R131 give, from the state before its operation
and what the address computation left in `pageCrossed`: base cycles, the page-cross cycle, the branch cycles; 0 for an
instruction that latches an error (R420). -/
def tableCost (i : Instr) (s : State) (crossed : Bool) : Nat :=
  let branch := fun (taken : Bool) (off : Byte) =>
    if taken then (if hiByte (s.cpu.pc + sext16 off) = hiByte s.cpu.pc then 3 else 4) else 2
  match i with
  | .lda s | .ldx s | .ldy s | .adc s | .sbc s | .and s | .ora s | .eor s | .cmp s | .cpx s | .cpy s => readCost s crossed
  | .lax m | .bit m => readCost (.mem m) crossed
  | .sta m | .stx m | .sty m | .sax m => writeCost m
  | .inc m | .dec m => rmwCost m
  | .asl t | .lsr t | .rol t | .ror t => match t with
    | .acc => 2
    | .mem m => rmwCost m
  | .jmp (.abs _) => 3
  | .jmp (.ind _) => 5
  | .jsr _ | .rts | .rti => 6
  | .bpl off => branch (!getFlag s.cpu.p .n) off
  | .bmi off => branch (getFlag s.cpu.p .n) off
  | .bvc off => branch (!getFlag s.cpu.p .v) off
  | .bvs off => branch (getFlag s.cpu.p .v) off
  | .bcc off => branch (!getFlag s.cpu.p .c) off
  | .bcs off => branch (getFlag s.cpu.p .c) off
  | .bne off => branch (!getFlag s.cpu.p .z) off
  | .beq off => branch (getFlag s.cpu.p .z) off
  | .tax | .tay | .txa | .tya | .tsx | .txs | .inx | .iny | .dex | .dey => 2
  | .pha | .php => 3
  | .pla | .plp => 4
  | .clc | .sec | .cli | .sei | .clv | .cld | .sed => 2
  | .nop _ none => 2
  | .nop _ (some s) => readCost s crossed
  | .brk | .undefined _ => 0

/-! ### The invariant -/

/-- A page entry points into an existing buffer, at a base that is a multiple of 256, and every masked offset lies inside
the buffer (R24, R65). -/
def PageEntry.valid (bufs : List Buffer) : PageEntry → Prop
  | .unmapped => True
  | .mapped h base mask =>
    base % 256 = 0 ∧ ∃ b, bufs[h]? = some b ∧ ∀ off : Byte, base + (off &&& mask).toNat < b.len

/-- An AddressSpace whose page entries are valid and whose filled trap slots are at most four, each with `start <= end`
(R24, R25). -/
structure AddressSpace.Valid {κ : Type} (bus : AddressSpace κ) (bufs : List Buffer) : Prop where
  pages  : ∀ n : Byte, (atByte bus.pages n).valid bufs
  slots  : bus.traps.length ≤ 4
  ranges : ∀ t ∈ bus.traps, t.start ≤ t.stop

/-- The PPU's counters and fields stay where R27, R30, R34, R37 and R358 put them. -/
structure Ppu.Valid (p : Ppu) : Prop where
  scanline  : p.scanline < 262
  dot       : p.dot < p.lineLength
  status    : p.status &&& 0x3F = 0
  atLatch   : p.atLatch &&& 0xFC = 0
  secCount  : p.secCount ≤ 8

/-- The invariant of the machine: every buffer in canonical form, both AddressSpaces valid, the break bits of `P` as R16
derives them, the PPU in range. -/
structure State.Inv (s : State) : Prop where
  bufs   : ∀ b ∈ s.bufs, b.wf = true
  cpuBus : s.cpuBus.Valid s.bufs
  ppuBus : s.ppuBus.Valid s.bufs
  breaks : s.cpu.p &&& 0x30 = 0x20
  ppu    : s.ppu.Valid

end Sys2Proof.Machine
end

