-- ==== Sys2Proof/Certificates/Slice0/Obligations.lean ====
section
/-! DEFINITION. The statements about the model: each says what a rule of the spec says the machine does. -/

open Sys2Proof Sys2Proof.Machine

/-! ### Encoding (spec/30_encoding.md) -/

/-- The example words of R135, at least one word of each family (spec/40 to spec/44) and of each mode, and two unofficial and
one undefined byte's decode to the instruction they stand for. -/
def Obligations.ExampleWordsDecode : Prop :=
  decode [0x18] = .ok (.clc, []) ∧ decode [0x0A] = .ok (.asl .acc, []) ∧
  decode [0xA9, 0x80] = .ok (.lda (.imm 0x80), []) ∧ decode [0xA5, 0x10] = .ok (.lda (.mem (.zp 0x10)), []) ∧
  decode [0xB5, 0x10] = .ok (.lda (.mem (.zpx 0x10)), []) ∧ decode [0xB6, 0x10] = .ok (.ldx (.mem (.zpy 0x10)), []) ∧
  decode [0xAD, 0x34, 0x12] = .ok (.lda (.mem (.abs 0x1234)), []) ∧
  decode [0xBD, 0x34, 0x12] = .ok (.lda (.mem (.abx 0x1234)), []) ∧
  decode [0xB9, 0x34, 0x12] = .ok (.lda (.mem (.aby 0x1234)), []) ∧
  decode [0xA1, 0x10] = .ok (.lda (.mem (.izx 0x10)), []) ∧ decode [0xB1, 0x10] = .ok (.lda (.mem (.izy 0x10)), []) ∧
  decode [0x69, 0x50] = .ok (.adc (.imm 0x50), []) ∧ decode [0xE6, 0x10] = .ok (.inc (.zp 0x10), []) ∧
  decode [0x6C, 0xFF, 0x02] = .ok (.jmp (.ind 0x02FF), []) ∧ decode [0xD0, 0x03] = .ok (.bne 0x03, []) ∧
  decode [0x00] = .ok (.brk, []) ∧ decode [0x02] = .ok (.undefined 0x02, []) ∧
  decode [0xA7, 0x10] = .ok (.lax (.zp 0x10), []) ∧ decode [0x0C, 0x34, 0x12] = .ok (.nop 0x0C (some (.mem (.abs 0x1234))), [])

/-- Decoding an encoded instruction of the table gives it back, whatever bytes follow, every operand at every value. -/
def Obligations.DecodeOfEncode : Prop :=
  ∀ (i : Instr) (rest : List Byte), i.wellFormed = true → decode (encode i ++ rest) = .ok (i, rest)

/-- What the decoder reads is an instruction of the table, and its encoding is the bytes it was read from. -/
def Obligations.EncodeOfDecode : Prop :=
  ∀ (bytes : List Byte) (i : Instr) (rest : List Byte),
    decode bytes = .ok (i, rest) → i.wellFormed = true ∧ encode i ++ rest = bytes

/-- Every opcode byte decodes once the bytes its length asks for are there, and the length is the mode's (R110, R130,
R134). -/
def Obligations.DecoderTotalWithLengthByMode : Prop :=
  (∀ (op : Byte) (rest : List Byte),
    (opcodeLength op ≤ rest.length + 1 → ∃ i rest', decode (op :: rest) = .ok (i, rest') ∧ i.opcode = op ∧
      rest.length + 1 = opcodeLength op + rest'.length) ∧
    (rest.length + 1 < opcodeLength op → decode (op :: rest) = .error (.missingOperand op))) ∧
  (∀ i : Instr, i.wellFormed = true → i.length = lengthByMode i ∧ opcodeLength i.opcode = lengthByMode i)

/-- The 33 unofficial bytes as R131 lists them. -/
def unofficialOpcodes : List Byte :=
  [0xA7, 0xB7, 0xAF, 0xBF, 0xA3, 0xB3, 0x87, 0x97, 0x8F, 0x83, 0x1A, 0x3A, 0x5A, 0x7A, 0xDA, 0xFA, 0x80] ++
  [0x04, 0x44, 0x64, 0x14, 0x34, 0x54, 0x74, 0xD4, 0xF4, 0x0C, 0x1C, 0x3C, 0x5C, 0x7C, 0xDC, 0xFC]

/-- An instruction of one of the three unofficial kinds (R131): LAX, SAX, or a NOP other than 0xEA. -/
def isUnofficial : Instr → Bool
  | .lax _ | .sax _ => true
  | .nop op _ => op != 0xEA
  | _ => false

/-- Each of the 256 bytes is exactly one of official, unofficial and undefined: 151 + 33 + 72 (R134). -/
def Obligations.OpcodeClasses : Prop :=
  (∀ op x y : Byte, ∃ i rest, decode [op, x, y] = .ok (i, rest) ∧
    (op ∈ undefinedOpcodes ↔ i = .undefined op) ∧ (op ∈ unofficialOpcodes ↔ isUnofficial i = true)) ∧
  (∀ op : Byte, ¬ (op ∈ undefinedOpcodes ∧ op ∈ unofficialOpcodes)) ∧
  undefinedOpcodes.length = 72 ∧ undefinedOpcodes.Nodup ∧ unofficialOpcodes.length = 33 ∧ unofficialOpcodes.Nodup ∧
  ((List.range 256).filter fun n =>
    !(undefinedOpcodes ++ unofficialOpcodes).contains (BitVec.ofNat 8 n)).length = 151

/-! ### One step (R111, R112, R420 to R423, R456, R458) -/

/-- A step runs the decoded instruction. When no error is latched and either nothing is pending and the PPU has caught up or
the host issues the step itself: `instrPC` takes `PC` and `pageCrossed` 0, then each byte of the instruction is fetched
once, in ascending order, trapped or not, as many as the opcode's length; they decode to one instruction, and the step is
`exec` of it on the state the fetches leave (R80, R111, R112). If those addresses are untrapped, that state is the one
before with `PC` past the instruction. -/
def Obligations.StepRunsDecodedInstruction : Prop :=
  ∀ s : State, s.cpu.errKind = .none →
    let runs := fun u : State =>
      let start := u.withCpu { s.cpu with instrPC := s.cpu.pc, pageCrossed := false }
      (∃ i, let f := fetches (opcodeLength (fetch start).1) start
        decode f.1 = .ok (i, []) ∧ step s = exec i f.2) ∧
      ∀ (i : Instr) (rest : List Byte),
        (∀ k < i.length, s.untrapped (s.cpu.pc + BitVec.ofNat 16 k)) →
        decode [s.byteAt s.cpu.pc, s.byteAt (s.cpu.pc + 1), s.byteAt (s.cpu.pc + 2)] = .ok (i, rest) →
        step s = exec i (start.withCpu { start.cpu with pc := s.cpu.pc + BitVec.ofNat 16 i.length })
    (s.plat.pending = [] → 3 * s.cpu.cyc ≤ s.plat.ppuDots → runs s) ∧
    (∀ r, s.plat.pending = .cpuStep :: r → runs (s.withPlat { s.plat with pending := r }))

/-- A step that meets an undefined byte or BRK latches the error and does nothing but its opcode fetch (R420 to R422). -/
def Obligations.ErrorsAreLatchedAndNothingElse : Prop :=
  (∀ (op : Byte) (s : State), exec (.undefined op) s = .next (s.withCpu
      { s.cpu with errKind := .unknownOpcode, errOpcode := op }) ∧
    exec .brk s = .next (s.withCpu { s.cpu with errKind := .brk, errOpcode := 0x00 })) ∧
  (∀ s : State, s.cpu.errKind = .none → s.untrapped s.cpu.pc →
    (s.byteAt s.cpu.pc ∈ undefinedOpcodes → cpuStep s = .next (s.withCpu
      { s.cpu with instrPC := s.cpu.pc, pageCrossed := false, pc := s.cpu.pc + 1,
                   errKind := .unknownOpcode, errOpcode := s.byteAt s.cpu.pc })) ∧
    (s.byteAt s.cpu.pc = 0x00 → cpuStep s = .next (s.withCpu
      { s.cpu with instrPC := s.cpu.pc, pageCrossed := false, pc := s.cpu.pc + 1, errKind := .brk, errOpcode := 0x00 })))

/-- No transition clears or changes a latched error (R22, R423). -/
def Obligations.LatchedErrorIsSticky : Prop :=
  ∀ s t : State, step s = .next t → s.cpu.errKind ≠ .none →
    t.cpu.errKind = s.cpu.errKind ∧ t.cpu.errOpcode = s.cpu.errOpcode

/-- The schedule. With nothing pending, nothing more is issued on a latched error; else a CPU step when `ppuDots >= 3 * CYC`,
else one tick. A pending transition is issued, each kind as what it is (configuration: `ConfigurationPreconditions`; reset:
`RaiseResetWritesThreeRegisters`), and it alone leaves the list. A CPU step on a halted CPU changes nothing (R6, R458, R423).
The model's choices: that pending transitions come first (log entry 8), that `createBuffer` and `writeBuffer` are transitions
(log entry 21), that a new buffer's bytes are 0x00 (log entry 3), that a too short `copyOAM` destination is refused (log
entry 9). -/
def Obligations.ReferenceSchedule : Prop :=
  ∀ s : State,
    (s.cpu.errKind ≠ .none → cpuStep s = .next s ∧ (s.plat.pending = [] → step s = .next s)) ∧
    (s.cpu.errKind = .none → s.plat.pending = [] →
      (3 * s.cpu.cyc ≤ s.plat.ppuDots → step s = cpuStep s) ∧
      (s.plat.ppuDots < 3 * s.cpu.cyc → step s = .next (systemTick s))) ∧
    (∀ (r : List Transition) (t : Transition), s.plat.pending = t :: r →
      let u := s.withPlat { s.plat with pending := r }
      (t = .cpuStep → step s = cpuStep u) ∧
      (t = .ppuTick → step s =
        .next ((ppuTick u).2.withPlat { (ppuTick u).2.plat with ppuDots := s.plat.ppuDots + 1 })) ∧
      (t = .systemTick → step s = .next (systemTick u)) ∧
      (t = .raiseIRQ → step s = .next (raiseIRQ u)) ∧
      (t = .raiseNMI → step s = .next (raiseNMI u)) ∧
      (∀ h, t = .copyOAM h .oam → step s = .next (copyOAM h .oam u)) ∧
      (∀ h k b, t = .copyOAM h (.buffer k) → s.bufs[k]? = some b →
        (256 ≤ b.len → step s = .next (copyOAM h (.buffer k) u)) ∧ (b.len < 256 → step s = .refused .noSuchBuffer)) ∧
      (∀ w, t = .forcePC w → step s = .next (u.withCpu { s.cpu with pc := w })) ∧
      (∀ n, t = .createBuffer n → step s = .next (u.withBufs (s.bufs ++ [{ len := n, cells := [] }]))) ∧
      (∀ k off v b, t = .writeBuffer k off v → s.bufs[k]? = some b → off < b.len →
        step s = .next (u.withBufs (storeWrite s.bufs (k, off) v))))

/-- The orchestrator's tick requests an NMI exactly when it processed scanline 241, dot 1 with `CTRL[7]` set: `raiseNMI`
then stands before the next CPU step and after the host operations that came before that step, a transition of its own; a
tick issued by itself requests none. With nothing else pending the NMI is the very next step (R456, R350, R6; the place in
the list is the model's choice, log entry 8). -/
def Obligations.NmiOnlyAtTheVBlankEdge : Prop :=
  ∀ s : State,
    let edge := s.ppu.scanline = 241 ∧ s.ppu.dot = 1 ∧ s.ppu.ctrl.getLsbD 7 = true
    let u := (ppuTick s).2.withPlat { (ppuTick s).2.plat with ppuDots := s.plat.ppuDots + 1 }
    u.plat.pending = s.plat.pending ∧
    (edge → ∃ before after, s.plat.pending = before ++ after ∧ Transition.cpuStep ∉ before ∧
      (after = [] ∨ ∃ r, after = .cpuStep :: r) ∧
      systemTick s = u.withPlat { u.plat with pending := before ++ .raiseNMI :: after }) ∧
    (¬ edge → systemTick s = u) ∧
    (edge → s.plat.pending = [] → s.cpu.errKind = .none → s.plat.ppuDots < 3 * s.cpu.cyc →
      ∃ t, step s = .next t ∧ t = u.withPlat { u.plat with pending := [.raiseNMI] } ∧
        step t = .next (enterInterrupt 0xFFFA u)) ∧
    (∀ r, s.plat.pending = .ppuTick :: r → ∃ t, step s = .next t ∧ t.plat.pending = r ∧ t.cpu = s.cpu)

/-! ### Power-on, reset and the invariant (R44, R440, R472) -/

/-- The power-on values R44 gives, row by row (the rows it leaves unspecified are not stated). -/
def Obligations.PowerOnState : Prop :=
  let c := State.reset.cpu
  let p := State.reset.ppu
  (c.a = 0x00 ∧ c.x = 0x00 ∧ c.y = 0x00 ∧ c.p = 0x24 ∧ c.sp = 0xFD ∧ c.pc = 0x0000 ∧ c.cyc = 0 ∧ c.instrPC = 0 ∧
    c.pageCrossed = false ∧ c.errKind = .none ∧ c.errOpcode = 0) ∧
  (∀ n : Byte, atByte State.reset.cpuBus.pages n = .unmapped ∧ atByte State.reset.ppuBus.pages n = .unmapped) ∧
  (State.reset.cpuBus.traps = [] ∧ State.reset.ppuBus.traps = []) ∧
  (p.dot = 0 ∧ p.scanline = 0 ∧ p.frame = 0 ∧ p.ctrl = 0x00 ∧ p.mask = 0x00 ∧ p.status = 0x00 ∧ p.oamAddr = 0x00 ∧
    p.v = 0 ∧ p.t = 0 ∧ p.x = 0 ∧ p.w = false ∧ p.readBuffer = 0x00) ∧
  (p.ntLatch = 0 ∧ p.atLatch = 0 ∧ p.bgLoLatch = 0 ∧ p.bgHiLatch = 0 ∧ p.bgShiftLo = 0 ∧ p.bgShiftHi = 0 ∧
    p.atShiftLo = 0 ∧ p.atShiftHi = 0 ∧ p.secCount = 0 ∧ p.secHasSprite0 = false ∧ p.slot0IsSprite0 = false) ∧
  (∀ k : Fin 8, p.slots[k] = { sprLo := 0, sprHi := 0, sprAttr := 0, sprX := 0 })

/-- The invariant holds at power-on. -/
def Obligations.PowerOnMeetsTheInvariant : Prop := State.reset.Inv

/-- `raiseReset` writes `SP`, `CYC` and `PC` (from the reset vector, low byte read first) and nothing else; as a
pending transition the step does that and sets the host's dot counter (R440, R472, R458). -/
def Obligations.RaiseResetWritesThreeRegisters : Prop :=
  ∀ (n : Nat) (s : State),
    let lo := cpuRead 0xFFFC (s.withCpu { s.cpu with sp := 0xFD, cyc := n })
    let hi := cpuRead 0xFFFD lo.2
    raiseReset n s = hi.2.withCpu { s.cpu with sp := 0xFD, cyc := n, pc := wordOf hi.1 lo.1 } ∧
    (raiseReset n s).bufs = s.bufs ∧ BusesKept s (raiseReset n s) ∧
    (s.untrapped 0xFFFC → s.untrapped 0xFFFD →
      raiseReset n s = s.withCpu { s.cpu with sp := 0xFD, cyc := n, pc := s.wordAt 0xFFFC 0xFFFD }) ∧
    (∀ r, s.plat.pending = .raiseReset n :: r →
      let t := raiseReset n (s.withPlat { s.plat with pending := r })
      step s = .next (t.withPlat { t.plat with ppuDots := 3 * n }))

/-- Every transition of the machine keeps the invariant: buffers canonical, page tables and traps valid, the break bits of
`P`, the PPU's counters and fields in range. -/
def Obligations.EveryStepKeepsTheInvariant : Prop := ∀ s t : State, s.Inv → step s = .next t → t.Inv

/-! ### Operand forms (R116 to R127) and costs (R486) -/

/-- The effective address of each memory mode, and what the computation leaves in `pageCrossed` (R116 to R123, R127). -/
def Obligations.EffectiveAddresses : Prop :=
  ∀ (b : Byte) (w : Addr) (s : State),
    resolve (.zp b) s = (BitVec.ofNat 16 b.toNat, s) ∧
    resolve (.zpx b) s = (BitVec.ofNat 16 ((b.toNat + s.cpu.x.toNat) % 256), s) ∧
    resolve (.zpy b) s = (BitVec.ofNat 16 ((b.toNat + s.cpu.y.toNat) % 256), s) ∧
    resolve (.abs w) s = (w, s) ∧
    (let ea := BitVec.ofNat 16 ((w.toNat + s.cpu.x.toNat) % 65536)
     resolve (.abx w) s = (ea, s.setCrossed (decide (hiByte ea ≠ hiByte w)))) ∧
    (let ea := BitVec.ofNat 16 ((w.toNat + s.cpu.y.toNat) % 65536)
     resolve (.aby w) s = (ea, s.setCrossed (decide (hiByte ea ≠ hiByte w)))) ∧
    (let z := (b.toNat + s.cpu.x.toNat) % 256
     let lo := cpuRead (BitVec.ofNat 16 z) s
     let hi := cpuRead (BitVec.ofNat 16 ((z + 1) % 256)) lo.2
     resolve (.izx b) s = (wordOf hi.1 lo.1, hi.2)) ∧
    (let lo := cpuRead (BitVec.ofNat 16 b.toNat) s
     let hi := cpuRead (BitVec.ofNat 16 ((b.toNat + 1) % 256)) lo.2
     let base := wordOf hi.1 lo.1
     let ea := BitVec.ofNat 16 ((base.toNat + s.cpu.y.toNat) % 65536)
     resolve (.izy b) s = (ea, hi.2.setCrossed (decide (hiByte ea ≠ hiByte base))))

/-- A read of an untrapped address has no side effect: the byte is the mapped byte or 0x00 (R62, R79). A read-class operand
is the immediate byte, which its fetch has read already (R115; log entry 14), or the one read `rd(ea)`, trapped or not
(R150); if `ea` and the operand's own pointer bytes are untrapped, it changes nothing but `pageCrossed`. -/
def Obligations.UntrappedReadsHaveNoSideEffect : Prop :=
  (∀ (a : Addr) (s : State), s.untrapped a → (cpuRead a s).2 = s ∧
    (s.cpuBus.locate a = none → (cpuRead a s).1 = 0x00) ∧
    (∀ l, s.cpuBus.locate a = some l → (cpuRead a s).1 = storeRead s.bufs l)) ∧
  (∀ (b : Byte) (s : State), load (.imm b) s = (b, s)) ∧
  (∀ (m : AddrMode) (s : State), load (.mem m) s = cpuRead (resolve m s).1 (resolve m s).2) ∧
  (∀ (m : AddrMode) (s : State), (∀ a ∈ pointerAddrs m s, s.untrapped a) → s.untrapped (resolve m s).1 →
    load (.mem m) s = (s.byteAt (resolve m s).1, s.setCrossed (resolve m s).2.cpu.pageCrossed))

/-- The base costs by access class and mode, and the page-cross cycle (R486, R127). -/
def Obligations.CostsByClassAndMode : Prop :=
  ∀ (b : Byte) (w : Addr),
    (∀ c, readCost (.imm b) c = 2 ∧ readCost (.mem (.zp b)) c = 3 ∧ readCost (.mem (.zpx b)) c = 4 ∧
      readCost (.mem (.zpy b)) c = 4 ∧ readCost (.mem (.abs w)) c = 4 ∧ readCost (.mem (.izx b)) c = 6) ∧
    (readCost (.mem (.abx w)) false = 4 ∧ readCost (.mem (.abx w)) true = 5 ∧
      readCost (.mem (.aby w)) false = 4 ∧ readCost (.mem (.aby w)) true = 5 ∧
      readCost (.mem (.izy b)) false = 5 ∧ readCost (.mem (.izy b)) true = 6) ∧
    (writeCost (.zp b) = 3 ∧ writeCost (.zpx b) = 4 ∧ writeCost (.zpy b) = 4 ∧ writeCost (.abs w) = 4 ∧
      writeCost (.abx w) = 5 ∧ writeCost (.aby w) = 5 ∧ writeCost (.izx b) = 6 ∧ writeCost (.izy b) = 6) ∧
    (rmwCost (.zp b) = 5 ∧ rmwCost (.zpx b) = 6 ∧ rmwCost (.abs w) = 6 ∧ rmwCost (.abx w) = 7)

/-! ### Load, store, transfer (spec/40) -/

/-- LDA, LDX, LDY, LAX: the operand byte goes to the register, Z and N are set from it, nothing else changes (R151 to R153,
R170). -/
def Obligations.LoadsWriteTheirRegister : Prop :=
  (∀ (src : Source) (s : State),
    let b := (load src s).1
    (∃ t, exec (.lda src) s = .next t ∧ AfterRead src s t { s.cpu with a := b, p := t.cpu.p } ∧
      ZNFrom b s.cpu.p t.cpu.p) ∧
    (∃ t, exec (.ldx src) s = .next t ∧ AfterRead src s t { s.cpu with x := b, p := t.cpu.p } ∧
      ZNFrom b s.cpu.p t.cpu.p) ∧
    (∃ t, exec (.ldy src) s = .next t ∧ AfterRead src s t { s.cpu with y := b, p := t.cpu.p } ∧
      ZNFrom b s.cpu.p t.cpu.p)) ∧
  (∀ (m : AddrMode) (s : State),
    let b := (load (.mem m) s).1
    ∃ t, exec (.lax m) s = .next t ∧ AfterRead (.mem m) s t { s.cpu with a := b, x := b, p := t.cpu.p } ∧
      ZNFrom b s.cpu.p t.cpu.p) ∧
  ReadOpcodes .lda 0xA9 (some 0xA5) (some 0xB5) none (some 0xAD) (some 0xBD) (some 0xB9) (some 0xA1) (some 0xB1) ∧
  ReadOpcodes .ldx 0xA2 (some 0xA6) none (some 0xB6) (some 0xAE) none (some 0xBE) none none ∧
  ReadOpcodes .ldy 0xA0 (some 0xA4) (some 0xB4) none (some 0xAC) (some 0xBC) none none none ∧
  MemOpcodes .lax (some 0xA7) none (some 0xB7) (some 0xAF) none (some 0xBF) (some 0xA3) (some 0xB3)

/-- STA, STX, STY, SAX: one write of the register (of `A & X` for SAX) at the effective address and nothing else (R154 to
R156, R171). -/
def Obligations.StoresWriteOneByte : Prop :=
  (∀ (m : AddrMode) (s : State),
    (∃ t, exec (.sta m) s = .next t ∧ AfterWrite m s.cpu.a s t) ∧
    (∃ t, exec (.stx m) s = .next t ∧ AfterWrite m s.cpu.x s t) ∧
    (∃ t, exec (.sty m) s = .next t ∧ AfterWrite m s.cpu.y s t) ∧
    (∃ t, exec (.sax m) s = .next t ∧ AfterWrite m (s.cpu.a &&& s.cpu.x) s t)) ∧
  MemOpcodes .sta (some 0x85) (some 0x95) none (some 0x8D) (some 0x9D) (some 0x99) (some 0x81) (some 0x91) ∧
  MemOpcodes .stx (some 0x86) none (some 0x96) (some 0x8E) none none none none ∧
  MemOpcodes .sty (some 0x84) (some 0x94) none (some 0x8C) none none none none ∧
  MemOpcodes .sax (some 0x87) none (some 0x97) (some 0x8F) none none (some 0x83) none

/-- TAX, TAY, TXA, TYA, TSX, TXS and INX, INY, DEX, DEY: one register, Z and N from it (TXS: no flag), two cycles,
nothing else (R157 to R163, R195 to R198). -/
def Obligations.RegisterInstructions : Prop :=
  RegisterRule .tax 0xAA Cpu.a (fun c v => { c with x := v }) ∧
  RegisterRule .tay 0xA8 Cpu.a (fun c v => { c with y := v }) ∧
  RegisterRule .txa 0x8A Cpu.x (fun c v => { c with a := v }) ∧
  RegisterRule .tya 0x98 Cpu.y (fun c v => { c with a := v }) ∧
  RegisterRule .tsx 0xBA Cpu.sp (fun c v => { c with x := v }) ∧
  RegisterRule .inx 0xE8 (fun c => BitVec.ofNat 8 (c.x.toNat + 1)) (fun c v => { c with x := v }) ∧
  RegisterRule .iny 0xC8 (fun c => BitVec.ofNat 8 (c.y.toNat + 1)) (fun c v => { c with y := v }) ∧
  RegisterRule .dex 0xCA (fun c => BitVec.ofNat 8 (c.x.toNat + 255)) (fun c v => { c with x := v }) ∧
  RegisterRule .dey 0x88 (fun c => BitVec.ofNat 8 (c.y.toNat + 255)) (fun c v => { c with y := v }) ∧
  HasOpcode .txs (some 0x9A) ∧
  ∀ s : State, exec .txs s = .next (s.withCpu { s.cpu with sp := s.cpu.x, cyc := s.cpu.cyc + 2 })

/-! ### Arithmetic and logic (spec/41) -/

/-- ADC: the 9-bit sum, carry, signed overflow, Z and N; the decimal flag plays no part (R183, R17). -/
def Obligations.AdcAddsWithCarry : Prop :=
  (∀ (src : Source) (s : State),
    let m := (load src s).1
    let c := (getFlag s.cpu.p .c).toNat
    let r := BitVec.ofNat 8 (s.cpu.a.toNat + m.toNat + c)
    ∃ t, exec (.adc src) s = .next t ∧ AfterRead src s t { s.cpu with a := r, p := t.cpu.p } ∧
      getFlag t.cpu.p .c = decide (s.cpu.a.toNat + m.toNat + c > 0xFF) ∧
      getFlag t.cpu.p .v = decide ((s.cpu.a ^^^ r) &&& (m ^^^ r) &&& 0x80 ≠ 0) ∧
      getFlag t.cpu.p .v = decide (s.cpu.a.toInt + m.toInt + c < -128 ∨ 127 < s.cpu.a.toInt + m.toInt + c) ∧
      getFlag t.cpu.p .z = decide (r = 0) ∧ getFlag t.cpu.p .n = r.getLsbD 7 ∧
      FlagsKept [.c, .v, .z, .n] s.cpu.p t.cpu.p) ∧
  ReadOpcodes .adc 0x69 (some 0x65) (some 0x75) none (some 0x6D) (some 0x7D) (some 0x79) (some 0x61) (some 0x71)

/-- SBC: the sum with `255 - m`, that is `A - m - (1 - C)`; carry is no borrow, V is signed overflow (R184, R17). -/
def Obligations.SbcSubtractsWithBorrow : Prop :=
  (∀ (src : Source) (s : State),
    let m := (load src s).1
    let c := (getFlag s.cpu.p .c).toNat
    let r := BitVec.ofNat 8 (s.cpu.a.toNat + (255 - m.toNat) + c)
    ∃ t, exec (.sbc src) s = .next t ∧ AfterRead src s t { s.cpu with a := r, p := t.cpu.p } ∧
      getFlag t.cpu.p .c = decide (s.cpu.a.toNat + (255 - m.toNat) + c > 0xFF) ∧
      getFlag t.cpu.p .c = decide (m.toNat + (1 - c) ≤ s.cpu.a.toNat) ∧
      getFlag t.cpu.p .v = decide ((s.cpu.a ^^^ r) &&& ((255 - m) ^^^ r) &&& 0x80 ≠ 0) ∧
      getFlag t.cpu.p .v =
        decide (s.cpu.a.toInt - m.toInt - (1 - c) < -128 ∨ 127 < s.cpu.a.toInt - m.toInt - (1 - c)) ∧
      getFlag t.cpu.p .z = decide (r = 0) ∧ getFlag t.cpu.p .n = r.getLsbD 7 ∧
      FlagsKept [.c, .v, .z, .n] s.cpu.p t.cpu.p) ∧
  ReadOpcodes .sbc 0xE9 (some 0xE5) (some 0xF5) none (some 0xED) (some 0xFD) (some 0xF9) (some 0xE1) (some 0xF1)

/-- AND, ORA, EOR with the accumulator (R185 to R187). -/
def Obligations.LogicOnTheAccumulator : Prop :=
  (∀ (src : Source) (s : State),
    let m := (load src s).1
    (∃ t, exec (.and src) s = .next t ∧ AfterRead src s t { s.cpu with a := s.cpu.a &&& m, p := t.cpu.p } ∧
      ZNFrom (s.cpu.a &&& m) s.cpu.p t.cpu.p) ∧
    (∃ t, exec (.ora src) s = .next t ∧ AfterRead src s t { s.cpu with a := s.cpu.a ||| m, p := t.cpu.p } ∧
      ZNFrom (s.cpu.a ||| m) s.cpu.p t.cpu.p) ∧
    (∃ t, exec (.eor src) s = .next t ∧ AfterRead src s t { s.cpu with a := s.cpu.a ^^^ m, p := t.cpu.p } ∧
      ZNFrom (s.cpu.a ^^^ m) s.cpu.p t.cpu.p)) ∧
  ReadOpcodes .and 0x29 (some 0x25) (some 0x35) none (some 0x2D) (some 0x3D) (some 0x39) (some 0x21) (some 0x31) ∧
  ReadOpcodes .ora 0x09 (some 0x05) (some 0x15) none (some 0x0D) (some 0x1D) (some 0x19) (some 0x01) (some 0x11) ∧
  ReadOpcodes .eor 0x49 (some 0x45) (some 0x55) none (some 0x4D) (some 0x5D) (some 0x59) (some 0x41) (some 0x51)

/-- CMP, CPX, CPY: C is `register >= memory` unsigned, Z equality, N bit 7 of the difference; BIT: Z from `A & m`, V and N
from bits 6 and 7 of the memory byte. No register and no other flag changes (R188 to R192). -/
def Obligations.ComparesAndBitTest : Prop :=
  (∀ (src : Source) (s : State),
    let m := (load src s).1
    let rule := fun (i : Instr) (r : Byte) =>
      ∃ t, exec i s = .next t ∧ AfterRead src s t { s.cpu with p := t.cpu.p } ∧
        getFlag t.cpu.p .c = decide (m.toNat ≤ r.toNat) ∧ getFlag t.cpu.p .z = decide (r = m) ∧
        getFlag t.cpu.p .n = (BitVec.ofInt 8 (r.toNat - m.toNat)).getLsbD 7 ∧ FlagsKept [.c, .z, .n] s.cpu.p t.cpu.p
    rule (.cmp src) s.cpu.a ∧ rule (.cpx src) s.cpu.x ∧ rule (.cpy src) s.cpu.y) ∧
  (∀ (m : AddrMode) (s : State),
    let b := (load (.mem m) s).1
    ∃ t, exec (.bit m) s = .next t ∧ AfterRead (.mem m) s t { s.cpu with p := t.cpu.p } ∧
      getFlag t.cpu.p .z = decide (s.cpu.a &&& b = 0) ∧ getFlag t.cpu.p .v = b.getLsbD 6 ∧
      getFlag t.cpu.p .n = b.getLsbD 7 ∧ FlagsKept [.z, .v, .n] s.cpu.p t.cpu.p) ∧
  ReadOpcodes .cmp 0xC9 (some 0xC5) (some 0xD5) none (some 0xCD) (some 0xDD) (some 0xD9) (some 0xC1) (some 0xD1) ∧
  ReadOpcodes .cpx 0xE0 (some 0xE4) none none (some 0xEC) none none none none ∧
  ReadOpcodes .cpy 0xC0 (some 0xC4) none none (some 0xCC) none none none none ∧
  MemOpcodes .bit (some 0x24) none none (some 0x2C) none none none none

/-- INC and DEC: one read, the byte plus or minus one modulo 256, Z and N from it, one write, nothing else (R193, R194,
R182). -/
def Obligations.IncDecModifyMemory : Prop :=
  (∀ (m : AddrMode) (s : State),
    let b := modifyOperand m s
    (∃ t, exec (.inc m) s = .next t ∧ AfterModify m (fun b => BitVec.ofNat 8 (b.toNat + 1)) t.cpu.p s t ∧
      ZNFrom (BitVec.ofNat 8 (b.toNat + 1)) s.cpu.p t.cpu.p) ∧
    (∃ t, exec (.dec m) s = .next t ∧ AfterModify m (fun b => BitVec.ofNat 8 (b.toNat + 255)) t.cpu.p s t ∧
      ZNFrom (BitVec.ofNat 8 (b.toNat + 255)) s.cpu.p t.cpu.p)) ∧
  MemOpcodes .inc (some 0xE6) (some 0xF6) none (some 0xEE) (some 0xFE) none none none ∧
  MemOpcodes .dec (some 0xC6) (some 0xD6) none (some 0xCE) (some 0xDE) none none none

/-! ### Shifts and rotates (spec/42) -/

/-- The results of the four shifts on numbers: what enters, what leaves into C (R211 to R214). -/
def shiftRules : List ((Target → Instr) × (Nat → Nat → Nat) × (Byte → Bool)) :=
  [ (.asl, fun m _ => 2 * m, fun b => b.getLsbD 7), (.lsr, fun m _ => m / 2, fun b => b.getLsbD 0),
    (.rol, fun m c => 2 * m + c, fun b => b.getLsbD 7), (.ror, fun m c => m / 2 + 128 * c, fun b => b.getLsbD 0) ]

/-- ASL, LSR, ROL, ROR on the accumulator: the result to `A`, C the bit shifted out, Z and N of the result, two cycles,
nothing else (R210 to R214). -/
def Obligations.ShiftsOfTheAccumulator : Prop :=
  ∀ rule ∈ shiftRules, ∀ s : State,
    let r := BitVec.ofNat 8 (rule.2.1 s.cpu.a.toNat (getFlag s.cpu.p .c).toNat)
    ∃ t, exec (rule.1 .acc) s = .next t ∧
      t = s.withCpu { s.cpu with a := r, p := t.cpu.p, cyc := s.cpu.cyc + 2 } ∧
      getFlag t.cpu.p .c = rule.2.2 s.cpu.a ∧ getFlag t.cpu.p .z = decide (r = 0) ∧ getFlag t.cpu.p .n = r.getLsbD 7 ∧
      FlagsKept [.c, .z, .n] s.cpu.p t.cpu.p

/-- ASL, LSR, ROL, ROR on memory: one read, one write of the result, `A` untouched, the same flags (R210 to R214, R182). -/
def Obligations.ShiftsOfMemory : Prop :=
  (∀ rule ∈ shiftRules, ∀ (m : AddrMode) (s : State),
    let c := (getFlag s.cpu.p .c).toNat
    let b := modifyOperand m s
    let r := BitVec.ofNat 8 (rule.2.1 b.toNat c)
    ∃ t, exec (rule.1 (.mem m)) s = .next t ∧
      AfterModify m (fun b => BitVec.ofNat 8 (rule.2.1 b.toNat c)) t.cpu.p s t ∧
      getFlag t.cpu.p .c = rule.2.2 b ∧ getFlag t.cpu.p .z = decide (r = 0) ∧ getFlag t.cpu.p .n = r.getLsbD 7 ∧
      FlagsKept [.c, .z, .n] s.cpu.p t.cpu.p) ∧
  ShiftOpcodes .asl 0x0A 0x06 0x16 0x0E 0x1E ∧ ShiftOpcodes .lsr 0x4A 0x46 0x56 0x4E 0x5E ∧
  ShiftOpcodes .rol 0x2A 0x26 0x36 0x2E 0x3E ∧ ShiftOpcodes .ror 0x6A 0x66 0x76 0x6E 0x7E

/-! ### Control flow (spec/43) -/

/-- JMP: absolute, and indirect with the pointer's high byte read within the pointer's page (R221, R222, R124). -/
def Obligations.JmpSetsPC : Prop :=
  ∀ (w : Addr) (s : State),
    HasOpcode (.jmp (.abs w)) (some 0x4C) ∧ HasOpcode (.jmp (.ind w)) (some 0x6C) ∧
    exec (.jmp (.abs w)) s = .next (s.withCpu { s.cpu with pc := w, cyc := s.cpu.cyc + 3 }) ∧
    (let second := BitVec.ofNat 16 (w.toNat / 256 * 256 + (w.toNat + 1) % 256)
     let lo := cpuRead w s
     let hi := cpuRead second lo.2
     exec (.jmp (.ind w)) s = .next (hi.2.withCpu { s.cpu with pc := wordOf hi.1 lo.1, cyc := s.cpu.cyc + 5 }) ∧
     (s.untrapped w → s.untrapped second →
       exec (.jmp (.ind w)) s = .next (s.withCpu { s.cpu with pc := s.wordAt w second, cyc := s.cpu.cyc + 5 })))

/-- JSR pushes the address of its last byte, high byte first, and jumps; it stores to the two stack bytes and changes no
other register (R223). -/
def Obligations.JsrPushesTheReturnAddress : Prop :=
  ∀ (w : Addr) (s : State),
    let ret := s.cpu.pc - 1
    HasOpcode (.jsr w) (some 0x20) ∧ ∃ t, exec (.jsr w) s = .next t ∧
      t = ((push (loByte ret) (push (hiByte ret) s)).setPC w).charge 6 ∧
      (∃ n, t.cpu = { s.cpu with pc := w, sp := s.cpu.sp - 2, cyc := s.cpu.cyc + n + 6 } ∧
        (s.untrapped (stackAddr s.cpu.sp) → s.untrapped (stackAddr (s.cpu.sp - 1)) → n = 0)) ∧
      BusesKept s t ∧
      (∀ l, some l ≠ cpuStoreLoc s (stackAddr s.cpu.sp) →
        some l ≠ cpuStoreLoc (push (hiByte ret) s) (stackAddr (s.cpu.sp - 1)) →
        storeRead t.bufs l = storeRead s.bufs l) ∧
      (s.hasStack → (∀ b ∈ s.bufs, b.wf = true) → t.ppu = s.ppu ∧ t.plat = s.plat ∧
        t.byteAt (stackAddr s.cpu.sp) = hiByte ret ∧ t.byteAt (stackAddr (s.cpu.sp - 1)) = loByte ret)

/-- RTS and RTI: the pops in their order, the new `PC` (plus one for RTS), RTI's new status; memory is unchanged (R224,
R233, R16). -/
def Obligations.ReturnsPopTheirTarget : Prop :=
  ∀ s : State, HasOpcode .rts (some 0x60) ∧ HasOpcode .rti (some 0x40) ∧
    (let lo := pop s
     let hi := pop lo.2
     ∃ t, exec .rts s = .next t ∧ t.bufs = s.bufs ∧ BusesKept s t ∧
       t = hi.2.withCpu { s.cpu with sp := s.cpu.sp + 2, pc := wordOf hi.1 lo.1 + 1, cyc := s.cpu.cyc + 6 }) ∧
    (let b := pop s
     let lo := pop (b.2.setP (restoredStatus b.1))
     let hi := pop lo.2
     ∃ t, exec .rti s = .next t ∧ t.bufs = s.bufs ∧ BusesKept s t ∧
       t = hi.2.withCpu { s.cpu with sp := s.cpu.sp + 3, p := (b.1 &&& 0xEF) ||| 0x20, pc := wordOf hi.1 lo.1,
                                     cyc := s.cpu.cyc + 6 }) ∧
    (s.hasStack →
      exec .rts s = .next (s.withCpu
        { s.cpu with sp := s.cpu.sp + 2, cyc := s.cpu.cyc + 6,
                     pc := s.wordAt (stackAddr (s.cpu.sp + 1)) (stackAddr (s.cpu.sp + 2)) + 1 }) ∧
      exec .rti s = .next (s.withCpu
        { s.cpu with sp := s.cpu.sp + 3, cyc := s.cpu.cyc + 6,
                     p := (s.byteAt (stackAddr (s.cpu.sp + 1)) &&& 0xEF) ||| 0x20,
                     pc := s.wordAt (stackAddr (s.cpu.sp + 2)) (stackAddr (s.cpu.sp + 3)) }))

/-- The eight conditional branches (R225 to R232, R234). -/
def Obligations.BranchesTestOneFlag : Prop :=
  BranchRule .bpl 0x10 (fun p => !getFlag p .n) ∧ BranchRule .bmi 0x30 (fun p => getFlag p .n) ∧
  BranchRule .bvc 0x50 (fun p => !getFlag p .v) ∧ BranchRule .bvs 0x70 (fun p => getFlag p .v) ∧
  BranchRule .bcc 0x90 (fun p => !getFlag p .c) ∧ BranchRule .bcs 0xB0 (fun p => getFlag p .c) ∧
  BranchRule .bne 0xD0 (fun p => !getFlag p .z) ∧ BranchRule .beq 0xF0 (fun p => getFlag p .z)

/-! ### Stack, flags, no-operation (spec/44, spec/10 R18, R19) -/

/-- `fetch`, `push` and `pop` on trapped and untrapped addresses alike: one `rd(PC)` and the increment of `PC`; the write at
`0x0100 | SP` then the decrement; the read at the incremented `SP` in page 1 (R112, R18, R19). -/
def Obligations.FetchPushAndPop : Prop :=
  ∀ (v : Byte) (s : State),
    let top := BitVec.ofNat 16 (0x0100 + s.cpu.sp.toNat)
    let next := BitVec.ofNat 16 (0x0100 + (s.cpu.sp.toNat + 1) % 256)
    fetch s = ((cpuRead s.cpu.pc s).1, (cpuRead s.cpu.pc s).2.withCpu { s.cpu with pc := s.cpu.pc + 1 }) ∧
    push v s = (cpuWrite top v s).setSP (BitVec.ofNat 8 (s.cpu.sp.toNat + 255)) ∧
    pop s = ((cpuRead next s).1, (cpuRead next s).2.setSP (BitVec.ofNat 8 (s.cpu.sp.toNat + 1)))

/-- PHA and PHP push, PLA and PLP pull; PHP pushes both break bits, PLP forces them (R250 to R253). -/
def Obligations.StackInstructions : Prop :=
  ∀ s : State,
    let stored := fun (i : Instr) (v : Byte) =>
      ∃ t, exec i s = .next t ∧ t = (push v s).charge 3 ∧
        (∃ n, t.cpu = { s.cpu with sp := s.cpu.sp - 1, cyc := s.cpu.cyc + n + 3 } ∧
          (s.untrapped (stackAddr s.cpu.sp) → n = 0)) ∧
        MemoryKeptBut (cpuStoreLoc s (stackAddr s.cpu.sp)) s t ∧ BusesKept s t ∧
        (s.isMemory (stackAddr s.cpu.sp) → (∀ b ∈ s.bufs, b.wf = true) →
          t.byteAt (stackAddr s.cpu.sp) = v ∧ t.ppu = s.ppu ∧ t.plat = s.plat)
    stored .pha s.cpu.a ∧ stored .php (s.cpu.p ||| 0x30) ∧
    (∃ t, exec .pla s = .next t ∧ t.bufs = s.bufs ∧ BusesKept s t ∧
      t = (pop s).2.withCpu { s.cpu with a := (pop s).1, sp := s.cpu.sp + 1, p := t.cpu.p, cyc := s.cpu.cyc + 4 } ∧
      ZNFrom (pop s).1 s.cpu.p t.cpu.p) ∧
    (∃ t, exec .plp s = .next t ∧ t.bufs = s.bufs ∧ BusesKept s t ∧
      t = (pop s).2.withCpu
        { s.cpu with sp := s.cpu.sp + 1, p := ((pop s).1 &&& 0xEF) ||| 0x20, cyc := s.cpu.cyc + 4 }) ∧
    HasOpcode .pha (some 0x48) ∧ HasOpcode .pla (some 0x68) ∧ HasOpcode .php (some 0x08) ∧ HasOpcode .plp (some 0x28)

/-- CLC, SEC, CLI, SEI, CLV, CLD, SED: one bit of `P`, two cycles, nothing else (R254 to R260). -/
def Obligations.FlagInstructions : Prop :=
  FlagRule .clc 0x18 .c false ∧ FlagRule .sec 0x38 .c true ∧ FlagRule .cli 0x58 .i false ∧ FlagRule .sei 0x78 .i true ∧
  FlagRule .clv 0xB8 .v false ∧ FlagRule .cld 0xD8 .d false ∧ FlagRule .sed 0xF8 .d true

/-- NOP: the implied forms change `CYC` alone; the forms with an operand make their access and discard the byte (R270 to
R272). -/
def Obligations.NopDiscardsItsOperand : Prop :=
  (∀ (op : Byte) (s : State),
    exec (.nop op none) s = .next (s.withCpu { s.cpu with cyc := s.cpu.cyc + 2 }) ∧
    (∀ src, ∃ t, exec (.nop op (some src)) s = .next t ∧ AfterRead src s t s.cpu)) ∧
  (∀ (op b : Byte) (w : Addr),
    ((Instr.nop op none).wellFormed = true ↔ op ∈ [0xEA, 0x1A, 0x3A, 0x5A, 0x7A, 0xDA, 0xFA]) ∧
    ((Instr.nop op (some (.imm b))).wellFormed = true ↔ op ∈ [0x80]) ∧
    ((Instr.nop op (some (.mem (.zp b)))).wellFormed = true ↔ op ∈ [0x04, 0x44, 0x64]) ∧
    ((Instr.nop op (some (.mem (.zpx b)))).wellFormed = true ↔ op ∈ [0x14, 0x34, 0x54, 0x74, 0xD4, 0xF4]) ∧
    ((Instr.nop op (some (.mem (.abs w)))).wellFormed = true ↔ op ∈ [0x0C]) ∧
    ((Instr.nop op (some (.mem (.abx w)))).wellFormed = true ↔ op ∈ [0x1C, 0x3C, 0x5C, 0x7C, 0xDC, 0xFC]))

/-- What is pushed comes back: JSR then RTS resumes after the JSR, PHA then PLA restores `A` (with Z and N from it), PHP then
PLP restores `P`, and RTI resumes what an interrupt entry interrupted with `P.I` as it was (R223, R224, R250 to R253, R430,
R434). Each pair leaves every other CPU register but `CYC`, the PPU and the platform as they were. -/
def Obligations.StackRoundTrips : Prop :=
  ∀ s : State, s.hasStack → (∀ b ∈ s.bufs, b.wf = true) →
    (∀ (w : Addr) (t : State), exec (.jsr w) s = .next t →
      ∃ u, exec .rts t = .next u ∧ u.cpu = { s.cpu with cyc := s.cpu.cyc + 12 } ∧ u.ppu = s.ppu ∧ u.plat = s.plat) ∧
    (∀ (a p : Byte) (t : State), exec .pha s = .next t →
      ∃ u, exec .pla (t.withCpu { t.cpu with a := a, p := p }) = .next u ∧
        u.cpu = { s.cpu with p := u.cpu.p, cyc := s.cpu.cyc + 7 } ∧ ZNFrom s.cpu.a p u.cpu.p ∧
        u.ppu = s.ppu ∧ u.plat = s.plat) ∧
    (∀ (p : Byte) (t : State), s.cpu.p &&& 0x30 = 0x20 → exec .php s = .next t →
      ∃ u, exec .plp (t.setP p) = .next u ∧ u.cpu = { s.cpu with cyc := s.cpu.cyc + 7 } ∧
        u.ppu = s.ppu ∧ u.plat = s.plat) ∧
    (∀ vec : Addr, s.cpu.p &&& 0x30 = 0x20 → s.untrapped vec → s.untrapped (vec + 1) →
      ∃ u, exec .rti (enterInterrupt vec s) = .next u ∧ u.cpu = { s.cpu with cyc := s.cpu.cyc + 13 } ∧
        u.ppu = s.ppu ∧ u.plat = s.plat)

/-! ### Interrupts and DMA (spec/60) -/

/-- Interrupt entry: three pushes, `P.I` set, `PC` from the vector, seven cycles; `raiseIRQ` enters only with `P.I` 0 and
else changes nothing, `raiseNMI` always enters (R430 to R432). -/
def Obligations.InterruptEntry : Prop :=
  (∀ (vec : Addr) (s : State),
    let s1 := push (s.cpu.p ||| 0x30) (push (loByte s.cpu.pc) (push (hiByte s.cpu.pc) s))
    let lo := cpuRead vec (s1.withCpu { s1.cpu with p := setFlag .i true s.cpu.p })
    let hi := cpuRead (vec + 1) lo.2
    let t := enterInterrupt vec s
    t = hi.2.withCpu { hi.2.cpu with pc := wordOf hi.1 lo.1, cyc := hi.2.cpu.cyc + 7 } ∧
    (∃ n, t.cpu = { s.cpu with sp := s.cpu.sp - 3, p := t.cpu.p, pc := wordOf hi.1 lo.1, cyc := s.cpu.cyc + n + 7 }) ∧
    getFlag t.cpu.p .i = true ∧ FlagsKept [.i] s.cpu.p t.cpu.p ∧ BusesKept s t ∧
    (s.hasStack → (∀ b ∈ s.bufs, b.wf = true) → s.untrapped vec → s.untrapped (vec + 1) →
      t.cpu.cyc = s.cpu.cyc + 7 ∧ t.cpu.pc = t.wordAt vec (vec + 1) ∧ t.ppu = s.ppu ∧ t.plat = s.plat ∧
      t.byteAt (stackAddr s.cpu.sp) = hiByte s.cpu.pc ∧ t.byteAt (stackAddr (s.cpu.sp - 1)) = loByte s.cpu.pc ∧
      t.byteAt (stackAddr (s.cpu.sp - 2)) = s.cpu.p ||| 0x30)) ∧
  (∀ s : State, (getFlag s.cpu.p .i = true → raiseIRQ s = s) ∧
    (getFlag s.cpu.p .i = false → raiseIRQ s = enterInterrupt 0xFFFE s) ∧ raiseNMI s = enterInterrupt 0xFFFA s)

/-- `copyOAM`: 513 or 514 cycles by the parity of `CYC`, no other register; then 256 reads, trapped or not, and writes, in
ascending order. Into primary OAM it copies the page and stores to no buffer. Into a platform buffer it stores to the first
256 bytes and to no other byte: each is the page's byte, or, where the page shows a destination byte that was written
before, that byte's new value. A store to the platform's DMA register runs it before the store's own cost is added (R445,
R446, R460). -/
def Obligations.CopyOamCopiesAPage : Prop :=
  ∀ (h : Byte) (s : State),
    let charged := s.withCpu { s.cpu with cyc := s.cpu.cyc + (if s.cpu.cyc % 2 = 1 then 514 else 513) }
    let page := ∀ i : Byte, s.untrapped (wordOf h i)
    (∀ dest,
      let t := copyOAM h dest s
      t.cpu = charged.cpu ∧ BusesKept s t ∧ t.bufs.map Buffer.len = s.bufs.map Buffer.len ∧
      t = (List.range 256).foldl (fun u n =>
        let i := BitVec.ofNat 8 n
        let r := cpuRead (wordOf h i) u
        match dest with
        | .oam => r.2.withPpu { r.2.ppu with oam := setAtByte r.2.ppu.oam i r.1 }
        | .buffer k => r.2.withBufs (storeWrite r.2.bufs (k, n) r.1)) charged) ∧
    (let t := copyOAM h .oam s
     t.bufs = s.bufs ∧
      (page → t.ppu = { s.ppu with oam := t.ppu.oam } ∧ t.plat = s.plat ∧
        ∀ i : Byte, atByte t.ppu.oam i = s.byteAt (wordOf h i))) ∧
    (∀ k b, s.bufs[k]? = some b → 256 ≤ b.len → (∀ c ∈ s.bufs, c.wf = true) →
      let t := copyOAM h (.buffer k) s
      (∀ l : Loc, l.1 ≠ k ∨ 256 ≤ l.2 → storeRead t.bufs l = storeRead s.bufs l) ∧
      (page → t.ppu = s.ppu ∧ t.plat = s.plat ∧
        ∀ i : Byte,
          ((∀ j : Byte, j < i → s.cpuBus.locate (wordOf h i) ≠ some (k, j.toNat)) →
            storeRead t.bufs (k, i.toNat) = s.byteAt (wordOf h i)) ∧
          (∀ j : Byte, j < i → s.cpuBus.locate (wordOf h i) = some (k, j.toNat) →
            storeRead t.bufs (k, i.toNat) = storeRead t.bufs (k, j.toNat)))) ∧
    (∀ (w : Addr) (d : Trap CpuCallback), s.cpuBus.trapAt w = some d → d.callback = .oamDma w →
      exec (.sta (.abs w)) s = .next ((copyOAM s.cpu.a .oam s).charge 4))

/-! ### The AddressSpace (spec/20) -/

/-- Resolution: the lowest filled trap slot whose range holds the address takes the access, else the page table decides:
the mapped byte at `base + ((addr & 0xFF) & mask)`, 0x00 and no effect on an unmapped page (R61 to R63, R71), on either
AddressSpace. A trap of a component outside the block is an external input on a read and an output event on a write (R72,
R461), and nothing else changes. The model's choices: the answer is the oldest input and, with none left, the free value
(log entry 4); the event (log entry 5); every trap of `PpuBus` is such a component's (log entry 13); so is the DMA trap on a
read (log entry 18) and on a write to an address that is not the DMA register's (R460; log entry 22). -/
def Obligations.AccessResolution : Prop :=
  (∀ (κ : Type) (bus : AddressSpace κ) (a : Addr),
    (∀ t, bus.trapAt a = some t ↔ ∃ i : Nat, bus.traps[i]? = some t ∧ t.start ≤ a ∧ a ≤ t.stop ∧
      ∀ j < i, ∀ u : Trap κ, bus.traps[j]? = some u → ¬ (u.start ≤ a ∧ a ≤ u.stop)) ∧
    (bus.trapAt a = none ↔ ∀ t ∈ bus.traps, ¬ (t.start ≤ a ∧ a ≤ t.stop)) ∧
    (∀ h base mask, atByte bus.pages (BitVec.ofNat 8 (a.toNat / 256)) = .mapped h base mask →
      bus.locate a = some (h, base + (BitVec.ofNat 8 a.toNat &&& mask).toNat)) ∧
    (atByte bus.pages (BitVec.ofNat 8 (a.toNat / 256)) = .unmapped → bus.locate a = none)) ∧
  (∀ (a : Addr) (v : Byte) (s : State),
    (∀ t, s.cpuBus.trapAt a = some t → cpuRead a s = cpuTrapRead t a s ∧ cpuWrite a v s = cpuTrapWrite t a v s) ∧
    (s.untrapped a → ∀ l, s.cpuBus.locate a = some l →
      cpuRead a s = (storeRead s.bufs l, s) ∧ cpuWrite a v s = s.withBufs (storeWrite s.bufs l v)) ∧
    (s.untrapped a → s.cpuBus.locate a = none → cpuRead a s = (0x00, s) ∧ cpuWrite a v s = s) ∧
    (s.ppuBus.trapAt a = none → ∀ l, s.ppuBus.locate a = some l →
      ppuBusRead a s = (storeRead s.bufs l, s) ∧ ppuBusWrite a v s = s.withBufs (storeWrite s.bufs l v)) ∧
    (s.ppuBus.trapAt a = none → s.ppuBus.locate a = none → ppuBusRead a s = (0x00, s) ∧ ppuBusWrite a v s = s)) ∧
  (∀ (a : Addr) (v : Byte) (s : State),
    let answer := fun context : Nat => (s.plat.inputs.headD (Config.externalRead context a s.plat.extReads),
      s.withPlat { s.plat with inputs := s.plat.inputs.tail, extReads := s.plat.extReads + 1 })
    let event := fun context : Nat =>
      s.withPlat { s.plat with outputs := s.plat.outputs ++ [{ context := context, addr := a, value := v }] }
    (∀ t, s.cpuBus.trapAt a = some t →
      (t.callback ≠ .ppuWindow → cpuRead a s = answer t.context) ∧
      (t.callback = .external → cpuWrite a v s = event t.context) ∧
      (t.callback = .oamDma a → cpuWrite a v s = copyOAM v .oam s) ∧
      (∀ reg, t.callback = .oamDma reg → a ≠ reg → cpuWrite a v s = event t.context)) ∧
    (∀ t, s.ppuBus.trapAt a = some t → ppuBusRead a s = answer t.context ∧ ppuBusWrite a v s = event t.context))

/-- A write of a memory address, through either AddressSpace, is visible to a read, through either, of every address that
names the same byte, and changes no other byte (R74, R84, R26). -/
def Obligations.WritesAreVisible : Prop :=
  ∀ (a b : Addr) (v : Byte) (s : State), (∀ c ∈ s.bufs, c.wf = true) →
    let ppuMemory := s.ppuBus.trapAt a = none ∧ ∃ l, s.ppuBus.locate a = some l ∧ inStore s.bufs l
    (s.isMemory a → s.untrapped b →
      (s.cpuBus.locate b = s.cpuBus.locate a → (cpuRead b (cpuWrite a v s)).1 = v) ∧
      (s.cpuBus.locate b ≠ s.cpuBus.locate a → (cpuRead b (cpuWrite a v s)).1 = (cpuRead b s).1)) ∧
    (s.isMemory a → s.ppuBus.trapAt b = none →
      (s.ppuBus.locate b = s.cpuBus.locate a → (ppuBusRead b (cpuWrite a v s)).1 = v) ∧
      (s.ppuBus.locate b ≠ s.cpuBus.locate a → (ppuBusRead b (cpuWrite a v s)).1 = (ppuBusRead b s).1)) ∧
    (ppuMemory → s.untrapped b →
      (s.cpuBus.locate b = s.ppuBus.locate a → (cpuRead b (ppuBusWrite a v s)).1 = v) ∧
      (s.cpuBus.locate b ≠ s.ppuBus.locate a → (cpuRead b (ppuBusWrite a v s)).1 = (cpuRead b s).1)) ∧
    (ppuMemory → s.ppuBus.trapAt b = none →
      (s.ppuBus.locate b = s.ppuBus.locate a → (ppuBusRead b (ppuBusWrite a v s)).1 = v) ∧
      (s.ppuBus.locate b ≠ s.ppuBus.locate a → (ppuBusRead b (ppuBusWrite a v s)).1 = (ppuBusRead b s).1))

/-- `map` tiles the buffer over the range, inside the buffer, with the mask; every page outside and every trap is kept;
`unmap` clears the range and nothing else (R64 to R66, R68, R74). -/
def Obligations.MapTilesAndUnmapClears : Prop :=
  ∀ (κ : Type) (bus : AddressSpace κ) (h len : Nat) (start stop : Addr) (mask : Byte) (a : Addr),
    (mapAllowed len start stop mask = true →
      (bus.map h len start stop mask).traps = bus.traps ∧
      (start ≤ a → a ≤ stop →
        (bus.map h len start stop mask).locate a =
          some (h, (a.toNat - start.toNat) / 256 % srcPages len * 256 + (BitVec.ofNat 8 a.toNat &&& mask).toNat) ∧
        (a.toNat - start.toNat) / 256 % srcPages len * 256 + (BitVec.ofNat 8 a.toNat &&& mask).toNat < len) ∧
      (¬ (start ≤ a ∧ a ≤ stop) → (bus.map h len start stop mask).locate a = bus.locate a)) ∧
    (rangeAligned start stop = true →
      (bus.unmap start stop).traps = bus.traps ∧
      (start ≤ a → a ≤ stop → (bus.unmap start stop).locate a = none) ∧
      (¬ (start ≤ a ∧ a ≤ stop) → (bus.unmap start stop).locate a = bus.locate a))

/-- `map`, `unmap` and `mapRegister` as transitions: the AddressSpace they name becomes what the operation makes of it and
nothing else changes; `map` and `unmap` are refused exactly when a precondition fails; `mapRegister` with four slots filled
changes nothing, whatever its range (R64, R65, R68 to R70; that a zero-length buffer fails and that a reversed range is
refused when a slot is free are the model's readings, log entries 10 and 11). -/
def Obligations.ConfigurationPreconditions : Prop :=
  ∀ (s : State) (r : List Transition) (bus : Bus) (h : Nat) (start stop : Addr) (mask : Byte),
    let aligned := start.toNat % 256 = 0 ∧ stop.toNat % 256 = 255 ∧ start.toNat ≤ stop.toNat
    let u := s.withPlat { s.plat with pending := r }
    (∀ b, s.plat.pending = .map bus h start stop mask :: r → s.bufs[h]? = some b →
      let ok := aligned ∧ (stop.toNat - start.toNat + 1) / 256 % max 1 ((b.len + 255) / 256) = 0 ∧
        ((0 < b.len ∧ b.len % 256 = 0) ∨ (b.len < 256 ∧ mask.toNat < b.len))
      (ok → mapAllowed b.len start stop mask = true ∧
        (bus = .cpu → step s = .next (u.withCpuBus (s.cpuBus.map h b.len start stop mask))) ∧
        (bus = .ppu → step s = .next (u.withPpuBus (s.ppuBus.map h b.len start stop mask)))) ∧
      (¬ ok → step s = .refused .mapPrecondition)) ∧
    (s.plat.pending = .unmap bus start stop :: r →
      (aligned → rangeAligned start stop = true ∧
        (bus = .cpu → step s = .next (u.withCpuBus (s.cpuBus.unmap start stop))) ∧
        (bus = .ppu → step s = .next (u.withPpuBus (s.ppuBus.unmap start stop)))) ∧
      (¬ aligned → step s = .refused .unmapPrecondition)) ∧
    (∀ context callback, s.plat.pending = .mapCpuRegister start stop context callback :: r →
      let d := { start := start, stop := stop, context := context, callback := callback : Trap CpuCallback }
      (4 ≤ s.cpuBus.traps.length → step s = .next u) ∧
      (s.cpuBus.traps.length < 4 → start.toNat ≤ stop.toNat → step s = .next (u.withCpuBus (s.cpuBus.mapRegister d))) ∧
      (s.cpuBus.traps.length < 4 → stop.toNat < start.toNat → step s = .refused .trapRange)) ∧
    (∀ context, s.plat.pending = .mapPpuRegister start stop context :: r →
      let d := { start := start, stop := stop, context := context, callback := .external : Trap PpuCallback }
      (4 ≤ s.ppuBus.traps.length → step s = .next u) ∧
      (s.ppuBus.traps.length < 4 → start.toNat ≤ stop.toNat → step s = .next (u.withPpuBus (s.ppuBus.mapRegister d))) ∧
      (s.ppuBus.traps.length < 4 → stop.toNat < start.toNat → step s = .refused .trapRange))

/-- `mapRegister` fills the next of four slots; a fifth registration changes nothing; an address that a trap already takes
keeps its trap (R69 to R71). -/
def Obligations.TrapSlots : Prop :=
  ∀ (κ : Type) (bus : AddressSpace κ) (t : Trap κ),
    (bus.traps.length < 4 → (bus.mapRegister t).traps = bus.traps ++ [t] ∧ (bus.mapRegister t).pages = bus.pages ∧
      ∀ a, (∀ u, bus.trapAt a = some u → (bus.mapRegister t).trapAt a = some u) ∧
        (bus.trapAt a = none → t.start ≤ a → a ≤ t.stop → (bus.mapRegister t).trapAt a = some t)) ∧
    (4 ≤ bus.traps.length → bus.mapRegister t = bus)

/-! ### The PPU's registers (spec/47) -/

/-- The register window: an access of an address that the window's trap takes is the access of register `a & 7`; the write-
only registers read as 0x00 and change nothing (R301 to R303, R308). -/
def Obligations.PpuWindow : Prop :=
  (∀ (a : Addr) (v : Byte) (s : State) (t : Trap CpuCallback), s.cpuBus.trapAt a = some t → t.callback = .ppuWindow →
    cpuRead a s = regRead (PpuReg.ofAddr a) s ∧ cpuWrite a v s = regWrite (PpuReg.ofAddr a) v s) ∧
  (∀ a : Addr, [PpuReg.ctrl, .mask, .status, .oamAddr, .oamData, .scroll, .addr, .data][a.toNat % 8]? =
    some (PpuReg.ofAddr a)) ∧
  (∀ s : State, ∀ r ∈ [PpuReg.ctrl, .mask, .oamAddr, .scroll, .addr], regRead r s = (0x00, s)) ∧
  (∀ (d : Byte) (s : State), regWrite .status d s = s)

/-- Writes of `CTRL`, `MASK` and `OAMADDR`: the register, and for `CTRL` bits 11:10 of `t`; nothing else (R305, R306,
R309). -/
def Obligations.ControlRegisterWrites : Prop :=
  ∀ (d : Byte) (s : State),
    (∃ t, regWrite .ctrl d s = s.withPpu { s.ppu with ctrl := d, t := t } ∧ t.getLsbD 10 = d.getLsbD 0 ∧
      t.getLsbD 11 = d.getLsbD 1 ∧ ∀ i, i ≠ 10 → i ≠ 11 → t.getLsbD i = s.ppu.t.getLsbD i) ∧
    regWrite .mask d s = s.withPpu { s.ppu with mask := d } ∧
    regWrite .oamAddr d s = s.withPpu { s.ppu with oamAddr := d }

/-- Writes of `SCROLL` and `ADDR` by the toggle `w`, bit by bit (R312, R313). -/
def Obligations.ScrollAndAddressWrites : Prop :=
  ∀ (d : Byte) (s : State),
    (s.ppu.w = false →
      (∃ t, regWrite .scroll d s = s.withPpu { s.ppu with t := t, x := BitVec.ofNat 3 d.toNat, w := true } ∧
        (∀ i < 5, t.getLsbD i = d.getLsbD (i + 3)) ∧ ∀ i, 5 ≤ i → t.getLsbD i = s.ppu.t.getLsbD i) ∧
      (∃ t, regWrite .addr d s = s.withPpu { s.ppu with t := t, w := true } ∧
        (∀ i < 8, t.getLsbD i = s.ppu.t.getLsbD i) ∧ (∀ i < 6, t.getLsbD (i + 8) = d.getLsbD i) ∧
        t.getLsbD 14 = false)) ∧
    (s.ppu.w = true →
      (∃ t, regWrite .scroll d s = s.withPpu { s.ppu with t := t, w := false } ∧
        (∀ i < 5, t.getLsbD i = s.ppu.t.getLsbD i) ∧ (∀ i < 5, t.getLsbD (i + 5) = d.getLsbD (i + 3)) ∧
        (∀ i < 3, t.getLsbD (i + 12) = d.getLsbD i) ∧ t.getLsbD 10 = s.ppu.t.getLsbD 10 ∧
        t.getLsbD 11 = s.ppu.t.getLsbD 11) ∧
      (∃ t, regWrite .addr d s = s.withPpu { s.ppu with t := t, v := t, w := false } ∧
        (∀ i < 8, t.getLsbD i = d.getLsbD i) ∧ ∀ i, 8 ≤ i → t.getLsbD i = s.ppu.t.getLsbD i))

/-- Read of `STATUS`, read and write of `OAMDATA` (R307, R310, R311). -/
def Obligations.StatusAndOamData : Prop :=
  ∀ (d : Byte) (s : State),
    let enabled := s.ppu.mask.getLsbD 3 || s.ppu.mask.getLsbD 4
    (∃ st, regRead .status s = (s.ppu.status &&& 0xE0, s.withPpu { s.ppu with status := st, w := false }) ∧
      st.getLsbD 7 = false ∧ ∀ i < 7, st.getLsbD i = s.ppu.status.getLsbD i) ∧
    (enabled = true ∧ s.ppu.scanline ≤ 239 ∧ 1 ≤ s.ppu.dot ∧ s.ppu.dot ≤ 64 → regRead .oamData s = (0xFF, s)) ∧
    (¬ (enabled = true ∧ s.ppu.scanline ≤ 239 ∧ 1 ≤ s.ppu.dot ∧ s.ppu.dot ≤ 64) →
      regRead .oamData s = (atByte s.ppu.oam s.ppu.oamAddr, s)) ∧
    (enabled = true ∧ (s.ppu.scanline ≤ 239 ∨ s.ppu.scanline = 261) → regWrite .oamData d s = s) ∧
    (¬ (enabled = true ∧ (s.ppu.scanline ≤ 239 ∨ s.ppu.scanline = 261)) →
      regWrite .oamData d s = s.withPpu
        { s.ppu with oam := setAtByte s.ppu.oam s.ppu.oamAddr d, oamAddr := s.ppu.oamAddr + 1 })

/-- Read and write of `DATA`: the palette bypasses the delay buffer, other reads return the byte of the read before, `v`
moves by 1 or 32 modulo 32768 (R318 to R320). -/
def Obligations.DataRegister : Prop :=
  ∀ (d : Byte) (s : State),
    let a := BitVec.ofNat 16 (s.ppu.v.toNat % 0x4000)
    let r := ppuRead a s
    let v := BitVec.ofNat 15 (s.ppu.v.toNat + (if s.ppu.ctrl.getLsbD 2 then 32 else 1))
    (0x3F00 ≤ s.ppu.v.toNat % 0x4000 → regRead .data s = (r.1, r.2.withPpu { s.ppu with v := v })) ∧
    (s.ppu.v.toNat % 0x4000 < 0x3F00 →
      regRead .data s = (s.ppu.readBuffer, r.2.withPpu { s.ppu with v := v, readBuffer := r.1 })) ∧
    regWrite .data d s = (ppuWrite a d s).withPpu { s.ppu with v := v }

/-- `prd` and `pwr`: 14 address bits, the four palette aliases and no other, then one access of `PpuBus` (R322, R323). -/
def Obligations.PaletteAlias : Prop :=
  (∀ (a : Addr) (d : Byte) (s : State), ppuRead a s = ppuBusRead (ppuBusAddr a) s ∧
    ppuWrite a d s = ppuBusWrite (ppuBusAddr a) d s) ∧
  (∀ a : Addr, (a.toNat % 0x4000 ∈ [0x3F10, 0x3F14, 0x3F18, 0x3F1C] →
      (ppuBusAddr a).toNat = a.toNat % 0x4000 - 0x10) ∧
    (a.toNat % 0x4000 ∉ [0x3F10, 0x3F14, 0x3F18, 0x3F1C] → (ppuBusAddr a).toNat = a.toNat % 0x4000)) ∧
  (∀ (a : Addr) (d : Byte) (s : State), s.ppuBus.trapAt a = none →
    ppuBusRead a s = (s.ppuBus.peek s.bufs a, s) ∧ ppuBusWrite a d s = s.withBufs (s.ppuBus.poke s.bufs a d))

/-! ### The PPU's tick (spec/48) -/

/-- A tick returns true exactly at (241, 1), leaves the CPU, memory, both AddressSpaces and the platform but for the answers
of trapped reads alone, and advances the counters as R358 says, whatever `MASK` holds (R350, R356, R358). It never changes
`CTRL`, `MASK`, `OAMADDR` (R309), primary OAM, `t`, `x`, `w` (R314) or `readBuffer`; on lines 240 to 260 nothing happens but
counting and the edge of R356 (R353). -/
def Obligations.TickAdvancesTheCounters : Prop :=
  ∀ s : State,
    let t := (ppuTick s).2
    let len := if s.ppu.scanline = 261 ∧ s.ppu.frame % 2 = 1 then 340 else 341
    (ppuTick s).1 = decide (s.ppu.scanline = 241 ∧ s.ppu.dot = 1) ∧
    t.cpu = s.cpu ∧ t.bufs = s.bufs ∧ BusesKept s t ∧
    t.plat = { s.plat with inputs := t.plat.inputs, extReads := t.plat.extReads } ∧
    t.ppu = { t.ppu with ctrl := s.ppu.ctrl, mask := s.ppu.mask, oamAddr := s.ppu.oamAddr, oam := s.ppu.oam, t := s.ppu.t,
                         x := s.ppu.x, w := s.ppu.w, readBuffer := s.ppu.readBuffer } ∧
    (240 ≤ s.ppu.scanline → s.ppu.scanline ≤ 260 →
      t = s.withPpu { s.ppu with
        dot := t.ppu.dot, scanline := t.ppu.scanline, frame := t.ppu.frame,
        status := if s.ppu.scanline = 241 ∧ s.ppu.dot = 1 then s.ppu.status ||| 0x80 else s.ppu.status }) ∧
    (s.ppu.dot + 1 ≠ len → t.ppu.dot = s.ppu.dot + 1 ∧ t.ppu.scanline = s.ppu.scanline ∧ t.ppu.frame = s.ppu.frame) ∧
    (s.ppu.dot + 1 = len → t.ppu.dot = 0 ∧
      (s.ppu.scanline = 261 → t.ppu.scanline = 0 ∧ t.ppu.frame = s.ppu.frame + 1) ∧
      (s.ppu.scanline ≠ 261 → t.ppu.scanline = s.ppu.scanline + 1 ∧ t.ppu.frame = s.ppu.frame))

/-- `n` ticks in a row. -/
def ticks : Nat → State → State
  | 0, s => s
  | n + 1, s => (ppuTick (ticks n s)).2

/-- A frame has 89342 ticks, an odd one 89341; from the start of a frame exactly one tick of it returns true, the 82183rd,
and after it the next frame starts (R359, R358, R356). -/
def Obligations.OneVBlankEdgeInEveryFrame : Prop :=
  ∀ s : State, s.ppu.dot = 0 → s.ppu.scanline = 0 →
    let len := if s.ppu.frame % 2 = 1 then 89341 else 89342
    (∀ n < len, (ppuTick (ticks n s)).1 = decide (n = 82182)) ∧
    (ticks len s).ppu.dot = 0 ∧ (ticks len s).ppu.scanline = 0 ∧ (ticks len s).ppu.frame = s.ppu.frame + 1

/-- The status flags: vblank is set at (241, 1), all three are cleared at (261, 1); elsewhere a tick changes none but
sprite-zero hit, which it can only set, and only on a visible dot (R356, R357, R396, R30). -/
def Obligations.StatusFlagsChangeOnlyWhereStated : Prop :=
  ∀ s : State,
    let t := (ppuTick s).2.ppu.status
    (s.ppu.scanline = 241 ∧ s.ppu.dot = 1 → t = s.ppu.status ||| 0x80) ∧
    (s.ppu.scanline = 261 ∧ s.ppu.dot = 1 → t = s.ppu.status &&& 0x1F) ∧
    (¬ (s.ppu.scanline = 241 ∧ s.ppu.dot = 1) → ¬ (s.ppu.scanline = 261 ∧ s.ppu.dot = 1) →
      (∀ i, i ≠ 6 → t.getLsbD i = s.ppu.status.getLsbD i) ∧
      (s.ppu.status.getLsbD 6 = true → t.getLsbD 6 = true) ∧
      (¬ (s.ppu.scanline ≤ 239 ∧ 1 ≤ s.ppu.dot ∧ s.ppu.dot ≤ 256) → t = s.ppu.status))

/-- With background and sprites off a tick leaves `v`, the latches, the shifters, both OAMs and (but for the pre-render
clear) the sprite slots alone, and a visible dot shows the backdrop (R352, R399). -/
def Obligations.RenderingOffLeavesThePipelineAlone : Prop :=
  ∀ s : State, s.ppu.mask.getLsbD 3 = false → s.ppu.mask.getLsbD 4 = false →
    let t := (ppuTick s).2.ppu
    t = { s.ppu with dot := t.dot, scanline := t.scanline, frame := t.frame, status := t.status, slots := t.slots,
                     slot0IsSprite0 := t.slot0IsSprite0, frameBuffer := t.frameBuffer } ∧
    (¬ (s.ppu.scanline = 261 ∧ s.ppu.dot = 1) → t.slots = s.ppu.slots ∧ t.slot0IsSprite0 = s.ppu.slot0IsSprite0 ∧
      (¬ (s.ppu.scanline = 241 ∧ s.ppu.dot = 1) → t.status = s.ppu.status)) ∧
    (s.ppu.scanline ≤ 239 → 1 ≤ s.ppu.dot → s.ppu.dot ≤ 256 →
      t.frameBuffer = s.ppu.frameBuffer.setIfInBounds (s.ppu.scanline * 256 + (s.ppu.dot - 1))
        ((ppuRead 0x3F00 s).1.setWidth 6))

/-- A tick writes the frame buffer at one index, `y * 256 + x` with `x = dot - 1`, and only on dots 1 to 256 of a visible
line; what it writes there is the colour number that `prd` gives for the compositor's palette entry of the two layers'
pixels, as the shifters and slots stand after the dot's shift, and the hit flag follows from the same two pixels (R351,
R390, R396 to R398). -/
def Obligations.FrameBufferWrittenAtThePixelOnly : Prop :=
  (∀ (s : State) (i : Fin 61440),
    ¬ (s.ppu.scanline ≤ 239 ∧ 1 ≤ s.ppu.dot ∧ s.ppu.dot ≤ 256 ∧
        i.val = s.ppu.scanline * 256 + (s.ppu.dot - 1)) →
    (ppuTick s).2.ppu.frameBuffer[i] = s.ppu.frameBuffer[i]) ∧
  (∀ (s : State) (i : Fin 61440), s.ppu.scanline ≤ 239 → 1 ≤ s.ppu.dot → s.ppu.dot ≤ 256 →
    i.val = s.ppu.scanline * 256 + (s.ppu.dot - 1) →
    let t := (ppuTick s).2.ppu
    let bg := bgPixel t (s.ppu.dot - 1)
    let sp := spritePixel t (s.ppu.dot - 1)
    let a := BitVec.ofNat 16 (0x3F00 + (composite bg sp).toNat)
    t.frameBuffer[i] = (ppuRead a (backgroundPhase s)).1.setWidth 6 ∧
    (s.ppuBus.trapAt (ppuBusAddr a) = none →
      t.frameBuffer[i] = (s.ppuBus.peek s.bufs (ppuBusAddr a)).setWidth 6) ∧
    t.status.getLsbD 6 = (s.ppu.status.getLsbD 6 || spriteZeroHit bg sp))

/-- The sprites. Evaluation copies the first eight entries of primary OAM, ascending, whose Y range includes the line, and
records how many and whether entry 0 is the first (R378). In a tick, with rendering enabled on a visible line: secondary
OAM is set to 0xFF byte by byte on dots 1 to 64 and evaluated on dot 256 (R375); the slots count down or shift on dots 2 to
256 (R387), slot 0's mark is taken on dot 257, slot `k` is loaded on dots `262 + 8k` and `264 + 8k` (R380, R385). Otherwise
the pre-render clear is all that touches them (R357, R352). -/
def Obligations.SpriteEvaluationTakesTheFirstEight : Prop :=
  (∀ p : Ppu, p.dot = 256 →
    let inRange := fun n => decide ((p.oamByte n 0).toNat ≤ p.scanline ∧
      p.scanline < (p.oamByte n 0).toNat + (if p.ctrl.getLsbD 5 then 16 else 8))
    let chosen := ((List.range 64).filter inRange).take 8
    let q := spriteEvaluation p
    q.secCount = chosen.length ∧ q.secHasSprite0 = inRange 0 ∧
    (∀ k n, chosen[k]? = some n → ∀ j < 4, q.secByte k j = p.oamByte n j) ∧
    (∀ k j, chosen.length ≤ k → k < 8 → j < 4 → q.secByte k j = p.secByte k j) ∧
    q = { p with secondaryOam := q.secondaryOam, secCount := q.secCount, secHasSprite0 := q.secHasSprite0 }) ∧
  (∀ s : State,
    let p := s.ppu
    let d := p.dot
    let t := (ppuTick s).2.ppu
    let on := (p.mask.getLsbD 3 = true ∨ p.mask.getLsbD 4 = true) ∧ p.scanline ≤ 239
    let byte := fun (k : Nat) (a : Addr) =>
      if (p.secByte k 2).getLsbD 6 then (ppuRead a s).1.reverse else (ppuRead a s).1
    (on →
      (∀ j : Fin 32, t.secondaryOam[j] =
        if 1 ≤ d ∧ d ≤ 64 ∧ j.val = (d - 1) / 2 then 0xFF
        else if d = 256 then (spriteEvaluation p).secondaryOam[j] else p.secondaryOam[j]) ∧
      t.secCount = (if d = 256 then (spriteEvaluation p).secCount else p.secCount) ∧
      t.secHasSprite0 = (if d = 256 then (spriteEvaluation p).secHasSprite0 else p.secHasSprite0) ∧
      t.slot0IsSprite0 = (if d = 257 then p.secHasSprite0 else p.slot0IsSprite0) ∧
      (∀ k : Fin 8, t.slots[k] =
        if 2 ≤ d ∧ d ≤ 256 then
          if p.slots[k].sprX = 0 then
            { p.slots[k] with sprLo := BitVec.ofNat 8 (2 * p.slots[k].sprLo.toNat),
                              sprHi := BitVec.ofNat 8 (2 * p.slots[k].sprHi.toNat) }
          else { p.slots[k] with sprX := BitVec.ofNat 8 (p.slots[k].sprX.toNat - 1) }
        else if d = 262 + 8 * k.val then
          if k.val < p.secCount then
            { p.slots[k] with sprLo := byte k.val (spriteAddr p k.val), sprAttr := p.secByte k.val 2,
                              sprX := p.secByte k.val 3 }
          else { p.slots[k] with sprLo := 0, sprAttr := 0, sprX := 0 }
        else if d = 264 + 8 * k.val then
          { p.slots[k] with sprHi := if k.val < p.secCount then byte k.val (spriteAddr p k.val + 8) else 0 }
        else p.slots[k])) ∧
    (¬ on → t.secondaryOam = p.secondaryOam ∧ t.secCount = p.secCount ∧ t.secHasSprite0 = p.secHasSprite0 ∧
      (p.scanline = 261 ∧ d = 1 → t.slot0IsSprite0 = false ∧
        ∀ k : Fin 8, t.slots[k] = { p.slots[k] with sprLo := 0, sprHi := 0 }) ∧
      (¬ (p.scanline = 261 ∧ d = 1) → t.slot0IsSprite0 = p.slot0IsSprite0 ∧ t.slots = p.slots)))

/-- The addresses the pipelines fetch from, in the fields of `v` and of a sprite entry on a line its range includes (R363,
R364, R366, R383); and the background pipeline of a tick, with rendering enabled on a visible or the pre-render line: which
latch is fetched from where on which dot, on which dots the four shifters shift and reload, and that otherwise they stay
(R360, R362 to R367, R372); with rendering off or on any other line they all stay (R351 to R353). -/
def Obligations.FetchAddresses : Prop :=
  (∀ (p : Ppu) (v : Scroll) (b : Byte),
    let x := v.toNat % 32
    let y := v.toNat / 32 % 32
    (nametableAddr v).toNat = 0x2000 + v.toNat % 4096 ∧
    (attributeAddr v).toNat = 0x23C0 + v.toNat / 1024 % 4 * 1024 + y / 4 * 8 + x / 4 ∧
    (attributeBits v b).toNat = b.toNat / (if y / 2 % 2 = 1 then 16 else 1) / (if x / 2 % 2 = 1 then 4 else 1) % 4 ∧
    (patternAddr p).toNat = (if p.ctrl.getLsbD 4 then 4096 else 0) + p.ntLatch.toNat * 16 + p.v.toNat / 4096) ∧
  (∀ (p : Ppu) (k : Nat),
    let y := (p.secByte k 0).toNat
    let tile := (p.secByte k 1).toNat
    let h := if p.ctrl.getLsbD 5 then 16 else 8
    let row := if (p.secByte k 2).getLsbD 7 then h - 1 - (p.scanline - y) else p.scanline - y
    p.scanline ≤ 239 → y ≤ p.scanline → p.scanline < y + h →
      (p.ctrl.getLsbD 5 = false →
        (spriteAddr p k).toNat = (if p.ctrl.getLsbD 3 then 4096 else 0) + tile * 16 + row) ∧
      (p.ctrl.getLsbD 5 = true →
        (spriteAddr p k).toNat = tile % 2 * 4096 + (tile / 2 * 2 + row / 8) * 16 + row % 8)) ∧
  (∀ s : State, (s.ppu.mask.getLsbD 3 = true ∨ s.ppu.mask.getLsbD 4 = true) →
    (s.ppu.scanline ≤ 239 ∨ s.ppu.scanline = 261) →
    let p := s.ppu
    let d := p.dot
    let t := (ppuTick s).2.ppu
    let fetch := (1 ≤ d ∧ d ≤ 256) ∨ (321 ≤ d ∧ d ≤ 336)
    let shift := (2 ≤ d ∧ d ≤ 257) ∨ (322 ≤ d ∧ d ≤ 337)
    let reload := (d % 8 = 1 ∧ 9 ≤ d ∧ d ≤ 257) ∨ d = 329 ∨ d = 337
    let moved := fun (r : BitVec 16) (low : Byte) =>
      let r1 := if shift then BitVec.ofNat 16 (2 * r.toNat) else r
      if reload then BitVec.ofNat 16 (r1.toNat / 256 * 256 + low.toNat) else r1
    (t.ntLatch = if fetch ∧ d % 8 = 1 then (ppuRead (nametableAddr p.v) s).1 else p.ntLatch) ∧
    (t.atLatch = if fetch ∧ d % 8 = 3 then attributeBits p.v (ppuRead (attributeAddr p.v) s).1 else p.atLatch) ∧
    (t.bgLoLatch = if fetch ∧ d % 8 = 5 then (ppuRead (patternAddr p) s).1 else p.bgLoLatch) ∧
    (t.bgHiLatch = if fetch ∧ d % 8 = 7 then (ppuRead (patternAddr p + 8) s).1 else p.bgHiLatch) ∧
    t.bgShiftLo = moved p.bgShiftLo p.bgLoLatch ∧ t.bgShiftHi = moved p.bgShiftHi p.bgHiLatch ∧
    t.atShiftLo = moved p.atShiftLo (if p.atLatch.getLsbD 0 then 0xFF else 0x00) ∧
    t.atShiftHi = moved p.atShiftHi (if p.atLatch.getLsbD 1 then 0xFF else 0x00)) ∧
  (∀ s : State, ¬ ((s.ppu.mask.getLsbD 3 = true ∨ s.ppu.mask.getLsbD 4 = true) ∧
      (s.ppu.scanline ≤ 239 ∨ s.ppu.scanline = 261)) →
    let p := s.ppu
    let t := (ppuTick s).2.ppu
    t.ntLatch = p.ntLatch ∧ t.atLatch = p.atLatch ∧ t.bgLoLatch = p.bgLoLatch ∧ t.bgHiLatch = p.bgHiLatch ∧
    t.bgShiftLo = p.bgShiftLo ∧ t.bgShiftHi = p.bgShiftHi ∧ t.atShiftLo = p.atShiftLo ∧ t.atShiftHi = p.atShiftHi)

/-- The compositor: the table of R394, when sprite-zero hit is set (R396), and the two pixels it composes: the background's
bits of the shifters at fine X behind its mask bits (R392), and of the slots whose delay has run out with an opaque pixel
the lowest, behind its mask bits (R393). -/
def Obligations.CompositorTable : Prop :=
  (∀ (bp bl sp sl : BitVec 2) (behind zero : Bool),
    let idx := (composite { pix := bp, pal := bl } { pix := sp, pal := sl, behind := behind, isZero := zero }).toNat
    (bp = 0 → sp = 0 → idx = 0) ∧
    (bp = 0 → sp ≠ 0 → idx = 16 + 4 * sl.toNat + sp.toNat) ∧
    (bp ≠ 0 → sp = 0 → idx = 4 * bl.toNat + bp.toNat) ∧
    (bp ≠ 0 → sp ≠ 0 → behind = false → idx = 16 + 4 * sl.toNat + sp.toNat) ∧
    (bp ≠ 0 → sp ≠ 0 → behind = true → idx = 4 * bl.toNat + bp.toNat) ∧
    spriteZeroHit { pix := bp, pal := bl } { pix := sp, pal := sl, behind := behind, isZero := zero } =
      (decide (bp ≠ 0) && decide (sp ≠ 0) && zero)) ∧
  (∀ p : Ppu, p.mask.getLsbD 3 = false ∨ p.mask.getLsbD 4 = false → ∀ px,
    spriteZeroHit (bgPixel p px) (spritePixel p px) = false) ∧
  (∀ (p : Ppu) (px : Nat),
    let shown := p.mask.getLsbD 3 = true ∧ (8 ≤ px ∨ p.mask.getLsbD 1 = true)
    let pair := fun hi lo : BitVec 16 => 2 * (hi.getLsbD (15 - p.x.toNat)).toNat + (lo.getLsbD (15 - p.x.toNat)).toNat
    (shown → (bgPixel p px).pix.toNat = pair p.bgShiftHi p.bgShiftLo ∧
      (bgPixel p px).pal.toNat = pair p.atShiftHi p.atShiftLo) ∧
    (¬ shown → bgPixel p px = { pix := 0, pal := 0 })) ∧
  (∀ (p : Ppu) (px : Nat),
    let shown := p.mask.getLsbD 4 = true ∧ (8 ≤ px ∨ p.mask.getLsbD 2 = true)
    let pix := fun k : Fin 8 => 2 * (p.slots[k].sprHi.getLsbD 7).toNat + (p.slots[k].sprLo.getLsbD 7).toNat
    let opaquePixel := fun k : Fin 8 => p.slots[k].sprX = 0 ∧ pix k ≠ 0
    (∀ k : Fin 8, shown → opaquePixel k → (∀ j < k, ¬ opaquePixel j) →
      (spritePixel p px).pix.toNat = pix k ∧ (spritePixel p px).pal.toNat = p.slots[k].sprAttr.toNat % 4 ∧
      (spritePixel p px).behind = p.slots[k].sprAttr.getLsbD 5 ∧
      (spritePixel p px).isZero = (decide (k = 0) && p.slot0IsSprite0)) ∧
    (¬ shown ∨ (∀ k, ¬ opaquePixel k) → spritePixel p px = { pix := 0, pal := 0, behind := false, isZero := false }))

/-- The four updates of `v` in its fields: coarse X, fine Y, horizontal copy, vertical copy (R368 to R371, R32); and on
which dots a tick makes which of them, with rendering enabled on a visible or the pre-render line (R372: on no other);
with rendering off or on any other line `v` stays (R351 to R353), and `t` stays in every tick (R314). -/
def Obligations.ScrollUpdates : Prop :=
  let coarseX := fun v : Scroll => v.toNat % 32
  let coarseY := fun v : Scroll => v.toNat / 32 % 32
  let ntX := fun v : Scroll => v.toNat / 1024 % 2
  let ntY := fun v : Scroll => v.toNat / 2048 % 2
  let fineY := fun v : Scroll => v.toNat / 4096
  (∀ v t : Scroll,
    (coarseX (incCoarseX v) = (coarseX v + 1) % 32 ∧
      ntX (incCoarseX v) = (if coarseX v = 31 then 1 - ntX v else ntX v) ∧
      coarseY (incCoarseX v) = coarseY v ∧ ntY (incCoarseX v) = ntY v ∧ fineY (incCoarseX v) = fineY v) ∧
    (coarseX (incFineY v) = coarseX v ∧ ntX (incFineY v) = ntX v ∧ fineY (incFineY v) = (fineY v + 1) % 8 ∧
      (fineY v < 7 → coarseY (incFineY v) = coarseY v ∧ ntY (incFineY v) = ntY v) ∧
      (fineY v = 7 → coarseY v = 29 → coarseY (incFineY v) = 0 ∧ ntY (incFineY v) = 1 - ntY v) ∧
      (fineY v = 7 → coarseY v ≠ 29 → coarseY (incFineY v) = (coarseY v + 1) % 32 ∧ ntY (incFineY v) = ntY v)) ∧
    (coarseX (copyHorizontal v t) = coarseX t ∧ ntX (copyHorizontal v t) = ntX t ∧
      coarseY (copyHorizontal v t) = coarseY v ∧ ntY (copyHorizontal v t) = ntY v ∧
      fineY (copyHorizontal v t) = fineY v) ∧
    (coarseX (copyVertical v t) = coarseX v ∧ ntX (copyVertical v t) = ntX v ∧
      coarseY (copyVertical v t) = coarseY t ∧ ntY (copyVertical v t) = ntY t ∧ fineY (copyVertical v t) = fineY t)) ∧
  (∀ s : State, (ppuTick s).2.ppu.t = s.ppu.t) ∧
  (∀ s : State, ¬ ((s.ppu.mask.getLsbD 3 = true ∨ s.ppu.mask.getLsbD 4 = true) ∧
    (s.ppu.scanline ≤ 239 ∨ s.ppu.scanline = 261)) → (ppuTick s).2.ppu.v = s.ppu.v) ∧
  (∀ s : State, (s.ppu.mask.getLsbD 3 = true ∨ s.ppu.mask.getLsbD 4 = true) →
    (s.ppu.scanline ≤ 239 ∨ s.ppu.scanline = 261) →
    let p := s.ppu
    let d := p.dot
    (ppuTick s).2.ppu.v =
      if d = 256 then incFineY (incCoarseX p.v)
      else if (d % 8 = 0 ∧ 8 ≤ d ∧ d ≤ 248) ∨ d = 328 ∨ d = 336 then incCoarseX p.v
      else if d = 257 then copyHorizontal p.v p.t
      else if p.scanline = 261 ∧ 280 ≤ d ∧ d ≤ 304 then copyVertical p.v p.t
      else p.v)

/-! ### Rules of the whole machine -/

/-- Every instruction completes, from every state: it faults and refuses nowhere, latches an error exactly if it is BRK or
UNDEFINED, never reconfigures an AddressSpace, and changes the interrupt mask only if it is SEI, CLI, PLP or RTI (R424,
R425, R83). -/
def Obligations.EveryInstructionCompletes : Prop :=
  ∀ (i : Instr) (s : State), ∃ t, exec i s = .next t ∧ BusesKept s t ∧ t.bufs.map Buffer.len = s.bufs.map Buffer.len ∧
    t.cpu.instrPC = s.cpu.instrPC ∧
    ((∀ op, i ≠ .undefined op) → i ≠ .brk → t.cpu.errKind = s.cpu.errKind ∧ t.cpu.errOpcode = s.cpu.errOpcode) ∧
    (i ∉ [Instr.sei, .cli, .plp, .rti] → getFlag t.cpu.p .i = getFlag s.cpu.p .i)

/-- The cost of every instruction is its table cost, plus the 513 or 514 cycles of each DMA its writes start: none unless a
trap of `CpuBus` is the DMA register's, at most one unless the instruction is JSR, which writes twice. No transition but
`raiseReset` makes `CYC` smaller (R485, R445, R460, R20). -/
def Obligations.EveryInstructionPaysItsCost : Prop :=
  (∀ (i : Instr) (s t : State), exec i s = .next t →
    let dma := fun cyc : Nat => if cyc % 2 = 1 then 514 else 513
    let c1 := s.cpu.cyc + dma s.cpu.cyc
    let c2 := c1 + dma c1
    (∃ c, t.cpu.cyc = c + tableCost i s t.cpu.pageCrossed ∧
      (c = s.cpu.cyc ∨ c = c1 ∨ (c = c2 ∧ ∃ w, i = .jsr w))) ∧
    ((∀ d ∈ s.cpuBus.traps, ∀ reg, d.callback ≠ .oamDma reg) →
      t.cpu.cyc = s.cpu.cyc + tableCost i s t.cpu.pageCrossed)) ∧
  (∀ s t : State, step s = .next t → (∀ n r, s.plat.pending ≠ .raiseReset n :: r) → s.cpu.cyc ≤ t.cpu.cyc)
end

