-- ==== Sys2Proof/Laws/Memory.lean ====
section
/-! SUPPORT. The laws of the canonical memory, of buffers and of the store that holds them: a read after a write, every
other place kept, the canonical form kept. -/

namespace Sys2Proof.Machine

/-! ### Canonical memory -/

/-- A canonical memory reads as unlisted below its bound. -/
theorem Memory.read_below (m : Memory) (lo a : Nat) (h : Memory.wfFrom lo m = true) (ha : a < lo) :
    Memory.read m a = Memory.unlisted := by
  induction m generalizing lo with
  | nil => rfl
  | cons c rest ih =>
    obtain ⟨k, b⟩ := c
    simp only [Memory.wfFrom, Bool.and_eq_true, decide_eq_true_eq] at h
    simp only [Memory.read, if_neg (show ¬ k = a by omega)]
    exact ih (k + 1) h.2 (by omega)

/-- Reading where a byte was written gives the byte. -/
theorem Memory.read_write_same (m : Memory) (lo a : Nat) (b : Byte) (h : Memory.wfFrom lo m = true) :
    Memory.read (Memory.write m a b) a = b := by
  induction m generalizing lo with
  | nil => unfold Memory.write; split <;> simp_all [Memory.read]
  | cons c rest ih =>
    obtain ⟨k, d⟩ := c
    simp only [Memory.wfFrom, Bool.and_eq_true, decide_eq_true_eq] at h
    unfold Memory.write
    split
    · split
      · subst b
        simp only [Memory.read, if_neg (show ¬ k = a by omega)]
        exact Memory.read_below rest (k + 1) a h.2 (by omega)
      · simp [Memory.read]
    · split
      · split
        · subst b; exact Memory.read_below rest (k + 1) a h.2 (by omega)
        · simp [Memory.read]
      · simp only [Memory.read, if_neg (show ¬ k = a by omega)]
        exact ih (k + 1) h.2

/-- Writing one address leaves every other address alone. -/
theorem Memory.read_write_ne (m : Memory) (a a' : Nat) (b : Byte) (h : a' ≠ a) :
    Memory.read (Memory.write m a b) a' = Memory.read m a' := by
  induction m with
  | nil => unfold Memory.write; split <;> simp [Memory.read, h.symm]
  | cons c rest ih =>
    obtain ⟨k, d⟩ := c
    unfold Memory.write
    split
    · split <;> simp [Memory.read, h.symm]
    · split
      · subst k; split <;> simp [Memory.read, h.symm]
      · simp [Memory.read, ih]

/-- A lower bound may be lowered. -/
theorem Memory.wfFrom_mono (m : Memory) (lo lo' : Nat) (h : Memory.wfFrom lo m = true) (hl : lo' ≤ lo) :
    Memory.wfFrom lo' m = true := by
  cases m with
  | nil => rfl
  | cons c rest =>
    simp only [Memory.wfFrom, Bool.and_eq_true, decide_eq_true_eq] at h ⊢
    exact ⟨⟨by omega, h.1.2⟩, h.2⟩

/-- A write keeps the canonical form. -/
theorem Memory.write_wfFrom (m : Memory) (lo a : Nat) (b : Byte) (h : Memory.wfFrom lo m = true) (ha : lo ≤ a) :
    Memory.wfFrom lo (Memory.write m a b) = true := by
  induction m generalizing lo with
  | nil => unfold Memory.write; split <;> simp_all [Memory.wfFrom]
  | cons c rest ih =>
    obtain ⟨k, d⟩ := c
    have h0 := h
    simp only [Memory.wfFrom, Bool.and_eq_true, decide_eq_true_eq] at h
    unfold Memory.write
    split
    · split
      · exact h0
      · simp only [Memory.wfFrom, Bool.and_eq_true, decide_eq_true_eq]
        exact ⟨⟨ha, ‹_›⟩, ⟨by omega, h.1.2⟩, h.2⟩
    · split
      · split
        · exact Memory.wfFrom_mono rest (k + 1) lo h.2 (by omega)
        · simp only [Memory.wfFrom, Bool.and_eq_true, decide_eq_true_eq]
          subst k
          exact ⟨⟨ha, ‹_›⟩, h.2⟩
      · simp only [Memory.wfFrom, Bool.and_eq_true, decide_eq_true_eq]
        exact ⟨h.1, ih (k + 1) h.2 (by omega)⟩

/-- A write keeps the canonical form. -/
theorem Memory.write_wf (m : Memory) (a : Nat) (b : Byte) (h : Memory.wf m = true) :
    Memory.wf (Memory.write m a b) = true := Memory.write_wfFrom m 0 a b h (Nat.zero_le a)

/-- A cell of a memory after a write is the written address or a cell of the memory before. -/
theorem Memory.mem_write (m : Memory) (a : Nat) (b : Byte) (c : Host.Cell) (h : c ∈ Memory.write m a b) :
    c.1 = a ∨ c ∈ m := by
  induction m with
  | nil => unfold Memory.write at h; split at h <;> simp_all
  | cons d rest ih =>
    obtain ⟨k, e⟩ := d
    unfold Memory.write at h
    split at h
    · split at h
      · exact .inr h
      · simp only [List.mem_cons] at h
        rcases h with rfl | rfl | h <;> simp_all
    · split at h
      · split at h
        · exact .inr (List.mem_cons_of_mem _ h)
        · simp only [List.mem_cons] at h
          rcases h with rfl | h <;> simp_all
      · simp only [List.mem_cons] at h
        rcases h with rfl | h
        · simp
        · rcases ih h with h | h <;> simp_all

/-! ### Buffers -/

@[simp] theorem Buffer.write_len (b : Buffer) (off : Nat) (v : Byte) : (b.write off v).len = b.len := by
  unfold Buffer.write; split <;> rfl

/-- Reading where a byte was written, inside a canonical buffer. -/
theorem Buffer.read_write_same (b : Buffer) (off : Nat) (v : Byte) (h : b.wf = true) (ho : off < b.len) :
    (b.write off v).read off = v := by
  simp only [Buffer.wf, Bool.and_eq_true] at h
  simpa [Buffer.write, ho, Buffer.read] using Memory.read_write_same b.cells 0 off v h.1

/-- Writing one offset leaves every other offset alone. -/
theorem Buffer.read_write_ne (b : Buffer) (off off' : Nat) (v : Byte) (h : off' ≠ off) :
    (b.write off v).read off' = b.read off' := by
  unfold Buffer.write
  split
  · simpa [Buffer.read] using Memory.read_write_ne b.cells off off' v h
  · rfl

/-- A write keeps a buffer canonical. -/
theorem Buffer.write_wf (b : Buffer) (off : Nat) (v : Byte) (h : b.wf = true) : (b.write off v).wf = true := by
  simp only [Buffer.wf, Bool.and_eq_true, List.all_eq_true, decide_eq_true_eq] at h ⊢
  unfold Buffer.write
  split
  · refine ⟨Memory.write_wf b.cells off v h.1, fun c hc => ?_⟩
    rcases Memory.mem_write b.cells off v c hc with h' | h'
    · simp only [h']; assumption
    · exact h.2 c h'
  · exact h

/-- A zero-filled buffer is canonical. -/
theorem Buffer.zero_wf (n : Nat) : (Buffer.zero n).wf = true := rfl

/-! ### The store -/

/-- The buffer at a handle after a write. -/
theorem storeWrite_get (bufs : List Buffer) (l : Loc) (v : Byte) (h : Nat) :
    (storeWrite bufs l v)[h]? = (bufs[h]?).map fun b => if l.1 = h then b.write l.2 v else b := by
  simp only [storeWrite, List.getElem?_modify]
  cases bufs[h]? <;> simp

/-- A write keeps every buffer's length. -/
@[simp] theorem storeWrite_lens (bufs : List Buffer) (l : Loc) (v : Byte) :
    (storeWrite bufs l v).map Buffer.len = bufs.map Buffer.len := by
  apply List.ext_getElem?
  intro i
  simp only [List.getElem?_map, storeWrite_get]
  cases bufs[i]? with
  | none => rfl
  | some b => simp only [Option.map_some]; split <;> simp

@[simp] theorem storeWrite_length (bufs : List Buffer) (l : Loc) (v : Byte) :
    (storeWrite bufs l v).length = bufs.length := by simp [storeWrite]

/-- Reading a place other than the written one. -/
theorem storeRead_write_ne (bufs : List Buffer) (l l' : Loc) (v : Byte) (h : l' ≠ l) :
    storeRead (storeWrite bufs l v) l' = storeRead bufs l' := by
  simp only [storeRead, storeWrite_get]
  cases bufs[l'.1]? with
  | none => rfl
  | some b =>
    simp only [Option.map_some]
    split
    · exact Buffer.read_write_ne b l.2 l'.2 v (fun e => h (Prod.ext (by simp_all) e))
    · rfl

/-- Reading the written place, when it lies inside a canonical buffer. -/
theorem storeRead_write_same (bufs : List Buffer) (l : Loc) (v : Byte) (hw : ∀ b ∈ bufs, b.wf = true)
    (hl : inStore bufs l) : storeRead (storeWrite bufs l v) l = v := by
  obtain ⟨b, hb, ho⟩ := hl
  simp only [storeRead, storeWrite_get, hb, Option.map_some, if_true]
  exact Buffer.read_write_same b l.2 v (hw b (List.mem_of_getElem? hb)) ho

/-- A write keeps every buffer canonical. -/
theorem storeWrite_wf (bufs : List Buffer) (l : Loc) (v : Byte) (hw : ∀ b ∈ bufs, b.wf = true) :
    ∀ b ∈ storeWrite bufs l v, b.wf = true := by
  intro b hb
  obtain ⟨i, hi⟩ := List.getElem?_of_mem hb
  rw [storeWrite_get] at hi
  cases h : bufs[i]? with
  | none => simp [h] at hi
  | some c =>
    simp only [h, Option.map_some, Option.some.injEq] at hi
    subst hi
    split
    · exact Buffer.write_wf c l.2 v (hw c (List.mem_of_getElem? h))
    · exact hw c (List.mem_of_getElem? h)

/-- Being inside the store depends on the lengths of the buffers alone. -/
theorem inStore_iff (bufs : List Buffer) (l : Loc) : inStore bufs l ↔ ∃ n, (bufs.map Buffer.len)[l.1]? = some n ∧ l.2 < n := by
  simp [inStore, List.getElem?_map]

/-- A place is inside the store after a write exactly when it was before. -/
@[simp] theorem inStore_storeWrite (bufs : List Buffer) (l k : Loc) (v : Byte) :
    inStore (storeWrite bufs k v) l ↔ inStore bufs l := by simp [inStore_iff]

/-! ### Tables indexed by a byte -/

theorem atByte_set_same {α : Type} (t : Vector α 256) (i : Byte) (x : α) : atByte (setAtByte t i x) i = x := by
  simp [atByte, setAtByte]

theorem atByte_set_ne {α : Type} (t : Vector α 256) (i j : Byte) (x : α) (h : j ≠ i) :
    atByte (setAtByte t i x) j = atByte t j := by
  have : i.toNat ≠ j.toNat := fun e => h (BitVec.eq_of_toNat_eq e.symm)
  simp [atByte, setAtByte, this]

end Sys2Proof.Machine
end

