-- ==== Sys2Proof/Laws/State.lean ====
section
/-! SUPPORT. One lemma for each component of the state and each update of it, so that no later proof unfolds a record
update. -/

namespace Sys2Proof.Machine

/-! ### Replacing one component -/

@[simp] theorem withCpu_cpu (s : State) (z : Cpu) : (s.withCpu z).cpu = z := rfl
@[simp] theorem withCpu_cpuBus (s : State) (z : Cpu) : (s.withCpu z).cpuBus = s.cpuBus := rfl
@[simp] theorem withCpu_ppuBus (s : State) (z : Cpu) : (s.withCpu z).ppuBus = s.ppuBus := rfl
@[simp] theorem withCpu_bufs (s : State) (z : Cpu) : (s.withCpu z).bufs = s.bufs := rfl
@[simp] theorem withCpu_ppu (s : State) (z : Cpu) : (s.withCpu z).ppu = s.ppu := rfl
@[simp] theorem withCpu_plat (s : State) (z : Cpu) : (s.withCpu z).plat = s.plat := rfl
@[simp] theorem withCpu_withCpu (s : State) (y z : Cpu) : (s.withCpu y).withCpu z = s.withCpu z := rfl
@[simp] theorem withCpu_self (s : State) : s.withCpu s.cpu = s := rfl

@[simp] theorem withCpuBus_cpu (s : State) (z : AddressSpace CpuCallback) : (s.withCpuBus z).cpu = s.cpu := rfl
@[simp] theorem withCpuBus_cpuBus (s : State) (z : AddressSpace CpuCallback) : (s.withCpuBus z).cpuBus = z := rfl
@[simp] theorem withCpuBus_ppuBus (s : State) (z : AddressSpace CpuCallback) : (s.withCpuBus z).ppuBus = s.ppuBus := rfl
@[simp] theorem withCpuBus_bufs (s : State) (z : AddressSpace CpuCallback) : (s.withCpuBus z).bufs = s.bufs := rfl
@[simp] theorem withCpuBus_ppu (s : State) (z : AddressSpace CpuCallback) : (s.withCpuBus z).ppu = s.ppu := rfl
@[simp] theorem withCpuBus_plat (s : State) (z : AddressSpace CpuCallback) : (s.withCpuBus z).plat = s.plat := rfl
@[simp] theorem withCpuBus_withCpuBus (s : State) (y z : AddressSpace CpuCallback) : (s.withCpuBus y).withCpuBus z = s.withCpuBus z := rfl
@[simp] theorem withCpuBus_self (s : State) : s.withCpuBus s.cpuBus = s := rfl

@[simp] theorem withPpuBus_cpu (s : State) (z : AddressSpace PpuCallback) : (s.withPpuBus z).cpu = s.cpu := rfl
@[simp] theorem withPpuBus_cpuBus (s : State) (z : AddressSpace PpuCallback) : (s.withPpuBus z).cpuBus = s.cpuBus := rfl
@[simp] theorem withPpuBus_ppuBus (s : State) (z : AddressSpace PpuCallback) : (s.withPpuBus z).ppuBus = z := rfl
@[simp] theorem withPpuBus_bufs (s : State) (z : AddressSpace PpuCallback) : (s.withPpuBus z).bufs = s.bufs := rfl
@[simp] theorem withPpuBus_ppu (s : State) (z : AddressSpace PpuCallback) : (s.withPpuBus z).ppu = s.ppu := rfl
@[simp] theorem withPpuBus_plat (s : State) (z : AddressSpace PpuCallback) : (s.withPpuBus z).plat = s.plat := rfl
@[simp] theorem withPpuBus_withPpuBus (s : State) (y z : AddressSpace PpuCallback) : (s.withPpuBus y).withPpuBus z = s.withPpuBus z := rfl
@[simp] theorem withPpuBus_self (s : State) : s.withPpuBus s.ppuBus = s := rfl

@[simp] theorem withBufs_cpu (s : State) (z : List Buffer) : (s.withBufs z).cpu = s.cpu := rfl
@[simp] theorem withBufs_cpuBus (s : State) (z : List Buffer) : (s.withBufs z).cpuBus = s.cpuBus := rfl
@[simp] theorem withBufs_ppuBus (s : State) (z : List Buffer) : (s.withBufs z).ppuBus = s.ppuBus := rfl
@[simp] theorem withBufs_bufs (s : State) (z : List Buffer) : (s.withBufs z).bufs = z := rfl
@[simp] theorem withBufs_ppu (s : State) (z : List Buffer) : (s.withBufs z).ppu = s.ppu := rfl
@[simp] theorem withBufs_plat (s : State) (z : List Buffer) : (s.withBufs z).plat = s.plat := rfl
@[simp] theorem withBufs_withBufs (s : State) (y z : List Buffer) : (s.withBufs y).withBufs z = s.withBufs z := rfl
@[simp] theorem withBufs_self (s : State) : s.withBufs s.bufs = s := rfl

@[simp] theorem withPpu_cpu (s : State) (z : Ppu) : (s.withPpu z).cpu = s.cpu := rfl
@[simp] theorem withPpu_cpuBus (s : State) (z : Ppu) : (s.withPpu z).cpuBus = s.cpuBus := rfl
@[simp] theorem withPpu_ppuBus (s : State) (z : Ppu) : (s.withPpu z).ppuBus = s.ppuBus := rfl
@[simp] theorem withPpu_bufs (s : State) (z : Ppu) : (s.withPpu z).bufs = s.bufs := rfl
@[simp] theorem withPpu_ppu (s : State) (z : Ppu) : (s.withPpu z).ppu = z := rfl
@[simp] theorem withPpu_plat (s : State) (z : Ppu) : (s.withPpu z).plat = s.plat := rfl
@[simp] theorem withPpu_withPpu (s : State) (y z : Ppu) : (s.withPpu y).withPpu z = s.withPpu z := rfl
@[simp] theorem withPpu_self (s : State) : s.withPpu s.ppu = s := rfl

@[simp] theorem withPlat_cpu (s : State) (z : Platform) : (s.withPlat z).cpu = s.cpu := rfl
@[simp] theorem withPlat_cpuBus (s : State) (z : Platform) : (s.withPlat z).cpuBus = s.cpuBus := rfl
@[simp] theorem withPlat_ppuBus (s : State) (z : Platform) : (s.withPlat z).ppuBus = s.ppuBus := rfl
@[simp] theorem withPlat_bufs (s : State) (z : Platform) : (s.withPlat z).bufs = s.bufs := rfl
@[simp] theorem withPlat_ppu (s : State) (z : Platform) : (s.withPlat z).ppu = s.ppu := rfl
@[simp] theorem withPlat_plat (s : State) (z : Platform) : (s.withPlat z).plat = z := rfl
@[simp] theorem withPlat_withPlat (s : State) (y z : Platform) : (s.withPlat y).withPlat z = s.withPlat z := rfl
@[simp] theorem withPlat_self (s : State) : s.withPlat s.plat = s := rfl

/-! ### CPU register updates -/

@[simp] theorem setA_cpu (s : State) (v : Byte) : (s.setA v).cpu = { s.cpu with a := v } := rfl
@[simp] theorem setA_cpuBus (s : State) (v : Byte) : (s.setA v).cpuBus = s.cpuBus := rfl
@[simp] theorem setA_ppuBus (s : State) (v : Byte) : (s.setA v).ppuBus = s.ppuBus := rfl
@[simp] theorem setA_bufs (s : State) (v : Byte) : (s.setA v).bufs = s.bufs := rfl
@[simp] theorem setA_ppu (s : State) (v : Byte) : (s.setA v).ppu = s.ppu := rfl
@[simp] theorem setA_plat (s : State) (v : Byte) : (s.setA v).plat = s.plat := rfl

@[simp] theorem setX_cpu (s : State) (v : Byte) : (s.setX v).cpu = { s.cpu with x := v } := rfl
@[simp] theorem setX_cpuBus (s : State) (v : Byte) : (s.setX v).cpuBus = s.cpuBus := rfl
@[simp] theorem setX_ppuBus (s : State) (v : Byte) : (s.setX v).ppuBus = s.ppuBus := rfl
@[simp] theorem setX_bufs (s : State) (v : Byte) : (s.setX v).bufs = s.bufs := rfl
@[simp] theorem setX_ppu (s : State) (v : Byte) : (s.setX v).ppu = s.ppu := rfl
@[simp] theorem setX_plat (s : State) (v : Byte) : (s.setX v).plat = s.plat := rfl

@[simp] theorem setY_cpu (s : State) (v : Byte) : (s.setY v).cpu = { s.cpu with y := v } := rfl
@[simp] theorem setY_cpuBus (s : State) (v : Byte) : (s.setY v).cpuBus = s.cpuBus := rfl
@[simp] theorem setY_ppuBus (s : State) (v : Byte) : (s.setY v).ppuBus = s.ppuBus := rfl
@[simp] theorem setY_bufs (s : State) (v : Byte) : (s.setY v).bufs = s.bufs := rfl
@[simp] theorem setY_ppu (s : State) (v : Byte) : (s.setY v).ppu = s.ppu := rfl
@[simp] theorem setY_plat (s : State) (v : Byte) : (s.setY v).plat = s.plat := rfl

@[simp] theorem setSP_cpu (s : State) (v : Byte) : (s.setSP v).cpu = { s.cpu with sp := v } := rfl
@[simp] theorem setSP_cpuBus (s : State) (v : Byte) : (s.setSP v).cpuBus = s.cpuBus := rfl
@[simp] theorem setSP_ppuBus (s : State) (v : Byte) : (s.setSP v).ppuBus = s.ppuBus := rfl
@[simp] theorem setSP_bufs (s : State) (v : Byte) : (s.setSP v).bufs = s.bufs := rfl
@[simp] theorem setSP_ppu (s : State) (v : Byte) : (s.setSP v).ppu = s.ppu := rfl
@[simp] theorem setSP_plat (s : State) (v : Byte) : (s.setSP v).plat = s.plat := rfl

@[simp] theorem setP_cpu (s : State) (v : Byte) : (s.setP v).cpu = { s.cpu with p := v } := rfl
@[simp] theorem setP_cpuBus (s : State) (v : Byte) : (s.setP v).cpuBus = s.cpuBus := rfl
@[simp] theorem setP_ppuBus (s : State) (v : Byte) : (s.setP v).ppuBus = s.ppuBus := rfl
@[simp] theorem setP_bufs (s : State) (v : Byte) : (s.setP v).bufs = s.bufs := rfl
@[simp] theorem setP_ppu (s : State) (v : Byte) : (s.setP v).ppu = s.ppu := rfl
@[simp] theorem setP_plat (s : State) (v : Byte) : (s.setP v).plat = s.plat := rfl

@[simp] theorem setPC_cpu (s : State) (v : Addr) : (s.setPC v).cpu = { s.cpu with pc := v } := rfl
@[simp] theorem setPC_cpuBus (s : State) (v : Addr) : (s.setPC v).cpuBus = s.cpuBus := rfl
@[simp] theorem setPC_ppuBus (s : State) (v : Addr) : (s.setPC v).ppuBus = s.ppuBus := rfl
@[simp] theorem setPC_bufs (s : State) (v : Addr) : (s.setPC v).bufs = s.bufs := rfl
@[simp] theorem setPC_ppu (s : State) (v : Addr) : (s.setPC v).ppu = s.ppu := rfl
@[simp] theorem setPC_plat (s : State) (v : Addr) : (s.setPC v).plat = s.plat := rfl

@[simp] theorem setCrossed_cpu (s : State) (v : Bool) : (s.setCrossed v).cpu = { s.cpu with pageCrossed := v } := rfl
@[simp] theorem setCrossed_cpuBus (s : State) (v : Bool) : (s.setCrossed v).cpuBus = s.cpuBus := rfl
@[simp] theorem setCrossed_ppuBus (s : State) (v : Bool) : (s.setCrossed v).ppuBus = s.ppuBus := rfl
@[simp] theorem setCrossed_bufs (s : State) (v : Bool) : (s.setCrossed v).bufs = s.bufs := rfl
@[simp] theorem setCrossed_ppu (s : State) (v : Bool) : (s.setCrossed v).ppu = s.ppu := rfl
@[simp] theorem setCrossed_plat (s : State) (v : Bool) : (s.setCrossed v).plat = s.plat := rfl

@[simp] theorem charge_cpu (s : State) (v : Nat) : (s.charge v).cpu = { s.cpu with cyc := s.cpu.cyc + v } := rfl
@[simp] theorem charge_cpuBus (s : State) (v : Nat) : (s.charge v).cpuBus = s.cpuBus := rfl
@[simp] theorem charge_ppuBus (s : State) (v : Nat) : (s.charge v).ppuBus = s.ppuBus := rfl
@[simp] theorem charge_bufs (s : State) (v : Nat) : (s.charge v).bufs = s.bufs := rfl
@[simp] theorem charge_ppu (s : State) (v : Nat) : (s.charge v).ppu = s.ppu := rfl
@[simp] theorem charge_plat (s : State) (v : Nat) : (s.charge v).plat = s.plat := rfl

@[simp] theorem setZN_cpu (s : State) (v : Byte) : (s.setZN v).cpu = { s.cpu with p := Machine.setZN v s.cpu.p } := rfl
@[simp] theorem setZN_cpuBus (s : State) (v : Byte) : (s.setZN v).cpuBus = s.cpuBus := rfl
@[simp] theorem setZN_ppuBus (s : State) (v : Byte) : (s.setZN v).ppuBus = s.ppuBus := rfl
@[simp] theorem setZN_bufs (s : State) (v : Byte) : (s.setZN v).bufs = s.bufs := rfl
@[simp] theorem setZN_ppu (s : State) (v : Byte) : (s.setZN v).ppu = s.ppu := rfl
@[simp] theorem setZN_plat (s : State) (v : Byte) : (s.setZN v).plat = s.plat := rfl

/-- Two states are equal when their six components are. -/
theorem state_ext {s t : State} (h1 : s.cpu = t.cpu) (h2 : s.cpuBus = t.cpuBus) (h3 : s.ppuBus = t.ppuBus)
    (h4 : s.bufs = t.bufs) (h5 : s.ppu = t.ppu) (h6 : s.plat = t.plat) : s = t := by
  cases s; cases t; simp_all

end Sys2Proof.Machine
end

