-- ==== Sys2Proof/Laws/Access.lean ====
section
/-! SUPPORT. What an access of a bus can do, said once for each operation: `rd`, `wr`, `fetch`, `push`, `pop`, `copyOAM`,
on trapped and untrapped addresses alike. -/

namespace Sys2Proof.Machine

/-! ### Memory as `CpuBus` shows it, after an update elsewhere -/

@[simp] theorem byteAt_setA (s : State) (v : Byte) (a : Addr) : (s.setA v).byteAt a = s.byteAt a := rfl
@[simp] theorem wordAt_setA (s : State) (v : Byte) (a b : Addr) : (s.setA v).wordAt a b = s.wordAt a b := rfl
@[simp] theorem untrapped_setA (s : State) (v : Byte) (a : Addr) : (s.setA v).untrapped a ↔ s.untrapped a := Iff.rfl
@[simp] theorem byteAt_setX (s : State) (v : Byte) (a : Addr) : (s.setX v).byteAt a = s.byteAt a := rfl
@[simp] theorem wordAt_setX (s : State) (v : Byte) (a b : Addr) : (s.setX v).wordAt a b = s.wordAt a b := rfl
@[simp] theorem untrapped_setX (s : State) (v : Byte) (a : Addr) : (s.setX v).untrapped a ↔ s.untrapped a := Iff.rfl
@[simp] theorem byteAt_setY (s : State) (v : Byte) (a : Addr) : (s.setY v).byteAt a = s.byteAt a := rfl
@[simp] theorem wordAt_setY (s : State) (v : Byte) (a b : Addr) : (s.setY v).wordAt a b = s.wordAt a b := rfl
@[simp] theorem untrapped_setY (s : State) (v : Byte) (a : Addr) : (s.setY v).untrapped a ↔ s.untrapped a := Iff.rfl
@[simp] theorem byteAt_setSP (s : State) (v : Byte) (a : Addr) : (s.setSP v).byteAt a = s.byteAt a := rfl
@[simp] theorem wordAt_setSP (s : State) (v : Byte) (a b : Addr) : (s.setSP v).wordAt a b = s.wordAt a b := rfl
@[simp] theorem untrapped_setSP (s : State) (v : Byte) (a : Addr) : (s.setSP v).untrapped a ↔ s.untrapped a := Iff.rfl
@[simp] theorem byteAt_setP (s : State) (v : Byte) (a : Addr) : (s.setP v).byteAt a = s.byteAt a := rfl
@[simp] theorem wordAt_setP (s : State) (v : Byte) (a b : Addr) : (s.setP v).wordAt a b = s.wordAt a b := rfl
@[simp] theorem untrapped_setP (s : State) (v : Byte) (a : Addr) : (s.setP v).untrapped a ↔ s.untrapped a := Iff.rfl
@[simp] theorem byteAt_setPC (s : State) (v : Addr) (a : Addr) : (s.setPC v).byteAt a = s.byteAt a := rfl
@[simp] theorem wordAt_setPC (s : State) (v : Addr) (a b : Addr) : (s.setPC v).wordAt a b = s.wordAt a b := rfl
@[simp] theorem untrapped_setPC (s : State) (v : Addr) (a : Addr) : (s.setPC v).untrapped a ↔ s.untrapped a := Iff.rfl
@[simp] theorem byteAt_setCrossed (s : State) (v : Bool) (a : Addr) : (s.setCrossed v).byteAt a = s.byteAt a := rfl
@[simp] theorem wordAt_setCrossed (s : State) (v : Bool) (a b : Addr) : (s.setCrossed v).wordAt a b = s.wordAt a b := rfl
@[simp] theorem untrapped_setCrossed (s : State) (v : Bool) (a : Addr) : (s.setCrossed v).untrapped a ↔ s.untrapped a := Iff.rfl
@[simp] theorem byteAt_charge (s : State) (v : Nat) (a : Addr) : (s.charge v).byteAt a = s.byteAt a := rfl
@[simp] theorem wordAt_charge (s : State) (v : Nat) (a b : Addr) : (s.charge v).wordAt a b = s.wordAt a b := rfl
@[simp] theorem untrapped_charge (s : State) (v : Nat) (a : Addr) : (s.charge v).untrapped a ↔ s.untrapped a := Iff.rfl
@[simp] theorem byteAt_setZN (s : State) (v : Byte) (a : Addr) : (s.setZN v).byteAt a = s.byteAt a := rfl
@[simp] theorem wordAt_setZN (s : State) (v : Byte) (a b : Addr) : (s.setZN v).wordAt a b = s.wordAt a b := rfl
@[simp] theorem untrapped_setZN (s : State) (v : Byte) (a : Addr) : (s.setZN v).untrapped a ↔ s.untrapped a := Iff.rfl
@[simp] theorem byteAt_withCpu (s : State) (v : Cpu) (a : Addr) : (s.withCpu v).byteAt a = s.byteAt a := rfl
@[simp] theorem wordAt_withCpu (s : State) (v : Cpu) (a b : Addr) : (s.withCpu v).wordAt a b = s.wordAt a b := rfl
@[simp] theorem untrapped_withCpu (s : State) (v : Cpu) (a : Addr) : (s.withCpu v).untrapped a ↔ s.untrapped a := Iff.rfl
@[simp] theorem byteAt_withPpu (s : State) (v : Ppu) (a : Addr) : (s.withPpu v).byteAt a = s.byteAt a := rfl
@[simp] theorem wordAt_withPpu (s : State) (v : Ppu) (a b : Addr) : (s.withPpu v).wordAt a b = s.wordAt a b := rfl
@[simp] theorem untrapped_withPpu (s : State) (v : Ppu) (a : Addr) : (s.withPpu v).untrapped a ↔ s.untrapped a := Iff.rfl
@[simp] theorem byteAt_withPlat (s : State) (v : Platform) (a : Addr) : (s.withPlat v).byteAt a = s.byteAt a := rfl
@[simp] theorem wordAt_withPlat (s : State) (v : Platform) (a b : Addr) : (s.withPlat v).wordAt a b = s.wordAt a b := rfl
@[simp] theorem untrapped_withPlat (s : State) (v : Platform) (a : Addr) : (s.withPlat v).untrapped a ↔ s.untrapped a := Iff.rfl

/-! ### Components outside the block and `PpuBus` -/

/-- An external read takes the oldest input, or with none left the free value, counts itself, and changes nothing else. -/
theorem externalRead_eq (c : Nat) (a : Addr) (s : State) :
    externalRead c a s = (s.plat.inputs.headD (Config.externalRead c a s.plat.extReads),
      s.withPlat { s.plat with inputs := s.plat.inputs.tail, extReads := s.plat.extReads + 1 }) := by
  unfold externalRead
  split <;> simp [*]

@[simp] theorem externalRead_cpu (c : Nat) (a : Addr) (s : State) : (externalRead c a s).2.cpu = s.cpu := by
  unfold externalRead; split <;> rfl
@[simp] theorem externalRead_cpuBus (c : Nat) (a : Addr) (s : State) : (externalRead c a s).2.cpuBus = s.cpuBus := by
  unfold externalRead; split <;> rfl
@[simp] theorem externalRead_ppuBus (c : Nat) (a : Addr) (s : State) : (externalRead c a s).2.ppuBus = s.ppuBus := by
  unfold externalRead; split <;> rfl
@[simp] theorem externalRead_bufs (c : Nat) (a : Addr) (s : State) : (externalRead c a s).2.bufs = s.bufs := by
  unfold externalRead; split <;> rfl
@[simp] theorem externalRead_ppu (c : Nat) (a : Addr) (s : State) : (externalRead c a s).2.ppu = s.ppu := by
  unfold externalRead; split <;> rfl

@[simp] theorem externalWrite_cpu (c : Nat) (a : Addr) (v : Byte) (s : State) : (externalWrite c a v s).cpu = s.cpu := rfl
@[simp] theorem externalWrite_cpuBus (c : Nat) (a : Addr) (v : Byte) (s : State) :
    (externalWrite c a v s).cpuBus = s.cpuBus := rfl
@[simp] theorem externalWrite_ppuBus (c : Nat) (a : Addr) (v : Byte) (s : State) :
    (externalWrite c a v s).ppuBus = s.ppuBus := rfl
@[simp] theorem externalWrite_bufs (c : Nat) (a : Addr) (v : Byte) (s : State) :
    (externalWrite c a v s).bufs = s.bufs := rfl
@[simp] theorem externalWrite_ppu (c : Nat) (a : Addr) (v : Byte) (s : State) : (externalWrite c a v s).ppu = s.ppu := rfl

@[simp] theorem ppuRead_cpu (a : Addr) (s : State) : (ppuRead a s).2.cpu = s.cpu := by
  unfold ppuRead ppuBusRead; split <;> simp
@[simp] theorem ppuRead_cpuBus (a : Addr) (s : State) : (ppuRead a s).2.cpuBus = s.cpuBus := by
  unfold ppuRead ppuBusRead; split <;> simp
@[simp] theorem ppuRead_ppuBus (a : Addr) (s : State) : (ppuRead a s).2.ppuBus = s.ppuBus := by
  unfold ppuRead ppuBusRead; split <;> simp
@[simp] theorem ppuRead_bufs (a : Addr) (s : State) : (ppuRead a s).2.bufs = s.bufs := by
  unfold ppuRead ppuBusRead; split <;> simp
@[simp] theorem ppuRead_ppu (a : Addr) (s : State) : (ppuRead a s).2.ppu = s.ppu := by
  unfold ppuRead ppuBusRead; split <;> simp
@[simp] theorem ppuRead_pending (a : Addr) (s : State) : (ppuRead a s).2.plat.pending = s.plat.pending := by
  unfold ppuRead ppuBusRead externalRead; split <;> (try split) <;> rfl
@[simp] theorem ppuRead_ppuDots (a : Addr) (s : State) : (ppuRead a s).2.plat.ppuDots = s.plat.ppuDots := by
  unfold ppuRead ppuBusRead externalRead; split <;> (try split) <;> rfl
@[simp] theorem ppuRead_outputs (a : Addr) (s : State) : (ppuRead a s).2.plat.outputs = s.plat.outputs := by
  unfold ppuRead ppuBusRead externalRead; split <;> (try split) <;> rfl

/-- An access of `PpuBus` does not see the PPU's own registers. -/
theorem ppuRead_withPpu (a : Addr) (s : State) (p : Ppu) :
    ppuRead a (s.withPpu p) = ((ppuRead a s).1, (ppuRead a s).2.withPpu p) := by
  unfold ppuRead ppuBusRead externalRead
  simp only [withPpu_ppuBus, withPpu_bufs, withPpu_plat]
  split <;> (try split) <;> rfl

/-- An untrapped read of video memory changes nothing. -/
theorem ppuRead_untrapped (a : Addr) (s : State) (h : s.ppuBus.trapAt (ppuBusAddr a) = none) :
    ppuRead a s = (s.ppuBus.peek s.bufs (ppuBusAddr a), s) := by
  simp [ppuRead, ppuBusRead, h]

@[simp] theorem ppuWrite_cpu (a : Addr) (d : Byte) (s : State) : (ppuWrite a d s).cpu = s.cpu := by
  unfold ppuWrite ppuBusWrite; split <;> simp
@[simp] theorem ppuWrite_cpuBus (a : Addr) (d : Byte) (s : State) : (ppuWrite a d s).cpuBus = s.cpuBus := by
  unfold ppuWrite ppuBusWrite; split <;> simp
@[simp] theorem ppuWrite_ppuBus (a : Addr) (d : Byte) (s : State) : (ppuWrite a d s).ppuBus = s.ppuBus := by
  unfold ppuWrite ppuBusWrite; split <;> simp
@[simp] theorem ppuWrite_ppu (a : Addr) (d : Byte) (s : State) : (ppuWrite a d s).ppu = s.ppu := by
  unfold ppuWrite ppuBusWrite; split <;> simp

/-! ### The PPU's registers -/

@[simp] theorem regRead_cpu (r : PpuReg) (s : State) : (regRead r s).2.cpu = s.cpu := by
  cases r <;> simp [regRead, readStatus, readOamData, readData] <;> split <;> simp
@[simp] theorem regRead_cpuBus (r : PpuReg) (s : State) : (regRead r s).2.cpuBus = s.cpuBus := by
  cases r <;> simp [regRead, readStatus, readOamData, readData] <;> split <;> simp
@[simp] theorem regRead_ppuBus (r : PpuReg) (s : State) : (regRead r s).2.ppuBus = s.ppuBus := by
  cases r <;> simp [regRead, readStatus, readOamData, readData] <;> split <;> simp
@[simp] theorem regRead_bufs (r : PpuReg) (s : State) : (regRead r s).2.bufs = s.bufs := by
  cases r <;> simp [regRead, readStatus, readOamData, readData] <;> split <;> simp

/-- What a register read can change in the PPU: the vblank flag, `w`, `v` and the delay buffer (R307, R318). -/
theorem regRead_ppu (r : PpuReg) (s : State) :
    ∃ st w v rb, (regRead r s).2.ppu = { s.ppu with status := st, w := w, v := v, readBuffer := rb } ∧
      (st = s.ppu.status ∨ st = s.ppu.status &&& 0x7F) := by
  cases r
  case status => exact ⟨_, _, _, _, rfl, .inr rfl⟩
  case data =>
    simp only [regRead, readData]
    split
    · exact ⟨s.ppu.status, s.ppu.w, _, s.ppu.readBuffer, by simp only [withPpu_ppu, ppuRead_ppu]; rfl, .inl rfl⟩
    · exact ⟨s.ppu.status, s.ppu.w, _, _, by simp only [withPpu_ppu, ppuRead_ppu]; rfl, .inl rfl⟩
  case oamData => simp only [regRead, readOamData]; split <;> exact ⟨_, _, _, _, rfl, .inl rfl⟩
  all_goals exact ⟨_, _, _, _, rfl, .inl rfl⟩

@[simp] theorem regWrite_cpu (r : PpuReg) (d : Byte) (s : State) : (regWrite r d s).cpu = s.cpu := by
  cases r <;> simp [regWrite, writeData]
@[simp] theorem regWrite_cpuBus (r : PpuReg) (d : Byte) (s : State) : (regWrite r d s).cpuBus = s.cpuBus := by
  cases r <;> simp [regWrite, writeData]
@[simp] theorem regWrite_ppuBus (r : PpuReg) (d : Byte) (s : State) : (regWrite r d s).ppuBus = s.ppuBus := by
  cases r <;> simp [regWrite, writeData]

/-- What a register write can change in the PPU (R305 to R320). -/
theorem regWrite_ppu (r : PpuReg) (d : Byte) (s : State) :
    ∃ c m oa o v t x w, (regWrite r d s).ppu =
      { s.ppu with ctrl := c, mask := m, oamAddr := oa, oam := o, v := v, t := t, x := x, w := w } := by
  cases r
  case oamData => simp only [regWrite, writeOamData, withPpu_ppu]; split <;> exact ⟨_, _, _, _, _, _, _, _, rfl⟩
  case scroll => simp only [regWrite, writeScroll, withPpu_ppu]; split <;> exact ⟨_, _, _, _, _, _, _, _, rfl⟩
  case addr => simp only [regWrite, writeAddr, withPpu_ppu]; split <;> exact ⟨_, _, _, _, _, _, _, _, rfl⟩
  case data =>
    exact ⟨_, _, _, _, _, s.ppu.t, s.ppu.x, s.ppu.w, by simp only [regWrite, writeData, withPpu_ppu, ppuWrite_ppu]; rfl⟩
  all_goals exact ⟨_, _, _, _, _, _, _, _, rfl⟩

/-! ### `rd` -/

@[simp] theorem cpuRead_cpu (a : Addr) (s : State) : (cpuRead a s).2.cpu = s.cpu := by
  unfold cpuRead cpuTrapRead; split <;> (try split) <;> simp
@[simp] theorem cpuRead_cpuBus (a : Addr) (s : State) : (cpuRead a s).2.cpuBus = s.cpuBus := by
  unfold cpuRead cpuTrapRead; split <;> (try split) <;> simp
@[simp] theorem cpuRead_ppuBus (a : Addr) (s : State) : (cpuRead a s).2.ppuBus = s.ppuBus := by
  unfold cpuRead cpuTrapRead; split <;> (try split) <;> simp
@[simp] theorem cpuRead_bufs (a : Addr) (s : State) : (cpuRead a s).2.bufs = s.bufs := by
  unfold cpuRead cpuTrapRead; split <;> (try split) <;> simp

/-- What a CPU read can change in the PPU. -/
theorem cpuRead_ppu (a : Addr) (s : State) :
    ∃ st w v rb, (cpuRead a s).2.ppu = { s.ppu with status := st, w := w, v := v, readBuffer := rb } ∧
      (st = s.ppu.status ∨ st = s.ppu.status &&& 0x7F) := by
  unfold cpuRead cpuTrapRead
  split
  · split
    · exact regRead_ppu _ s
    all_goals exact ⟨_, _, _, _, by simp; rfl, .inl rfl⟩
  · exact ⟨_, _, _, _, rfl, .inl rfl⟩

/-- An untrapped read changes nothing (R62). -/
theorem cpuRead_untrapped (a : Addr) (s : State) (h : s.untrapped a) : cpuRead a s = (s.byteAt a, s) := by
  unfold State.untrapped at h
  simp [cpuRead, h, State.byteAt]

/-- Two reads of untrapped addresses. -/
theorem readWord_untrapped (lo hi : Addr) (s : State) (h1 : s.untrapped lo) (h2 : s.untrapped hi) :
    readWord lo hi s = (s.wordAt lo hi, s) := by
  simp [readWord, cpuRead_untrapped, h1, h2, State.wordAt]

@[simp] theorem readWord_cpu (a b : Addr) (s : State) : (readWord a b s).2.cpu = s.cpu := by simp [readWord]
@[simp] theorem readWord_cpuBus (a b : Addr) (s : State) : (readWord a b s).2.cpuBus = s.cpuBus := by simp [readWord]
@[simp] theorem readWord_ppuBus (a b : Addr) (s : State) : (readWord a b s).2.ppuBus = s.ppuBus := by simp [readWord]
@[simp] theorem readWord_bufs (a b : Addr) (s : State) : (readWord a b s).2.bufs = s.bufs := by simp [readWord]

/-! ### `copyOAM` -/

@[simp] theorem writeDest_cpu (d : CopyDest) (i b : Byte) (s : State) : (writeDest d i b s).cpu = s.cpu := by
  cases d <;> rfl
@[simp] theorem writeDest_cpuBus (d : CopyDest) (i b : Byte) (s : State) : (writeDest d i b s).cpuBus = s.cpuBus := by
  cases d <;> rfl
@[simp] theorem writeDest_ppuBus (d : CopyDest) (i b : Byte) (s : State) : (writeDest d i b s).ppuBus = s.ppuBus := by
  cases d <;> rfl
@[simp] theorem writeDest_oam_bufs (i b : Byte) (s : State) : (writeDest .oam i b s).bufs = s.bufs := rfl

@[simp] theorem copyBytes_cpu (h : Byte) (d : CopyDest) (n : Nat) (s : State) : (copyBytes h d n s).cpu = s.cpu := by
  induction n with
  | zero => rfl
  | succ n ih => simp [copyBytes, ih]
@[simp] theorem copyBytes_cpuBus (h : Byte) (d : CopyDest) (n : Nat) (s : State) :
    (copyBytes h d n s).cpuBus = s.cpuBus := by
  induction n with
  | zero => rfl
  | succ n ih => simp [copyBytes, ih]
@[simp] theorem copyBytes_ppuBus (h : Byte) (d : CopyDest) (n : Nat) (s : State) :
    (copyBytes h d n s).ppuBus = s.ppuBus := by
  induction n with
  | zero => rfl
  | succ n ih => simp [copyBytes, ih]
@[simp] theorem copyBytes_oam_bufs (h : Byte) (n : Nat) (s : State) : (copyBytes h .oam n s).bufs = s.bufs := by
  induction n with
  | zero => rfl
  | succ n ih => simp [copyBytes, ih]

@[simp] theorem copyBytes_lens (h : Byte) (d : CopyDest) (n : Nat) (s : State) :
    (copyBytes h d n s).bufs.map Buffer.len = s.bufs.map Buffer.len := by
  induction n with
  | zero => rfl
  | succ n ih => cases d <;> simp [copyBytes, writeDest, ih]

/-- `copyOAM` changes one CPU register: `CYC` (R446). -/
@[simp] theorem copyOAM_cpu (h : Byte) (d : CopyDest) (s : State) :
    (copyOAM h d s).cpu = { s.cpu with cyc := s.cpu.cyc + copyOamCost s.cpu.cyc } := by simp [copyOAM]
@[simp] theorem copyOAM_cpuBus (h : Byte) (d : CopyDest) (s : State) : (copyOAM h d s).cpuBus = s.cpuBus := by
  simp [copyOAM]
@[simp] theorem copyOAM_ppuBus (h : Byte) (d : CopyDest) (s : State) : (copyOAM h d s).ppuBus = s.ppuBus := by
  simp [copyOAM]
@[simp] theorem copyOAM_lens (h : Byte) (d : CopyDest) (s : State) :
    (copyOAM h d s).bufs.map Buffer.len = s.bufs.map Buffer.len := by simp [copyOAM]
@[simp] theorem copyOAM_oam_bufs (h : Byte) (s : State) : (copyOAM h .oam s).bufs = s.bufs := by simp [copyOAM]

/-! ### `wr` -/

/-- The only CPU register a write can change is `CYC`, which grows by what a DMA costs exactly when the write meets a trap
at its DMA register (R445, R446, R460). -/
theorem cpuWrite_dma (a : Addr) (v : Byte) (s : State) :
    (cpuWrite a v s).cpu = s.cpu ∨
      ((cpuWrite a v s).cpu = { s.cpu with cyc := s.cpu.cyc + copyOamCost s.cpu.cyc } ∧
        ∃ d ∈ s.cpuBus.traps, d.callback = .oamDma a) := by
  unfold cpuWrite cpuTrapWrite
  split
  · rename_i t ht
    split
    · exact .inl (by simp)
    · rename_i reg hc
      split
      · rename_i he
        exact .inr ⟨copyOAM_cpu v .oam s, t, List.mem_of_find?_eq_some ht, by rw [hc, he]⟩
      · exact .inl (by simp)
    · exact .inl (by simp)
  · exact .inl (by simp)

/-- The only CPU register a write can change is `CYC`, and it never gets smaller (R445, R446). -/
theorem cpuWrite_cpu (a : Addr) (v : Byte) (s : State) :
    ∃ n, (cpuWrite a v s).cpu = { s.cpu with cyc := s.cpu.cyc + n } := by
  rcases cpuWrite_dma a v s with h | ⟨h, _⟩
  · exact ⟨0, h⟩
  · exact ⟨_, h⟩

@[simp] theorem cpuWrite_cpuBus (a : Addr) (v : Byte) (s : State) : (cpuWrite a v s).cpuBus = s.cpuBus := by
  unfold cpuWrite cpuTrapWrite; (repeat' split) <;> simp
@[simp] theorem cpuWrite_ppuBus (a : Addr) (v : Byte) (s : State) : (cpuWrite a v s).ppuBus = s.ppuBus := by
  unfold cpuWrite cpuTrapWrite; (repeat' split) <;> simp
@[simp] theorem cpuWrite_a (a : Addr) (v : Byte) (s : State) : (cpuWrite a v s).cpu.a = s.cpu.a := by
  obtain ⟨n, h⟩ := cpuWrite_cpu a v s; simp [h]
@[simp] theorem cpuWrite_x (a : Addr) (v : Byte) (s : State) : (cpuWrite a v s).cpu.x = s.cpu.x := by
  obtain ⟨n, h⟩ := cpuWrite_cpu a v s; simp [h]
@[simp] theorem cpuWrite_y (a : Addr) (v : Byte) (s : State) : (cpuWrite a v s).cpu.y = s.cpu.y := by
  obtain ⟨n, h⟩ := cpuWrite_cpu a v s; simp [h]
@[simp] theorem cpuWrite_sp (a : Addr) (v : Byte) (s : State) : (cpuWrite a v s).cpu.sp = s.cpu.sp := by
  obtain ⟨n, h⟩ := cpuWrite_cpu a v s; simp [h]
@[simp] theorem cpuWrite_p (a : Addr) (v : Byte) (s : State) : (cpuWrite a v s).cpu.p = s.cpu.p := by
  obtain ⟨n, h⟩ := cpuWrite_cpu a v s; simp [h]
@[simp] theorem cpuWrite_pc (a : Addr) (v : Byte) (s : State) : (cpuWrite a v s).cpu.pc = s.cpu.pc := by
  obtain ⟨n, h⟩ := cpuWrite_cpu a v s; simp [h]
@[simp] theorem cpuWrite_instrPC (a : Addr) (v : Byte) (s : State) : (cpuWrite a v s).cpu.instrPC = s.cpu.instrPC := by
  obtain ⟨n, h⟩ := cpuWrite_cpu a v s; simp [h]
@[simp] theorem cpuWrite_pageCrossed (a : Addr) (v : Byte) (s : State) :
    (cpuWrite a v s).cpu.pageCrossed = s.cpu.pageCrossed := by
  obtain ⟨n, h⟩ := cpuWrite_cpu a v s; simp [h]
@[simp] theorem cpuWrite_errKind (a : Addr) (v : Byte) (s : State) : (cpuWrite a v s).cpu.errKind = s.cpu.errKind := by
  obtain ⟨n, h⟩ := cpuWrite_cpu a v s; simp [h]
@[simp] theorem cpuWrite_errOpcode (a : Addr) (v : Byte) (s : State) :
    (cpuWrite a v s).cpu.errOpcode = s.cpu.errOpcode := by
  obtain ⟨n, h⟩ := cpuWrite_cpu a v s; simp [h]

/-- An untrapped write changes the mapped byte and nothing else (R63). -/
theorem cpuWrite_untrapped (a : Addr) (v : Byte) (s : State) (h : s.untrapped a) :
    cpuWrite a v s = s.withBufs (s.cpuBus.poke s.bufs a v) := by
  unfold State.untrapped at h
  simp [cpuWrite, h]

/-- A write through a page table changes at most the byte it locates. -/
theorem poke_kept {κ : Type} (bus : AddressSpace κ) (bufs : List Buffer) (a : Addr) (v : Byte) :
    (∀ l, some l ≠ bus.locate a → storeRead (bus.poke bufs a v) l = storeRead bufs l) ∧
      (bus.poke bufs a v).map Buffer.len = bufs.map Buffer.len := by
  unfold AddressSpace.poke
  split
  · rename_i k h
    exact ⟨fun l hl => storeRead_write_ne bufs k l v (fun e => hl (by rw [h, e])), storeWrite_lens bufs k v⟩
  · exact ⟨fun _ _ => rfl, rfl⟩

/-- Memory is kept where the buffers are the same. -/
theorem MemoryKeptBut.of_eq (dest : Option Loc) (s t : State) (h : t.bufs = s.bufs) : MemoryKeptBut dest s t :=
  ⟨fun l _ => by rw [h], by rw [h]⟩

/-- A write changes at most the place `cpuStoreLoc` names, on trapped and untrapped addresses alike. -/
theorem cpuWrite_memory (a : Addr) (v : Byte) (s : State) : MemoryKeptBut (cpuStoreLoc s a) s (cpuWrite a v s) := by
  unfold cpuStoreLoc cpuWrite cpuTrapWrite
  cases hb : s.cpuBus.trapAt a with
  | none => exact poke_kept s.cpuBus s.bufs a v
  | some t =>
    cases hc : t.callback with
    | oamDma reg =>
      simp only [hc]
      split
      · exact MemoryKeptBut.of_eq _ _ _ (copyOAM_oam_bufs v s)
      · exact MemoryKeptBut.of_eq _ _ _ rfl
    | external => simp only [hc]; exact MemoryKeptBut.of_eq _ _ _ rfl
    | ppuWindow =>
      simp only [hc]
      cases PpuReg.ofAddr a
      case data =>
        simp only [regWrite, writeData, ppuWrite, ppuBusWrite]
        cases s.ppuBus.trapAt (ppuBusAddr (scrollAddr s.ppu.v &&& 0x3FFF)) with
        | none => exact poke_kept s.ppuBus s.bufs _ v
        | some _ => exact MemoryKeptBut.of_eq _ _ _ rfl
      all_goals exact MemoryKeptBut.of_eq _ _ _ rfl

/-! ### The stack -/

@[simp] theorem pop_fst (s : State) : (pop s).1 = (cpuRead (stackAddr (s.cpu.sp + 1)) s).1 := rfl
@[simp] theorem pop_cpu (s : State) : (pop s).2.cpu = { s.cpu with sp := s.cpu.sp + 1 } := by simp [pop]
@[simp] theorem pop_cpuBus (s : State) : (pop s).2.cpuBus = s.cpuBus := by simp [pop]
@[simp] theorem pop_ppuBus (s : State) : (pop s).2.ppuBus = s.ppuBus := by simp [pop]
@[simp] theorem pop_bufs (s : State) : (pop s).2.bufs = s.bufs := by simp [pop]

/-- A push changes `SP`, and `CYC` when the stack address is the DMA register. -/
theorem push_cpu (v : Byte) (s : State) :
    ∃ n, (push v s).cpu = { s.cpu with sp := s.cpu.sp - 1, cyc := s.cpu.cyc + n } := by
  obtain ⟨n, h⟩ := cpuWrite_cpu (stackAddr s.cpu.sp) v s
  exact ⟨n, by simp [push, h]⟩
@[simp] theorem push_sp (v : Byte) (s : State) : (push v s).cpu.sp = s.cpu.sp - 1 := by simp [push]
@[simp] theorem push_p (v : Byte) (s : State) : (push v s).cpu.p = s.cpu.p := by simp [push]
@[simp] theorem push_pc (v : Byte) (s : State) : (push v s).cpu.pc = s.cpu.pc := by simp [push]
@[simp] theorem push_cpuBus (v : Byte) (s : State) : (push v s).cpuBus = s.cpuBus := by simp [push]
@[simp] theorem push_ppuBus (v : Byte) (s : State) : (push v s).ppuBus = s.ppuBus := by simp [push]
@[simp] theorem push_bufs (v : Byte) (s : State) : (push v s).bufs = (cpuWrite (stackAddr s.cpu.sp) v s).bufs := rfl

/-- A push on an untrapped stack address. -/
theorem push_untrapped (v : Byte) (s : State) (h : s.untrapped (stackAddr s.cpu.sp)) :
    push v s = (s.withBufs (s.cpuBus.poke s.bufs (stackAddr s.cpu.sp) v)).setSP (s.cpu.sp - 1) := by
  simp [push, cpuWrite_untrapped, h]

/-- A pop from an untrapped stack address. -/
theorem pop_untrapped (s : State) (h : s.untrapped (stackAddr (s.cpu.sp + 1))) :
    pop s = (s.byteAt (stackAddr (s.cpu.sp + 1)), s.setSP (s.cpu.sp + 1)) := by
  unfold pop; rw [cpuRead_untrapped _ _ h]

@[simp] theorem popWord_cpu (s : State) : (popWord s).2.cpu = { s.cpu with sp := s.cpu.sp + 1 + 1 } := by simp [popWord]
@[simp] theorem popWord_cpuBus (s : State) : (popWord s).2.cpuBus = s.cpuBus := by simp [popWord]
@[simp] theorem popWord_ppuBus (s : State) : (popWord s).2.ppuBus = s.ppuBus := by simp [popWord]
@[simp] theorem popWord_bufs (s : State) : (popWord s).2.bufs = s.bufs := by simp [popWord]

/-- Two pushes change `SP`, and `CYC` when a stack address is the DMA register. -/
theorem pushWord_cpu (w : Addr) (s : State) :
    ∃ n, (pushWord w s).cpu = { s.cpu with sp := s.cpu.sp - 1 - 1, cyc := s.cpu.cyc + n } := by
  obtain ⟨n, h⟩ := push_cpu (hiByte w) s
  obtain ⟨k, h'⟩ := push_cpu (loByte w) (push (hiByte w) s)
  exact ⟨n + k, by simp [pushWord, h', h, Nat.add_assoc]⟩
@[simp] theorem pushWord_cpuBus (w : Addr) (s : State) : (pushWord w s).cpuBus = s.cpuBus := by simp [pushWord]
@[simp] theorem pushWord_ppuBus (w : Addr) (s : State) : (pushWord w s).ppuBus = s.ppuBus := by simp [pushWord]

/-! ### `fetch` -/

@[simp] theorem fetch_fst (s : State) : (fetch s).1 = (cpuRead s.cpu.pc s).1 := rfl
@[simp] theorem fetch_cpu (s : State) : (fetch s).2.cpu = { s.cpu with pc := s.cpu.pc + 1 } := by simp [fetch]
@[simp] theorem fetch_cpuBus (s : State) : (fetch s).2.cpuBus = s.cpuBus := by simp [fetch]
@[simp] theorem fetch_ppuBus (s : State) : (fetch s).2.ppuBus = s.ppuBus := by simp [fetch]
@[simp] theorem fetch_bufs (s : State) : (fetch s).2.bufs = s.bufs := by simp [fetch]

/-- A fetch from an untrapped address. -/
theorem fetch_untrapped (s : State) (h : s.untrapped s.cpu.pc) :
    fetch s = (s.byteAt s.cpu.pc, s.setPC (s.cpu.pc + 1)) := by
  simp [fetch, cpuRead_untrapped, h]

end Sys2Proof.Machine
end

