-- ==== Sys2Proof/Laws/Encoding.lean ====
section
/-! SUPPORT. Bytes and words as numbers, and the decoder and encoder: the opcode map against the encoder's lists. -/

namespace Sys2Proof

/-! ### Bytes and words as numbers -/

theorem wordOf_toNat (h l : Byte) : (wordOf h l).toNat = h.toNat * 256 + l.toNat := by
  have e : (wordOf h l).toNat = h.toNat <<< 8 ||| l.toNat := BitVec.toNat_append h l
  rw [e, ← Nat.shiftLeft_add_eq_or_of_lt l.isLt, Nat.shiftLeft_eq]

theorem hiByte_toNat (w : Addr) : (hiByte w).toNat = w.toNat / 256 := by
  have := w.isLt
  simp [hiByte, Nat.shiftRight_eq_div_pow]
  omega

theorem loByte_toNat (w : Addr) : (loByte w).toNat = w.toNat % 256 := by simp [loByte]

@[simp] theorem wordOf_hi_lo (w : Addr) : wordOf (hiByte w) (loByte w) = w := by
  apply BitVec.eq_of_toNat_eq
  rw [wordOf_toNat, hiByte_toNat, loByte_toNat]
  omega

@[simp] theorem loByte_wordOf (h l : Byte) : loByte (wordOf h l) = l := by
  apply BitVec.eq_of_toNat_eq
  have := l.isLt
  rw [loByte_toNat, wordOf_toNat]
  omega

@[simp] theorem hiByte_wordOf (h l : Byte) : hiByte (wordOf h l) = h := by
  apply BitVec.eq_of_toNat_eq
  have := l.isLt
  rw [hiByte_toNat, wordOf_toNat]
  omega

@[simp] theorem zext16_toNat (b : Byte) : (zext16 b).toNat = b.toNat := by
  have := b.isLt
  simp [zext16]
  omega

theorem sext16_eq (b : Byte) : sext16 b = BitVec.ofInt 16 b.toInt := rfl

/-! ### The opcode map -/

/-- The empty cells of the map are exactly the undefined bytes of R132. -/
theorem cell_isNone_iff (op : Byte) : (opcodeCell op).isNone = undefinedOpcodes.contains op := by
  have h : ∀ n : Fin 256, (opcodeCell (BitVec.ofFin n)).isNone = undefinedOpcodes.contains (BitVec.ofFin n) := by
    decide +kernel
  exact h op.toFin

/-- An undefined byte has an empty cell. -/
theorem undefined_cell (op : Byte) (h : op ∈ undefinedOpcodes) : opcodeCell op = none := by
  have := cell_isNone_iff op
  rw [List.contains_iff_mem.mpr h] at this
  simpa using this

/-- Every instruction of a form has this opcode byte, the operand bytes it was read from, and is a row of the table. -/
def FormAgrees (op : Byte) : Form → Prop
  | .f1 i => i.opcode = op ∧ i.operandBytes = [] ∧ i.wellFormed = true
  | .f2 f => ∀ b, (f b).opcode = op ∧ (f b).operandBytes = [b] ∧ (f b).wellFormed = true
  | .f3 f => ∀ w, (f w).opcode = op ∧ (f w).operandBytes = [loByte w, hiByte w] ∧ (f w).wellFormed = true

set_option maxRecDepth 20000 in
/-- The decoder's map and the encoder's lists agree at every opcode byte. -/
theorem opcodeForm_agrees (op : Byte) : FormAgrees op (opcodeForm op) := by
  have h : ∀ n : Fin 256, FormAgrees (BitVec.ofFin n) (opcodeForm (BitVec.ofFin n)) := by
    intro n
    fin_cases n <;> first | exact ⟨rfl, rfl, rfl⟩ | exact fun b => ⟨rfl, rfl, rfl⟩
  exact h op.toFin

/-! ### Decoding by form -/

theorem decode_f1 (op : Byte) (rest : List Byte) (i : Instr) (h : opcodeForm op = .f1 i) :
    decode (op :: rest) = .ok (i, rest) := by simp [decode, h]

theorem decode_f2 (op b : Byte) (rest : List Byte) (f : Byte → Instr) (h : opcodeForm op = .f2 f) :
    decode (op :: b :: rest) = .ok (f b, rest) := by simp [decode, h]

theorem decode_f3 (op lo hi : Byte) (rest : List Byte) (f : Addr → Instr) (h : opcodeForm op = .f3 f) :
    decode (op :: lo :: hi :: rest) = .ok (f (wordOf hi lo), rest) := by simp [decode, h]

end Sys2Proof
end

