-- ==== Sys2Proof/Laws/Bus.lean ====
section
/-! SUPPORT. The configuration operations of an AddressSpace: what `map`, `unmap` and `mapRegister` leave in each page and
slot, and that they keep an AddressSpace valid. -/

namespace Sys2Proof.Machine

/-- The entry of a page table after a fill. -/
theorem fillPages_get (pages : Vector PageEntry 256) (first : Nat) (entry : Nat → PageEntry) (n : Nat) (p : Byte) :
    atByte (fillPages pages first entry n) p =
      if first ≤ p.toNat ∧ p.toNat < first + n then entry (p.toNat - first) else atByte pages p := by
  induction n with
  | zero => rw [if_neg (by omega)]; rfl
  | succ n ih =>
    unfold fillPages
    unfold atByte at ih ⊢
    rw [Vector.getElem_setIfInBounds]
    by_cases h : first + n = p.toNat
    · rw [if_pos h, if_pos (by omega)]
      congr 1
      omega
    · rw [if_neg h, ih]
      by_cases h2 : first ≤ p.toNat ∧ p.toNat < first + n
      · rw [if_pos h2, if_pos (by omega)]
      · rw [if_neg h2, if_neg (by omega)]

/-- An address of an aligned range lies on a page of the range, and the other way round. -/
theorem inRange_iff (start stop a : Addr) (h : rangeAligned start stop = true) :
    (start ≤ a ∧ a ≤ stop) ↔
      pageOf start ≤ (hiByte a).toNat ∧ (hiByte a).toNat < pageOf start + dstPages start stop := by
  simp only [rangeAligned, Bool.and_eq_true, decide_eq_true_eq] at h
  rw [hiByte_toNat, BitVec.le_def, BitVec.le_def]
  have := stop.isLt
  have := a.isLt
  unfold pageOf dstPages
  omega

/-- `map` page by page (R64, R66). -/
theorem map_page {κ : Type} (bus : AddressSpace κ) (h len : Nat) (start stop a : Addr) (mask : Byte)
    (hr : rangeAligned start stop = true) :
    atByte (bus.map h len start stop mask).pages (hiByte a) =
      if start ≤ a ∧ a ≤ stop then .mapped h ((a.toNat - start.toNat) / 256 % srcPages len * 256) mask
      else atByte bus.pages (hiByte a) := by
  unfold AddressSpace.map
  dsimp only
  rw [fillPages_get]
  by_cases hc : start ≤ a ∧ a ≤ stop
  · rw [if_pos hc, if_pos ((inRange_iff start stop a hr).mp hc)]
    congr 3
    simp only [rangeAligned, Bool.and_eq_true, decide_eq_true_eq] at hr
    rw [BitVec.le_def, BitVec.le_def] at hc
    rw [hiByte_toNat, pageOf]
    omega
  · rw [if_neg hc, if_neg (fun e => hc ((inRange_iff start stop a hr).mpr e))]

/-- `unmap` page by page (R68). -/
theorem unmap_page {κ : Type} (bus : AddressSpace κ) (start stop a : Addr) (hr : rangeAligned start stop = true) :
    atByte (bus.unmap start stop).pages (hiByte a) =
      if start ≤ a ∧ a ≤ stop then .unmapped else atByte bus.pages (hiByte a) := by
  unfold AddressSpace.unmap
  dsimp only
  rw [fillPages_get]
  by_cases hc : start ≤ a ∧ a ≤ stop
  · rw [if_pos hc, if_pos ((inRange_iff start stop a hr).mp hc)]
  · rw [if_neg hc, if_neg (fun e => hc ((inRange_iff start stop a hr).mpr e))]

/-- A masked offset is at most the offset and at most the mask. -/
theorem and_toNat_le (a b : Byte) : (a &&& b).toNat ≤ a.toNat ∧ (a &&& b).toNat ≤ b.toNat := by
  rw [BitVec.toNat_and]
  exact ⟨Nat.and_le_left, Nat.and_le_right⟩

/-- The preconditions of `map` put every masked offset of every tile inside the buffer (R65). -/
theorem mapAllowed_inside (len k : Nat) (start stop : Addr) (mask off : Byte)
    (h : mapAllowed len start stop mask = true) : k % srcPages len * 256 + (off &&& mask).toNat < len := by
  simp only [mapAllowed, Bool.and_eq_true, Bool.or_eq_true, decide_eq_true_eq] at h
  have h1 := and_toNat_le off mask
  have h2 := off.isLt
  have h3 := mask.isLt
  rcases h.2 with h4 | h4
  · have e : srcPages len = len / 256 := by unfold srcPages; omega
    rw [e]
    have := Nat.mod_lt k (show 0 < len / 256 by omega)
    omega
  · have e : srcPages len = 1 := by unfold srcPages; omega
    rw [e, Nat.mod_one]
    omega

/-- Validity depends on the lengths of the buffers alone. -/
theorem PageEntry.valid_congr (e : PageEntry) (b d : List Buffer) (h : d.map Buffer.len = b.map Buffer.len) :
    e.valid d ↔ e.valid b := by
  have key : ∀ (k : Nat) (P : Nat → Prop), (∃ x, d[k]? = some x ∧ P x.len) ↔ ∃ x, b[k]? = some x ∧ P x.len := by
    intro k P
    have hk := congrArg (fun l => l[k]?) h
    simp only [List.getElem?_map] at hk
    cases hd : d[k]? <;> cases hb : b[k]? <;> simp_all
  cases e with
  | unmapped => rfl
  | mapped k base mask =>
    simp only [PageEntry.valid]
    rw [key k fun n => ∀ off : Byte, base + (off &&& mask).toNat < n]

theorem AddressSpace.valid_congr {κ : Type} (bus : AddressSpace κ) (b d : List Buffer)
    (h : d.map Buffer.len = b.map Buffer.len) (hv : bus.Valid b) : bus.Valid d :=
  { pages := fun n => ((atByte bus.pages n).valid_congr b d h).mpr (hv.pages n), slots := hv.slots, ranges := hv.ranges }

/-- A new buffer keeps an AddressSpace valid. -/
theorem AddressSpace.valid_append {κ : Type} (bus : AddressSpace κ) (b c : List Buffer) (hv : bus.Valid b) :
    bus.Valid (b ++ c) := by
  refine { pages := fun n => ?_, slots := hv.slots, ranges := hv.ranges }
  have := hv.pages n
  cases e : atByte bus.pages n with
  | unmapped => trivial
  | mapped k base mask =>
    rw [e] at this
    obtain ⟨h1, x, hx, h2⟩ := this
    refine ⟨h1, x, ?_, h2⟩
    rw [List.getElem?_append_left (List.getElem?_eq_some_iff.mp hx).1, hx]

/-- A byte is the high byte of some address. -/
theorem hiByte_surj (n : Byte) : ∃ a : Addr, hiByte a = n := ⟨wordOf n 0, hiByte_wordOf n 0⟩

/-- `map` keeps an AddressSpace valid. -/
theorem AddressSpace.valid_map {κ : Type} (bus : AddressSpace κ) (bufs : List Buffer) (h : Nat) (b : Buffer)
    (start stop : Addr) (mask : Byte) (hb : bufs[h]? = some b) (ha : mapAllowed b.len start stop mask = true)
    (hv : bus.Valid bufs) : (bus.map h b.len start stop mask).Valid bufs := by
  have hr : rangeAligned start stop = true := by
    simp only [mapAllowed, Bool.and_eq_true] at ha
    exact ha.1.1
  refine { pages := fun n => ?_, slots := hv.slots, ranges := hv.ranges }
  obtain ⟨a, rfl⟩ := hiByte_surj n
  rw [map_page _ _ _ _ _ _ _ hr]
  split
  · exact ⟨Nat.mul_mod_left _ _, b, hb, fun off => mapAllowed_inside _ _ _ _ _ _ ha⟩
  · exact hv.pages _

/-- `unmap` keeps an AddressSpace valid. -/
theorem AddressSpace.valid_unmap {κ : Type} (bus : AddressSpace κ) (bufs : List Buffer) (start stop : Addr)
    (hr : rangeAligned start stop = true) (hv : bus.Valid bufs) : (bus.unmap start stop).Valid bufs := by
  refine { pages := fun n => ?_, slots := hv.slots, ranges := hv.ranges }
  obtain ⟨a, rfl⟩ := hiByte_surj n
  rw [unmap_page _ _ _ _ hr]
  split
  · trivial
  · exact hv.pages _

/-- With four slots filled `mapRegister` changes nothing and is refused for no range (R70). -/
theorem AddressSpace.mapRegister_full {κ : Type} (bus : AddressSpace κ) (t : Trap κ) (h : 4 ≤ bus.traps.length) :
    bus.mapRegister t = bus ∧ bus.fillsReversed t = false := by
  have hn : ¬ bus.traps.length < Config.trapSlots := by unfold Config.trapSlots; omega
  simp [AddressSpace.mapRegister, AddressSpace.fillsReversed, hn]

/-- `mapRegister` keeps an AddressSpace valid. -/
theorem AddressSpace.valid_mapRegister {κ : Type} (bus : AddressSpace κ) (bufs : List Buffer) (t : Trap κ)
    (ht : bus.fillsReversed t = false) (hv : bus.Valid bufs) : (bus.mapRegister t).Valid bufs := by
  unfold AddressSpace.mapRegister
  split
  · rename_i hl
    refine { pages := hv.pages, slots := ?_, ranges := ?_ }
    · simp only [List.length_append, List.length_cons, List.length_nil]
      exact hl
    · intro u hu
      rcases List.mem_append.mp hu with h | h
      · exact hv.ranges u h
      · rw [List.mem_singleton.mp h]
        simp only [AddressSpace.fillsReversed, hl, decide_true, Bool.true_and, decide_eq_false_iff_not] at ht
        exact BitVec.not_lt.mp ht
  · exact hv

end Sys2Proof.Machine
end

