-- ==== Sys2Proof/Laws/Flags.lean ====
section
/-! SUPPORT. The laws of the status register: what each flag reads after one was set, and the flags of every computation. -/

namespace Sys2Proof.Machine

/-- A flag after one flag was set: the new value there, the old value elsewhere. -/
@[simp] theorem getFlag_setFlag (f g : Flag) (on : Bool) (p : Byte) :
    getFlag (setFlag g on p) f = if f = g then on else getFlag p f := by
  cases f <;> cases g <;> cases on <;> simp [getFlag, setFlag, Flag.bit]

/-- `setZN` writes Z and N and no other flag. -/
@[simp] theorem getFlag_setZN (v p : Byte) (f : Flag) :
    getFlag (setZN v p) f = match f with | .z => v == 0 | .n => v.getLsbD 7 | _ => getFlag p f := by
  cases f <;> simp [setZN]

/-- A status byte is its eight flags. -/
theorem status_ext (p q : Byte) (h : ∀ f, getFlag p f = getFlag q f) : p = q := by
  have hc := h .c; have hz := h .z; have hi := h .i; have hd := h .d
  have hb := h .b; have hu := h .u; have hv := h .v; have hn := h .n
  simp only [getFlag, Flag.bit] at *
  apply BitVec.eq_of_getLsbD_eq
  intro i hi8
  interval_cases i <;> assumption

/-- The break bits of `P` in terms of the flags B and U. -/
theorem breaks_iff (p : Byte) : p &&& 0x30 = 0x20 ↔ getFlag p .b = false ∧ getFlag p .u = true := by
  revert p; decide +kernel

/-- The status a popped byte becomes, flag by flag (R16). -/
@[simp] theorem getFlag_restoredStatus (b : Byte) (f : Flag) :
    getFlag (restoredStatus b) f = match f with | .b => false | .u => true | _ => getFlag b f := by
  revert b; cases f <;> decide +kernel

/-- The pushed status, flag by flag (R252, R430). -/
@[simp] theorem getFlag_pushedStatus (p : Byte) (f : Flag) :
    getFlag (pushedStatus p) f = match f with | .b => true | .u => true | _ => getFlag p f := by
  revert p; cases f <;> decide +kernel

/-- Restoring a pushed status gives the status back when its break bits are as R16 keeps them. -/
theorem restored_pushed (p : Byte) (h : p &&& 0x30 = 0x20) : restoredStatus (pushedStatus p) = p := by
  revert p; decide +kernel

/-- The flags after an addition: C, V, Z, N and no other. -/
@[simp] theorem getFlag_addStatus (a m p : Byte) (f : Flag) :
    getFlag (addStatus a m p) f = match f with
      | .c => decide (addSum a m (getFlag p .c) > 0xFF)
      | .v => addOverflow a m (addResult a m (getFlag p .c))
      | .z => addResult a m (getFlag p .c) == 0
      | .n => (addResult a m (getFlag p .c)).getLsbD 7
      | _ => getFlag p f := by
  cases f <;> simp [addStatus]

/-- The flags after a comparison: C, Z, N and no other. -/
@[simp] theorem getFlag_compareStatus (r m p : Byte) (f : Flag) :
    getFlag (compareStatus r m p) f = match f with
      | .c => decide (m ≤ r)
      | .z => r == m
      | .n => (r - m).getLsbD 7
      | _ => getFlag p f := by
  cases f <;> simp [compareStatus]

/-- The flags after a bit test: Z, V, N and no other. -/
@[simp] theorem getFlag_bitStatus (a m p : Byte) (f : Flag) :
    getFlag (bitStatus a m p) f = match f with
      | .z => a &&& m == 0
      | .v => m.getLsbD 6
      | .n => m.getLsbD 7
      | _ => getFlag p f := by
  cases f <;> simp [bitStatus]

/-- The flags after a shift: C, Z, N and no other. -/
@[simp] theorem getFlag_shiftStatus (r : Shifted) (p : Byte) (f : Flag) :
    getFlag (shiftStatus r p) f = match f with
      | .c => r.carry
      | .z => r.result == 0
      | .n => r.result.getLsbD 7
      | _ => getFlag p f := by
  cases f <;> simp [shiftStatus]

/-- Bit 7 of a byte as a bound on its value. -/
theorem bit7_eq (x : Byte) : x.getLsbD 7 = decide (128 ≤ x.toNat) := by revert x; decide +kernel

/-- A byte's signed value in terms of its unsigned value. -/
theorem toInt_eq (x : Byte) : x.toInt = x.toNat - (if 128 ≤ x.toNat then 256 else 0) := by revert x; decide +kernel

/-- The overflow formula of R183 as three sign bits. -/
theorem addOverflow_eq (a m r : Byte) :
    addOverflow a m r = ((a.getLsbD 7 != r.getLsbD 7) && (m.getLsbD 7 != r.getLsbD 7)) := by
  have h : ∀ x : Byte, (x &&& 0x80 != 0) = x.getLsbD 7 := by decide +kernel
  rw [addOverflow, h]; simp

/-- The overflow formula of R183 is signed overflow. -/
theorem addOverflow_iff (a m : Byte) (c : Bool) :
    addOverflow a m (addResult a m c) =
      decide (a.toInt + m.toInt + c.toNat < -128 ∨ 127 < a.toInt + m.toInt + c.toNat) := by
  have ha := a.isLt
  have hm := m.isLt
  have hc : c.toNat ≤ 1 := Bool.toNat_le c
  have hr : (addResult a m c).toNat = (a.toNat + m.toNat + c.toNat) % 256 := by simp [addResult, addSum]
  rw [addOverflow_eq, bit7_eq, bit7_eq, bit7_eq, toInt_eq, toInt_eq, hr, Bool.eq_iff_iff]
  simp only [bne, beq_eq_decide, Bool.and_eq_true, Bool.not_eq_true', decide_eq_false_iff_not, decide_eq_true_eq,
    decide_eq_decide]
  split <;> split <;> omega

end Sys2Proof.Machine
end

