-- ==== Sys2Proof/Laws/Operands.lean ====
section
/-! SUPPORT. What computing an effective address, a read-class operand and each access class can do, said once for every
addressing mode. -/

namespace Sys2Proof.Machine

/-! ### Effective addresses -/

/-- An address computation changes no CPU register but `pageCrossed`. -/
theorem resolve_cpu (m : AddrMode) (s : State) :
    (resolve m s).2.cpu = { s.cpu with pageCrossed := (resolve m s).2.cpu.pageCrossed } := by
  cases m <;> simp [resolve, indexed, zeroPageWord]
@[simp] theorem resolve_cpuBus (m : AddrMode) (s : State) : (resolve m s).2.cpuBus = s.cpuBus := by
  cases m <;> simp [resolve, indexed, zeroPageWord]
@[simp] theorem resolve_ppuBus (m : AddrMode) (s : State) : (resolve m s).2.ppuBus = s.ppuBus := by
  cases m <;> simp [resolve, indexed, zeroPageWord]
@[simp] theorem resolve_bufs (m : AddrMode) (s : State) : (resolve m s).2.bufs = s.bufs := by
  cases m <;> simp [resolve, indexed, zeroPageWord]
@[simp] theorem resolve_a (m : AddrMode) (s : State) : (resolve m s).2.cpu.a = s.cpu.a := by rw [resolve_cpu]
@[simp] theorem resolve_x (m : AddrMode) (s : State) : (resolve m s).2.cpu.x = s.cpu.x := by rw [resolve_cpu]
@[simp] theorem resolve_y (m : AddrMode) (s : State) : (resolve m s).2.cpu.y = s.cpu.y := by rw [resolve_cpu]
@[simp] theorem resolve_p (m : AddrMode) (s : State) : (resolve m s).2.cpu.p = s.cpu.p := by rw [resolve_cpu]
@[simp] theorem resolve_cyc (m : AddrMode) (s : State) : (resolve m s).2.cpu.cyc = s.cpu.cyc := by rw [resolve_cpu]

/-- With its own pointer untrapped an address computation changes `pageCrossed` and nothing else. -/
theorem resolve_untrapped (m : AddrMode) (s : State) (h : ∀ a ∈ pointerAddrs m s, s.untrapped a) :
    (resolve m s).2 = s.setCrossed (resolve m s).2.cpu.pageCrossed := by
  cases m <;> simp_all [pointerAddrs, resolve, indexed, zeroPageWord, readWord_untrapped] <;> rfl

@[simp] theorem untrapped_resolve (m : AddrMode) (s : State) (a : Addr) :
    (resolve m s).2.untrapped a ↔ s.untrapped a := by simp [State.untrapped]
@[simp] theorem isMemory_resolve (m : AddrMode) (s : State) (a : Addr) :
    (resolve m s).2.isMemory a ↔ s.isMemory a := by simp [State.isMemory]
@[simp] theorem byteAt_resolve (m : AddrMode) (s : State) (a : Addr) :
    (resolve m s).2.byteAt a = s.byteAt a := by simp [State.byteAt]

/-! ### Read-class operands -/

/-- Reading an operand changes no CPU register but `pageCrossed`. -/
theorem load_cpu (src : Source) (s : State) :
    (load src s).2.cpu = { s.cpu with pageCrossed := (load src s).2.cpu.pageCrossed } := by
  cases src with
  | imm b => rfl
  | mem m => simp only [load, cpuRead_cpu]; exact resolve_cpu m s
@[simp] theorem load_cpuBus (src : Source) (s : State) : (load src s).2.cpuBus = s.cpuBus := by
  cases src <;> simp [load]
@[simp] theorem load_ppuBus (src : Source) (s : State) : (load src s).2.ppuBus = s.ppuBus := by
  cases src <;> simp [load]
@[simp] theorem load_bufs (src : Source) (s : State) : (load src s).2.bufs = s.bufs := by
  cases src <;> simp [load]

/-! ### Access classes -/

theorem readClass_eq (src : Source) (act : Byte → State → State) (s : State) : readClass src act s =
    .next ((act (load src s).1 (load src s).2).charge (readCost src (load src s).2.cpu.pageCrossed)) := rfl

theorem writeClass_eq (m : AddrMode) (value : State → Byte) (s : State) : writeClass m value s =
    .next ((cpuWrite (resolve m s).1 (value (resolve m s).2) (resolve m s).2).charge (writeCost m)) := rfl

theorem modifyMemory_eq (m : AddrMode) (result status : Byte → Byte → Byte) (s : State) :
    modifyMemory m result status s =
      .next ((cpuWrite (resolve m s).1 (result (modifyOperand m s) (cpuRead (resolve m s).1 (resolve m s).2).2.cpu.p)
        ((cpuRead (resolve m s).1 (resolve m s).2).2.setP
          (status (modifyOperand m s) (cpuRead (resolve m s).1 (resolve m s).2).2.cpu.p))).charge (rmwCost m)) := rfl

/-- A read-class instruction whose action writes CPU registers only. -/
theorem readClass_after (src : Source) (act : Byte → State → State) (s : State) (c : Cpu)
    (h : ∀ s1 : State, s1.cpu = { s.cpu with pageCrossed := s1.cpu.pageCrossed } →
      act (load src s).1 s1 = s1.withCpu { c with pageCrossed := s1.cpu.pageCrossed }) :
    ∃ t, readClass src act s = .next t ∧ t.cpu.p = c.p ∧ AfterRead src s t c := by
  have e := h (load src s).2 (load_cpu src s)
  have ht : readClass src act s =
      .next ((act (load src s).1 (load src s).2).charge (readCost src (load src s).2.cpu.pageCrossed)) := rfl
  rw [e] at ht
  refine ⟨_, ht, rfl, rfl, by simp, by simp [BusesKept], ?_⟩
  rintro b rfl
  simp [load]

/-- Reading where a write of a memory address went. -/
theorem byteAt_cpuWrite (a : Addr) (v : Byte) (s : State) (h : s.isMemory a) (hw : ∀ b ∈ s.bufs, b.wf = true) :
    (cpuWrite a v s).byteAt a = v := by
  obtain ⟨hu, l, hl, hs⟩ := h
  rw [cpuWrite_untrapped a v s hu]
  simp [State.byteAt, AddressSpace.peek, AddressSpace.poke, hl, storeRead_write_same s.bufs l v hw hs]

/-- A write-class instruction. -/
theorem writeClass_after (m : AddrMode) (value : State → Byte) (s : State) (v : Byte)
    (hv : value (resolve m s).2 = v) : ∃ t, writeClass m value s = .next t ∧ AfterWrite m v s t := by
  subst hv
  have e : writeClass m value s =
      .next ((cpuWrite (resolve m s).1 (value (resolve m s).2) (resolve m s).2).charge (writeCost m)) := rfl
  refine ⟨_, e, rfl, ?_, ?_, ?_, ?_, ?_⟩
  · obtain ⟨n, h⟩ := cpuWrite_cpu (resolve m s).1 (value (resolve m s).2) (resolve m s).2
    by_cases hu : s.untrapped (resolve m s).1
    · refine ⟨0, ?_, fun _ => rfl⟩
      rw [charge_cpu, cpuWrite_untrapped _ _ _ (by simpa using hu), withBufs_cpu]
      nth_rw 1 [resolve_cpu]
      simp
    · refine ⟨n, ?_, fun h => absurd h hu⟩
      rw [charge_cpu, h]
      nth_rw 1 [resolve_cpu]
      simp
  · have := cpuWrite_memory (resolve m s).1 (value (resolve m s).2) (resolve m s).2
    simpa [MemoryKeptBut] using this
  · simp [BusesKept]
  · intro hu; rw [cpuWrite_untrapped _ _ _ (by simpa using hu)]; simp
  · intro hm hw
    exact byteAt_cpuWrite _ _ (resolve m s).2 (by simpa using hm) (by simpa using hw)

/-- A read-modify-write instruction on memory. -/
theorem modifyMemory_after (m : AddrMode) (result status : Byte → Byte → Byte) (s : State) (r : Byte → Byte) (p : Byte)
    (hr : result (modifyOperand m s) s.cpu.p = r (modifyOperand m s)) (hp : status (modifyOperand m s) s.cpu.p = p) :
    ∃ t, modifyMemory m result status s = .next t ∧ t.cpu.p = p ∧ AfterModify m r p s t := by
  subst hp
  have e : modifyMemory m result status s = .next ((cpuWrite (resolve m s).1 (r (modifyOperand m s))
      ((cpuRead (resolve m s).1 (resolve m s).2).2.setP (status (modifyOperand m s) s.cpu.p))).charge (rmwCost m)) := by
    simp only [modifyMemory, cpuRead_cpu, resolve_p]
    rw [← hr]; rfl
  refine ⟨_, e, by simp, rfl, ?_, ?_, ?_, ?_, ?_⟩
  · obtain ⟨n, h⟩ := cpuWrite_cpu (resolve m s).1 (r (modifyOperand m s))
      ((cpuRead (resolve m s).1 (resolve m s).2).2.setP (status (modifyOperand m s) s.cpu.p))
    by_cases hu : s.untrapped (resolve m s).1
    · refine ⟨0, ?_, fun _ => rfl⟩
      rw [charge_cpu, cpuWrite_untrapped _ _ _ (by simpa [State.untrapped] using hu), withBufs_cpu, setP_cpu, cpuRead_cpu]
      nth_rw 1 [resolve_cpu]
      simp
    · refine ⟨n, ?_, fun h => absurd h hu⟩
      rw [charge_cpu, h, setP_cpu, cpuRead_cpu]
      nth_rw 1 [resolve_cpu]
      simp
  · have := cpuWrite_memory (resolve m s).1 (r (modifyOperand m s))
      ((cpuRead (resolve m s).1 (resolve m s).2).2.setP (status (modifyOperand m s) s.cpu.p))
    have hs : cpuStoreLoc ((cpuRead (resolve m s).1 (resolve m s).2).2.setP (status (modifyOperand m s) s.cpu.p))
        (resolve m s).1 = cpuStoreLoc (cpuRead (resolve m s).1 (resolve m s).2).2 (resolve m s).1 := rfl
    rw [hs] at this
    simpa [MemoryKeptBut] using this
  · simp [BusesKept]
  · intro hu
    have hu' : (resolve m s).2.untrapped (resolve m s).1 := by simpa using hu
    rw [cpuRead_untrapped _ _ hu', cpuWrite_untrapped _ _ _ (by simpa [State.untrapped] using hu)]; simp
  · intro hm hw
    exact byteAt_cpuWrite _ _ _ (by simpa [State.isMemory, State.untrapped] using hm) (by simpa using hw)

end Sys2Proof.Machine
end

