-- ==== Sys2Proof/Laws/Stack.lean ====
section
/-! SUPPORT. The stack in page 1 when it is plain memory: a push writes one byte of it and nothing else, a pop reads it
back. -/

namespace Sys2Proof.Machine

/-- Page 1 stays a stack while `CpuBus` and the lengths of the buffers stay. -/
theorem hasStack_congr {s t : State} (hb : t.cpuBus = s.cpuBus) (hl : t.bufs.map Buffer.len = s.bufs.map Buffer.len) :
    t.hasStack ↔ s.hasStack := by
  simp only [State.hasStack, State.isMemory, State.untrapped, hb, inStore_iff, hl]

/-- A push on a stack leaves the PPU and the platform alone and changes `SP` alone in the CPU. -/
theorem push_stack (v : Byte) (s : State) (h : s.hasStack) :
    push v s = (s.withBufs (s.cpuBus.poke s.bufs (stackAddr s.cpu.sp) v)).setSP (s.cpu.sp - 1) :=
  push_untrapped v s (h.1 s.cpu.sp).1

/-- A pop from a stack. -/
theorem pop_stack (s : State) (h : s.hasStack) :
    pop s = (s.byteAt (stackAddr (s.cpu.sp + 1)), s.setSP (s.cpu.sp + 1)) :=
  pop_untrapped s (h.1 _).1

/-- A push keeps the stack. -/
theorem push_hasStack (v : Byte) (s : State) (h : s.hasStack) : (push v s).hasStack := by
  refine (hasStack_congr (push_cpuBus v s) ?_).mpr h
  rw [push_bufs]
  exact (cpuWrite_memory _ v s).2

/-- A push on a stack keeps the buffers canonical. -/
theorem push_wf (v : Byte) (s : State) (h : s.hasStack) (hw : ∀ b ∈ s.bufs, b.wf = true) :
    ∀ b ∈ (push v s).bufs, b.wf = true := by
  obtain ⟨_, l, hl, _⟩ := h.1 s.cpu.sp
  rw [push_stack v s h]
  simpa [AddressSpace.poke, hl] using storeWrite_wf s.bufs l v hw

/-- The byte pushed stands at the stack address. -/
theorem byteAt_push_same (v : Byte) (s : State) (h : s.hasStack) (hw : ∀ b ∈ s.bufs, b.wf = true) :
    (push v s).byteAt (stackAddr s.cpu.sp) = v := by
  have := byteAt_cpuWrite (stackAddr s.cpu.sp) v s (h.1 _) hw
  simpa [State.byteAt] using this

/-- Every other byte of the stack stays. -/
theorem byteAt_push_ne (v : Byte) (s : State) (h : s.hasStack) (k : Byte) (hk : k ≠ s.cpu.sp) :
    (push v s).byteAt (stackAddr k) = s.byteAt (stackAddr k) := by
  obtain ⟨_, l, hl, _⟩ := h.1 s.cpu.sp
  obtain ⟨_, j, hj, _⟩ := h.1 k
  have hne : j ≠ l := fun e => hk (h.2 _ _ (by rw [hj, hl, e]))
  rw [push_stack v s h]
  simp [State.byteAt, AddressSpace.peek, AddressSpace.poke, hl, hj, storeRead_write_ne s.bufs l j v hne]

/-- The two pushes of a word. -/
theorem pushWord_stack (w : Addr) (s : State) (h : s.hasStack) (hw : ∀ b ∈ s.bufs, b.wf = true) :
    (pushWord w s).cpu = { s.cpu with sp := s.cpu.sp - 2 } ∧ (pushWord w s).ppu = s.ppu ∧
      (pushWord w s).plat = s.plat ∧ (pushWord w s).hasStack ∧ (∀ b ∈ (pushWord w s).bufs, b.wf = true) ∧
      (pushWord w s).byteAt (stackAddr s.cpu.sp) = hiByte w ∧
      (pushWord w s).byteAt (stackAddr (s.cpu.sp - 1)) = loByte w ∧
      ∀ k, k ≠ s.cpu.sp → k ≠ s.cpu.sp - 1 → (pushWord w s).byteAt (stackAddr k) = s.byteAt (stackAddr k) := by
  have h1 := push_hasStack (hiByte w) s h
  have w1 := push_wf (hiByte w) s h hw
  have hsp : s.cpu.sp ≠ s.cpu.sp - 1 := by bv_omega
  have e2 : s.cpu.sp - 1 - 1 = s.cpu.sp - 2 := by bv_omega
  refine ⟨?_, ?_, ?_, push_hasStack _ _ h1, push_wf _ _ h1 w1, ?_, ?_, fun k hk hk' => ?_⟩
  · unfold pushWord
    rw [push_stack _ _ h1, push_stack _ _ h]
    simp only [setSP_cpu, withBufs_cpu, e2]
  · unfold pushWord
    rw [push_stack _ _ h1, push_stack _ _ h]
    rfl
  · unfold pushWord
    rw [push_stack _ _ h1, push_stack _ _ h]
    rfl
  · unfold pushWord
    rw [byteAt_push_ne _ _ h1 _ (by rw [push_sp]; exact hsp)]
    exact byteAt_push_same _ s h hw
  · unfold pushWord
    have := byteAt_push_same (loByte w) _ h1 w1
    rwa [push_sp] at this
  · unfold pushWord
    rw [byteAt_push_ne _ _ h1 _ (by rw [push_sp]; exact hk'), byteAt_push_ne _ _ h _ hk]

/-- Two pops of a word from a stack. -/
theorem popWord_stack (s : State) (h : s.hasStack) :
    popWord s = (s.wordAt (stackAddr (s.cpu.sp + 1)) (stackAddr (s.cpu.sp + 2)), s.setSP (s.cpu.sp + 2)) := by
  have h1 : (s.setSP (s.cpu.sp + 1)).hasStack := h
  have e2 : s.cpu.sp + 1 + 1 = s.cpu.sp + 2 := by bv_omega
  unfold popWord
  rw [pop_stack s h]
  dsimp only
  rw [pop_stack _ h1]
  simp only [setSP_cpu, e2]
  rfl

/-- Interrupt entry, the pushed and the new status in terms of the status before (R430). -/
theorem enterInterrupt_eq (vec : Addr) (s : State) : enterInterrupt vec s =
    let s1 := push (pushedStatus s.cpu.p) (pushWord s.cpu.pc s)
    let r := readWord vec (vec + 1) (s1.setP (setFlag .i true s.cpu.p))
    (r.2.setPC r.1).charge 7 := by
  have h : (pushWord s.cpu.pc s).cpu.p = s.cpu.p := by simp [pushWord]
  simp only [enterInterrupt, push_p, h]

/-- What interrupt entry does to the CPU; `n` is 0 unless a stack address is the DMA register. -/
theorem enterInterrupt_cpu (vec : Addr) (s : State) : ∃ n w, (enterInterrupt vec s).cpu =
    { s.cpu with sp := s.cpu.sp - 3, p := setFlag .i true s.cpu.p, pc := w, cyc := s.cpu.cyc + n + 7 } := by
  obtain ⟨n, hn⟩ := pushWord_cpu s.cpu.pc s
  obtain ⟨k, hk⟩ := push_cpu (pushedStatus s.cpu.p) (pushWord s.cpu.pc s)
  have h3 : s.cpu.sp - 1 - 1 - 1 = s.cpu.sp - 3 := by bv_omega
  refine ⟨n + k, (readWord vec (vec + 1)
    ((push (pushedStatus s.cpu.p) (pushWord s.cpu.pc s)).setP (setFlag .i true s.cpu.p))).1, ?_⟩
  rw [enterInterrupt_eq]
  simp only [charge_cpu, setPC_cpu, readWord_cpu, setP_cpu, hk, hn, h3, Nat.add_assoc]

@[simp] theorem enterInterrupt_cpuBus (vec : Addr) (s : State) : (enterInterrupt vec s).cpuBus = s.cpuBus := by
  simp [enterInterrupt_eq]
@[simp] theorem enterInterrupt_ppuBus (vec : Addr) (s : State) : (enterInterrupt vec s).ppuBus = s.ppuBus := by
  simp [enterInterrupt_eq]

/-- Interrupt entry on a stack, the two bytes of the vector untrapped (R430). -/
theorem enterInterrupt_stack (vec : Addr) (s : State) (h : s.hasStack) (hw : ∀ b ∈ s.bufs, b.wf = true)
    (hv : s.untrapped vec) (hv' : s.untrapped (vec + 1)) :
    ∃ u : State, enterInterrupt vec s = (u.setPC (u.wordAt vec (vec + 1))).charge 7 ∧
      u.cpu = { s.cpu with sp := s.cpu.sp - 3, p := setFlag .i true s.cpu.p } ∧ u.ppu = s.ppu ∧ u.plat = s.plat ∧
      u.hasStack ∧ u.byteAt (stackAddr s.cpu.sp) = hiByte s.cpu.pc ∧
      u.byteAt (stackAddr (s.cpu.sp - 1)) = loByte s.cpu.pc ∧
      u.byteAt (stackAddr (s.cpu.sp - 2)) = pushedStatus s.cpu.p := by
  obtain ⟨h1, h2, h3, h4, h5, h6, h7, _⟩ := pushWord_stack s.cpu.pc s h hw
  have hb : (pushWord s.cpu.pc s).cpuBus = s.cpuBus := pushWord_cpuBus _ _
  have he := enterInterrupt_eq vec s
  generalize pushWord s.cpu.pc s = s1 at *
  have hsp : s1.cpu.sp = s.cpu.sp - 2 := by rw [h1]
  have k1 := push_stack (pushedStatus s.cpu.p) s1 h4
  have k2 := byteAt_push_same (pushedStatus s.cpu.p) s1 h4 h5
  have k3 := byteAt_push_ne (pushedStatus s.cpu.p) s1 h4 s.cpu.sp (by rw [hsp]; bv_omega)
  have k4 := byteAt_push_ne (pushedStatus s.cpu.p) s1 h4 (s.cpu.sp - 1) (by rw [hsp]; bv_omega)
  have k5 := push_hasStack (pushedStatus s.cpu.p) s1 h4
  have kc : (push (pushedStatus s.cpu.p) s1).cpu = { s.cpu with sp := s.cpu.sp - 3 } := by
    have : s.cpu.sp - 2 - 1 = s.cpu.sp - 3 := by bv_omega
    rw [k1, setSP_cpu, withBufs_cpu, h1]
    simp only [this]
  have kp : (push (pushedStatus s.cpu.p) s1).ppu = s.ppu := by rw [k1, setSP_ppu, withBufs_ppu, h2]
  have kl : (push (pushedStatus s.cpu.p) s1).plat = s.plat := by rw [k1, setSP_plat, withBufs_plat, h3]
  have kb : (push (pushedStatus s.cpu.p) s1).cpuBus = s.cpuBus := by rw [push_cpuBus, hb]
  generalize push (pushedStatus s.cpu.p) s1 = s2 at *
  refine ⟨s2.setP (setFlag .i true s.cpu.p), ?_, ?_, kp, kl, ?_, ?_, ?_, ?_⟩
  · rw [he]
    dsimp only
    rw [readWord_untrapped]
    · simpa [State.untrapped, kb] using hv
    · simpa [State.untrapped, kb] using hv'
  · rw [setP_cpu, kc]
  · exact (hasStack_congr rfl rfl).mpr k5
  · exact k3.trans h6
  · exact k4.trans h7
  · rw [hsp] at k2
    exact k2

end Sys2Proof.Machine
end

