-- ==== Sys2Proof/Laws/Tick.lean ====
section
/-! SUPPORT. What each phase of a PPU tick can change, said once for each phase, and the frame of the whole tick. -/

namespace Sys2Proof.Machine

/-! ### The phases leave the CPU, the buffers, both AddressSpaces and the schedule alone -/

@[simp] theorem bgFetch_cpu (s : State) : (bgFetch s).cpu = s.cpu := by
  unfold bgFetch; split <;> (try split) <;> simp
@[simp] theorem bgFetch_cpuBus (s : State) : (bgFetch s).cpuBus = s.cpuBus := by
  unfold bgFetch; split <;> (try split) <;> simp
@[simp] theorem bgFetch_ppuBus (s : State) : (bgFetch s).ppuBus = s.ppuBus := by
  unfold bgFetch; split <;> (try split) <;> simp
@[simp] theorem bgFetch_bufs (s : State) : (bgFetch s).bufs = s.bufs := by
  unfold bgFetch; split <;> (try split) <;> simp
@[simp] theorem bgFetch_pending (s : State) : (bgFetch s).plat.pending = s.plat.pending := by
  unfold bgFetch; split <;> (try split) <;> simp
@[simp] theorem bgFetch_ppuDots (s : State) : (bgFetch s).plat.ppuDots = s.plat.ppuDots := by
  unfold bgFetch; split <;> (try split) <;> simp
@[simp] theorem bgFetch_outputs (s : State) : (bgFetch s).plat.outputs = s.plat.outputs := by
  unfold bgFetch; split <;> (try split) <;> simp

@[simp] theorem backgroundPhase_cpu (s : State) : (backgroundPhase s).cpu = s.cpu := by
  unfold backgroundPhase; split <;> simp
@[simp] theorem backgroundPhase_cpuBus (s : State) : (backgroundPhase s).cpuBus = s.cpuBus := by
  unfold backgroundPhase; split <;> simp
@[simp] theorem backgroundPhase_ppuBus (s : State) : (backgroundPhase s).ppuBus = s.ppuBus := by
  unfold backgroundPhase; split <;> simp
@[simp] theorem backgroundPhase_bufs (s : State) : (backgroundPhase s).bufs = s.bufs := by
  unfold backgroundPhase; split <;> simp
@[simp] theorem backgroundPhase_pending (s : State) : (backgroundPhase s).plat.pending = s.plat.pending := by
  unfold backgroundPhase; split <;> simp
@[simp] theorem backgroundPhase_ppuDots (s : State) : (backgroundPhase s).plat.ppuDots = s.plat.ppuDots := by
  unfold backgroundPhase; split <;> simp
@[simp] theorem backgroundPhase_outputs (s : State) : (backgroundPhase s).plat.outputs = s.plat.outputs := by
  unfold backgroundPhase; split <;> simp

@[simp] theorem pixelOutput_cpu (s : State) : (pixelOutput s).cpu = s.cpu := by
  unfold pixelOutput; dsimp only; split <;> simp
@[simp] theorem pixelOutput_cpuBus (s : State) : (pixelOutput s).cpuBus = s.cpuBus := by
  unfold pixelOutput; dsimp only; split <;> simp
@[simp] theorem pixelOutput_ppuBus (s : State) : (pixelOutput s).ppuBus = s.ppuBus := by
  unfold pixelOutput; dsimp only; split <;> simp
@[simp] theorem pixelOutput_bufs (s : State) : (pixelOutput s).bufs = s.bufs := by
  unfold pixelOutput; dsimp only; split <;> simp
@[simp] theorem pixelOutput_pending (s : State) : (pixelOutput s).plat.pending = s.plat.pending := by
  unfold pixelOutput; dsimp only; split <;> simp
@[simp] theorem pixelOutput_ppuDots (s : State) : (pixelOutput s).plat.ppuDots = s.plat.ppuDots := by
  unfold pixelOutput; dsimp only; split <;> simp
@[simp] theorem pixelOutput_outputs (s : State) : (pixelOutput s).plat.outputs = s.plat.outputs := by
  unfold pixelOutput; dsimp only; split <;> simp

@[simp] theorem fetchSpriteLow_cpu (k : Nat) (s : State) : (fetchSpriteLow k s).cpu = s.cpu := by
  unfold fetchSpriteLow; split <;> simp
@[simp] theorem fetchSpriteLow_cpuBus (k : Nat) (s : State) : (fetchSpriteLow k s).cpuBus = s.cpuBus := by
  unfold fetchSpriteLow; split <;> simp
@[simp] theorem fetchSpriteLow_ppuBus (k : Nat) (s : State) : (fetchSpriteLow k s).ppuBus = s.ppuBus := by
  unfold fetchSpriteLow; split <;> simp
@[simp] theorem fetchSpriteLow_bufs (k : Nat) (s : State) : (fetchSpriteLow k s).bufs = s.bufs := by
  unfold fetchSpriteLow; split <;> simp
@[simp] theorem fetchSpriteLow_pending (k : Nat) (s : State) : (fetchSpriteLow k s).plat.pending = s.plat.pending := by
  unfold fetchSpriteLow; split <;> simp
@[simp] theorem fetchSpriteLow_ppuDots (k : Nat) (s : State) : (fetchSpriteLow k s).plat.ppuDots = s.plat.ppuDots := by
  unfold fetchSpriteLow; split <;> simp
@[simp] theorem fetchSpriteLow_outputs (k : Nat) (s : State) : (fetchSpriteLow k s).plat.outputs = s.plat.outputs := by
  unfold fetchSpriteLow; split <;> simp
@[simp] theorem fetchSpriteHigh_cpu (k : Nat) (s : State) : (fetchSpriteHigh k s).cpu = s.cpu := by
  unfold fetchSpriteHigh; split <;> simp
@[simp] theorem fetchSpriteHigh_cpuBus (k : Nat) (s : State) : (fetchSpriteHigh k s).cpuBus = s.cpuBus := by
  unfold fetchSpriteHigh; split <;> simp
@[simp] theorem fetchSpriteHigh_ppuBus (k : Nat) (s : State) : (fetchSpriteHigh k s).ppuBus = s.ppuBus := by
  unfold fetchSpriteHigh; split <;> simp
@[simp] theorem fetchSpriteHigh_bufs (k : Nat) (s : State) : (fetchSpriteHigh k s).bufs = s.bufs := by
  unfold fetchSpriteHigh; split <;> simp
@[simp] theorem fetchSpriteHigh_pending (k : Nat) (s : State) : (fetchSpriteHigh k s).plat.pending = s.plat.pending := by
  unfold fetchSpriteHigh; split <;> simp
@[simp] theorem fetchSpriteHigh_ppuDots (k : Nat) (s : State) : (fetchSpriteHigh k s).plat.ppuDots = s.plat.ppuDots := by
  unfold fetchSpriteHigh; split <;> simp
@[simp] theorem fetchSpriteHigh_outputs (k : Nat) (s : State) : (fetchSpriteHigh k s).plat.outputs = s.plat.outputs := by
  unfold fetchSpriteHigh; split <;> simp

@[simp] theorem spriteFetch_cpu (s : State) : (spriteFetch s).cpu = s.cpu := by
  unfold spriteFetch; dsimp only; (repeat' split) <;> simp
@[simp] theorem spriteFetch_cpuBus (s : State) : (spriteFetch s).cpuBus = s.cpuBus := by
  unfold spriteFetch; dsimp only; (repeat' split) <;> simp
@[simp] theorem spriteFetch_ppuBus (s : State) : (spriteFetch s).ppuBus = s.ppuBus := by
  unfold spriteFetch; dsimp only; (repeat' split) <;> simp
@[simp] theorem spriteFetch_bufs (s : State) : (spriteFetch s).bufs = s.bufs := by
  unfold spriteFetch; dsimp only; (repeat' split) <;> simp
@[simp] theorem spriteFetch_pending (s : State) : (spriteFetch s).plat.pending = s.plat.pending := by
  unfold spriteFetch; dsimp only; (repeat' split) <;> simp
@[simp] theorem spriteFetch_ppuDots (s : State) : (spriteFetch s).plat.ppuDots = s.plat.ppuDots := by
  unfold spriteFetch; dsimp only; (repeat' split) <;> simp
@[simp] theorem spriteFetch_outputs (s : State) : (spriteFetch s).plat.outputs = s.plat.outputs := by
  unfold spriteFetch; dsimp only; (repeat' split) <;> simp
@[simp] theorem spritePhase_cpu (s : State) : (spritePhase s).cpu = s.cpu := by
  unfold spritePhase; split <;> simp
@[simp] theorem spritePhase_cpuBus (s : State) : (spritePhase s).cpuBus = s.cpuBus := by
  unfold spritePhase; split <;> simp
@[simp] theorem spritePhase_ppuBus (s : State) : (spritePhase s).ppuBus = s.ppuBus := by
  unfold spritePhase; split <;> simp
@[simp] theorem spritePhase_bufs (s : State) : (spritePhase s).bufs = s.bufs := by
  unfold spritePhase; split <;> simp
@[simp] theorem spritePhase_pending (s : State) : (spritePhase s).plat.pending = s.plat.pending := by
  unfold spritePhase; split <;> simp
@[simp] theorem spritePhase_ppuDots (s : State) : (spritePhase s).plat.ppuDots = s.plat.ppuDots := by
  unfold spritePhase; split <;> simp
@[simp] theorem spritePhase_outputs (s : State) : (spritePhase s).plat.outputs = s.plat.outputs := by
  unfold spritePhase; split <;> simp

/-! ### What each phase can change in the PPU -/

/-- Phase 1 (R356, R357). -/
theorem statusEdges_frame (p : Ppu) : ∃ st sl z, statusEdges p = { p with status := st, slots := sl, slot0IsSprite0 := z } := by
  unfold statusEdges; split
  · exact ⟨_, _, _, rfl⟩
  · split <;> exact ⟨_, _, _, rfl⟩

/-- The fetch step writes one of the four latches, the attribute latch with two bits (R363 to R367). -/
theorem bgFetch_frame (s : State) : ∃ nt pal lo hi,
    (bgFetch s).ppu = { s.ppu with ntLatch := nt, atLatch := pal, bgLoLatch := lo, bgHiLatch := hi } ∧
      (pal = s.ppu.atLatch ∨ ∃ b, pal = attributeBits s.ppu.v b) := by
  unfold bgFetch; split
  · split
    · exact ⟨_, _, _, _, by simp only [withPpu_ppu, ppuRead_ppu]; rfl, .inl rfl⟩
    · exact ⟨_, _, _, _, by simp only [withPpu_ppu, ppuRead_ppu]; rfl, .inr ⟨_, rfl⟩⟩
    · exact ⟨_, _, _, _, by simp only [withPpu_ppu, ppuRead_ppu]; rfl, .inl rfl⟩
    · exact ⟨_, _, _, _, by simp only [withPpu_ppu, ppuRead_ppu]; rfl, .inl rfl⟩
    · exact ⟨_, _, _, _, rfl, .inl rfl⟩
  · exact ⟨_, _, _, _, rfl, .inl rfl⟩

/-- Shift and reload (R360, R362). -/
theorem bgShiftReload_frame (p : Ppu) : ∃ a b c d, bgReload (bgShift p) =
    { p with bgShiftLo := a, bgShiftHi := b, atShiftLo := c, atShiftHi := d } := by
  unfold bgReload bgShift
  split <;> split <;> exact ⟨_, _, _, _, rfl⟩

/-- The updates of `v` and of the sprite slots (R368 to R371, R387). -/
theorem updateV_frame (p : Ppu) : ∃ v sl, spriteUpdate (updateV p) = { p with v := v, slots := sl } := by
  have h1 : ∃ v, updateV p = { p with v := v } := ⟨_, rfl⟩
  obtain ⟨v, h1⟩ := h1
  rw [h1]
  unfold spriteUpdate
  split <;> exact ⟨v, _, rfl⟩

/-- Phase 2 (R351): the background registers, `v` and the sprite slots; nothing with rendering off. -/
theorem backgroundPhase_frame (s : State) : ∃ v nt pal lo hi a b c d sl, (backgroundPhase s).ppu =
    { s.ppu with v := v, ntLatch := nt, atLatch := pal, bgLoLatch := lo, bgHiLatch := hi, bgShiftLo := a,
                 bgShiftHi := b, atShiftLo := c, atShiftHi := d, slots := sl } ∧
      (pal = s.ppu.atLatch ∨ ∃ w b, pal = attributeBits w b) := by
  unfold backgroundPhase
  split
  · obtain ⟨a, b, c, d, h1⟩ := bgShiftReload_frame s.ppu
    obtain ⟨nt, pal, lo, hi, h2, h3⟩ := bgFetch_frame (s.withPpu (bgReload (bgShift s.ppu)))
    rw [h1, withPpu_ppu] at h2 h3
    obtain ⟨v, sl, h4⟩ := updateV_frame (bgFetch (s.withPpu (bgReload (bgShift s.ppu)))).ppu
    refine ⟨v, nt, pal, lo, hi, a, b, c, d, sl, ?_, ?_⟩
    · refine Eq.trans h4 ?_
      rw [h1, h2]
    · rcases h3 with h3 | ⟨x, h3⟩
      · exact .inl h3
      · exact .inr ⟨_, x, h3⟩
  · exact ⟨_, _, _, _, _, _, _, _, _, _, rfl, .inl rfl⟩

/-- Phase 3 (R390 to R398): the sprite-zero flag and one pixel. -/
theorem pixelOutput_frame (s : State) : ∃ st fb, (pixelOutput s).ppu = { s.ppu with status := st, frameBuffer := fb } ∧
    (st = s.ppu.status ∨ st = s.ppu.status ||| 0x40) := by
  unfold pixelOutput
  dsimp only
  split
  · refine ⟨_, _, by simp only [withPpu_ppu, ppuRead_ppu]; rfl, ?_⟩
    split
    · exact .inr rfl
    · exact .inl rfl
  · exact ⟨_, _, rfl, .inl rfl⟩

/-- A slot update changes the slots alone. -/
theorem setSlot_frame (p : Ppu) (k : Nat) (f : SpriteSlot → SpriteSlot) : ∃ sl, p.setSlot k f = { p with slots := sl } := by
  unfold Ppu.setSlot; split <;> exact ⟨_, rfl⟩

/-- The scan of the evaluation (R378): secondary OAM, its count, which stays at most 8, and its sprite-zero mark. -/
theorem evalEntries_frame (n : Nat) (p : Ppu) : ∃ sec k z, evalEntries n p =
    { p with secondaryOam := sec, secCount := k, secHasSprite0 := z } ∧ (p.secCount ≤ 8 → k ≤ 8) := by
  induction n with
  | zero => exact ⟨_, _, _, rfl, id⟩
  | succ n ih =>
    obtain ⟨sec, k, z, h, hk⟩ := ih
    unfold evalEntries evalEntry
    split
    · rename_i hc
      rw [h] at hc ⊢
      exact ⟨_, _, _, rfl, fun _ => hc.2⟩
    · exact ⟨sec, k, z, h, hk⟩

/-- The sprite fetch step (R380, R385). -/
theorem spriteFetch_frame (s : State) : ∃ sl z, (spriteFetch s).ppu = { s.ppu with slots := sl, slot0IsSprite0 := z } := by
  unfold spriteFetch
  dsimp only
  split
  · exact ⟨_, _, rfl⟩
  · split
    · unfold fetchSpriteLow
      split
      · dsimp only
        rw [withPpu_ppu, ppuRead_ppu]
        obtain ⟨sl, h⟩ := setSlot_frame s.ppu ((s.ppu.dot - 262) / 8) fun slot =>
          { slot with sprLo := flipH (s.ppu.secByte ((s.ppu.dot - 262) / 8) 2)
                        (ppuRead (spriteAddr s.ppu ((s.ppu.dot - 262) / 8)) s).1,
                      sprAttr := s.ppu.secByte ((s.ppu.dot - 262) / 8) 2,
                      sprX := s.ppu.secByte ((s.ppu.dot - 262) / 8) 3 }
        exact ⟨sl, _, h⟩
      · rw [withPpu_ppu]
        obtain ⟨sl, h⟩ := setSlot_frame s.ppu ((s.ppu.dot - 262) / 8) fun slot =>
          { slot with sprLo := 0, sprAttr := 0, sprX := 0 }
        exact ⟨sl, _, h⟩
    · split
      · unfold fetchSpriteHigh
        split
        · dsimp only
          rw [withPpu_ppu, ppuRead_ppu]
          obtain ⟨sl, h⟩ := setSlot_frame s.ppu ((s.ppu.dot - 264) / 8) fun slot =>
            { slot with sprHi := flipH (s.ppu.secByte ((s.ppu.dot - 264) / 8) 2)
                          (ppuRead (spriteAddr s.ppu ((s.ppu.dot - 264) / 8) + 8) s).1 }
          exact ⟨sl, _, h⟩
        · rw [withPpu_ppu]
          obtain ⟨sl, h⟩ := setSlot_frame s.ppu ((s.ppu.dot - 264) / 8) fun slot => { slot with sprHi := 0 }
          exact ⟨sl, _, h⟩
      · exact ⟨_, _, rfl⟩

/-- Secondary clear and evaluation (R375, R378). -/
theorem spriteScan_frame (p : Ppu) : ∃ sec k z, spriteEvaluation (secondaryClear p) =
    { p with secondaryOam := sec, secCount := k, secHasSprite0 := z } ∧ (p.secCount ≤ 8 → k ≤ 8) := by
  have hc : ∃ sec, secondaryClear p = { p with secondaryOam := sec } := by
    unfold secondaryClear; split <;> exact ⟨_, rfl⟩
  obtain ⟨sec, hc⟩ := hc
  rw [hc]
  unfold spriteEvaluation
  split
  · obtain ⟨sec', k, z, h, hk⟩ := evalEntries_frame 64
      { ({ p with secondaryOam := sec } : Ppu) with secCount := 0, secHasSprite0 := false }
    exact ⟨sec', k, z, h, fun _ => hk (Nat.zero_le 8)⟩
  · exact ⟨sec, _, _, rfl, id⟩

/-- Phase 4 (R351): secondary OAM, its count and mark, the slots. -/
theorem spritePhase_frame (s : State) : ∃ sec k z sl z', (spritePhase s).ppu =
    { s.ppu with secondaryOam := sec, secCount := k, secHasSprite0 := z, slots := sl, slot0IsSprite0 := z' } ∧
      (s.ppu.secCount ≤ 8 → k ≤ 8) := by
  unfold spritePhase
  split
  · obtain ⟨sec, k, z, h1, hk⟩ := spriteScan_frame s.ppu
    obtain ⟨sl, z', h2⟩ := spriteFetch_frame (s.withPpu (spriteEvaluation (secondaryClear s.ppu)))
    rw [withPpu_ppu, h1] at h2
    exact ⟨sec, k, z, sl, z', by rw [h1]; exact h2, hk⟩
  · exact ⟨_, _, _, _, _, rfl, id⟩

/-! ### The tick -/

/-- The state of a tick before the counters advance (phases 1 to 4 of R351). -/
def ppuPhases (s : State) : State := spritePhase (pixelOutput (backgroundPhase (s.withPpu (statusEdges s.ppu))))

theorem ppuTick_eq (s : State) : ppuTick s =
    (s.ppu.atVBlankEdge, (ppuPhases s).withPpu (advanceCounters (ppuPhases s).ppu)) := rfl

@[simp] theorem ppuPhases_cpu (s : State) : (ppuPhases s).cpu = s.cpu := by simp [ppuPhases]
@[simp] theorem ppuPhases_cpuBus (s : State) : (ppuPhases s).cpuBus = s.cpuBus := by simp [ppuPhases]
@[simp] theorem ppuPhases_ppuBus (s : State) : (ppuPhases s).ppuBus = s.ppuBus := by simp [ppuPhases]
@[simp] theorem ppuPhases_bufs (s : State) : (ppuPhases s).bufs = s.bufs := by simp [ppuPhases]
@[simp] theorem ppuPhases_pending (s : State) : (ppuPhases s).plat.pending = s.plat.pending := by simp [ppuPhases]
@[simp] theorem ppuPhases_ppuDots (s : State) : (ppuPhases s).plat.ppuDots = s.plat.ppuDots := by simp [ppuPhases]
@[simp] theorem ppuPhases_outputs (s : State) : (ppuPhases s).plat.outputs = s.plat.outputs := by simp [ppuPhases]

@[simp] theorem ppuTick_cpu (s : State) : (ppuTick s).2.cpu = s.cpu := by simp [ppuTick_eq]
@[simp] theorem ppuTick_cpuBus (s : State) : (ppuTick s).2.cpuBus = s.cpuBus := by simp [ppuTick_eq]
@[simp] theorem ppuTick_ppuBus (s : State) : (ppuTick s).2.ppuBus = s.ppuBus := by simp [ppuTick_eq]
@[simp] theorem ppuTick_bufs (s : State) : (ppuTick s).2.bufs = s.bufs := by simp [ppuTick_eq]
@[simp] theorem ppuTick_pending (s : State) : (ppuTick s).2.plat.pending = s.plat.pending := by simp [ppuTick_eq]
@[simp] theorem ppuTick_ppuDots (s : State) : (ppuTick s).2.plat.ppuDots = s.plat.ppuDots := by simp [ppuTick_eq]
@[simp] theorem ppuTick_outputs (s : State) : (ppuTick s).2.plat.outputs = s.plat.outputs := by simp [ppuTick_eq]

/-- What phases 1 to 4 leave alone: the counters, the registers but `STATUS` and `v`, primary OAM. -/
theorem ppuPhases_kept (s : State) : ∃ p : Ppu, (ppuPhases s).ppu =
    { p with dot := s.ppu.dot, scanline := s.ppu.scanline, frame := s.ppu.frame, ctrl := s.ppu.ctrl, mask := s.ppu.mask,
             oamAddr := s.ppu.oamAddr, t := s.ppu.t, x := s.ppu.x, w := s.ppu.w, readBuffer := s.ppu.readBuffer,
             oam := s.ppu.oam } := by
  obtain ⟨st, sl, z, h1⟩ := statusEdges_frame s.ppu
  obtain ⟨v, nt, pal, lo, hi, a, b, c, d, sl', h2, _⟩ := backgroundPhase_frame (s.withPpu (statusEdges s.ppu))
  obtain ⟨st', fb, h3, _⟩ := pixelOutput_frame (backgroundPhase (s.withPpu (statusEdges s.ppu)))
  obtain ⟨sec, k, z', sl'', z'', h4, _⟩ :=
    spritePhase_frame (pixelOutput (backgroundPhase (s.withPpu (statusEdges s.ppu))))
  refine ⟨(ppuPhases s).ppu, ?_⟩
  unfold ppuPhases
  rw [h4, h3, h2, withPpu_ppu, h1]

@[simp] theorem ppuPhases_dot (s : State) : (ppuPhases s).ppu.dot = s.ppu.dot := by
  obtain ⟨p, h⟩ := ppuPhases_kept s; rw [h]
@[simp] theorem ppuPhases_scanline (s : State) : (ppuPhases s).ppu.scanline = s.ppu.scanline := by
  obtain ⟨p, h⟩ := ppuPhases_kept s; rw [h]
@[simp] theorem ppuPhases_frame (s : State) : (ppuPhases s).ppu.frame = s.ppu.frame := by
  obtain ⟨p, h⟩ := ppuPhases_kept s; rw [h]
@[simp] theorem ppuPhases_lineLength (s : State) : (ppuPhases s).ppu.lineLength = s.ppu.lineLength := by
  simp [Ppu.lineLength]

/-- The counters are all that the last phase changes (R358). -/
theorem advanceCounters_frame (p : Ppu) : ∃ d y f, advanceCounters p = { p with dot := d, scanline := y, frame := f } := by
  unfold advanceCounters
  split
  · split <;> exact ⟨_, _, _, rfl⟩
  · exact ⟨_, _, _, rfl⟩

/-- On lines 240 to 260 phases 2 to 4 do nothing: a tick is the edge of R356 and the count (R353). -/
theorem ppuTick_idle (s : State) (h1 : 240 ≤ s.ppu.scanline) (h2 : s.ppu.scanline ≤ 260) :
    (ppuTick s).2 = s.withPpu (advanceCounters { s.ppu with
      status := if s.ppu.scanline = 241 ∧ s.ppu.dot = 1 then s.ppu.status ||| 0x80 else s.ppu.status }) := by
  have he : statusEdges s.ppu = { s.ppu with
      status := if s.ppu.scanline = 241 ∧ s.ppu.dot = 1 then s.ppu.status ||| 0x80 else s.ppu.status } := by
    unfold statusEdges
    split
    · rfl
    · rw [if_neg (by omega)]
  have hv : ∀ u : State, u.ppu.scanline = s.ppu.scanline → u.ppu.visible = false := by
    intro u hu
    simp only [Ppu.visible, hu, decide_eq_false_iff_not]
    omega
  have hb : ∀ u : State, u.ppu.scanline = s.ppu.scanline → backgroundPhase u = u := by
    intro u hu
    have h : ¬ u.ppu.scanline = 261 := by omega
    simp [backgroundPhase, Ppu.renderingActive, hv u hu, h]
  have hp : ∀ u : State, u.ppu.scanline = s.ppu.scanline → spritePhase (pixelOutput u) = u := by
    intro u hu
    simp [spritePhase, pixelOutput, hv u hu]
  have hs : (s.withPpu (statusEdges s.ppu)).ppu.scanline = s.ppu.scanline := by rw [he]; rfl
  have e : ppuPhases s = s.withPpu (statusEdges s.ppu) := by rw [ppuPhases, hb _ hs, hp _ hs]
  rw [ppuTick_eq, e, he]
  rfl

@[simp] theorem ppuTick_ctrl (s : State) : (ppuTick s).2.ppu.ctrl = s.ppu.ctrl := by
  obtain ⟨p, h⟩ := ppuPhases_kept s
  obtain ⟨d, y, f, h'⟩ := advanceCounters_frame (ppuPhases s).ppu
  rw [ppuTick_eq, withPpu_ppu, h', h]

/-! ### The sprite slots, one by one -/

/-- The slots after `mapSlots`. -/
@[simp] theorem mapSlots_get (f : SpriteSlot → SpriteSlot) (v : Vector SpriteSlot 8) (k : Fin 8) :
    (mapSlots f v)[k] = f v[k] := by
  unfold mapSlots
  obtain ⟨k, hk⟩ := k
  interval_cases k <;> rfl

/-- The slots after an update of slot `n`. -/
theorem setSlot_get (p : Ppu) (n : Nat) (f : SpriteSlot → SpriteSlot) (k : Fin 8) :
    (p.setSlot n f).slots[k] = if k.val = n then f p.slots[k] else p.slots[k] := by
  unfold Ppu.setSlot
  split
  · simp only [Fin.getElem_fin]
    rw [Vector.getElem_set]
    by_cases h : n = k.val
    · subst h; simp
    · rw [if_neg h, if_neg (Ne.symm h)]
  · rw [if_neg (by omega)]

/-- The slots after phase 2e (R387). -/
theorem spriteUpdate_slots (p : Ppu) : (spriteUpdate p).slots =
    if p.visible = true ∧ 2 ≤ p.dot ∧ p.dot ≤ 256 then mapSlots SpriteSlot.update p.slots else p.slots := by
  unfold spriteUpdate; split <;> rfl

/-- The slots after the low fetch of slot `n` (R380, R385). -/
theorem fetchSpriteLow_slots (n : Nat) (s : State) (k : Fin 8) : (fetchSpriteLow n s).ppu.slots[k] =
    if k.val = n then
      (if n < s.ppu.secCount then
        { s.ppu.slots[k] with sprLo := flipH (s.ppu.secByte n 2) (ppuRead (spriteAddr s.ppu n) s).1,
                              sprAttr := s.ppu.secByte n 2, sprX := s.ppu.secByte n 3 }
      else { s.ppu.slots[k] with sprLo := 0, sprAttr := 0, sprX := 0 })
    else s.ppu.slots[k] := by
  by_cases h : n < s.ppu.secCount
  · have e : (fetchSpriteLow n s).ppu = s.ppu.setSlot n fun slot =>
        { slot with sprLo := flipH (s.ppu.secByte n 2) (ppuRead (spriteAddr s.ppu n) s).1,
                    sprAttr := s.ppu.secByte n 2, sprX := s.ppu.secByte n 3 } := by
      unfold fetchSpriteLow; rw [if_pos h]; dsimp only; rw [withPpu_ppu, ppuRead_ppu]
    rw [congrArg (fun p : Ppu => p.slots[k]) e, setSlot_get, if_pos h]
  · have e : (fetchSpriteLow n s).ppu = s.ppu.setSlot n fun slot =>
        { slot with sprLo := 0, sprAttr := 0, sprX := 0 } := by
      unfold fetchSpriteLow; rw [if_neg h]; rfl
    rw [congrArg (fun p : Ppu => p.slots[k]) e, setSlot_get, if_neg h]

/-- The slots after the high fetch of slot `n` (R380, R385). -/
theorem fetchSpriteHigh_slots (n : Nat) (s : State) (k : Fin 8) : (fetchSpriteHigh n s).ppu.slots[k] =
    if k.val = n then
      { s.ppu.slots[k] with
          sprHi := if n < s.ppu.secCount then flipH (s.ppu.secByte n 2) (ppuRead (spriteAddr s.ppu n + 8) s).1 else 0 }
    else s.ppu.slots[k] := by
  by_cases h : n < s.ppu.secCount
  · have e : (fetchSpriteHigh n s).ppu = s.ppu.setSlot n fun slot =>
        { slot with sprHi := flipH (s.ppu.secByte n 2) (ppuRead (spriteAddr s.ppu n + 8) s).1 } := by
      unfold fetchSpriteHigh; rw [if_pos h]; dsimp only; rw [withPpu_ppu, ppuRead_ppu]
    rw [congrArg (fun p : Ppu => p.slots[k]) e, setSlot_get, if_pos h]
  · have e : (fetchSpriteHigh n s).ppu = s.ppu.setSlot n fun slot => { slot with sprHi := 0 } := by
      unfold fetchSpriteHigh; rw [if_neg h]; rfl
    rw [congrArg (fun p : Ppu => p.slots[k]) e, setSlot_get, if_neg h]

/-- A part of the PPU that neither the pixel, nor the sprite phase, nor the counters touch stands after a tick as the
background phase left it (R351). -/
theorem ppuTick_field {α : Type} (s : State) (f : Ppu → α)
    (hPixel : ∀ (p : Ppu) st fb, f { p with status := st, frameBuffer := fb } = f p)
    (hSprite : ∀ (p : Ppu) sec k z sl z',
      f { p with secondaryOam := sec, secCount := k, secHasSprite0 := z, slots := sl, slot0IsSprite0 := z' } = f p)
    (hCount : ∀ (p : Ppu) d y n, f { p with dot := d, scanline := y, frame := n } = f p) :
    f (ppuTick s).2.ppu = f (backgroundPhase (s.withPpu (statusEdges s.ppu))).ppu := by
  rw [ppuTick_eq]
  obtain ⟨d, y, n, h⟩ := advanceCounters_frame (ppuPhases s).ppu
  dsimp only
  rw [withPpu_ppu, h, hCount]
  unfold ppuPhases
  obtain ⟨sec, k, z, sl, z', h2, _⟩ := spritePhase_frame (pixelOutput (backgroundPhase (s.withPpu (statusEdges s.ppu))))
  obtain ⟨st, fb, h3, _⟩ := pixelOutput_frame (backgroundPhase (s.withPpu (statusEdges s.ppu)))
  rw [h2, hSprite, h3, hPixel]

end Sys2Proof.Machine
end

