-- ==== Sys2Proof/Laws/Invariant.lean ====
section
/-! SUPPORT. Each shared operation keeps the invariant of the machine. -/

namespace Sys2Proof.Machine

/-- A state after another: the AddressSpaces and the lengths of the buffers as before, the rest shown again. -/
theorem State.Inv.frame {s t : State} (h : s.Inv) (hb : ∀ b ∈ t.bufs, b.wf = true)
    (hl : t.bufs.map Buffer.len = s.bufs.map Buffer.len) (hc : t.cpuBus = s.cpuBus) (hp : t.ppuBus = s.ppuBus)
    (hk : t.cpu.p &&& 0x30 = 0x20) (hv : t.ppu.Valid) : t.Inv :=
  { bufs := hb, cpuBus := hc ▸ s.cpuBus.valid_congr _ _ hl h.cpuBus, ppuBus := hp ▸ s.ppuBus.valid_congr _ _ hl h.ppuBus,
    breaks := hk, ppu := hv }

/-- Only `P` matters in the CPU. -/
theorem State.Inv.withCpu {s : State} (h : s.Inv) (c : Cpu) (hk : c.p &&& 0x30 = 0x20) : (s.withCpu c).Inv :=
  h.frame h.bufs rfl rfl rfl hk h.ppu

theorem State.Inv.withPpu {s : State} (h : s.Inv) (p : Ppu) (hv : p.Valid) : (s.withPpu p).Inv :=
  h.frame h.bufs rfl rfl rfl h.breaks hv

theorem State.Inv.withPlat {s : State} (h : s.Inv) (p : Platform) : (s.withPlat p).Inv :=
  h.frame h.bufs rfl rfl rfl h.breaks h.ppu

/-- Setting a flag other than the break bits keeps them. -/
theorem setFlag_breaks (f : Flag) (on : Bool) (p : Byte) (hf : f ≠ .b) (hf' : f ≠ .u) (h : p &&& 0x30 = 0x20) :
    setFlag f on p &&& 0x30 = 0x20 := by
  rw [breaks_iff] at h ⊢
  simp [hf.symm, hf'.symm, h]

theorem setZN_breaks (v p : Byte) (h : p &&& 0x30 = 0x20) : Machine.setZN v p &&& 0x30 = 0x20 := by
  rw [breaks_iff] at h ⊢
  simpa using h

theorem restoredStatus_breaks (b : Byte) : restoredStatus b &&& 0x30 = 0x20 := by
  rw [breaks_iff]
  simp

/-- A register write of the PPU cannot leave its range: only these fields are bounded (R30, R34, R37, R358). -/
theorem Ppu.Valid.of_eq {p q : Ppu} (h : p.Valid) (h1 : q.scanline = p.scanline) (h2 : q.dot = p.dot)
    (h3 : q.frame = p.frame) (h4 : q.status &&& 0x3F = 0) (h5 : q.atLatch = p.atLatch) (h6 : q.secCount = p.secCount) :
    q.Valid where
  scanline := by rw [h1]; exact h.scanline
  dot := by
    have : q.lineLength = p.lineLength := by simp [Ppu.lineLength, h1, h3]
    rw [this, h2]; exact h.dot
  status := h4
  atLatch := by rw [h5]; exact h.atLatch
  secCount := by rw [h6]; exact h.secCount

/-- Clearing bits of the status register keeps its low bits 0. -/
theorem status_and (st : Byte) (m : Byte) (h : st &&& 0x3F = 0) : (st &&& m) &&& 0x3F = 0 := by
  rw [BitVec.and_assoc, BitVec.and_comm m, ← BitVec.and_assoc, h]
  exact BitVec.zero_and

/-- Setting one of the three flags keeps the low bits 0. -/
theorem status_or (st : Byte) (m : Byte) (h : st &&& 0x3F = 0) (hm : m &&& 0x3F = 0) : (st ||| m) &&& 0x3F = 0 := by
  have e : (st ||| m) &&& 0x3F = (st &&& 0x3F) ||| (m &&& 0x3F) := by
    apply BitVec.eq_of_getLsbD_eq
    intro i hi
    simp only [BitVec.getLsbD_and, BitVec.getLsbD_or]
    exact Bool.and_or_distrib_right _ _ _
  rw [e, h, hm]
  rfl

/-- The range of the PPU after a CPU read. -/
theorem cpuRead_ppu_valid (a : Addr) (s : State) (h : s.ppu.Valid) : (cpuRead a s).2.ppu.Valid := by
  obtain ⟨st, w, v, rb, he, hs⟩ := cpuRead_ppu a s
  rw [he]
  refine h.of_eq rfl rfl rfl ?_ rfl rfl
  rcases hs with rfl | rfl
  · exact h.status
  · exact status_and _ _ h.status

/-- `rd` keeps the invariant. -/
theorem State.Inv.cpuRead {s : State} (h : s.Inv) (a : Addr) : (cpuRead a s).2.Inv :=
  h.frame (by simpa using h.bufs) (by simp) (by simp) (by simp) (by simpa using h.breaks) (cpuRead_ppu_valid a s h.ppu)

/-- A write through a page table keeps the buffers canonical. -/
theorem poke_wf {κ : Type} (bus : AddressSpace κ) (bufs : List Buffer) (a : Addr) (v : Byte)
    (h : ∀ b ∈ bufs, b.wf = true) : ∀ b ∈ bus.poke bufs a v, b.wf = true := by
  unfold AddressSpace.poke
  split
  · exact storeWrite_wf bufs _ v h
  · exact h

/-- The copy into primary OAM keeps the invariant. -/
theorem State.Inv.copyBytes {s : State} (h : s.Inv) (hi : Byte) (d : CopyDest) (n : Nat) :
    (copyBytes hi d n s).Inv := by
  induction n with
  | zero => exact h
  | succ n ih =>
    have h2 := ih.cpuRead (wordOf hi (BitVec.ofNat 8 n))
    unfold Machine.copyBytes
    dsimp only
    unfold writeDest
    cases d with
    | oam => exact h2.withPpu _ (h2.ppu.of_eq rfl rfl rfl h2.ppu.status rfl rfl)
    | buffer k =>
      exact h2.frame (storeWrite_wf _ _ _ h2.bufs) (storeWrite_lens _ _ _) rfl rfl h2.breaks h2.ppu

/-- `copyOAM` keeps the invariant. -/
theorem State.Inv.copyOAM {s : State} (h : s.Inv) (hi : Byte) (d : CopyDest) : (copyOAM hi d s).Inv := by
  unfold Machine.copyOAM
  exact State.Inv.copyBytes (s := s.charge (copyOamCost s.cpu.cyc)) (h.withCpu _ h.breaks) hi d 256

/-- A write of `PpuBus` keeps the invariant. -/
theorem State.Inv.ppuWrite {s : State} (h : s.Inv) (a : Addr) (v : Byte) : (ppuWrite a v s).Inv := by
  unfold Machine.ppuWrite ppuBusWrite
  split
  · exact h.withPlat _
  · exact h.frame (poke_wf _ _ _ _ h.bufs) (poke_kept _ _ _ _).2 rfl rfl h.breaks h.ppu

/-- A write of a PPU register keeps the invariant. -/
theorem State.Inv.regWrite {s : State} (h : s.Inv) (r : PpuReg) (d : Byte) : (regWrite r d s).Inv := by
  have key : ∀ q : Ppu, (∃ c m oa o v t x w,
      q = { s.ppu with ctrl := c, mask := m, oamAddr := oa, oam := o, v := v, t := t, x := x, w := w }) → q.Valid := by
    rintro q ⟨_, _, _, _, _, _, _, _, rfl⟩
    exact h.ppu.of_eq rfl rfl rfl h.ppu.status rfl rfl
  have hp := key _ (regWrite_ppu r d s)
  cases r
  case data =>
    have h1 := h.ppuWrite (scrollAddr s.ppu.v &&& 0x3FFF) d
    exact h1.withPpu _ hp
  case status => exact h
  all_goals exact h.withPpu _ hp

/-- `wr` keeps the invariant. -/
theorem State.Inv.cpuWrite {s : State} (h : s.Inv) (a : Addr) (v : Byte) : (cpuWrite a v s).Inv := by
  unfold Machine.cpuWrite cpuTrapWrite
  split
  · split
    · exact h.regWrite _ v
    · split
      · exact h.copyOAM v .oam
      · exact h.withPlat _
    · exact h.withPlat _
  · exact h.frame (poke_wf _ _ _ _ h.bufs) (poke_kept _ _ _ _).2 rfl rfl h.breaks h.ppu

/-- `fetch`, `push` and `pop` keep the invariant. -/
theorem State.Inv.fetch {s : State} (h : s.Inv) : (fetch s).2.Inv :=
  (h.cpuRead _).withCpu _ (h.cpuRead _).breaks

theorem State.Inv.push {s : State} (h : s.Inv) (v : Byte) : (push v s).Inv :=
  (h.cpuWrite _ v).withCpu _ (h.cpuWrite _ v).breaks

theorem State.Inv.pop {s : State} (h : s.Inv) : (pop s).2.Inv :=
  (h.cpuRead _).withCpu _ (h.cpuRead _).breaks

theorem State.Inv.readWord {s : State} (h : s.Inv) (a b : Addr) : (readWord a b s).2.Inv := (h.cpuRead a).cpuRead b

theorem State.Inv.popWord {s : State} (h : s.Inv) : (popWord s).2.Inv := h.pop.pop

theorem State.Inv.pushWord {s : State} (h : s.Inv) (w : Addr) : (pushWord w s).Inv := (h.push _).push _

/-- Charging cycles and moving `PC` keep the invariant. -/
theorem State.Inv.charge {s : State} (h : s.Inv) (n : Nat) : (s.charge n).Inv := h.withCpu _ h.breaks

theorem State.Inv.setPC {s : State} (h : s.Inv) (w : Addr) : (s.setPC w).Inv := h.withCpu _ h.breaks

/-- An address computation keeps the invariant. -/
theorem State.Inv.resolve {s : State} (h : s.Inv) (m : AddrMode) : (resolve m s).2.Inv := by
  cases m
  case izx b => exact h.readWord _ _
  case izy b => exact (h.readWord _ _).withCpu _ (h.readWord _ _).breaks
  case abx w => exact h.withCpu _ h.breaks
  case aby w => exact h.withCpu _ h.breaks
  all_goals exact h

theorem State.Inv.load {s : State} (h : s.Inv) (src : Source) : (load src s).2.Inv := by
  cases src with
  | imm b => exact h
  | mem m => exact (h.resolve m).cpuRead _

/-- Interrupt entry keeps the invariant. -/
theorem State.Inv.enterInterrupt {s : State} (h : s.Inv) (vec : Addr) : (enterInterrupt vec s).Inv := by
  have h1 := (h.pushWord s.cpu.pc).push (pushedStatus (Machine.pushWord s.cpu.pc s).cpu.p)
  have h2 := h1.withCpu { (Machine.push (pushedStatus (Machine.pushWord s.cpu.pc s).cpu.p) (Machine.pushWord s.cpu.pc s)).cpu with
    p := setFlag .i true (Machine.push (pushedStatus (Machine.pushWord s.cpu.pc s).cpu.p) (Machine.pushWord s.cpu.pc s)).cpu.p }
    (setFlag_breaks .i true _ (by decide) (by decide) h1.breaks)
  exact ((h2.readWord vec (vec + 1)).setPC _).charge 7

/-! ### The tick -/

theorem attributeBits_valid (v : Scroll) (b : Byte) : attributeBits v b &&& 0xFC = 0 := by
  have key : ∀ x : Byte, (x &&& 3) &&& 0xFC = 0 := by
    intro x
    rw [BitVec.and_assoc]
    exact BitVec.and_zero
  unfold attributeBits
  exact key _

/-- Phases 1 to 4 keep the PPU in range. -/
theorem ppuPhases_valid (s : State) (h : s.ppu.Valid) : (ppuPhases s).ppu.Valid := by
  have hd := ppuPhases_dot s
  have hy := ppuPhases_scanline s
  have hl := ppuPhases_lineLength s
  have h1 : ∃ st sl z, statusEdges s.ppu = { s.ppu with status := st, slots := sl, slot0IsSprite0 := z } ∧
      st &&& 0x3F = 0 := by
    unfold statusEdges
    split
    · exact ⟨_, _, _, rfl, status_or _ _ h.status (by decide)⟩
    · split
      · exact ⟨_, _, _, rfl, status_and _ _ h.status⟩
      · exact ⟨_, _, _, rfl, h.status⟩
  obtain ⟨st, sl, z, h1, hst⟩ := h1
  have e1 : (s.withPpu (statusEdges s.ppu)).ppu.status &&& 0x3F = 0 ∧
      (s.withPpu (statusEdges s.ppu)).ppu.atLatch = s.ppu.atLatch ∧
      (s.withPpu (statusEdges s.ppu)).ppu.secCount = s.ppu.secCount := by
    rw [withPpu_ppu, h1]; exact ⟨hst, rfl, rfl⟩
  unfold ppuPhases at hd hy hl ⊢
  generalize s.withPpu (statusEdges s.ppu) = s1 at *
  have e2 : (backgroundPhase s1).ppu.status = s1.ppu.status ∧ (backgroundPhase s1).ppu.secCount = s1.ppu.secCount ∧
      ((backgroundPhase s1).ppu.atLatch = s1.ppu.atLatch ∨ ∃ w b, (backgroundPhase s1).ppu.atLatch = attributeBits w b) := by
    obtain ⟨v, nt, pal, lo, hi, a, b, c, d, sl', h2, hpal⟩ := backgroundPhase_frame s1
    rw [h2]; exact ⟨rfl, rfl, hpal⟩
  generalize backgroundPhase s1 = s2 at *
  have e3 : (pixelOutput s2).ppu.atLatch = s2.ppu.atLatch ∧ (pixelOutput s2).ppu.secCount = s2.ppu.secCount ∧
      ((pixelOutput s2).ppu.status = s2.ppu.status ∨ (pixelOutput s2).ppu.status = s2.ppu.status ||| 0x40) := by
    obtain ⟨st', fb, h3, hst'⟩ := pixelOutput_frame s2
    rw [h3]; exact ⟨rfl, rfl, hst'⟩
  generalize pixelOutput s2 = s3 at *
  have e4 : (spritePhase s3).ppu.status = s3.ppu.status ∧ (spritePhase s3).ppu.atLatch = s3.ppu.atLatch ∧
      (s3.ppu.secCount ≤ 8 → (spritePhase s3).ppu.secCount ≤ 8) := by
    obtain ⟨sec, k, z', sl'', z'', h4, hk⟩ := spritePhase_frame s3
    rw [h4]; exact ⟨rfl, rfl, hk⟩
  generalize spritePhase s3 = s4 at *
  refine { scanline := hy ▸ h.scanline, dot := ?_, status := ?_, atLatch := ?_, secCount := ?_ }
  · rw [hd, hl]; exact h.dot
  · rw [e4.1]
    rcases e3.2.2 with e | e
    · rw [e, e2.1]; exact e1.1
    · rw [e, e2.1]; exact status_or _ _ e1.1 (by decide)
  · rw [e4.2.1, e3.1]
    rcases e2.2.2 with e | ⟨w, x, e⟩
    · rw [e, e1.2.1]; exact h.atLatch
    · rw [e]; exact attributeBits_valid w x
  · exact e4.2.2 (by rw [e3.2.1, e2.2.1, e1.2.2]; exact h.secCount)

/-- Advancing the counters keeps the PPU in range (R358). -/
theorem advanceCounters_valid (p : Ppu) (h : p.Valid) : (advanceCounters p).Valid := by
  have hd := h.dot
  have hs := h.scanline
  have hl : ∀ q : Ppu, 340 ≤ q.lineLength ∧ q.lineLength ≤ 341 := by
    intro q; unfold Ppu.lineLength; split <;> omega
  unfold advanceCounters
  split
  · split
    · exact { scanline := by dsimp only; omega, dot := by have := (hl { p with dot := 0, scanline := 0, frame := p.frame + 1 }).1; dsimp only at this ⊢; omega, status := h.status, atLatch := h.atLatch, secCount := h.secCount }
    · exact { scanline := by dsimp only; omega, dot := by have := (hl { p with dot := 0, scanline := p.scanline + 1 }).1; dsimp only at this ⊢; omega, status := h.status, atLatch := h.atLatch, secCount := h.secCount }
  · rename_i hne
    have e : ({ p with dot := p.dot + 1 } : Ppu).lineLength = p.lineLength := rfl
    exact { scanline := hs, dot := by rw [e]; dsimp only; omega, status := h.status, atLatch := h.atLatch, secCount := h.secCount }

/-- A tick keeps the invariant. -/
theorem State.Inv.ppuTick {s : State} (h : s.Inv) : (ppuTick s).2.Inv := by
  refine h.frame (by simpa using h.bufs) (by simp) (by simp) (by simp) (by simpa using h.breaks) ?_
  exact advanceCounters_valid _ (ppuPhases_valid s h.ppu)

end Sys2Proof.Machine
end

