-- ==== Sys2Proof/Laws/Exec.lean ====
section
/-! SUPPORT. The meanings that work on the stack and on `PC`, and the step, each as one equation without `let`. -/

namespace Sys2Proof.Machine

theorem exec_jmp_abs (w : Addr) (s : State) : exec (.jmp (.abs w)) s = .next ((s.setPC w).charge 3) := rfl

theorem exec_jmp_ind (w : Addr) (s : State) : exec (.jmp (.ind w)) s =
    .next (((readWord w (wordOf (hiByte w) (loByte w + 1)) s).2.setPC
      (readWord w (wordOf (hiByte w) (loByte w + 1)) s).1).charge 5) := rfl

theorem exec_jsr (w : Addr) (s : State) : exec (.jsr w) s =
    .next (((push (loByte (s.cpu.pc - 1)) (push (hiByte (s.cpu.pc - 1)) s)).setPC w).charge 6) := rfl

theorem exec_rts (s : State) : exec .rts s =
    .next (((popWord s).2.setPC ((popWord s).1 + 1)).charge 6) := rfl

theorem exec_rti (s : State) : exec .rti s =
    .next (((popWord ((pop s).2.setP (restoredStatus (pop s).1))).2.setPC
      (popWord ((pop s).2.setP (restoredStatus (pop s).1))).1).charge 6) := rfl

theorem exec_pha (s : State) : exec .pha s = .next ((push s.cpu.a s).charge 3) := rfl
theorem exec_php (s : State) : exec .php s = .next ((push (pushedStatus s.cpu.p) s).charge 3) := rfl
theorem exec_pla (s : State) : exec .pla s = .next ((((pop s).2.setA (pop s).1).setZN (pop s).1).charge 4) := rfl
theorem exec_plp (s : State) : exec .plp s = .next (((pop s).2.setP (restoredStatus (pop s).1)).charge 4) := rfl

/-- A branch in one equation. -/
theorem branchClass_eq (c : Bool) (off : Byte) (s : State) : branchClass c off s =
    if c then .next ((s.setPC (branchTarget off s)).charge (2 + if crosses (branchTarget off s) s.cpu.pc then 2 else 1))
    else .next (s.charge 2) := rfl

/-- A tick as a transition in one equation. -/
theorem countedTick_eq (s : State) : countedTick s =
    (ppuTick s).2.withPlat { (ppuTick s).2.plat with ppuDots := (ppuTick s).2.plat.ppuDots + 1 } := rfl

@[simp] theorem countedTick_cpu (s : State) : (countedTick s).cpu = s.cpu := by simp [countedTick_eq]
@[simp] theorem countedTick_cpuBus (s : State) : (countedTick s).cpuBus = s.cpuBus := by simp [countedTick_eq]
@[simp] theorem countedTick_ppuBus (s : State) : (countedTick s).ppuBus = s.ppuBus := by simp [countedTick_eq]
@[simp] theorem countedTick_bufs (s : State) : (countedTick s).bufs = s.bufs := by simp [countedTick_eq]
@[simp] theorem countedTick_ppu (s : State) : (countedTick s).ppu = (ppuTick s).2.ppu := by simp [countedTick_eq]

@[simp] theorem countedTick_pending (s : State) : (countedTick s).plat.pending = s.plat.pending := by
  simp [countedTick_eq]
@[simp] theorem countedTick_ppuDots (s : State) : (countedTick s).plat.ppuDots = s.plat.ppuDots + 1 := by
  simp [countedTick_eq]

/-- Where an NMI request stands: just before the first `CPU.step`, after everything else (R456). -/
theorem requestNMI_spec (l : List Transition) : ∃ pre post, l = pre ++ post ∧ .cpuStep ∉ pre ∧
    (post = [] ∨ ∃ r, post = .cpuStep :: r) ∧ requestNMI l = pre ++ .raiseNMI :: post := by
  induction l with
  | nil => exact ⟨[], [], rfl, by simp, .inl rfl, rfl⟩
  | cons t r ih =>
    by_cases ht : t = .cpuStep
    · subst ht
      exact ⟨[], _, rfl, by simp, .inr ⟨r, rfl⟩, rfl⟩
    · obtain ⟨pre, post, rfl, hn, hp, he⟩ := ih
      refine ⟨t :: pre, post, rfl, by simp [hn, Ne.symm ht], hp, ?_⟩
      cases t <;> first | exact absurd rfl ht | simp [requestNMI, he]

/-- An orchestrator tick in one equation: a counted tick, and at the edge with `CTRL[7]` set the NMI request (R456). -/
theorem systemTick_eq (s : State) : systemTick s =
    if s.ppu.atVBlankEdge && s.ppu.ctrl.getLsbD 7 then
      (countedTick s).withPlat { (countedTick s).plat with pending := requestNMI (countedTick s).plat.pending }
    else countedTick s := by
  rw [← ppuTick_ctrl s]
  rfl

/-- An orchestrator tick differs from the tick in the pending transitions alone. -/
theorem systemTick_frame (s : State) : ∃ l, systemTick s =
    (countedTick s).withPlat { (countedTick s).plat with pending := l } := by
  rw [systemTick_eq]
  split
  · exact ⟨_, rfl⟩
  · exact ⟨_, rfl⟩

/-- Counting the dot and a request among the pending transitions keep the invariant. -/
theorem State.Inv.countedTick {s : State} (h : s.Inv) : (countedTick s).Inv := h.ppuTick.withPlat _

theorem State.Inv.systemTick {s : State} (h : s.Inv) : (systemTick s).Inv := by
  obtain ⟨l, e⟩ := systemTick_frame s
  rw [e]
  exact h.countedTick.withPlat _

/-- A step with something pending issues it; with nothing pending it takes the reference schedule's turn. -/
theorem step_pending (s : State) (t : Transition) (r : List Transition) (h : s.plat.pending = t :: r) :
    step s = issue t (s.withPlat { s.plat with pending := r }) := by
  unfold step transition
  rw [h]

theorem step_idle (s : State) (h : s.plat.pending = []) : step s = referenceTurn s := by
  unfold step transition
  rw [h]

/-- `cpuStep` on a CPU without an error. -/
theorem cpuStep_eq (s : State) (h : s.cpu.errKind = .none) :
    cpuStep s = exec (fetchInstr (beginStep s)).1 (fetchInstr (beginStep s)).2 := by
  simp [cpuStep, State.hasError, h]

/-- `cpuStep` on a halted CPU. -/
theorem cpuStep_halted (s : State) (h : s.cpu.errKind ≠ .none) : cpuStep s = .next s := by
  simp [cpuStep, State.hasError, h]

/-- Fetching an instruction moves `PC` and no other CPU register. -/
theorem fetchInstr_cpu (s : State) : ∃ w, (fetchInstr s).2.cpu = { s.cpu with pc := w } := by
  unfold fetchInstr
  dsimp only
  split
  · exact ⟨_, fetch_cpu s⟩
  · exact ⟨_, by rw [fetch_cpu, fetch_cpu]⟩
  · exact ⟨_, by rw [fetch_cpu, fetch_cpu, fetch_cpu]⟩

theorem State.Inv.fetchInstr {s : State} (h : s.Inv) : (fetchInstr s).2.Inv := by
  unfold Machine.fetchInstr
  dsimp only
  split
  · exact h.fetch
  · exact h.fetch.fetch
  · exact h.fetch.fetch.fetch

end Sys2Proof.Machine
end

