-- ==== Sys2Proof/Laws/PerInstr.lean ====
section
/-! SUPPORT. One lemma for each constructor of `Instr`: the opcode map has, at the opcode byte the encoder gives the
instruction, the form that builds the instruction from its operand bytes. The encoder is written from the family files'
lists and the decoder from the map of spec/30_encoding.md R129, so this compares the two tables of the spec. -/

namespace Sys2Proof.Laws.OpcodeForm

/-- The form builds `i` from the operand bytes of `i`. -/
def Builds (form : Form) (i : Instr) : Prop :=
  match form with
  | .f1 j => j = i ∧ i.operandBytes = []
  | .f2 f => ∃ b, f b = i ∧ i.operandBytes = [b]
  | .f3 f => ∃ w, f w = i ∧ i.operandBytes = [loByte w, hiByte w]

/-- A well-formed instruction is built by the form at its opcode byte. -/
def Statement (i : Instr) : Prop := i.wellFormed = true → Builds (opcodeForm i.opcode) i

theorem one_byte (i : Instr) (h : opcodeForm i.opcode = .f1 i) (hb : i.operandBytes = []) : Statement i := by
  intro _; rw [h]; exact ⟨rfl, hb⟩

theorem two_bytes (f : Byte → Instr) (b : Byte) (h : opcodeForm (f b).opcode = .f2 f)
    (hb : (f b).operandBytes = [b]) : Statement (f b) := by
  intro _; rw [h]; exact ⟨b, rfl, hb⟩

theorem three_bytes (f : Addr → Instr) (w : Addr) (h : opcodeForm (f w).opcode = .f3 f)
    (hb : (f w).operandBytes = [loByte w, hiByte w]) : Statement (f w) := by
  intro _; rw [h]; exact ⟨w, rfl, hb⟩

/-- The form of a memory mode. -/
def modeForm (g : AddrMode → Instr) : AddrMode → Form
  | .zp _ => .zp g | .zpx _ => .zpx g | .zpy _ => .zpy g | .abs _ => .abs g
  | .abx _ => .abx g | .aby _ => .aby g | .izx _ => .izx g | .izy _ => .izy g

theorem memory_mode (g : AddrMode → Instr) (m : AddrMode) (hb : (g m).operandBytes = m.bytes)
    (h : (g m).wellFormed = true → opcodeForm (g m).opcode = modeForm g m) : Statement (g m) := by
  intro hw
  rw [h hw]
  cases m <;> exact ⟨_, rfl, hb⟩

theorem lda (src : Source) : Statement (.lda src) := by
  cases src with
  | imm b => exact two_bytes (fun b => .lda (.imm b)) b (by simp only [Instr.opcode, Source.pick]; rfl) rfl
  | mem m => exact memory_mode (fun m => .lda (.mem m)) m rfl (by
    cases m <;> intro h <;> first
      | exact Bool.noConfusion h
      | (simp only [Instr.opcode, Source.pick, AddrMode.pick]; rfl))

theorem ldx (src : Source) : Statement (.ldx src) := by
  cases src with
  | imm b => exact two_bytes (fun b => .ldx (.imm b)) b (by simp only [Instr.opcode, Source.pick]; rfl) rfl
  | mem m => exact memory_mode (fun m => .ldx (.mem m)) m rfl (by
    cases m <;> intro h <;> first
      | exact Bool.noConfusion h
      | (simp only [Instr.opcode, Source.pick, AddrMode.pick]; rfl))

theorem ldy (src : Source) : Statement (.ldy src) := by
  cases src with
  | imm b => exact two_bytes (fun b => .ldy (.imm b)) b (by simp only [Instr.opcode, Source.pick]; rfl) rfl
  | mem m => exact memory_mode (fun m => .ldy (.mem m)) m rfl (by
    cases m <;> intro h <;> first
      | exact Bool.noConfusion h
      | (simp only [Instr.opcode, Source.pick, AddrMode.pick]; rfl))

theorem adc (src : Source) : Statement (.adc src) := by
  cases src with
  | imm b => exact two_bytes (fun b => .adc (.imm b)) b (by simp only [Instr.opcode, Source.pick]; rfl) rfl
  | mem m => exact memory_mode (fun m => .adc (.mem m)) m rfl (by
    cases m <;> intro h <;> first
      | exact Bool.noConfusion h
      | (simp only [Instr.opcode, Source.pick, AddrMode.pick]; rfl))

theorem sbc (src : Source) : Statement (.sbc src) := by
  cases src with
  | imm b => exact two_bytes (fun b => .sbc (.imm b)) b (by simp only [Instr.opcode, Source.pick]; rfl) rfl
  | mem m => exact memory_mode (fun m => .sbc (.mem m)) m rfl (by
    cases m <;> intro h <;> first
      | exact Bool.noConfusion h
      | (simp only [Instr.opcode, Source.pick, AddrMode.pick]; rfl))

theorem and (src : Source) : Statement (.and src) := by
  cases src with
  | imm b => exact two_bytes (fun b => .and (.imm b)) b (by simp only [Instr.opcode, Source.pick]; rfl) rfl
  | mem m => exact memory_mode (fun m => .and (.mem m)) m rfl (by
    cases m <;> intro h <;> first
      | exact Bool.noConfusion h
      | (simp only [Instr.opcode, Source.pick, AddrMode.pick]; rfl))

theorem ora (src : Source) : Statement (.ora src) := by
  cases src with
  | imm b => exact two_bytes (fun b => .ora (.imm b)) b (by simp only [Instr.opcode, Source.pick]; rfl) rfl
  | mem m => exact memory_mode (fun m => .ora (.mem m)) m rfl (by
    cases m <;> intro h <;> first
      | exact Bool.noConfusion h
      | (simp only [Instr.opcode, Source.pick, AddrMode.pick]; rfl))

theorem eor (src : Source) : Statement (.eor src) := by
  cases src with
  | imm b => exact two_bytes (fun b => .eor (.imm b)) b (by simp only [Instr.opcode, Source.pick]; rfl) rfl
  | mem m => exact memory_mode (fun m => .eor (.mem m)) m rfl (by
    cases m <;> intro h <;> first
      | exact Bool.noConfusion h
      | (simp only [Instr.opcode, Source.pick, AddrMode.pick]; rfl))

theorem cmp (src : Source) : Statement (.cmp src) := by
  cases src with
  | imm b => exact two_bytes (fun b => .cmp (.imm b)) b (by simp only [Instr.opcode, Source.pick]; rfl) rfl
  | mem m => exact memory_mode (fun m => .cmp (.mem m)) m rfl (by
    cases m <;> intro h <;> first
      | exact Bool.noConfusion h
      | (simp only [Instr.opcode, Source.pick, AddrMode.pick]; rfl))

theorem cpx (src : Source) : Statement (.cpx src) := by
  cases src with
  | imm b => exact two_bytes (fun b => .cpx (.imm b)) b (by simp only [Instr.opcode, Source.pick]; rfl) rfl
  | mem m => exact memory_mode (fun m => .cpx (.mem m)) m rfl (by
    cases m <;> intro h <;> first
      | exact Bool.noConfusion h
      | (simp only [Instr.opcode, Source.pick, AddrMode.pick]; rfl))

theorem cpy (src : Source) : Statement (.cpy src) := by
  cases src with
  | imm b => exact two_bytes (fun b => .cpy (.imm b)) b (by simp only [Instr.opcode, Source.pick]; rfl) rfl
  | mem m => exact memory_mode (fun m => .cpy (.mem m)) m rfl (by
    cases m <;> intro h <;> first
      | exact Bool.noConfusion h
      | (simp only [Instr.opcode, Source.pick, AddrMode.pick]; rfl))

theorem lax (m : AddrMode) : Statement (.lax m) :=
  memory_mode .lax m rfl (by
    cases m <;> intro h <;> first
      | exact Bool.noConfusion h
      | (simp only [Instr.opcode, AddrMode.pick]; rfl))

theorem sta (m : AddrMode) : Statement (.sta m) :=
  memory_mode .sta m rfl (by
    cases m <;> intro h <;> first
      | exact Bool.noConfusion h
      | (simp only [Instr.opcode, AddrMode.pick]; rfl))

theorem stx (m : AddrMode) : Statement (.stx m) :=
  memory_mode .stx m rfl (by
    cases m <;> intro h <;> first
      | exact Bool.noConfusion h
      | (simp only [Instr.opcode, AddrMode.pick]; rfl))

theorem sty (m : AddrMode) : Statement (.sty m) :=
  memory_mode .sty m rfl (by
    cases m <;> intro h <;> first
      | exact Bool.noConfusion h
      | (simp only [Instr.opcode, AddrMode.pick]; rfl))

theorem sax (m : AddrMode) : Statement (.sax m) :=
  memory_mode .sax m rfl (by
    cases m <;> intro h <;> first
      | exact Bool.noConfusion h
      | (simp only [Instr.opcode, AddrMode.pick]; rfl))

theorem bit (m : AddrMode) : Statement (.bit m) :=
  memory_mode .bit m rfl (by
    cases m <;> intro h <;> first
      | exact Bool.noConfusion h
      | (simp only [Instr.opcode, AddrMode.pick]; rfl))

theorem inc (m : AddrMode) : Statement (.inc m) :=
  memory_mode .inc m rfl (by
    cases m <;> intro h <;> first
      | exact Bool.noConfusion h
      | (simp only [Instr.opcode, AddrMode.pick]; rfl))

theorem dec (m : AddrMode) : Statement (.dec m) :=
  memory_mode .dec m rfl (by
    cases m <;> intro h <;> first
      | exact Bool.noConfusion h
      | (simp only [Instr.opcode, AddrMode.pick]; rfl))

theorem asl (t : Target) : Statement (.asl t) := by
  cases t with
  | acc => exact one_byte _ (by simp only [Instr.opcode, Target.pick]; rfl) rfl
  | mem m => exact memory_mode (fun m => .asl (.mem m)) m rfl (by
    cases m <;> intro h <;> first
      | exact Bool.noConfusion h
      | (simp only [Instr.opcode, Target.pick, AddrMode.pick]; rfl))

theorem lsr (t : Target) : Statement (.lsr t) := by
  cases t with
  | acc => exact one_byte _ (by simp only [Instr.opcode, Target.pick]; rfl) rfl
  | mem m => exact memory_mode (fun m => .lsr (.mem m)) m rfl (by
    cases m <;> intro h <;> first
      | exact Bool.noConfusion h
      | (simp only [Instr.opcode, Target.pick, AddrMode.pick]; rfl))

theorem rol (t : Target) : Statement (.rol t) := by
  cases t with
  | acc => exact one_byte _ (by simp only [Instr.opcode, Target.pick]; rfl) rfl
  | mem m => exact memory_mode (fun m => .rol (.mem m)) m rfl (by
    cases m <;> intro h <;> first
      | exact Bool.noConfusion h
      | (simp only [Instr.opcode, Target.pick, AddrMode.pick]; rfl))

theorem ror (t : Target) : Statement (.ror t) := by
  cases t with
  | acc => exact one_byte _ (by simp only [Instr.opcode, Target.pick]; rfl) rfl
  | mem m => exact memory_mode (fun m => .ror (.mem m)) m rfl (by
    cases m <;> intro h <;> first
      | exact Bool.noConfusion h
      | (simp only [Instr.opcode, Target.pick, AddrMode.pick]; rfl))

theorem jmp (t : JumpTarget) : Statement (.jmp t) := by
  cases t with
  | abs w => exact three_bytes (fun w => .jmp (.abs w)) w (by simp only [Instr.opcode]; rfl) rfl
  | ind w => exact three_bytes (fun w => .jmp (.ind w)) w (by simp only [Instr.opcode]; rfl) rfl
theorem jsr (w : Addr) : Statement (.jsr w) := three_bytes .jsr w (by simp only [Instr.opcode]; rfl) rfl

theorem bpl (off : Byte) : Statement (.bpl off) := two_bytes .bpl off (by simp only [Instr.opcode]; rfl) rfl
theorem bmi (off : Byte) : Statement (.bmi off) := two_bytes .bmi off (by simp only [Instr.opcode]; rfl) rfl
theorem bvc (off : Byte) : Statement (.bvc off) := two_bytes .bvc off (by simp only [Instr.opcode]; rfl) rfl
theorem bvs (off : Byte) : Statement (.bvs off) := two_bytes .bvs off (by simp only [Instr.opcode]; rfl) rfl
theorem bcc (off : Byte) : Statement (.bcc off) := two_bytes .bcc off (by simp only [Instr.opcode]; rfl) rfl
theorem bcs (off : Byte) : Statement (.bcs off) := two_bytes .bcs off (by simp only [Instr.opcode]; rfl) rfl
theorem bne (off : Byte) : Statement (.bne off) := two_bytes .bne off (by simp only [Instr.opcode]; rfl) rfl
theorem beq (off : Byte) : Statement (.beq off) := two_bytes .beq off (by simp only [Instr.opcode]; rfl) rfl
theorem tax : Statement .tax := one_byte _ rfl rfl
theorem tay : Statement .tay := one_byte _ rfl rfl
theorem txa : Statement .txa := one_byte _ rfl rfl
theorem tya : Statement .tya := one_byte _ rfl rfl
theorem tsx : Statement .tsx := one_byte _ rfl rfl
theorem txs : Statement .txs := one_byte _ rfl rfl
theorem inx : Statement .inx := one_byte _ rfl rfl
theorem iny : Statement .iny := one_byte _ rfl rfl
theorem dex : Statement .dex := one_byte _ rfl rfl
theorem dey : Statement .dey := one_byte _ rfl rfl
theorem rts : Statement .rts := one_byte _ rfl rfl
theorem rti : Statement .rti := one_byte _ rfl rfl
theorem brk : Statement .brk := one_byte _ rfl rfl
theorem pha : Statement .pha := one_byte _ rfl rfl
theorem pla : Statement .pla := one_byte _ rfl rfl
theorem php : Statement .php := one_byte _ rfl rfl
theorem plp : Statement .plp := one_byte _ rfl rfl
theorem clc : Statement .clc := one_byte _ rfl rfl
theorem sec : Statement .sec := one_byte _ rfl rfl
theorem cli : Statement .cli := one_byte _ rfl rfl
theorem sei : Statement .sei := one_byte _ rfl rfl
theorem clv : Statement .clv := one_byte _ rfl rfl
theorem cld : Statement .cld := one_byte _ rfl rfl
theorem sed : Statement .sed := one_byte _ rfl rfl

theorem nop (op : Byte) (src : Option Source) : Statement (.nop op src) := by
  intro hw
  have h := hw
  simp only [Instr.wellFormed, List.contains_iff_mem] at h
  rcases src with _ | (b | m)
  · simp only [nopOpcodes, List.mem_cons, List.not_mem_nil, or_false] at h
    rcases h with rfl | rfl | rfl | rfl | rfl | rfl | rfl <;> exact one_byte _ rfl rfl hw
  · simp only [nopOpcodes, List.mem_cons, List.not_mem_nil, or_false] at h
    subst h
    exact two_bytes (fun b => .nop 0x80 (some (.imm b))) b (by simp only [Instr.opcode]; rfl) rfl hw
  · refine memory_mode (fun m => .nop op (some (.mem m))) m rfl (fun _ => ?_) hw
    cases m <;> simp only [nopOpcodes, List.mem_cons, List.not_mem_nil, or_false] at h
    · rcases h with rfl | rfl | rfl <;> (simp only [Instr.opcode]; rfl)
    · rcases h with rfl | rfl | rfl | rfl | rfl | rfl <;> (simp only [Instr.opcode]; rfl)
    · subst h; simp only [Instr.opcode]; rfl
    · rcases h with rfl | rfl | rfl | rfl | rfl | rfl <;> (simp only [Instr.opcode]; rfl)

theorem undefined (op : Byte) : Statement (.undefined op) := by
  intro h
  have e : opcodeCell op = none := undefined_cell op (by simpa [Instr.wellFormed] using h)
  exact one_byte (.undefined op) (by simp [opcodeForm, Instr.opcode, e]) rfl h

end Sys2Proof.Laws.OpcodeForm
end

