-- ==== Sys2Proof/Tests/Slice0.lean ====
section
/-! SUPPORT. Tests. Expected values are those of spec/95_test_vectors.md (the vector's id stands before each test) or are
worked out by hand from the rule named; then a witness for the hypotheses of every statement that has some. -/

namespace Sys2Proof.Tests

open Sys2Proof Sys2Proof.Machine

set_option Elab.async false

/-! ### Well-formed terms: each check refuses an ill-formed one -/

/-- One mode that R128 and R131 do not give, for every constructor that has a mode check; NOP with the byte of another mode,
or of none; UNDEFINED with a byte that has a table entry. -/
theorem test_wellFormed_refuses :
    ∀ i ∈ ([.lda (.mem (.zpy 1)), .ldx (.mem (.zpx 1)), .ldy (.mem (.aby 1)), .lax (.abx 1), .sta (.zpy 1), .stx (.zpx 1),
        .sty (.zpy 1), .sax (.aby 1)] : List Instr) ++
      ([.adc (.mem (.zpy 1)), .sbc (.mem (.zpy 1)), .and (.mem (.zpy 1)), .ora (.mem (.zpy 1)), .eor (.mem (.zpy 1)),
        .cmp (.mem (.zpy 1)), .cpx (.mem (.zpx 1)), .cpy (.mem (.abx 1)), .bit (.abx 1), .inc (.aby 1),
        .dec (.izy 1)] : List Instr) ++
      ([.asl (.mem (.aby 1)), .lsr (.mem (.zpy 1)), .rol (.mem (.izx 1)), .ror (.mem (.izy 1))] : List Instr) ++
      ([.nop 0xEA (some (.imm 1)), .nop 0x80 none, .nop 0x0C (some (.mem (.zp 1))), .nop 0x04 (some (.mem (.zpx 1))),
        .nop 0x14 (some (.mem (.abs 1))), .nop 0x00 (some (.mem (.abx 1))), .nop 0x1C (some (.mem (.aby 1))),
        .undefined 0xA9, .undefined 0x00] : List Instr), i.wellFormed = false := by decide +kernel

/-! ### Decoding: words written out from the spec's tables, operand bytes 0x12 or 0x34 0x12 -/

/-- Each list of bytes decodes to the well-formed instruction beside it, with no byte left, and encodes back. -/
def decodesAll (rows : List (List Byte × Instr)) : Bool :=
  rows.all fun r => (match decode r.1 with
    | .ok (i, rest) => decide (i = r.2) && rest.isEmpty
    | .error _ => false) && r.2.wellFormed && decide (encode r.2 = r.1)

/-- Load, store, transfer: every opcode byte of R128 and R131. -/
theorem test_decode_loads_stores_transfers :
    decodesAll (
      ([([0xA1, 0x12], .lda (.mem (.izx 0x12))), ([0xA5, 0x12], .lda (.mem (.zp 0x12))), ([0xA9, 0x12], .lda (.imm 0x12)),
        ([0xAD, 0x34, 0x12], .lda (.mem (.abs 0x1234))), ([0xB1, 0x12], .lda (.mem (.izy 0x12))), ([0xB5, 0x12], .lda (.mem (.zpx 0x12))),
        ([0xB9, 0x34, 0x12], .lda (.mem (.aby 0x1234))), ([0xBD, 0x34, 0x12], .lda (.mem (.abx 0x1234))), ([0xA2, 0x12], .ldx (.imm 0x12)),
        ([0xA6, 0x12], .ldx (.mem (.zp 0x12))), ([0xAE, 0x34, 0x12], .ldx (.mem (.abs 0x1234))), ([0xB6, 0x12], .ldx (.mem (.zpy 0x12)))] : List (List Byte × Instr)) ++
      ([([0xBE, 0x34, 0x12], .ldx (.mem (.aby 0x1234))), ([0xA0, 0x12], .ldy (.imm 0x12)), ([0xA4, 0x12], .ldy (.mem (.zp 0x12))),
        ([0xAC, 0x34, 0x12], .ldy (.mem (.abs 0x1234))), ([0xB4, 0x12], .ldy (.mem (.zpx 0x12))), ([0xBC, 0x34, 0x12], .ldy (.mem (.abx 0x1234))),
        ([0xA3, 0x12], .lax (.izx 0x12)), ([0xA7, 0x12], .lax (.zp 0x12)), ([0xAF, 0x34, 0x12], .lax (.abs 0x1234)),
        ([0xB3, 0x12], .lax (.izy 0x12)), ([0xB7, 0x12], .lax (.zpy 0x12)), ([0xBF, 0x34, 0x12], .lax (.aby 0x1234))] : List (List Byte × Instr)) ++
      ([([0x81, 0x12], .sta (.izx 0x12)), ([0x85, 0x12], .sta (.zp 0x12)), ([0x8D, 0x34, 0x12], .sta (.abs 0x1234)),
        ([0x91, 0x12], .sta (.izy 0x12)), ([0x95, 0x12], .sta (.zpx 0x12)), ([0x99, 0x34, 0x12], .sta (.aby 0x1234)),
        ([0x9D, 0x34, 0x12], .sta (.abx 0x1234)), ([0x86, 0x12], .stx (.zp 0x12)), ([0x8E, 0x34, 0x12], .stx (.abs 0x1234)),
        ([0x96, 0x12], .stx (.zpy 0x12)), ([0x84, 0x12], .sty (.zp 0x12)), ([0x8C, 0x34, 0x12], .sty (.abs 0x1234))] : List (List Byte × Instr)) ++
      ([([0x94, 0x12], .sty (.zpx 0x12)), ([0x83, 0x12], .sax (.izx 0x12)), ([0x87, 0x12], .sax (.zp 0x12)),
        ([0x8F, 0x34, 0x12], .sax (.abs 0x1234)), ([0x97, 0x12], .sax (.zpy 0x12)), ([0xAA], .tax),
        ([0xA8], .tay), ([0x8A], .txa), ([0x98], .tya),
        ([0xBA], .tsx), ([0x9A], .txs)] : List (List Byte × Instr))) = true := by decide +kernel

/-- Arithmetic and logic: every opcode byte of R128 and R131. -/
theorem test_decode_arithmetic :
    decodesAll (
      ([([0x61, 0x12], .adc (.mem (.izx 0x12))), ([0x65, 0x12], .adc (.mem (.zp 0x12))), ([0x69, 0x12], .adc (.imm 0x12)),
        ([0x6D, 0x34, 0x12], .adc (.mem (.abs 0x1234))), ([0x71, 0x12], .adc (.mem (.izy 0x12))), ([0x75, 0x12], .adc (.mem (.zpx 0x12))),
        ([0x79, 0x34, 0x12], .adc (.mem (.aby 0x1234))), ([0x7D, 0x34, 0x12], .adc (.mem (.abx 0x1234))), ([0xE1, 0x12], .sbc (.mem (.izx 0x12))),
        ([0xE5, 0x12], .sbc (.mem (.zp 0x12))), ([0xE9, 0x12], .sbc (.imm 0x12)), ([0xED, 0x34, 0x12], .sbc (.mem (.abs 0x1234)))] : List (List Byte × Instr)) ++
      ([([0xF1, 0x12], .sbc (.mem (.izy 0x12))), ([0xF5, 0x12], .sbc (.mem (.zpx 0x12))), ([0xF9, 0x34, 0x12], .sbc (.mem (.aby 0x1234))),
        ([0xFD, 0x34, 0x12], .sbc (.mem (.abx 0x1234))), ([0x21, 0x12], .and (.mem (.izx 0x12))), ([0x25, 0x12], .and (.mem (.zp 0x12))),
        ([0x29, 0x12], .and (.imm 0x12)), ([0x2D, 0x34, 0x12], .and (.mem (.abs 0x1234))), ([0x31, 0x12], .and (.mem (.izy 0x12))),
        ([0x35, 0x12], .and (.mem (.zpx 0x12))), ([0x39, 0x34, 0x12], .and (.mem (.aby 0x1234))), ([0x3D, 0x34, 0x12], .and (.mem (.abx 0x1234)))] : List (List Byte × Instr)) ++
      ([([0x01, 0x12], .ora (.mem (.izx 0x12))), ([0x05, 0x12], .ora (.mem (.zp 0x12))), ([0x09, 0x12], .ora (.imm 0x12)),
        ([0x0D, 0x34, 0x12], .ora (.mem (.abs 0x1234))), ([0x11, 0x12], .ora (.mem (.izy 0x12))), ([0x15, 0x12], .ora (.mem (.zpx 0x12))),
        ([0x19, 0x34, 0x12], .ora (.mem (.aby 0x1234))), ([0x1D, 0x34, 0x12], .ora (.mem (.abx 0x1234))), ([0x41, 0x12], .eor (.mem (.izx 0x12))),
        ([0x45, 0x12], .eor (.mem (.zp 0x12))), ([0x49, 0x12], .eor (.imm 0x12)), ([0x4D, 0x34, 0x12], .eor (.mem (.abs 0x1234)))] : List (List Byte × Instr)) ++
      ([([0x51, 0x12], .eor (.mem (.izy 0x12))), ([0x55, 0x12], .eor (.mem (.zpx 0x12))), ([0x59, 0x34, 0x12], .eor (.mem (.aby 0x1234))),
        ([0x5D, 0x34, 0x12], .eor (.mem (.abx 0x1234))), ([0xC1, 0x12], .cmp (.mem (.izx 0x12))), ([0xC5, 0x12], .cmp (.mem (.zp 0x12))),
        ([0xC9, 0x12], .cmp (.imm 0x12)), ([0xCD, 0x34, 0x12], .cmp (.mem (.abs 0x1234))), ([0xD1, 0x12], .cmp (.mem (.izy 0x12))),
        ([0xD5, 0x12], .cmp (.mem (.zpx 0x12))), ([0xD9, 0x34, 0x12], .cmp (.mem (.aby 0x1234))), ([0xDD, 0x34, 0x12], .cmp (.mem (.abx 0x1234)))] : List (List Byte × Instr)) ++
      ([([0xE0, 0x12], .cpx (.imm 0x12)), ([0xE4, 0x12], .cpx (.mem (.zp 0x12))), ([0xEC, 0x34, 0x12], .cpx (.mem (.abs 0x1234))),
        ([0xC0, 0x12], .cpy (.imm 0x12)), ([0xC4, 0x12], .cpy (.mem (.zp 0x12))), ([0xCC, 0x34, 0x12], .cpy (.mem (.abs 0x1234))),
        ([0x24, 0x12], .bit (.zp 0x12)), ([0x2C, 0x34, 0x12], .bit (.abs 0x1234)), ([0xE6, 0x12], .inc (.zp 0x12)),
        ([0xEE, 0x34, 0x12], .inc (.abs 0x1234)), ([0xF6, 0x12], .inc (.zpx 0x12)), ([0xFE, 0x34, 0x12], .inc (.abx 0x1234))] : List (List Byte × Instr)) ++
      ([([0xC6, 0x12], .dec (.zp 0x12)), ([0xCE, 0x34, 0x12], .dec (.abs 0x1234)), ([0xD6, 0x12], .dec (.zpx 0x12)),
        ([0xDE, 0x34, 0x12], .dec (.abx 0x1234)), ([0xE8], .inx), ([0xC8], .iny),
        ([0xCA], .dex), ([0x88], .dey)] : List (List Byte × Instr))) = true := by decide +kernel

/-- Shifts and rotates: every opcode byte of R128 and R131. -/
theorem test_decode_shifts :
    decodesAll (
      ([([0x06, 0x12], .asl (.mem (.zp 0x12))), ([0x0A], .asl .acc), ([0x0E, 0x34, 0x12], .asl (.mem (.abs 0x1234))),
        ([0x16, 0x12], .asl (.mem (.zpx 0x12))), ([0x1E, 0x34, 0x12], .asl (.mem (.abx 0x1234))), ([0x46, 0x12], .lsr (.mem (.zp 0x12))),
        ([0x4A], .lsr .acc), ([0x4E, 0x34, 0x12], .lsr (.mem (.abs 0x1234))), ([0x56, 0x12], .lsr (.mem (.zpx 0x12))),
        ([0x5E, 0x34, 0x12], .lsr (.mem (.abx 0x1234))), ([0x26, 0x12], .rol (.mem (.zp 0x12))), ([0x2A], .rol .acc)] : List (List Byte × Instr)) ++
      ([([0x2E, 0x34, 0x12], .rol (.mem (.abs 0x1234))), ([0x36, 0x12], .rol (.mem (.zpx 0x12))), ([0x3E, 0x34, 0x12], .rol (.mem (.abx 0x1234))),
        ([0x66, 0x12], .ror (.mem (.zp 0x12))), ([0x6A], .ror .acc), ([0x6E, 0x34, 0x12], .ror (.mem (.abs 0x1234))),
        ([0x76, 0x12], .ror (.mem (.zpx 0x12))), ([0x7E, 0x34, 0x12], .ror (.mem (.abx 0x1234)))] : List (List Byte × Instr))) = true := by decide +kernel

/-- Control flow: every opcode byte of R128 and R131. -/
theorem test_decode_control :
    decodesAll (
      ([([0x4C, 0x34, 0x12], .jmp (.abs 0x1234)), ([0x6C, 0x34, 0x12], .jmp (.ind 0x1234)), ([0x20, 0x34, 0x12], .jsr 0x1234),
        ([0x60], .rts), ([0x40], .rti), ([0x10, 0x12], .bpl 0x12),
        ([0x30, 0x12], .bmi 0x12), ([0x50, 0x12], .bvc 0x12), ([0x70, 0x12], .bvs 0x12),
        ([0x90, 0x12], .bcc 0x12), ([0xB0, 0x12], .bcs 0x12), ([0xD0, 0x12], .bne 0x12)] : List (List Byte × Instr)) ++
      ([([0xF0, 0x12], .beq 0x12), ([0x00], .brk)] : List (List Byte × Instr))) = true := by decide +kernel

/-- Stack, flags, no-operation, undefined: every opcode byte of R128 and R131, and four of the bytes of R132. -/
theorem test_decode_stack_flags_nop :
    decodesAll (
      ([([0x48], .pha), ([0x68], .pla), ([0x08], .php),
        ([0x28], .plp), ([0x18], .clc), ([0x38], .sec),
        ([0x58], .cli), ([0x78], .sei), ([0xB8], .clv),
        ([0xD8], .cld), ([0xF8], .sed), ([0x04, 0x12], .nop 0x04 (some (.mem (.zp 0x12))))] : List (List Byte × Instr)) ++
      ([([0x0C, 0x34, 0x12], .nop 0x0C (some (.mem (.abs 0x1234)))), ([0x14, 0x12], .nop 0x14 (some (.mem (.zpx 0x12)))), ([0x1A], .nop 0x1A none),
        ([0x1C, 0x34, 0x12], .nop 0x1C (some (.mem (.abx 0x1234)))), ([0x34, 0x12], .nop 0x34 (some (.mem (.zpx 0x12)))), ([0x3A], .nop 0x3A none),
        ([0x3C, 0x34, 0x12], .nop 0x3C (some (.mem (.abx 0x1234)))), ([0x44, 0x12], .nop 0x44 (some (.mem (.zp 0x12)))), ([0x54, 0x12], .nop 0x54 (some (.mem (.zpx 0x12)))),
        ([0x5A], .nop 0x5A none), ([0x5C, 0x34, 0x12], .nop 0x5C (some (.mem (.abx 0x1234)))), ([0x64, 0x12], .nop 0x64 (some (.mem (.zp 0x12))))] : List (List Byte × Instr)) ++
      ([([0x74, 0x12], .nop 0x74 (some (.mem (.zpx 0x12)))), ([0x7A], .nop 0x7A none), ([0x7C, 0x34, 0x12], .nop 0x7C (some (.mem (.abx 0x1234)))),
        ([0x80, 0x12], .nop 0x80 (some (.imm 0x12))), ([0xD4, 0x12], .nop 0xD4 (some (.mem (.zpx 0x12)))), ([0xDA], .nop 0xDA none),
        ([0xDC, 0x34, 0x12], .nop 0xDC (some (.mem (.abx 0x1234)))), ([0xEA], .nop 0xEA none), ([0xF4, 0x12], .nop 0xF4 (some (.mem (.zpx 0x12)))),
        ([0xFA], .nop 0xFA none), ([0xFC, 0x34, 0x12], .nop 0xFC (some (.mem (.abx 0x1234)))), ([0x02], .undefined 0x02)] : List (List Byte × Instr)) ++
      ([([0x89], .undefined 0x89), ([0xEB], .undefined 0xEB), ([0xFF], .undefined 0xFF)] : List (List Byte × Instr))) = true := by decide +kernel

/-- The table's bit numbering: bits 7..0 are the opcode, the operand's low byte follows; bits above `nbits` are 0. -/
theorem test_decodeTableWord :
    decodeTableWord 24 0x1234AD = some (.lda (.mem (.abs 0x1234))) ∧ decodeTableWord 16 0xFFD0 = some (.bne 0xFF) ∧
    decodeTableWord 8 0x60 = some .rts ∧ decodeTableWord 8 0x1234AD = some (.lda (.mem (.abs 0x0000))) := by decide +kernel

/-! ### Small states -/

/-- Page entries that show buffer 0 from page `k` on. -/
def ramPages : Nat → Nat → List PageEntry
  | 0, _ => []
  | n + 1, k => .mapped 0 (k * 256) 0xFF :: ramPages n (k + 1)

@[simp] theorem ramPages_length (n k : Nat) : (ramPages n k).length = n := by
  induction n generalizing k with
  | zero => rfl
  | succ n ih => simp [ramPages, ih]

/-- `CpuBus` of the reference platform (R89): buffer 0, of 65536 bytes, over all 256 pages. -/
def ramBus : AddressSpace CpuCallback := { pages := ⟨(ramPages 256 0).toArray, by simp⟩, traps := [] }

/-- The default start state of spec/95 but for the CPU given: RAM with the listed bytes. -/
def ram (cpu : Cpu) (cells : List (Nat × Byte)) : State :=
  { State.reset with
    cpu := cpu
    cpuBus := ramBus
    bufs := [{ len := 65536, cells := cells.foldl (fun m x => m.write x.1 x.2) [] }] }

/-- The power-on CPU with `PC` at 0x8000. -/
def cpu0 : Cpu := { Cpu.powerOn with pc := 0x8000 }

/-- The register file of the "end state" columns. -/
structure Regs where
  a : Byte
  x : Byte
  y : Byte
  p : Byte
  sp : Byte
  pc : Addr
  cyc : Nat
deriving DecidableEq, Repr

/-- The register file of a state. -/
def regsOf (t : State) : Regs :=
  { a := t.cpu.a, x := t.cpu.x, y := t.cpu.y, p := t.cpu.p, sp := t.cpu.sp, pc := t.cpu.pc, cyc := t.cpu.cyc }

/-- The register file after a transition. -/
def regs : Result → Option Regs
  | .next t => some (regsOf t)
  | _ => none

/-- The byte at an address of RAM after a transition. -/
def byteAfter (r : Result) (a : Addr) : Option Byte :=
  match r with
  | .next t => some (t.byteAt a)
  | _ => none

/-! ### Load, store, transfer -/

/-- A9: LDA ($FE,X). -/
theorem test_lda_A9 :
    let t := step (ram { cpu0 with x := 0x01 } [(0x8000, 0xA1), (0x8001, 0xFE), (0x0000, 0x12), (0x00FF, 0x34), (0x0100, 0x99), (0x1234, 0x7B)])
    regs t = some ⟨0x7B, 0x01, 0x00, 0x24, 0xFD, 0x8002, 6⟩ := by decide +kernel

/-- A13: LDA ($FF),Y (pointer wraps). -/
theorem test_lda_A13 :
    let t := step (ram { cpu0 with y := 0x01 } [(0x8000, 0xB1), (0x8001, 0xFF), (0x0000, 0x40), (0x00FF, 0x10), (0x0100, 0x99), (0x4011, 0x7F)])
    regs t = some ⟨0x7F, 0x00, 0x01, 0x24, 0xFD, 0x8002, 5⟩ := by decide +kernel

/-- A4: LDX $F0,Y. -/
theorem test_ldx_A4 :
    let t := step (ram { cpu0 with y := 0x20 } [(0x8000, 0xB6), (0x8001, 0xF0), (0x0010, 0x67), (0x0110, 0x99)])
    regs t = some ⟨0x00, 0x67, 0x20, 0x24, 0xFD, 0x8002, 4⟩ := by decide +kernel

/-- L3: LDX #$FF. -/
theorem test_ldx_L3 :
    let t := step (ram cpu0 [(0x8000, 0xA2), (0x8001, 0xFF)])
    regs t = some ⟨0x00, 0xFF, 0x00, 0xA4, 0xFD, 0x8002, 2⟩ := by decide +kernel

/-- L4: LDY #$00. -/
theorem test_ldy_L4 :
    let t := step (ram { cpu0 with y := 0x01, p := 0xA4 } [(0x8000, 0xA0), (0x8001, 0x00)])
    regs t = some ⟨0x00, 0x00, 0x00, 0x26, 0xFD, 0x8002, 2⟩ := by decide +kernel

/-- L16: *LAX $12F0,Y (cross). -/
theorem test_lax_L16 :
    let t := step (ram { cpu0 with y := 0x10 } [(0x8000, 0xBF), (0x8001, 0xF0), (0x8002, 0x12), (0x1300, 0x00)])
    regs t = some ⟨0x00, 0x00, 0x10, 0x26, 0xFD, 0x8003, 5⟩ := by decide +kernel

/-- L17: *LAX ($40),Y. -/
theorem test_lax_L17 :
    let t := step (ram { cpu0 with y := 0x01 } [(0x8000, 0xB3), (0x8001, 0x40), (0x0040, 0xFF), (0x0041, 0x20), (0x2100, 0x42)])
    regs t = some ⟨0x42, 0x42, 0x01, 0x24, 0xFD, 0x8002, 6⟩ := by decide +kernel

/-- A14: STA $12F0,X (cross, no penalty). -/
theorem test_sta_A14 :
    let t := step (ram { cpu0 with x := 0x10, a := 0x5A } [(0x8000, 0x9D), (0x8001, 0xF0), (0x8002, 0x12)])
    regs t = some ⟨0x5A, 0x10, 0x00, 0x24, 0xFD, 0x8003, 5⟩ ∧ byteAfter t 0x1300 = some 0x5A := by decide +kernel

/-- A15: STA ($40),Y (cross, fixed 6). -/
theorem test_sta_A15 :
    let t := step (ram { cpu0 with y := 0xFF, a := 0x5B } [(0x8000, 0x91), (0x8001, 0x40), (0x0040, 0x80), (0x0041, 0x20)])
    regs t = some ⟨0x5B, 0x00, 0xFF, 0x24, 0xFD, 0x8002, 6⟩ ∧ byteAfter t 0x217F = some 0x5B := by decide +kernel

/-- L6: STX $10,Y. -/
theorem test_stx_L6 :
    let t := step (ram { cpu0 with x := 0xAA, y := 0xF5 } [(0x8000, 0x96), (0x8001, 0x10)])
    regs t = some ⟨0x00, 0xAA, 0xF5, 0x24, 0xFD, 0x8002, 4⟩ ∧ byteAfter t 0x0005 = some 0xAA := by decide +kernel

/-- L7: STY $0200. -/
theorem test_sty_L7 :
    let t := step (ram { cpu0 with y := 0x80 } [(0x8000, 0x8C), (0x8001, 0x00), (0x8002, 0x02)])
    regs t = some ⟨0x00, 0x00, 0x80, 0x24, 0xFD, 0x8003, 4⟩ ∧ byteAfter t 0x0200 = some 0x80 := by decide +kernel

/-- L18: *SAX $10. -/
theorem test_sax_L18 :
    let t := step (ram { cpu0 with a := 0xF0, x := 0x3C, p := 0x24 } [(0x8000, 0x87), (0x8001, 0x10)])
    regs t = some ⟨0xF0, 0x3C, 0x00, 0x24, 0xFD, 0x8002, 3⟩ ∧ byteAfter t 0x0010 = some 0x30 := by decide +kernel

/-- L20: *SAX ($10,X). -/
theorem test_sax_L20 :
    let t := step (ram { cpu0 with a := 0xC3, x := 0x81 } [(0x8000, 0x83), (0x8001, 0x10), (0x0091, 0x00), (0x0092, 0x03)])
    regs t = some ⟨0xC3, 0x81, 0x00, 0x24, 0xFD, 0x8002, 6⟩ ∧ byteAfter t 0x0300 = some 0x81 := by decide +kernel

/-- L8: TAX. -/
theorem test_tax_L8 :
    let t := step (ram { cpu0 with a := 0x80 } [(0x8000, 0xAA)])
    regs t = some ⟨0x80, 0x80, 0x00, 0xA4, 0xFD, 0x8001, 2⟩ := by decide +kernel

/-- L9: TAY. -/
theorem test_tay_L9 :
    let t := step (ram { cpu0 with a := 0x00, y := 0x33 } [(0x8000, 0xA8)])
    regs t = some ⟨0x00, 0x00, 0x00, 0x26, 0xFD, 0x8001, 2⟩ := by decide +kernel

/-- L10: TXA. -/
theorem test_txa_L10 :
    let t := step (ram { cpu0 with x := 0x7F, a := 0x80, p := 0xA4 } [(0x8000, 0x8A)])
    regs t = some ⟨0x7F, 0x7F, 0x00, 0x24, 0xFD, 0x8001, 2⟩ := by decide +kernel

/-- L11: TYA. -/
theorem test_tya_L11 :
    let t := step (ram { cpu0 with y := 0xFF } [(0x8000, 0x98)])
    regs t = some ⟨0xFF, 0x00, 0xFF, 0xA4, 0xFD, 0x8001, 2⟩ := by decide +kernel

/-- L12: TSX. -/
theorem test_tsx_L12 :
    let t := step (ram cpu0 [(0x8000, 0xBA)])
    regs t = some ⟨0x00, 0xFD, 0x00, 0xA4, 0xFD, 0x8001, 2⟩ := by decide +kernel

/-- L13: TXS (no flags). -/
theorem test_txs_L13 :
    let t := step (ram { cpu0 with x := 0x00, p := 0x24 } [(0x8000, 0x9A)])
    regs t = some ⟨0x00, 0x00, 0x00, 0x24, 0x00, 0x8001, 2⟩ := by decide +kernel

/-! ### Arithmetic and logic -/

/-- M1: ADC #$50 (source vector). -/
theorem test_adc_M1 :
    let t := step (ram { cpu0 with a := 0x50 } [(0x8000, 0x69), (0x8001, 0x50)])
    regs t = some ⟨0xA0, 0x00, 0x00, 0xE4, 0xFD, 0x8002, 2⟩ := by decide +kernel

/-- M6: ADC #$7F, C=1 (7F+7F+1). -/
theorem test_adc_M6 :
    let t := step (ram { cpu0 with a := 0x7F, p := 0x25 } [(0x8000, 0x69), (0x8001, 0x7F)])
    regs t = some ⟨0xFF, 0x00, 0x00, 0xE4, 0xFD, 0x8002, 2⟩ := by decide +kernel

/-- M9: SBC #$01, C=0 (borrow: 00-01-1). -/
theorem test_sbc_M9 :
    let t := step (ram { cpu0 with a := 0x00, p := 0x24 } [(0x8000, 0xE9), (0x8001, 0x01)])
    regs t = some ⟨0xFE, 0x00, 0x00, 0xA4, 0xFD, 0x8002, 2⟩ := by decide +kernel

/-- M11: SBC #$80, C=1 (7F-80). -/
theorem test_sbc_M11 :
    let t := step (ram { cpu0 with a := 0x7F, p := 0x25 } [(0x8000, 0xE9), (0x8001, 0x80)])
    regs t = some ⟨0xFF, 0x00, 0x00, 0xE4, 0xFD, 0x8002, 2⟩ := by decide +kernel

/-- M16: AND $10. -/
theorem test_and_M16 :
    let t := step (ram { cpu0 with a := 0xFF } [(0x8000, 0x25), (0x8001, 0x10), (0x0010, 0x80)])
    regs t = some ⟨0x80, 0x00, 0x00, 0xA4, 0xFD, 0x8002, 3⟩ := by decide +kernel

/-- M18: ORA #$80. -/
theorem test_ora_M18 :
    let t := step (ram { cpu0 with a := 0x01 } [(0x8000, 0x09), (0x8001, 0x80)])
    regs t = some ⟨0x81, 0x00, 0x00, 0xA4, 0xFD, 0x8002, 2⟩ := by decide +kernel

/-- M20: EOR #$FF. -/
theorem test_eor_M20 :
    let t := step (ram { cpu0 with a := 0x0F } [(0x8000, 0x49), (0x8001, 0xFF)])
    regs t = some ⟨0xF0, 0x00, 0x00, 0xA4, 0xFD, 0x8002, 2⟩ := by decide +kernel

/-- M21: CMP #$40 (A>M). -/
theorem test_cmp_M21 :
    let t := step (ram { cpu0 with a := 0x50 } [(0x8000, 0xC9), (0x8001, 0x40)])
    regs t = some ⟨0x50, 0x00, 0x00, 0x25, 0xFD, 0x8002, 2⟩ := by decide +kernel

/-- M24: CMP #$01 (A=81: N from difference). -/
theorem test_cmp_M24 :
    let t := step (ram { cpu0 with a := 0x81 } [(0x8000, 0xC9), (0x8001, 0x01)])
    regs t = some ⟨0x81, 0x00, 0x00, 0xA5, 0xFD, 0x8002, 2⟩ := by decide +kernel

/-- M26: CPX $10. -/
theorem test_cpx_M26 :
    let t := step (ram { cpu0 with x := 0x10 } [(0x8000, 0xE4), (0x8001, 0x10), (0x0010, 0x20)])
    regs t = some ⟨0x00, 0x10, 0x00, 0xA4, 0xFD, 0x8002, 3⟩ := by decide +kernel

/-- M27: CPY #$00. -/
theorem test_cpy_M27 :
    let t := step (ram { cpu0 with y := 0x00 } [(0x8000, 0xC0), (0x8001, 0x00)])
    regs t = some ⟨0x00, 0x00, 0x00, 0x27, 0xFD, 0x8002, 2⟩ := by decide +kernel

/-- M28: BIT $10 (A&M=0, M=C0). -/
theorem test_bit_M28 :
    let t := step (ram { cpu0 with a := 0x3F } [(0x8000, 0x24), (0x8001, 0x10), (0x0010, 0xC0)])
    regs t = some ⟨0x3F, 0x00, 0x00, 0xE6, 0xFD, 0x8002, 3⟩ := by decide +kernel

/-- A16: INC $12F0,X (cross, fixed 7). -/
theorem test_inc_A16 :
    let t := step (ram { cpu0 with x := 0x10 } [(0x8000, 0xFE), (0x8001, 0xF0), (0x8002, 0x12), (0x1300, 0x7F)])
    regs t = some ⟨0x00, 0x10, 0x00, 0xA4, 0xFD, 0x8003, 7⟩ ∧ byteAfter t 0x1300 = some 0x80 := by decide +kernel

/-- M31: INC $10 (FF->00). -/
theorem test_inc_M31 :
    let t := step (ram { cpu0 with p := 0x25 } [(0x8000, 0xE6), (0x8001, 0x10), (0x0010, 0xFF)])
    regs t = some ⟨0x00, 0x00, 0x00, 0x27, 0xFD, 0x8002, 5⟩ ∧ byteAfter t 0x0010 = some 0x00 := by decide +kernel

/-- M33: DEC $10 (00->FF). -/
theorem test_dec_M33 :
    let t := step (ram cpu0 [(0x8000, 0xC6), (0x8001, 0x10), (0x0010, 0x00)])
    regs t = some ⟨0x00, 0x00, 0x00, 0xA4, 0xFD, 0x8002, 5⟩ ∧ byteAfter t 0x0010 = some 0xFF := by decide +kernel

/-- M35: INX (FF->00). -/
theorem test_inx_M35 :
    let t := step (ram { cpu0 with x := 0xFF } [(0x8000, 0xE8)])
    regs t = some ⟨0x00, 0x00, 0x00, 0x26, 0xFD, 0x8001, 2⟩ := by decide +kernel

/-- M36: INY (7F->80). -/
theorem test_iny_M36 :
    let t := step (ram { cpu0 with y := 0x7F } [(0x8000, 0xC8)])
    regs t = some ⟨0x00, 0x00, 0x80, 0xA4, 0xFD, 0x8001, 2⟩ := by decide +kernel

/-- M37: DEX (00->FF). -/
theorem test_dex_M37 :
    let t := step (ram { cpu0 with x := 0x00 } [(0x8000, 0xCA)])
    regs t = some ⟨0x00, 0xFF, 0x00, 0xA4, 0xFD, 0x8001, 2⟩ := by decide +kernel

/-- M38: DEY (01->00). -/
theorem test_dey_M38 :
    let t := step (ram { cpu0 with y := 0x01 } [(0x8000, 0x88)])
    regs t = some ⟨0x00, 0x00, 0x00, 0x26, 0xFD, 0x8001, 2⟩ := by decide +kernel

/-! ### Shifts and rotates -/

/-- H1: ASL A (81). -/
theorem test_asl_H1 :
    let t := step (ram { cpu0 with a := 0x81 } [(0x8000, 0x0A)])
    regs t = some ⟨0x02, 0x00, 0x00, 0x25, 0xFD, 0x8001, 2⟩ := by decide +kernel

/-- H11: ASL $10. -/
theorem test_asl_H11 :
    let t := step (ram { cpu0 with a := 0x11 } [(0x8000, 0x06), (0x8001, 0x10), (0x0010, 0xC0)])
    regs t = some ⟨0x11, 0x00, 0x00, 0xA5, 0xFD, 0x8002, 5⟩ ∧ byteAfter t 0x0010 = some 0x80 := by decide +kernel

/-- H5: LSR A (FF), N always 0. -/
theorem test_lsr_H5 :
    let t := step (ram { cpu0 with a := 0xFF, p := 0xA4 } [(0x8000, 0x4A)])
    regs t = some ⟨0x7F, 0x00, 0x00, 0x25, 0xFD, 0x8001, 2⟩ := by decide +kernel

/-- H12: LSR $10,X. -/
theorem test_lsr_H12 :
    let t := step (ram { cpu0 with x := 0x01 } [(0x8000, 0x56), (0x8001, 0x10), (0x0011, 0x02)])
    regs t = some ⟨0x00, 0x01, 0x00, 0x24, 0xFD, 0x8002, 6⟩ ∧ byteAfter t 0x0011 = some 0x01 := by decide +kernel

/-- H6: ROL A (80, C=1). -/
theorem test_rol_H6 :
    let t := step (ram { cpu0 with a := 0x80, p := 0x25 } [(0x8000, 0x2A)])
    regs t = some ⟨0x01, 0x00, 0x00, 0x25, 0xFD, 0x8001, 2⟩ := by decide +kernel

/-- H13: ROL $1234. -/
theorem test_rol_H13 :
    let t := step (ram { cpu0 with p := 0x25 } [(0x8000, 0x2E), (0x8001, 0x34), (0x8002, 0x12), (0x1234, 0x7F)])
    regs t = some ⟨0x00, 0x00, 0x00, 0xA4, 0xFD, 0x8003, 6⟩ ∧ byteAfter t 0x1234 = some 0xFF := by decide +kernel

/-- H8: ROR A (01, C=1). -/
theorem test_ror_H8 :
    let t := step (ram { cpu0 with a := 0x01, p := 0x25 } [(0x8000, 0x6A)])
    regs t = some ⟨0x80, 0x00, 0x00, 0xA5, 0xFD, 0x8001, 2⟩ := by decide +kernel

/-- H14: ROR $12FF,X (cross). -/
theorem test_ror_H14 :
    let t := step (ram { cpu0 with x := 0x01, p := 0x25 } [(0x8000, 0x7E), (0x8001, 0xFF), (0x8002, 0x12), (0x1300, 0xFE)])
    regs t = some ⟨0x00, 0x01, 0x00, 0xA4, 0xFD, 0x8003, 7⟩ ∧ byteAfter t 0x1300 = some 0xFF := by decide +kernel

/-! ### Control flow -/

/-- F1: JMP $1234. -/
theorem test_jmp_F1 :
    let t := step (ram cpu0 [(0x8000, 0x4C), (0x8001, 0x34), (0x8002, 0x12)])
    regs t = some ⟨0x00, 0x00, 0x00, 0x24, 0xFD, 0x1234, 3⟩ := by decide +kernel

/-- F3: JMP ($02FF) (page-wrap bug). -/
theorem test_jmp_F3 :
    let t := step (ram cpu0 [(0x8000, 0x6C), (0x8001, 0xFF), (0x8002, 0x02), (0x0200, 0x56), (0x02FF, 0x78), (0x0300, 0x99)])
    regs t = some ⟨0x00, 0x00, 0x00, 0x24, 0xFD, 0x5678, 5⟩ := by decide +kernel

/-- F10: JSR at $80FE (return address high/low). -/
theorem test_jsr_F10 :
    let t := step (ram { cpu0 with pc := 0x80FE } [(0x80FE, 0x20), (0x80FF, 0x34), (0x8100, 0x12)])
    regs t = some ⟨0x00, 0x00, 0x00, 0x24, 0xFB, 0x1234, 6⟩ ∧ byteAfter t 0x01FD = some 0x81 ∧ byteAfter t 0x01FC = some 0x00 := by decide +kernel

/-- F6: RTS with SP=FF (stack wraps). -/
theorem test_rts_F6 :
    let t := step (ram { cpu0 with sp := 0xFF } [(0x8000, 0x60), (0x0100, 0xFF), (0x0101, 0x12), (0x0200, 0x99)])
    regs t = some ⟨0x00, 0x00, 0x00, 0x24, 0x01, 0x1300, 6⟩ := by decide +kernel

/-- F7: RTS to $FFFF+1 (PC wraps). -/
theorem test_rts_F7 :
    let t := step (ram { cpu0 with sp := 0xFB } [(0x8000, 0x60), (0x01FC, 0xFF), (0x01FD, 0xFF)])
    regs t = some ⟨0x00, 0x00, 0x00, 0x24, 0xFD, 0x0000, 6⟩ := by decide +kernel

/-- F8: RTI. -/
theorem test_rti_F8 :
    let t := step (ram { cpu0 with sp := 0xFA } [(0x8000, 0x40), (0x01FB, 0xDF), (0x01FC, 0x34), (0x01FD, 0x12)])
    regs t = some ⟨0x00, 0x00, 0x00, 0xEF, 0xFD, 0x1234, 6⟩ := by decide +kernel

/-- B1: BPL +5 (N=0, taken). -/
theorem test_bpl_B1 :
    let t := step (ram cpu0 [(0x8000, 0x10), (0x8001, 0x05)])
    regs t = some ⟨0x00, 0x00, 0x00, 0x24, 0xFD, 0x8007, 3⟩ := by decide +kernel

/-- B18: BPL +$10 at $FFF0 (target wraps to $0002: cross). -/
theorem test_bpl_B18 :
    let t := step (ram { cpu0 with pc := 0xFFF0 } [(0xFFF0, 0x10), (0xFFF1, 0x10)])
    regs t = some ⟨0x00, 0x00, 0x00, 0x24, 0xFD, 0x0002, 4⟩ := by decide +kernel

/-- B3: BMI -4 (N=1, taken backward to $7FFE: other page than $8002). -/
theorem test_bmi_B3 :
    let t := step (ram { cpu0 with p := 0xA4 } [(0x8000, 0x30), (0x8001, 0xFC)])
    regs t = some ⟨0x00, 0x00, 0x00, 0xA4, 0xFD, 0x7FFE, 4⟩ := by decide +kernel

/-- B5: BVC +$7F (V=0, taken). -/
theorem test_bvc_B5 :
    let t := step (ram cpu0 [(0x8000, 0x50), (0x8001, 0x7F)])
    regs t = some ⟨0x00, 0x00, 0x00, 0x24, 0xFD, 0x8081, 3⟩ := by decide +kernel

/-- B6: BVS +$10 (V=1, taken). -/
theorem test_bvs_B6 :
    let t := step (ram { cpu0 with p := 0x64 } [(0x8000, 0x70), (0x8001, 0x10)])
    regs t = some ⟨0x00, 0x00, 0x00, 0x64, 0xFD, 0x8012, 3⟩ := by decide +kernel

/-- B7: BVS (V=0, not taken). -/
theorem test_bvs_B7 :
    let t := step (ram cpu0 [(0x8000, 0x70), (0x8001, 0x10)])
    regs t = some ⟨0x00, 0x00, 0x00, 0x24, 0xFD, 0x8002, 2⟩ := by decide +kernel

/-- B8: BCC -$80 (C=0, taken to $7F82, other page). -/
theorem test_bcc_B8 :
    let t := step (ram cpu0 [(0x8000, 0x90), (0x8001, 0x80)])
    regs t = some ⟨0x00, 0x00, 0x00, 0x24, 0xFD, 0x7F82, 4⟩ := by decide +kernel

/-- B9: BCS +2 (C=1, taken). -/
theorem test_bcs_B9 :
    let t := step (ram { cpu0 with p := 0x25 } [(0x8000, 0xB0), (0x8001, 0x02)])
    regs t = some ⟨0x00, 0x00, 0x00, 0x25, 0xFD, 0x8004, 3⟩ := by decide +kernel

/-- B15: BNE +1 at $80FD (next $80FF, target $8100: cross). -/
theorem test_bne_B15 :
    let t := step (ram { cpu0 with pc := 0x80FD } [(0x80FD, 0xD0), (0x80FE, 0x01)])
    regs t = some ⟨0x00, 0x00, 0x00, 0x24, 0xFD, 0x8100, 4⟩ := by decide +kernel

/-- B16: BNE +0 at $80FE (next $8100 = target: no cross). -/
theorem test_bne_B16 :
    let t := step (ram { cpu0 with pc := 0x80FE } [(0x80FE, 0xD0), (0x80FF, 0x00)])
    regs t = some ⟨0x00, 0x00, 0x00, 0x24, 0xFD, 0x8100, 3⟩ := by decide +kernel

/-- B12: BEQ +0 (Z=1, taken, target = next). -/
theorem test_beq_B12 :
    let t := step (ram { cpu0 with p := 0x26 } [(0x8000, 0xF0), (0x8001, 0x00)])
    regs t = some ⟨0x00, 0x00, 0x00, 0x26, 0xFD, 0x8002, 3⟩ := by decide +kernel

/-! ### Stack, flags, no-operation -/

/-- K2: PHA with SP=00 (wraps). -/
theorem test_pha_K2 :
    let t := step (ram { cpu0 with a := 0x42, sp := 0x00 } [(0x8000, 0x48)])
    regs t = some ⟨0x42, 0x00, 0x00, 0x24, 0xFF, 0x8001, 3⟩ ∧ byteAfter t 0x0100 = some 0x42 := by decide +kernel

/-- K4: PLA with SP=FF (reads $0100). -/
theorem test_pla_K4 :
    let t := step (ram { cpu0 with sp := 0xFF } [(0x8000, 0x68), (0x0100, 0x00), (0x0200, 0x99)])
    regs t = some ⟨0x00, 0x00, 0x00, 0x26, 0x00, 0x8001, 4⟩ := by decide +kernel

/-- K6: PHP (P=E5 pushes F5). -/
theorem test_php_K6 :
    let t := step (ram { cpu0 with p := 0xE5 } [(0x8000, 0x08)])
    regs t = some ⟨0x00, 0x00, 0x00, 0xE5, 0xFC, 0x8001, 3⟩ ∧ byteAfter t 0x01FD = some 0xF5 := by decide +kernel

/-- K9: PLP (stack 10 -> P=20). -/
theorem test_plp_K9 :
    let t := step (ram { cpu0 with sp := 0xFC } [(0x8000, 0x28), (0x01FD, 0x10)])
    regs t = some ⟨0x00, 0x00, 0x00, 0x20, 0xFD, 0x8001, 4⟩ := by decide +kernel

/-- K13: CLC. -/
theorem test_clc_K13 :
    let t := step (ram { cpu0 with p := 0x25 } [(0x8000, 0x18)])
    regs t = some ⟨0x00, 0x00, 0x00, 0x24, 0xFD, 0x8001, 2⟩ := by decide +kernel

/-- K12: SEC. -/
theorem test_sec_K12 :
    let t := step (ram cpu0 [(0x8000, 0x38)])
    regs t = some ⟨0x00, 0x00, 0x00, 0x25, 0xFD, 0x8001, 2⟩ := by decide +kernel

/-- K15: CLI. -/
theorem test_cli_K15 :
    let t := step (ram cpu0 [(0x8000, 0x58)])
    regs t = some ⟨0x00, 0x00, 0x00, 0x20, 0xFD, 0x8001, 2⟩ := by decide +kernel

/-- K14: SEI. -/
theorem test_sei_K14 :
    let t := step (ram { cpu0 with p := 0x20 } [(0x8000, 0x78)])
    regs t = some ⟨0x00, 0x00, 0x00, 0x24, 0xFD, 0x8001, 2⟩ := by decide +kernel

/-- K18: CLV. -/
theorem test_clv_K18 :
    let t := step (ram { cpu0 with p := 0x64 } [(0x8000, 0xB8)])
    regs t = some ⟨0x00, 0x00, 0x00, 0x24, 0xFD, 0x8001, 2⟩ := by decide +kernel

/-- K17: CLD. -/
theorem test_cld_K17 :
    let t := step (ram { cpu0 with p := 0x2C } [(0x8000, 0xD8)])
    regs t = some ⟨0x00, 0x00, 0x00, 0x24, 0xFD, 0x8001, 2⟩ := by decide +kernel

/-- K16: SED. -/
theorem test_sed_K16 :
    let t := step (ram cpu0 [(0x8000, 0xF8)])
    regs t = some ⟨0x00, 0x00, 0x00, 0x2C, 0xFD, 0x8001, 2⟩ := by decide +kernel

/-- K21: *NOP #$FF (80). -/
theorem test_nop_K21 :
    let t := step (ram cpu0 [(0x8000, 0x80), (0x8001, 0xFF)])
    regs t = some ⟨0x00, 0x00, 0x00, 0x24, 0xFD, 0x8002, 2⟩ := by decide +kernel

/-- K25: *NOP $12FF,X (1C, cross). -/
theorem test_nop_K25 :
    let t := step (ram { cpu0 with x := 0x01 } [(0x8000, 0x1C), (0x8001, 0xFF), (0x8002, 0x12)])
    regs t = some ⟨0x00, 0x01, 0x00, 0x24, 0xFD, 0x8003, 5⟩ := by decide +kernel

/-! ### Errors, interrupts, reset, DMA, placing an instruction -/

/-- E1, E4: the latch, `PC` after the opcode byte, no cycle. -/
theorem test_errors :
    let err := fun (s : State) => match step s with
      | .next t => some (t.cpu.errKind, t.cpu.errOpcode, t.cpu.pc, t.cpu.cyc)
      | _ => none
    err (ram cpu0 [(0x8001, 0xEA)]) = some (.brk, 0x00, 0x8001, 0) ∧
    err (ram cpu0 [(0x8000, 0xEB), (0x8001, 0x01)]) = some (.unknownOpcode, 0xEB, 0x8001, 0) := by decide +kernel

/-- The vectors of spec/95 section 2.9. -/
def vectors : List (Nat × Byte) := [(0xFFFB, 0x90), (0xFFFD, 0xC0), (0xFFFF, 0xA0)]

/-- I1: IRQ with I = 0. -/
theorem test_irq_I1 :
    let t := raiseIRQ (ram { cpu0 with pc := 0x8123, p := 0x20, cyc := 10 } vectors)
    regsOf t = ⟨0x00, 0x00, 0x00, 0x24, 0xFA, 0xA000, 17⟩ ∧ t.byteAt 0x01FD = 0x81 ∧ t.byteAt 0x01FC = 0x23 ∧
      t.byteAt 0x01FB = 0x30 := by decide +kernel

/-- I2: IRQ with I = 1 is dropped. -/
theorem test_irq_I2 :
    regsOf (raiseIRQ (ram { cpu0 with pc := 0x8123, cyc := 10 } vectors)) =
      ⟨0x00, 0x00, 0x00, 0x24, 0xFD, 0x8123, 10⟩ := by decide +kernel

/-- I4: NMI with `SP` = 01, the stack wraps. -/
theorem test_nmi_I4 :
    let t := raiseNMI (ram { cpu0 with pc := 0x8123, p := 0x20, sp := 0x01 } vectors)
    regsOf t = ⟨0x00, 0x00, 0x00, 0x24, 0xFE, 0x9000, 7⟩ ∧ t.byteAt 0x0101 = 0x81 ∧ t.byteAt 0x0100 = 0x23 ∧
      t.byteAt 0x01FF = 0x30 := by decide +kernel

/-- I8: reset with `RESET_CYCLES` = 7. -/
theorem test_reset_I8 :
    regsOf (raiseReset 7 (ram { cpu0 with a := 0x11, p := 0x20, cyc := 999 } vectors)) =
      ⟨0x11, 0x00, 0x00, 0x20, 0xFD, 0xC000, 7⟩ := by decide +kernel

/-- I12 and I13: the cost by the parity of `CYC`, and the first three bytes of the copy. -/
theorem test_copyOAM :
    let t := copyBytes 0x02 .oam 3 (ram cpu0 [(0x0200, 0x5A), (0x0201, 0x5B), (0x0202, 0x58)])
    copyOamCost 100 = 513 ∧ copyOamCost 101 = 514 ∧ atByte t.ppu.oam 0x00 = 0x5A ∧ atByte t.ppu.oam 0x02 = 0x58 ∧
      atByte t.ppu.oam 0x03 = 0x00 := by decide +kernel

/-- R446 into a platform buffer at bytes 0 and 1, beside them nothing; a page that shows the destination's byte 0 throughout
copies that byte on; an immediate operand is its byte (R115), a joypad read the next input (R461), then a write an event. -/
theorem test_buffers_and_inputs :
    let s := ram cpu0 [(0x0200, 0x5A), (0x0201, 0x5B), (0x0202, 0x58)]
    let t := copyBytes 0x02 (.buffer 1) 2 (s.withBufs (s.bufs ++ [Buffer.zero 256]))
    let echo := { start := 0x4016, stop := 0x4017, context := 9, callback := .external : Trap CpuCallback }
    let joypad := (s.withCpuBus (ramBus.mapRegister echo)).withPlat { s.plat with inputs := [0x41, 0x40] }
    storeRead t.bufs (1, 0) = 0x5A ∧ storeRead t.bufs (1, 1) = 0x5B ∧ storeRead t.bufs (1, 2) = 0x00 ∧
      storeRead (copyBytes 0x00 (.buffer 0) 2 ((s.withCpuBus ((AddressSpace.empty CpuCallback).map 0 256 0x0000 0x00FF 0x00)).withBufs
        [(Buffer.zero 256).write 0 0x77])).bufs (0, 1) = 0x77 ∧
      (load (.imm 0x80) s).1 = 0x80 ∧ (cpuRead 0x4017 joypad).1 = 0x41 ∧ (cpuRead 0x4017 joypad).2.plat.inputs = [0x40] ∧
      (cpuWrite 0x4016 0x01 joypad).plat.outputs = [{ context := 9, addr := 0x4016, value := 0x01 }] := by decide +kernel

/-- `withFetchWord` on the reset state: the next step runs the word (LDA #$44; STA $0005; JMP ($0003), whose pointer lies in
the fresh page behind the instruction; a branch back over address 0). -/
theorem test_withFetchWord :
    regs (step (State.reset.withFetchWord 16 0x44A9)) = some ⟨0x44, 0x00, 0x00, 0x24, 0xFD, 0x0002, 2⟩ ∧
    byteAfter (step (State.reset.withFetchWord 24 0x000585)) 0x0005 = some 0x00 ∧
    regs (step (State.reset.withFetchWord 24 0x00006C)) = some ⟨0x00, 0x00, 0x00, 0x24, 0xFD, 0x006C, 5⟩ ∧
    regs (step (State.reset.withFetchWord 16 0xFED0)) = some ⟨0x00, 0x00, 0x00, 0x24, 0xFD, 0x0000, 3⟩ := by decide +kernel

/-! ### AddressSpace -/

/-- M-A1 and M-A2: a 2 KB buffer tiled over 6 KB, a 32-byte buffer mirrored over a page, addresses outside. -/
theorem test_map_tiles :
    let bus := ((AddressSpace.empty PpuCallback).map 0 2048 0x2000 0x37FF 0xFF).map 1 32 0x3F00 0x3FFF 0x1F
    bus.locate 0x2805 = some (0, 5) ∧ bus.locate 0x3005 = some (0, 5) ∧ bus.locate 0x37FF = some (0, 0x7FF) ∧
      bus.locate 0x3800 = none ∧ bus.locate 0x1FFF = none ∧ bus.locate 0x3F20 = some (1, 0) ∧
      bus.locate 0x3FFF = some (1, 0x1F) ∧ bus.locate 0x3FE5 = some (1, 5) := by decide +kernel

/-- M-A9: the four refused calls, and the instances of M-A1, M-A2, M-A7 that are allowed. -/
theorem test_map_preconditions :
    mapAllowed 256 0x2000 0x20FE 0xFF = false ∧ mapAllowed 256 0x2001 0x20FF 0xFF = false ∧
      mapAllowed 768 0x2000 0x21FF 0xFF = false ∧ mapAllowed 40 0x3F00 0x3FFF 0xFF = false ∧
      mapAllowed 2048 0x2000 0x37FF 0xFF = true ∧ mapAllowed 32 0x3F00 0x3FFF 0x1F = true ∧
      mapAllowed 256 0x1000 0x10FF 0xF0 = true := by decide +kernel

/-- A trap over a range, of a component outside the block. -/
def extTrap (start stop : Addr) : Trap CpuCallback := { start := start, stop := stop, context := 0, callback := .external }

/-- M-A3: overlapping traps resolve to the lowest slot, a fifth registration is dropped. -/
theorem test_trap_slots :
    let bus := ((((ramBus.mapRegister (extTrap 0x4010 0x4013)).mapRegister (extTrap 0x4012 0x4020)).mapRegister
      (extTrap 0x5000 0x5000)).mapRegister (extTrap 0x6000 0x6001)).mapRegister (extTrap 0x7000 0x7001)
    bus.traps.length = 4 ∧ bus.trapAt 0x4010 = some (extTrap 0x4010 0x4013) ∧
      bus.trapAt 0x4012 = some (extTrap 0x4010 0x4013) ∧ bus.trapAt 0x4014 = some (extTrap 0x4012 0x4020) ∧
      bus.trapAt 0x400F = none ∧ bus.trapAt 0x7000 = none := by decide +kernel

/-- An external read takes the next input, and a byte written back is gone from the canonical memory. -/
theorem test_external_and_canonical :
    let s := ram cpu0 [(0x10, 0x77)]
    let ext := (s.withCpuBus (ramBus.mapRegister (extTrap 0x4016 0x4017))).withPlat { s.plat with inputs := [0x41] }
    (cpuRead 0x4016 ext).1 = 0x41 ∧ (cpuRead 0x4016 ext).2.plat.inputs = [] ∧
      (cpuWrite 0x0010 0x00 (cpuWrite 0x0020 0x01 s)).bufs = [{ len := 65536, cells := [(0x20, 0x01)] }] := by decide +kernel

/-! ### The PPU -/

/-- The PPU platform of R89: patterns (buffer 0), nametables (1) and palette (2) on `PpuBus`, nothing on `CpuBus`. -/
def ppuState (ppu : Ppu) (pat nt pal : Memory) : State :=
  { State.reset with
    ppuBus := (((AddressSpace.empty PpuCallback).map 0 8192 0x0000 0x1FFF 0xFF).map 1 4096 0x2000 0x2FFF 0xFF).map 2 32
      0x3F00 0x3FFF 0x1F
    bufs := [{ len := 8192, cells := pat }, { len := 4096, cells := nt }, { len := 32, cells := pal }]
    ppu := ppu }

/-- G1: STATUS read. -/
theorem test_status_G1 :
    let r := regRead .status (ppuState { Ppu.powerOn with status := 0xE0, w := true } [] [] [])
    r.1 = 0xE0 ∧ r.2.ppu.status = 0x60 ∧ r.2.ppu.w = false := by decide +kernel

/-- G2: CTRL writes bits 11:10 of `t`. -/
theorem test_ctrl_G2 :
    let s := regWrite .ctrl 0x00 (ppuState { Ppu.powerOn with t := 0x7FFF } [] [] [])
    s.ppu.t = 0x73FF ∧ (regWrite .ctrl 0x93 s).ppu.t = 0x7FFF := by decide +kernel

/-- G3 and G4: the write pairs of SCROLL and ADDR. -/
theorem test_scroll_addr_G3_G4 :
    let s1 := regWrite .scroll 0x7D (ppuState Ppu.powerOn [] [] [])
    let s2 := regWrite .scroll 0x5E s1
    let s3 := regWrite .addr 0x21 (ppuState { Ppu.powerOn with t := 0x7FFF } [] [] [])
    let s4 := regWrite .addr 0x08 s3
    s1.ppu.t = 0x000F ∧ s1.ppu.x = 5 ∧ s1.ppu.w = true ∧ s2.ppu.t = 0x616F ∧ s2.ppu.v = 0 ∧ s2.ppu.w = false ∧
      s3.ppu.t = 0x21FF ∧ s3.ppu.v = 0 ∧ s4.ppu.t = 0x2108 ∧ s4.ppu.v = 0x2108 := by decide +kernel

/-- G5 and G6: DATA reads through the delay buffer, and at once from the palette. -/
theorem test_data_read_G5_G6 :
    let r1 := regRead .data (ppuState { Ppu.powerOn with v := 0x2000 } [] [(0, 0xAA), (1, 0xBB)] [])
    let r2 := regRead .data r1.2
    let r3 := regRead .data (ppuState { Ppu.powerOn with v := 0x3F01, readBuffer := 0x77 } [] [] [(0, 0x0F), (1, 0x21)])
    r1.1 = 0x00 ∧ r2.1 = 0xAA ∧ r2.2.ppu.v = 0x2002 ∧ r2.2.ppu.readBuffer = 0xBB ∧ r3.1 = 0x21 ∧
      r3.2.ppu.readBuffer = 0x77 ∧ r3.2.ppu.v = 0x3F02 := by decide +kernel

/-- G8 and G9: the palette alias, and the 15-bit wrap of `v`. -/
theorem test_data_write_G8_G9 :
    let w := fun v => regWrite .data 0x2A (ppuState { Ppu.powerOn with v := v } [] [] [])
    (w 0x3F10).ppuBus.peek (w 0x3F10).bufs 0x3F00 = 0x2A ∧ (w 0x3F10).ppuBus.peek (w 0x3F10).bufs 0x3F10 = 0x00 ∧
      (w 0x3F30).ppuBus.peek (w 0x3F30).bufs 0x3F10 = 0x2A ∧ (w 0x7FFF).ppu.v = 0 ∧
      (w 0x7FFF).ppuBus.peek (w 0x7FFF).bufs 0x3FFF = 0x2A := by decide +kernel

/-- G11 and G12: OAMDATA by position. -/
theorem test_oamData_G11_G12 :
    let s := fun (m : Byte) (y d : Nat) => ppuState
      { Ppu.powerOn with mask := m, scanline := y, dot := d, oamAddr := 0x10, oam := setAtByte Ppu.powerOn.oam 0x10 0xEE } [] [] []
    (regRead .oamData (s 0x08 10 1)).1 = 0xFF ∧ (regRead .oamData (s 0x08 10 64)).1 = 0xFF ∧
      (regRead .oamData (s 0x08 10 65)).1 = 0xEE ∧ (regRead .oamData (s 0x08 10 0)).1 = 0xEE ∧
      (regRead .oamData (s 0x08 261 30)).1 = 0xEE ∧
      (regWrite .oamData 0x42 (s 0x08 239 340)).ppu.oamAddr = 0x10 ∧ (regWrite .oamData 0x42 (s 0x10 261 5)).ppu.oamAddr = 0x10 ∧
      (regWrite .oamData 0x42 (s 0x08 240 0)).ppu.oamAddr = 0x11 ∧
      atByte (regWrite .oamData 0x42 (s 0x08 240 0)).ppu.oam 0x10 = 0x42 := by decide +kernel

/-- R356, R357, R358: the edges of the status register and the ends of a line, of a frame, and of an odd frame. -/
theorem test_tick_positions :
    let at_ := fun (f y d : Nat) => ppuTick (ppuState { Ppu.powerOn with frame := f, scanline := y, dot := d, status := 0x60 } [] [] [])
    let pos := fun (s : State) => (s.ppu.frame, s.ppu.scanline, s.ppu.dot)
    (at_ 0 241 1).1 = true ∧ (at_ 0 241 0).1 = false ∧ (at_ 0 241 1).2.ppu.status = 0xE0 ∧ (at_ 0 261 1).2.ppu.status = 0x00 ∧
      pos (at_ 0 10 340).2 = (0, 11, 0) ∧ pos (at_ 0 261 339).2 = (0, 261, 340) ∧ pos (at_ 0 261 340).2 = (1, 0, 0) ∧
      pos (at_ 1 261 339).2 = (2, 0, 0) := by decide +kernel

/-- R392, R393, R396 at (0, 5), the pixels of V3: the sprite in front of an opaque background pixel, and the hit. -/
theorem test_pixel_V3 :
    let p : Ppu := { Ppu.powerOn with mask := 0x1E, scanline := 0, dot := 5, bgShiftLo := 0xFF00, slot0IsSprite0 := true }
    let p : Ppu := { p with slots := Vector.replicate 8 { sprLo := 0xFF, sprHi := 0, sprAttr := 0, sprX := 0 } }
    let t := pixelOutput (ppuState p [] [] [(0x00, 0x0F), (0x01, 0x21), (0x11, 0x16)])
    composite (bgPixel p 4) (spritePixel p 4) = 0x11 ∧ t.ppu.status = 0x40 := by decide +kernel

/-- R363, R364, R366, R383 worked out by hand: nametable, attribute and pattern addresses; an 8x16 sprite's lower tile. -/
theorem test_fetch_addresses :
    nametableAddr 0x0F7F = 0x2F7F ∧ attributeAddr 0x0C7F = 0x2FC7 ∧ attributeBits 0x0042 0x1B = 0 ∧
      patternAddr { Ppu.powerOn with ctrl := 0x10, ntLatch := 0x01, v := 0x7000 } = 0x1017 ∧
      (let oam2 : Vector Byte 32 := ((Vector.replicate 32 0).set 0 0x1F).set 1 0x03
       spriteAddr { Ppu.powerOn with ctrl := 0x20, scanline := 0x2E, secondaryOam := oam2 } 0 = 0x1037) := by decide +kernel

/-- R378 by hand: entry 63 alone in range (line 16, Y = 0x0F); a ninth entry in range is not taken. -/
theorem test_sprite_evaluation :
    let p : Ppu := { Ppu.powerOn with scanline := 16, dot := 256, oam := setAtByte (Vector.replicate 256 0xFF) 0xFC 0x0F }
    let q := spriteEvaluation p
    q.secCount = 1 ∧ q.secHasSprite0 = false ∧ q.secByte 0 0 = 0x0F ∧ q.secByte 0 1 = 0xFF ∧ q.status = 0 ∧
      (evalEntry { p with secCount := 8 } 63).secCount = 8 := by decide +kernel

/-- R360, R362, R367, R370, R371 by hand on the pre-render line: the shift and reload of dot 9, the fetch of dot 327, the
horizontal copy of dot 257 and the vertical copy of dot 304. -/
theorem test_tick_background :
    let p : Ppu := { Ppu.powerOn with mask := 0x08, scanline := 261, v := 0x7FFF, t := 0x0000, bgShiftLo := 0x40FF,
                                      atShiftHi := 0xC000, bgLoLatch := 0xAB, atLatch := 2 }
    let at_ := fun (d : Nat) => (ppuTick (ppuState { p with dot := d } [(0x0F, 0x5A)] [] [])).2.ppu
    (at_ 9).bgShiftLo = 0x81AB ∧ (at_ 9).atShiftHi = 0x80FF ∧ (at_ 258).bgShiftLo = 0x40FF ∧ (at_ 327).bgHiLatch = 0x5A ∧
      (at_ 327).bgLoLatch = 0xAB ∧ (at_ 257).v = 0x7BE0 ∧ (at_ 304).v = 0x041F ∧ (at_ 305).v = 0x7FFF := by decide +kernel

/-- R380, R387 by hand on line 10: slot 7 is loaded on dots 318 and 320, flipped; slot 6 on neither; a slot counts down on
dot 256 in phase 2. -/
theorem test_tick_sprites :
    let oam2 : Vector Byte 32 := (((Vector.replicate 32 0).set 28 0x0A).set 30 0x40).set 31 0x99
    let p : Ppu := { Ppu.powerOn with mask := 0x10, scanline := 10, secondaryOam := oam2, secCount := 8,
                                      slots := Vector.replicate 8 { sprLo := 0x81, sprHi := 0x82, sprAttr := 0, sprX := 2 } }
    let at_ := fun (d : Nat) => (ppuTick (ppuState { p with dot := d } [(0x00, 0x01), (0x08, 0x03)] [] [])).2.ppu.slots
    (at_ 318)[7] = { sprLo := 0x80, sprHi := 0x82, sprAttr := 0x40, sprX := 0x99 } ∧ (at_ 320)[7].sprHi = 0xC0 ∧
      (at_ 318)[6] = { sprLo := 0x81, sprHi := 0x82, sprAttr := 0, sprX := 2 } ∧
      (backgroundPhase (ppuState { p with dot := 256 } [] [] [])).ppu.slots[0].sprX = 1 := by decide +kernel

/-- R456, R458 by hand: the edge with `CTRL[7]` set requests the NMI before the next CPU step, which the next step then
takes; a tick by itself requests none. -/
theorem test_nmi_request_R456 :
    let s := (ram { cpu0 with cyc := 1 } [(0xFFFB, 0x90)]).withPpu { Ppu.powerOn with ctrl := 0x80, scanline := 241, dot := 1 }
    let after := fun (pending : List Transition) => match step (s.withPlat { s.plat with pending := pending }) with
      | .next t => t
      | _ => s
    let next := fun (t : State) => match step t with
      | .next u => u.cpu.pc
      | _ => 0
    (after []).plat.pending = [.raiseNMI] ∧ (after []).cpu.pc = 0x8000 ∧ next (after []) = 0x9000 ∧
      (after [.ppuTick]).plat.pending = [] ∧
      (after [.systemTick, .forcePC 0x1234, .cpuStep]).plat.pending = [.forcePC 0x1234, .raiseNMI, .cpuStep] := by
  decide +kernel

/-- R460: a trap wider than the DMA register. R70: a fifth registration with a reversed range changes nothing (hazard (p) of
R480), a fourth one is refused (log entry 11). -/
theorem test_trap_corners :
    let dma := ramBus.mapRegister { start := 0x4014, stop := 0x4017, context := 5, callback := .oamDma 0x4014 }
    let s := (ram { cpu0 with a := 0x02 } []).withCpuBus dma
    let full := s.withCpuBus (((dma.mapRegister (extTrap 1 1)).mapRegister (extTrap 2 2)).mapRegister (extTrap 3 3))
    let add := fun (s : State) => step (s.withPlat { s.plat with pending := [.mapCpuRegister 9 8 0 .external] })
    (cpuWrite 0x4016 0x41 s).plat.outputs = [{ context := 5, addr := 0x4016, value := 0x41 }] ∧
      (cpuWrite 0x4016 0x41 s).cpu.cyc = s.cpu.cyc ∧
      (match add full with
        | .next t => t.cpuBus.traps == full.cpuBus.traps
        | _ => false) = true ∧
      (match add s with
        | .refused .trapRange => true
        | _ => false) = true := by decide +kernel

/-- R80, R112: LDA #$44 fetched from a trapped range reads each of its two bytes once, in ascending order (R461). -/
theorem test_fetch_trapped :
    let s := (ram cpu0 []).withCpuBus (ramBus.mapRegister (extTrap 0x8000 0x8001))
    (match step (s.withPlat { s.plat with inputs := [0xA9, 0x44, 0x99] }) with
      | .next t => t.cpu.a == 0x44 && t.cpu.pc == 0x8002 && t.plat.inputs == [0x99] && t.plat.extReads == 2
      | _ => false) = true := by decide +kernel

/-- R353: with rendering on, line 240 keeps `v` where line 239 increments it; R309: a sprite-fetch dot keeps `OAMADDR`. -/
theorem test_tick_keeps :
    let tick := fun (y d : Nat) => (ppuTick ((ram cpu0 []).withPpu
      { Ppu.powerOn with mask := 0x18, scanline := y, dot := d, v := 0x0005, oamAddr := 0x55 })).2.ppu
    (tick 240 8).v = 0x0005 ∧ (tick 239 8).v = 0x0006 ∧ (tick 239 262).oamAddr = 0x55 := by decide +kernel

/-! ### Witnesses: concrete states and operands that meet the hypotheses of the statements -/

/-- A transition answers a next state. -/
def answersNext : Result → Bool
  | .next _ => true
  | _ => false

theorem next_of_answersNext {r : Result} (h : answersNext r = true) : ∃ t, r = .next t := by
  cases r with
  | next t => exact ⟨t, rfl⟩
  | fault f => cases f
  | refused f => exact absurd h (by simp [answersNext])

theorem ramPages_get (n k i : Nat) (h : i < n) : (ramPages n k)[i]'(by simpa using h) = .mapped 0 ((k + i) * 256) 0xFF := by
  induction n generalizing k i with
  | zero => omega
  | succ n ih =>
    cases i with
    | zero => rfl
    | succ i =>
      have := ih (k + 1) i (by omega)
      simp only [ramPages, List.getElem_cons_succ, this, PageEntry.mapped.injEq, true_and, and_true]
      omega

theorem ramBus_page (n : Byte) : atByte ramBus.pages n = .mapped 0 (n.toNat * 256) 0xFF := by
  have := ramPages_get 256 0 n.toNat n.isLt
  simpa [atByte, ramBus] using this

/-- The address is the offset into the buffer. -/
theorem ramBus_locate (a : Addr) : ramBus.locate a = some (0, a.toNat) := by
  have e : ∀ b : Byte, (b &&& 0xFF).toNat = b.toNat := by decide +kernel
  have := a.isLt
  unfold AddressSpace.locate
  rw [ramBus_page]
  simp only [e, hiByte_toNat, loByte_toNat, Option.some.injEq, Prod.mk.injEq, true_and]
  omega

theorem ram_untrapped (cpu : Cpu) (cells : List (Nat × Byte)) (a : Addr) : (ram cpu cells).untrapped a := rfl

theorem ram_isMemory (cpu : Cpu) (cells : List (Nat × Byte)) (a : Addr) : (ram cpu cells).isMemory a :=
  ⟨rfl, (0, a.toNat), ramBus_locate a, _, rfl, a.isLt⟩

theorem ram_hasStack (cpu : Cpu) (cells : List (Nat × Byte)) : (ram cpu cells).hasStack := by
  refine ⟨fun sp => ram_isMemory cpu cells _, fun a b h => ?_⟩
  have h : ramBus.locate (stackAddr a) = ramBus.locate (stackAddr b) := h
  rw [ramBus_locate, ramBus_locate] at h
  have h := congrArg (fun o : Option Loc => (o.getD (0, 0)).2) h
  simp only [Option.getD_some, stackAddr, wordOf_toNat] at h
  exact BitVec.eq_of_toNat_eq (by omega)

/-- The RAM machine with `NOP` at 0x8000. -/
def nopRam : State := ram cpu0 [(0x8000, 0xEA)]

theorem nopRam_bufs : ∀ b ∈ nopRam.bufs, b.wf = true := by decide +kernel

/-- The RAM machine with the PPU window, the DMA register and an external device. -/
def trapRam : State :=
  nopRam.withCpuBus (((ramBus.mapRegister { start := 0x2000, stop := 0x201F, context := 0, callback := .ppuWindow }).mapRegister
    { start := 0x4014, stop := 0x4014, context := 0, callback := .oamDma 0x4014 }).mapRegister (extTrap 0x4016 0x4017))

/-- EveryStepKeepsTheInvariant: a state that meets the invariant, and its step. -/
theorem test_witness_invariant : nopRam.Inv ∧ ∃ t, step nopRam = .next t := by
  have e : ∀ b : Byte, (b &&& 0xFF).toNat = b.toNat := by decide +kernel
  refine ⟨⟨nopRam_bufs, ⟨fun n => ?_, by decide, by nofun⟩, ⟨fun n => ?_, by decide, by nofun⟩, by decide, ?_⟩,
    next_of_answersNext (by decide +kernel)⟩
  · rw [show atByte nopRam.cpuBus.pages n = .mapped 0 (n.toNat * 256) 0xFF from ramBus_page n]
    refine ⟨by omega, _, rfl, fun off => ?_⟩
    have := n.isLt
    have := off.isLt
    rw [e]
    show _ < 65536
    omega
  · rw [show atByte nopRam.ppuBus.pages n = .unmapped from by simp [atByte, nopRam, ram, State.reset, AddressSpace.empty]]
    trivial
  · exact ⟨by decide, by decide, by decide, by decide, by decide⟩

/-- DecodeOfEncode, EncodeOfDecode, DecoderTotalWithLengthByMode. -/
theorem test_witness_decode :
    (Instr.lda (.mem (.abx 0xFFFF))).wellFormed = true ∧ decode [0xBD, 0xFF, 0xFF, 0x00] = .ok (.lda (.mem (.abx 0xFFFF)), [0x00]) ∧
      opcodeLength 0xBD = [0xFF, 0xFF].length + 1 ∧ [0xFF].length + 1 < opcodeLength 0xBD := by
  refine ⟨?_, rfl, ?_, ?_⟩ <;> decide +kernel

/-- StepRunsDecodedInstruction: the reference schedule at equality of its comparison, and a pending step; `PC` in a trapped
range. -/
theorem test_witness_step :
    let i := Instr.jsr 0x1234
    let s := ram { cpu0 with cyc := 7, pc := 0xFFFE } [(0xFFFE, 0x20), (0xFFFF, 0x34), (0x0000, 0x12)]
    let s1 := s.withPlat { s.plat with ppuDots := 21 }
    let s2 := s.withPlat { s.plat with pending := [.cpuStep, .raiseIRQ] }
    s1.cpu.errKind = .none ∧ (∀ k < i.length, s1.untrapped (s1.cpu.pc + BitVec.ofNat 16 k)) ∧
      decode [s1.byteAt s1.cpu.pc, s1.byteAt (s1.cpu.pc + 1), s1.byteAt (s1.cpu.pc + 2)] = .ok (i, []) ∧
      s1.plat.pending = [] ∧ 3 * s1.cpu.cyc = s1.plat.ppuDots ∧ s2.cpu = s1.cpu ∧
      (∀ k < i.length, s2.untrapped (s2.cpu.pc + BitVec.ofNat 16 k)) ∧ s2.plat.pending = .cpuStep :: [.raiseIRQ] ∧
      (s1.withCpuBus (ramBus.mapRegister (extTrap 0xFFFE 0xFFFF))).cpuBus.trapAt s1.cpu.pc = some (extTrap 0xFFFE 0xFFFF) := by
  have bytes : (fun s : State => [s.byteAt s.cpu.pc, s.byteAt (s.cpu.pc + 1), s.byteAt (s.cpu.pc + 2)])
      (ram { cpu0 with cyc := 7, pc := 0xFFFE } [(0xFFFE, 0x20), (0xFFFF, 0x34), (0x0000, 0x12)]) = [0x20, 0x34, 0x12] := by
    decide +kernel
  have word : wordOf 0x12 0x34 = 0x1234 := by decide +kernel
  refine ⟨rfl, fun _ _ => rfl, (congrArg decode bytes).trans ?_, rfl, rfl, rfl, fun _ _ => rfl, rfl, ?_⟩
  rotate_left
  · decide +kernel
  rw [decode_f3 0x20 0x34 0x12 [] _ rfl, word]

/-- ErrorsAreLatchedAndNothingElse: an undefined byte and BRK at untrapped addresses. -/
theorem test_witness_errors :
    let s := ram cpu0 [(0x8000, 0xFF)]
    s.cpu.errKind = .none ∧ s.untrapped s.cpu.pc ∧ s.byteAt s.cpu.pc ∈ undefinedOpcodes ∧
      (ram cpu0 []).untrapped 0x8000 ∧ (ram cpu0 []).byteAt 0x8000 = 0x00 := by
  refine ⟨rfl, rfl, ?_, rfl, ?_⟩ <;> decide +kernel

/-- LatchedErrorIsSticky and ReferenceSchedule: a halted machine steps; a running one at, and one dot before, its turn. -/
theorem test_witness_schedule :
    let halted := ram { cpu0 with errKind := .brk } []
    let running := fun n => (ram { cpu0 with cyc := 1 } []).withPlat { Platform.initial with ppuDots := n }
    (∃ t, step halted = .next t) ∧ halted.cpu.errKind ≠ .none ∧ halted.plat.pending = [] ∧
      (running 3).cpu.errKind = .none ∧ (running 3).plat.pending = [] ∧ 3 * (running 3).cpu.cyc ≤ (running 3).plat.ppuDots ∧
      (running 2).plat.ppuDots < 3 * (running 2).cpu.cyc := by
  refine ⟨next_of_answersNext ?_, ?_, rfl, rfl, rfl, ?_, ?_⟩ <;> decide +kernel

/-- ReferenceSchedule's clauses about a pending transition: one of each kind, buffers of 256 and of 255 bytes, the last byte
of a buffer. -/
theorem test_witness_pending :
    let s := nopRam.withBufs [Buffer.zero 256, Buffer.zero 255]
    (∀ t ∈ ([.cpuStep, .ppuTick, .systemTick, .raiseIRQ, .raiseNMI, .copyOAM 0x02 .oam, .copyOAM 0x02 (.buffer 0)] : List Transition) ++
        ([.copyOAM 0x02 (.buffer 1), .forcePC 0x8000, .createBuffer 1, .writeBuffer 1 254 0xFF] : List Transition),
      (s.withPlat { s.plat with pending := [t] }).plat.pending = t :: []) ∧
      s.bufs[0]? = some (Buffer.zero 256) ∧ s.bufs[1]? = some (Buffer.zero 255) ∧ 256 ≤ (Buffer.zero 256).len ∧
      (Buffer.zero 255).len < 256 ∧ 254 < (Buffer.zero 255).len := by
  refine ⟨fun _ _ => rfl, rfl, rfl, ?_, ?_, ?_⟩ <;> decide

/-- NmiOnlyAtTheVBlankEdge's clauses about the schedule: the edge with nothing pending and the PPU one dot behind; a pending
tick. -/
theorem test_witness_nmi :
    let s := (ram { cpu0 with cyc := 1 } []).withPpu { Ppu.powerOn with ctrl := 0x80, scanline := 241, dot := 1 }
    let t := s.withPlat { s.plat with ppuDots := 2 }
    t.ppu.scanline = 241 ∧ t.ppu.dot = 1 ∧ t.ppu.ctrl.getLsbD 7 = true ∧ t.plat.pending = [] ∧ t.cpu.errKind = .none ∧
      t.plat.ppuDots < 3 * t.cpu.cyc ∧ (t.withPlat { t.plat with pending := [.ppuTick] }).plat.pending = .ppuTick :: [] := by
  refine ⟨rfl, rfl, ?_, rfl, rfl, ?_, rfl⟩ <;> decide

/-- NmiOnlyAtTheVBlankEdge, TickAdvancesTheCounters, StatusFlagsChangeOnlyWhereStated: each position, `CTRL[7]` 1 and 0. -/
theorem test_witness_tick :
    let at_ := fun (f y d : Nat) (c : Byte) => nopRam.withPpu { Ppu.powerOn with frame := f, scanline := y, dot := d, ctrl := c }
    let edge := fun (s : State) => s.ppu.scanline = 241 ∧ s.ppu.dot = 1 ∧ s.ppu.ctrl.getLsbD 7 = true
    let len := fun (s : State) => if s.ppu.scanline = 261 ∧ s.ppu.frame % 2 = 1 then 340 else 341
    edge (at_ 0 241 1 0x80) ∧ ¬ edge (at_ 0 241 1 0x7F) ∧ ¬ edge (at_ 0 241 2 0x80) ∧
      ((at_ 1 261 339 0).ppu.dot + 1 = len (at_ 1 261 339 0)) ∧ ((at_ 0 261 339 0).ppu.dot + 1 ≠ len (at_ 0 261 339 0)) ∧
      ((at_ 0 240 340 0).ppu.dot + 1 = len (at_ 0 240 340 0)) ∧ (at_ 0 240 340 0).ppu.scanline ≠ 261 ∧
      ((at_ 0 261 1 0).ppu.scanline = 261 ∧ (at_ 0 261 1 0).ppu.dot = 1) ∧
      240 ≤ (at_ 0 240 0 0).ppu.scanline ∧ (at_ 0 260 340 0).ppu.scanline ≤ 260 := by decide +kernel

/-- OneVBlankEdgeInEveryFrame: the start of an even and of an odd frame. -/
theorem test_witness_frame :
    let odd := nopRam.withPpu { Ppu.powerOn with frame := 1 }
    nopRam.ppu.dot = 0 ∧ nopRam.ppu.scanline = 0 ∧ nopRam.ppu.frame % 2 = 0 ∧ odd.ppu.dot = 0 ∧ odd.ppu.scanline = 0 ∧
      odd.ppu.frame % 2 = 1 := by decide +kernel

/-- RenderingOffLeavesThePipelineAlone, FrameBufferWrittenAtThePixelOnly and the visible-dot clause: rendering off on the
first and the last visible dot; another pixel than the one drawn. -/
theorem test_witness_render :
    let s := fun (y d : Nat) => nopRam.withPpu { Ppu.powerOn with mask := 0xE7, scanline := y, dot := d }
    (s 239 256).ppu.mask.getLsbD 3 = false ∧ (s 239 256).ppu.mask.getLsbD 4 = false ∧ (s 239 256).ppu.scanline ≤ 239 ∧
      1 ≤ (s 0 1).ppu.dot ∧ (s 239 256).ppu.dot ≤ 256 ∧ (61439 : Nat) = 239 * 256 + (256 - 1) ∧
      ¬ (s 240 1).ppu.scanline ≤ 239 ∧ ¬ (s 239 257).ppu.dot ≤ 256 ∧
      ¬ ((s 0 1).ppu.scanline ≤ 239 ∧ 1 ≤ (s 0 1).ppu.dot ∧ (s 0 1).ppu.dot ≤ 256 ∧ (1 : Nat) = 0 * 256 + (1 - 1)) := by
  decide +kernel

/-- FetchAddresses, ScrollUpdates, SpriteEvaluationTakesTheFirstEight and FrameBufferWrittenAtThePixelOnly with rendering on:
each mask bit alone, the first and the last line of each kind, the position of the last pixel and of the pre-render clear,
an untrapped palette address. -/
theorem test_witness_rendering_on :
    let s := fun (m : Byte) (y d : Nat) => nopRam.withPpu { Ppu.powerOn with mask := m, scanline := y, dot := d }
    let on := fun (s : State) => s.ppu.mask.getLsbD 3 = true ∨ s.ppu.mask.getLsbD 4 = true
    on (s 0x08 0 1) ∧ on (s 0x10 239 256) ∧ ¬ on (s 0xE7 0 1) ∧ (s 0x08 239 337).ppu.scanline ≤ 239 ∧
      (s 0x10 261 280).ppu.scanline = 261 ∧ ¬ ((s 0x08 240 1).ppu.scanline ≤ 239 ∨ (s 0x08 240 1).ppu.scanline = 261) ∧
      (s 0x10 261 1).ppu.scanline = 261 ∧ (s 0x10 261 1).ppu.dot = 1 ∧ ¬ (s 0x10 261 1).ppu.scanline ≤ 239 ∧
      1 ≤ (s 0x10 239 256).ppu.dot ∧ (s 0x10 239 256).ppu.dot ≤ 256 ∧ 61439 = (s 0x10 239 256).ppu.scanline * 256 + (256 - 1) ∧
      nopRam.ppuBus.trapAt (ppuBusAddr (BitVec.ofNat 16 (0x3F00 + (0x1F : BitVec 5).toNat))) = none := by decide +kernel

/-- The dots at which the clauses of those statements meet, one of each side: fetch, shift, reload, scroll update, secondary
clear, evaluation, slot update and slot fetch. -/
theorem test_witness_rendering_dots :
    let fetch := fun d : Nat => (1 ≤ d ∧ d ≤ 256) ∨ (321 ≤ d ∧ d ≤ 336)
    let shift := fun d : Nat => (2 ≤ d ∧ d ≤ 257) ∨ (322 ≤ d ∧ d ≤ 337)
    let reload := fun d : Nat => (d % 8 = 1 ∧ 9 ≤ d ∧ d ≤ 257) ∨ d = 329 ∨ d = 337
    let coarseX := fun d : Nat => (d % 8 = 0 ∧ 8 ≤ d ∧ d ≤ 248) ∨ d = 328 ∨ d = 336
    (∀ d ∈ [1, 255, 256, 321, 335, 336], fetch d) ∧ (∀ d ∈ [0, 257, 320, 337], ¬ fetch d) ∧
      (∀ d ∈ [2, 257, 322, 337], shift d) ∧ (∀ d ∈ [1, 258, 321, 338], ¬ shift d) ∧
      (∀ d ∈ [9, 257, 329, 337], reload d) ∧ (∀ d ∈ [1, 8, 265, 321], ¬ reload d) ∧
      (∀ d ∈ [8, 248, 328, 336], coarseX d) ∧ (∀ d ∈ [0, 256, 257, 280, 304, 320], ¬ coarseX d) ∧
      262 + 8 * (7 : Fin 8).val = 318 ∧ 264 + 8 * (7 : Fin 8).val = 320 ∧ ∀ k : Fin 8, ¬ 264 + 8 * k.val ≤ 256 := by
  decide +kernel

/-- RaiseResetWritesThreeRegisters: untrapped vectors; a pending reset. -/
theorem test_witness_reset :
    let s := nopRam.withPlat { nopRam.plat with pending := [.raiseReset 7] }
    s.untrapped 0xFFFC ∧ s.untrapped 0xFFFD ∧ s.plat.pending = .raiseReset 7 :: [] := ⟨rfl, rfl, rfl⟩

/-- UntrappedReadsHaveNoSideEffect, AccessResolution: an unmapped, a mapped and a trapped address; operands whose accesses
are untrapped, the pointer at the wrap of page 0, and with the end of page 0 trapped beside the pointer or without one. -/
theorem test_witness_access :
    let s := nopRam.withCpuBus (ramBus.mapRegister (extTrap 0x0012 0x00FF))
    State.reset.untrapped 0xFFFF ∧ State.reset.cpuBus.locate 0xFFFF = none ∧
      atByte State.reset.cpuBus.pages (BitVec.ofNat 8 ((0xFFFF : Addr).toNat / 256)) = .unmapped ∧
      nopRam.untrapped 0xFFFF ∧ nopRam.cpuBus.locate 0xFFFF = some (0, 65535) ∧
      atByte nopRam.cpuBus.pages (BitVec.ofNat 8 ((0x8012 : Addr).toNat / 256)) = .mapped 0 0x8000 0xFF ∧
      (∀ a ∈ pointerAddrs (.izy 0xFF) nopRam, nopRam.untrapped a) ∧ nopRam.untrapped (resolve (.izy 0xFF) nopRam).1 ∧
      (∀ a ∈ pointerAddrs (.izx 0x10) s, s.untrapped a) ∧ s.untrapped (resolve (.izx 0x10) s).1 ∧
      (∀ a ∈ pointerAddrs (.abx 0x8000) s, s.untrapped a) ∧ s.untrapped (resolve (.abx 0x8000) s).1 ∧ ¬ s.untrapped 0x0012 ∧
      trapRam.cpuBus.trapAt 0x4017 = some (extTrap 0x4016 0x4017) ∧ trapRam.cpuBus.trapAt 0x4018 = none := by
  refine ⟨rfl, ?_, ?_, rfl, ?_, ?_, List.forall_mem_cons.mpr ⟨rfl, List.forall_mem_singleton.mpr rfl⟩, rfl,
    List.forall_mem_cons.mpr ⟨rfl, List.forall_mem_singleton.mpr rfl⟩, rfl, nofun, rfl, nofun, ?_, ?_⟩ <;> decide +kernel

/-- AccessResolution's clauses about components outside the block: a trap of each kind of `CpuBus`, a DMA trap at its
register and beside it, and a trapped, a mapped and an unmapped address of `PpuBus`. -/
theorem test_witness_external :
    let dma : Trap CpuCallback := { start := 0x4014, stop := 0x4017, context := 5, callback := .oamDma 0x4014 }
    let s := nopRam.withCpuBus ((ramBus.mapRegister (extTrap 0x5000 0x5000)).mapRegister dma)
    let t : Trap PpuCallback := { start := 0x1FFF, stop := 0x2000, context := 3, callback := .external }
    let u := s.withPpuBus (((AddressSpace.empty PpuCallback).map 0 65536 0x0000 0x1FFF 0xFF).mapRegister t)
    s.cpuBus.trapAt 0x5000 = some (extTrap 0x5000 0x5000) ∧ (extTrap 0x5000 0x5000).callback = .external ∧
      (extTrap 0x5000 0x5000).callback ≠ .ppuWindow ∧ s.cpuBus.trapAt 0x4014 = some dma ∧ dma.callback = .oamDma 0x4014 ∧
      s.cpuBus.trapAt 0x4017 = some dma ∧ (0x4017 : Addr) ≠ 0x4014 ∧ dma.callback ≠ .ppuWindow ∧
      u.ppuBus.trapAt 0x1FFF = some t ∧ u.ppuBus.trapAt 0x1FFE = none ∧ u.ppuBus.locate 0x1FFE = some (0, 0x1FFE) ∧
      u.ppuBus.trapAt 0x2001 = none ∧ u.ppuBus.locate 0x2001 = none := by decide +kernel

/-- StoresWriteOneByte, IncDecModifyMemory, ShiftsOfMemory, WritesAreVisible: a memory address, buffers in form, and an
address that shares its byte and one that does not. -/
theorem test_witness_memory :
    let mirror := nopRam.withCpuBus (ramBus.map 1 256 0x0000 0x01FF 0xFF)
    let s := mirror.withBufs (nopRam.bufs ++ [Buffer.zero 256])
    nopRam.isMemory (resolve (.abx 0xFFFF) nopRam).1 ∧ (∀ b ∈ nopRam.bufs, b.wf = true) ∧
      s.isMemory 0x0055 ∧ (∀ b ∈ s.bufs, b.wf = true) ∧ s.untrapped 0x0155 ∧ s.untrapped 0x0156 ∧
      s.cpuBus.locate 0x0155 = s.cpuBus.locate 0x0055 ∧ s.cpuBus.locate 0x0156 ≠ s.cpuBus.locate 0x0055 := by
  refine ⟨ram_isMemory _ _ _, nopRam_bufs, ⟨rfl, (1, 0x55), ?_, Buffer.zero 256, rfl, ?_⟩, ?_, rfl, rfl, ?_, ?_⟩ <;>
    decide +kernel

/-- WritesAreVisible across the AddressSpaces: page 0 of `CpuBus` and pages 0x20 and 0x21 of `PpuBus` show one buffer. -/
theorem test_witness_shared_memory :
    let cpu := (AddressSpace.empty CpuCallback).map 0 256 0x0000 0x00FF 0xFF
    let ppu := (AddressSpace.empty PpuCallback).map 0 256 0x2000 0x21FF 0xFF
    let s := { State.reset with cpuBus := cpu, ppuBus := ppu, bufs := [Buffer.zero 256] }
    s.isMemory 0x00FF ∧ (∀ c ∈ s.bufs, c.wf = true) ∧ s.untrapped 0x00FF ∧ s.ppuBus.trapAt 0x20FF = none ∧
      s.ppuBus.locate 0x20FF = some (0, 255) ∧ inStore s.bufs (0, 255) ∧ s.ppuBus.locate 0x20FF = s.cpuBus.locate 0x00FF ∧
      s.ppuBus.locate 0x21FF = s.ppuBus.locate 0x20FF ∧ s.ppuBus.locate 0x2100 ≠ s.cpuBus.locate 0x00FF ∧
      s.cpuBus.locate 0x00FE ≠ s.ppuBus.locate 0x20FF := by
  refine ⟨⟨rfl, (0, 255), ?_, Buffer.zero 256, rfl, ?_⟩, ?_, rfl, rfl, ?_, ⟨Buffer.zero 256, rfl, ?_⟩, ?_, ?_, ?_, ?_⟩ <;>
    decide +kernel

/-- JsrPushesTheReturnAddress, ReturnsPopTheirTarget, StackInstructions, StackRoundTrips, InterruptEntry: a stack, at both
ends of page 1; both values of `P.I`; the instructions answer next states. -/
theorem test_witness_stack :
    let s := ram { cpu0 with sp := 0x00, p := 0x20 } []
    s.hasStack ∧ (∀ b ∈ s.bufs, b.wf = true) ∧ s.untrapped (stackAddr s.cpu.sp) ∧ s.untrapped (stackAddr (s.cpu.sp - 1)) ∧
      s.isMemory (stackAddr s.cpu.sp) ∧ s.cpu.p &&& 0x30 = 0x20 ∧ s.untrapped 0xFFFE ∧ s.untrapped (0xFFFE + 1) ∧
      getFlag s.cpu.p .i = false ∧ getFlag nopRam.cpu.p .i = true ∧ (∃ t, exec (.jsr 0x9000) s = .next t) ∧
      (∃ t, exec .pha s = .next t) ∧ ∃ t, exec .php s = .next t := by
  refine ⟨ram_hasStack _ _, ?_, rfl, rfl, ram_isMemory _ _ _, ?_, rfl, rfl, ?_, ?_, ⟨_, rfl⟩, ⟨_, rfl⟩, ⟨_, rfl⟩⟩ <;>
    decide +kernel

/-- BranchesTestOneFlag: each condition both ways, the target on the page of the next instruction and on another. -/
theorem test_witness_branches :
    ∀ f ∈ [Flag.n, .v, .c, .z], getFlag 0xFF f = true ∧ getFlag 0x20 f = false := by decide +kernel

theorem test_witness_branch_pages :
    let target := fun (pc : Addr) (off : Byte) => BitVec.ofInt 16 (pc.toNat + off.toInt)
    hiByte (target 0x8002 0x7F) = hiByte 0x8002 ∧ hiByte (target 0x8002 0x80) ≠ hiByte 0x8002 ∧
      hiByte (target 0xFFF2 0x10) ≠ hiByte 0xFFF2 := by decide +kernel

/-- CopyOamCopiesAPage's clauses about a platform buffer: one of 256 bytes, a page elsewhere, a page that shows its byte 0
throughout; a place in another buffer. -/
theorem test_witness_copy_buffer :
    let bus := (AddressSpace.empty CpuCallback).map 0 256 0x0000 0x00FF 0x00
    let s := { State.reset with cpuBus := bus, bufs := [Buffer.zero 256, Buffer.zero 1] }
    s.bufs[0]? = some (Buffer.zero 256) ∧ 256 ≤ (Buffer.zero 256).len ∧ (∀ c ∈ s.bufs, c.wf = true) ∧
      (∀ i : Byte, s.untrapped (wordOf 0x00 i)) ∧
      (∀ j : Byte, j < 0xFF → s.cpuBus.locate (wordOf 0x01 0xFF) ≠ some (0, j.toNat)) ∧
      (0x00 : Byte) < 0x01 ∧ s.cpuBus.locate (wordOf 0x00 0x01) = some (0, (0x00 : Byte).toNat) ∧
      (((1, 0) : Loc).1 ≠ 0 ∨ 256 ≤ ((1, 0) : Loc).2) ∧ (((0, 256) : Loc).1 ≠ 0 ∨ 256 ≤ ((0, 256) : Loc).2) := by
  refine ⟨rfl, ?_, ?_, fun _ => rfl, ?_, ?_, ?_, ?_, ?_⟩ <;> decide +kernel

/-- CopyOamCopiesAPage, PpuWindow: an untrapped page, the DMA register, the last address of the window. -/
theorem test_witness_traps :
    (∀ i : Byte, trapRam.untrapped (wordOf 0x02 i)) ∧
      (∃ d, trapRam.cpuBus.trapAt 0x4014 = some d ∧ d.callback = .oamDma 0x4014) ∧
      (∃ d, trapRam.cpuBus.trapAt 0x201F = some d ∧ d.callback = .ppuWindow) := by
  refine ⟨?_, ⟨{ start := 0x4014, stop := 0x4014, context := 0, callback := .oamDma 0x4014 }, ?_, rfl⟩,
    ⟨{ start := 0x2000, stop := 0x201F, context := 0, callback := .ppuWindow }, ?_, rfl⟩⟩
  · intro i
    have h : ∀ n : Fin 256, trapRam.cpuBus.trapAt (wordOf 0x02 (BitVec.ofFin n)) = none := by decide +kernel
    exact h i.toFin
  · decide +kernel
  · decide +kernel

/-- MapTilesAndUnmapClears: the ends of a mapped range and the addresses beside it. -/
theorem test_witness_map :
    mapAllowed 2048 0x2000 0x37FF 0xFF = true ∧ rangeAligned 0x2000 0x37FF = true ∧ (0x2000 : Addr) ≤ 0x2000 ∧
      (0x37FF : Addr) ≤ 0x37FF ∧ ¬ ((0x2000 : Addr) ≤ 0x1FFF ∧ (0x1FFF : Addr) ≤ 0x37FF) ∧
      ¬ ((0x2000 : Addr) ≤ 0x3800 ∧ (0x3800 : Addr) ≤ 0x37FF) := by decide +kernel

/-- ConfigurationPreconditions: a pending `map` of an existing buffer and a pending `unmap`, refused and not refused. -/
theorem test_witness_configuration :
    let s := fun t : Transition => nopRam.withPlat { nopRam.plat with pending := [t] }
    (s (.map .cpu 0 0x0000 0xFFFF 0xFF)).bufs[0]? = some { len := 65536, cells := [(0x8000, 0xEA)] } ∧
      answersNext (step (s (.map .cpu 0 0x0000 0xFFFF 0xFF))) = true ∧
      answersNext (step (s (.map .ppu 0 0x0000 0xFFFE 0xFF))) = false ∧
      answersNext (step (s (.unmap .ppu 0x0000 0x00FF))) = true ∧
      answersNext (step (s (.unmap .cpu 0x0000 0x0100))) = false := by decide +kernel

/-- ConfigurationPreconditions' clauses about `mapRegister`: a free and a full trap table of each bus, ranges of one address
and reversed by one. -/
theorem test_witness_registration :
    let t := fun start stop : Addr => { start := start, stop := stop, context := 0, callback := .external : Trap PpuCallback }
    let ppu3 := (((AddressSpace.empty PpuCallback).mapRegister (t 1 1)).mapRegister (t 2 2)).mapRegister (t 3 3)
    let s := (trapRam.withPpuBus ppu3).withPlat { trapRam.plat with pending := [.mapPpuRegister 5 4 0] }
    let u := trapRam.withPlat { trapRam.plat with pending := [.mapCpuRegister 5 5 0 (.oamDma 5)] }
    s.plat.pending = .mapPpuRegister 5 4 0 :: [] ∧ u.plat.pending = .mapCpuRegister 5 5 0 (.oamDma 5) :: [] ∧
      s.ppuBus.traps.length < 4 ∧ 4 ≤ (ppu3.mapRegister (t 4 4)).traps.length ∧ u.cpuBus.traps.length < 4 ∧
      4 ≤ (u.cpuBus.mapRegister (extTrap 7 7)).traps.length ∧ (5 : Addr).toNat ≤ (5 : Addr).toNat ∧
      (4 : Addr).toNat < (5 : Addr).toNat := by
  refine ⟨rfl, rfl, ?_, ?_, ?_, ?_, ?_, ?_⟩ <;> decide

/-- TrapSlots: three slots filled and four; a free address at both ends of the new range and a taken one. -/
theorem test_witness_slots :
    let t := extTrap 0x2010 0x2020
    trapRam.cpuBus.traps.length < 4 ∧ 4 ≤ (trapRam.cpuBus.mapRegister t).traps.length ∧
      trapRam.cpuBus.trapAt 0x2020 = none ∧ t.start ≤ 0x2020 ∧ (0x2020 : Addr) ≤ t.stop ∧
      trapRam.cpuBus.trapAt 0x201F ≠ none := by decide +kernel

/-- ScrollAndAddressWrites, StatusAndOamData, DataRegister, PaletteAlias: both values of `w`; positions at the edges of the
ranges; palette and other addresses at their edge, alias addresses and others; no trap on `PpuBus`. -/
theorem test_witness_ppu_registers :
    let s := fun (m : Byte) (y d : Nat) => nopRam.withPpu { Ppu.powerOn with mask := m, scanline := y, dot := d, w := true }
    let hidden := fun (s : State) => (s.ppu.mask.getLsbD 3 || s.ppu.mask.getLsbD 4) = true ∧ s.ppu.scanline ≤ 239 ∧
      1 ≤ s.ppu.dot ∧ s.ppu.dot ≤ 64
    let dropped := fun (s : State) => (s.ppu.mask.getLsbD 3 || s.ppu.mask.getLsbD 4) = true ∧
      (s.ppu.scanline ≤ 239 ∨ s.ppu.scanline = 261)
    nopRam.ppu.w = false ∧ (s 0 0 0).ppu.w = true ∧ hidden (s 0x10 239 64) ∧ hidden (s 0x08 0 1) ∧ ¬ hidden (s 0x10 239 65) ∧
      ¬ hidden (s 0x10 240 1) ∧ dropped (s 0x08 261 5) ∧ ¬ dropped (s 0x18 240 5) ∧ ¬ dropped (s 0xE7 10 5) ∧
      0x3F00 ≤ (0x7F00 : Scroll).toNat % 0x4000 ∧ (0x3EFF : Scroll).toNat % 0x4000 < 0x3F00 ∧
      (0x7F1C : Addr).toNat % 0x4000 ∈ [0x3F10, 0x3F14, 0x3F18, 0x3F1C] ∧
      (0x3F30 : Addr).toNat % 0x4000 ∉ [0x3F10, 0x3F14, 0x3F18, 0x3F1C] ∧ nopRam.ppuBus.trapAt 0x3F00 = none := by
  decide +kernel

/-- SpriteEvaluationTakesTheFirstEight: dot 256 with a chosen entry. FetchAddresses: the first and the last line of an 8x16
sprite, and of an 8x8 one. -/
theorem test_witness_sprites :
    let p := { Ppu.powerOn with scanline := 15, dot := 256 }
    let q := fun (c : Byte) (y : Nat) => { Ppu.powerOn with ctrl := c, scanline := y }
    p.dot = 256 ∧ (p.oamByte 7 0).toNat ≤ p.scanline ∧ ({ p with scanline := 7 }.scanline) < (p.oamByte 7 0).toNat + 8 ∧
      ((q 0x20 0).secByte 0 0).toNat ≤ (q 0x20 0).scanline ∧ (q 0x20 15).scanline < ((q 0x20 15).secByte 0 0).toNat + 16 ∧
      (q 0x20 15).ctrl.getLsbD 5 = true ∧ (q 0x00 7).ctrl.getLsbD 5 = false ∧
      (q 0x00 7).scanline < ((q 0x00 7).secByte 0 0).toNat + 8 ∧ (q 0x20 15).scanline ≤ 239 := by decide +kernel

/-- CompositorTable's clauses about the two pixels: each layer shown from column 8 on by its bit alone and in column 7 with
its left-column bit; slots 0 to 2 not opaque (delay left, transparent pixel) and slot 3 opaque; no opaque slot at all. -/
theorem test_witness_pixels :
    let slot := fun lo x : Byte => { sprLo := lo, sprHi := 0, sprAttr := 0x23, sprX := x : SpriteSlot }
    let p : Ppu := { Ppu.powerOn with
      slots := ((Vector.replicate 8 (slot 0x80 0)).set 0 (slot 0x80 1)).set 1 (slot 0x7F 0) |>.set 2 (slot 0x00 0) }
    let pix := fun k : Fin 8 => 2 * (p.slots[k].sprHi.getLsbD 7).toNat + (p.slots[k].sprLo.getLsbD 7).toNat
    let shows := fun k : Fin 8 => p.slots[k].sprX = 0 ∧ pix k ≠ 0
    let background := fun (m : Byte) (px : Nat) => m.getLsbD 3 = true ∧ (8 ≤ px ∨ m.getLsbD 1 = true)
    let sprites := fun (m : Byte) (px : Nat) => m.getLsbD 4 = true ∧ (8 ≤ px ∨ m.getLsbD 2 = true)
    background 0x08 8 ∧ ¬ background 0x08 7 ∧ background 0x0A 7 ∧ sprites 0x10 8 ∧ ¬ sprites 0x10 7 ∧ sprites 0x14 0 ∧
      shows 3 ∧ (∀ j < 3, ¬ shows j) ∧
      ∀ k : Fin 8, ¬ (2 * (Ppu.powerOn.slots[k].sprHi.getLsbD 7).toNat + (Ppu.powerOn.slots[k].sprLo.getLsbD 7).toNat ≠ 0) := by
  decide +kernel

/-- CompositorTable: each row of the table; each way the second clause's premise holds. ScrollUpdates: each case. -/
theorem test_witness_compositor_scroll :
    (0 : BitVec 2) = 0 ∧ (3 : BitVec 2) ≠ 0 ∧ ({ Ppu.powerOn with mask := 0x10 } : Ppu).mask.getLsbD 3 = false ∧
      ({ Ppu.powerOn with mask := 0x08 } : Ppu).mask.getLsbD 4 = false ∧ (0x001F : Scroll).toNat % 32 = 31 ∧
      (0x6FFF : Scroll).toNat / 4096 < 7 ∧ (0x73BF : Scroll).toNat / 4096 = 7 ∧ (0x73BF : Scroll).toNat / 32 % 32 = 29 ∧
      (0x73FF : Scroll).toNat / 32 % 32 ≠ 29 := by decide +kernel

/-- EveryInstructionCompletes, EveryInstructionPaysItsCost: an instruction outside each exception, one that answers a next
state with traps but none of the DMA register and with it, and a step that no pending reset precedes. -/
theorem test_witness_whole_machine :
    (∀ op, Instr.inx ≠ .undefined op) ∧ Instr.inx ≠ .brk ∧ Instr.inx ∉ [Instr.sei, .cli, .plp, .rti] ∧
      (∃ t, exec (.sta (.abs 0x4014)) trapRam = .next t) ∧ (∃ t, exec .inx nopRam = .next t) ∧
      (let s := nopRam.withCpuBus (ramBus.mapRegister (extTrap 0x4016 0x4017))
       s.cpuBus.traps ≠ [] ∧ ∀ d ∈ s.cpuBus.traps, ∀ reg, d.callback ≠ .oamDma reg) ∧
      (∃ t, step nopRam = .next t) ∧ ∀ n r, nopRam.plat.pending ≠ .raiseReset n :: r := by
  refine ⟨by nofun, by nofun, by decide, ⟨_, rfl⟩, ⟨_, rfl⟩, ⟨by decide, ?_⟩,
    next_of_answersNext (by decide +kernel), by nofun⟩
  intro d hd reg
  have e : d = extTrap 0x4016 0x4017 := List.mem_singleton.mp hd
  rw [e]
  nofun

end Sys2Proof.Tests
end

/-! SUPPORT. The family spec/10_state.md: the state at power-on, the invariant along every transition, the error latch. -/

namespace Sys2Proof.Machine

/-! ### Power-on (R44, R471) -/

/-- An AddressSpace at construction has every page unmapped. -/
theorem atByte_empty_pages (κ : Type) (n : Byte) : atByte (AddressSpace.empty κ).pages n = .unmapped := by
  simp [atByte, AddressSpace.empty]

theorem AddressSpace.empty_valid (κ : Type) (bufs : List Buffer) : (AddressSpace.empty κ).Valid bufs where
  pages n := by rw [atByte_empty_pages]; trivial
  slots := Nat.zero_le 4
  ranges := by simp [AddressSpace.empty]

theorem Ppu.powerOn_valid : Ppu.powerOn.Valid where
  scanline := by decide
  dot := by decide
  status := rfl
  atLatch := rfl
  secCount := Nat.zero_le 8

/-- Settles O11, row by row of R44. -/
theorem powerOnState : Obligations.PowerOnState := by
  refine ⟨?cpu, fun n => ⟨atByte_empty_pages _ n, atByte_empty_pages _ n⟩, ⟨rfl, rfl⟩, ?registers, ?latches, fun k => ?slots⟩
  case cpu => exact ⟨rfl, rfl, rfl, rfl, rfl, rfl, rfl, rfl, rfl, rfl, rfl⟩
  case registers => exact ⟨rfl, rfl, rfl, rfl, rfl, rfl, rfl, rfl, rfl, rfl, rfl, rfl⟩
  case latches => exact ⟨rfl, rfl, rfl, rfl, rfl, rfl, rfl, rfl, rfl, rfl, rfl⟩
  case slots => exact Vector.getElem_replicate k.isLt

/-- Settles O12: no buffer, two empty AddressSpaces, `P` = 0x24, the PPU at its power-on values. -/
theorem powerOnMeetsTheInvariant : Obligations.PowerOnMeetsTheInvariant where
  bufs := by nofun
  cpuBus := AddressSpace.empty_valid _ _
  ppuBus := AddressSpace.empty_valid _ _
  breaks := rfl
  ppu := Ppu.powerOn_valid

/-! ### The computed statuses keep the break bits (R16) -/

theorem addStatus_breaks (a m p : Byte) (h : p &&& 0x30 = 0x20) : addStatus a m p &&& 0x30 = 0x20 := by
  rw [breaks_iff] at h ⊢
  simpa using h

theorem compareStatus_breaks (r m p : Byte) (h : p &&& 0x30 = 0x20) : compareStatus r m p &&& 0x30 = 0x20 := by
  rw [breaks_iff] at h ⊢
  simpa using h

theorem bitStatus_breaks (a m p : Byte) (h : p &&& 0x30 = 0x20) : bitStatus a m p &&& 0x30 = 0x20 := by
  rw [breaks_iff] at h ⊢
  simpa using h

theorem shiftStatus_breaks (r : Shifted) (p : Byte) (h : p &&& 0x30 = 0x20) : shiftStatus r p &&& 0x30 = 0x20 := by
  rw [breaks_iff] at h ⊢
  simpa using h

/-! ### What a host operation that is not refused does (R65, R68, R69, R446) -/

section
variable {s t : State}

/-- A guarded answer that is not the refusal: the guard held. -/
theorem next_of_guard {c : Prop} [Decidable c] {u : State} {r : Refusal}
    (e : (if c then .next u else .refused r : Result) = .next t) : c ∧ t = u := by
  split at e
  · cases e; exact ⟨‹c›, rfl⟩
  · cases e

theorem hostMap_next {bus : Bus} {buf : Nat} {start stop : Addr} {mask : Byte}
    (e : hostMap bus buf start stop mask s = .next t) :
    ∃ b, s.bufs[buf]? = some b ∧ mapAllowed b.len start stop mask = true ∧
      ((bus = .cpu ∧ t = s.withCpuBus (s.cpuBus.map buf b.len start stop mask)) ∨
        (bus = .ppu ∧ t = s.withPpuBus (s.ppuBus.map buf b.len start stop mask))) := by
  unfold hostMap at e
  split at e
  · cases e
  · rename_i b hb
    split at e
    · rename_i ha
      cases bus with
      | cpu => cases e; exact ⟨b, hb, ha, .inl ⟨rfl, rfl⟩⟩
      | ppu => cases e; exact ⟨b, hb, ha, .inr ⟨rfl, rfl⟩⟩
    · cases e

theorem hostUnmap_next {bus : Bus} {start stop : Addr} (e : hostUnmap bus start stop s = .next t) :
    rangeAligned start stop = true ∧
      ((bus = .cpu ∧ t = s.withCpuBus (s.cpuBus.unmap start stop)) ∨
        (bus = .ppu ∧ t = s.withPpuBus (s.ppuBus.unmap start stop))) := by
  unfold hostUnmap at e
  split at e
  · rename_i ha
    cases bus with
    | cpu => cases e; exact ⟨ha, .inl ⟨rfl, rfl⟩⟩
    | ppu => cases e; exact ⟨ha, .inr ⟨rfl, rfl⟩⟩
  · cases e

theorem hostMapCpuRegister_next {d : Trap CpuCallback} (e : hostMapCpuRegister d s = .next t) :
    s.cpuBus.fillsReversed d = false ∧ t = s.withCpuBus (s.cpuBus.mapRegister d) := by
  unfold hostMapCpuRegister at e
  split at e
  · cases e
  · cases e; exact ⟨Bool.eq_false_iff.mpr ‹_›, rfl⟩

theorem hostMapPpuRegister_next {d : Trap PpuCallback} (e : hostMapPpuRegister d s = .next t) :
    s.ppuBus.fillsReversed d = false ∧ t = s.withPpuBus (s.ppuBus.mapRegister d) := by
  unfold hostMapPpuRegister at e
  split at e
  · cases e
  · cases e; exact ⟨Bool.eq_false_iff.mpr ‹_›, rfl⟩

theorem hostWriteBuffer_next {buf off : Nat} {v : Byte} (e : hostWriteBuffer buf off v s = .next t) :
    (∃ b, s.bufs[buf]? = some b ∧ off < b.len) ∧ t = s.withBufs (storeWrite s.bufs (buf, off) v) := by
  unfold hostWriteBuffer at e
  split at e
  · rename_i b hb
    obtain ⟨ho, ht⟩ := next_of_guard e
    exact ⟨⟨b, hb, ho⟩, ht⟩
  · cases e

end

/-! ### Register updates and AddressSpaces under the invariant -/

section
variable {s t : State} (h : s.Inv)
include h

theorem State.Inv.setP {p : Byte} (hp : p &&& 0x30 = 0x20) : (s.setP p).Inv := h.withCpu _ hp

theorem State.Inv.setA (v : Byte) : (s.setA v).Inv := h.withCpu _ h.breaks

theorem State.Inv.setX (v : Byte) : (s.setX v).Inv := h.withCpu _ h.breaks

theorem State.Inv.setY (v : Byte) : (s.setY v).Inv := h.withCpu _ h.breaks

theorem State.Inv.setSP (v : Byte) : (s.setSP v).Inv := h.withCpu _ h.breaks

theorem State.Inv.setZN (v : Byte) : (s.setZN v).Inv := h.setP (setZN_breaks v _ h.breaks)

theorem State.Inv.logicToA (v : Byte) : (logicToA v s).Inv := (h.setA v).setZN v

theorem State.Inv.addToA (m : Byte) : (addToA m s).Inv := (h.setA _).setP (addStatus_breaks _ m _ h.breaks)

theorem State.Inv.withCpuBus {b : AddressSpace CpuCallback} (hb : b.Valid s.bufs) : (s.withCpuBus b).Inv :=
  { bufs := h.bufs, cpuBus := hb, ppuBus := h.ppuBus, breaks := h.breaks, ppu := h.ppu }

theorem State.Inv.withPpuBus {b : AddressSpace PpuCallback} (hb : b.Valid s.bufs) : (s.withPpuBus b).Inv :=
  { bufs := h.bufs, cpuBus := h.cpuBus, ppuBus := hb, breaks := h.breaks, ppu := h.ppu }

/-! ### The access classes keep the invariant -/

theorem State.Inv.readClass {src : Source} {act : Byte → State → State} (e : readClass src act s = .next t)
    (hact : ∀ b u, u.Inv → (act b u).Inv) : t.Inv := by
  rw [readClass_eq] at e
  cases e
  exact (hact _ _ (h.load src)).charge _

theorem State.Inv.writeClass {m : AddrMode} {value : State → Byte} (e : writeClass m value s = .next t) : t.Inv := by
  rw [writeClass_eq] at e
  cases e
  exact ((h.resolve m).cpuWrite _ _).charge _

theorem State.Inv.registerClass {act : State → State} (e : registerClass act s = .next t)
    (hact : ∀ u, u.Inv → (act u).Inv) : t.Inv := by
  cases e
  exact (hact s h).charge 2

theorem State.Inv.modifyMemory {m : AddrMode} {result status : Byte → Byte → Byte}
    (e : modifyMemory m result status s = .next t)
    (hstatus : ∀ b p, p &&& 0x30 = 0x20 → status b p &&& 0x30 = 0x20) : t.Inv := by
  rw [modifyMemory_eq] at e
  cases e
  have hread := (h.resolve m).cpuRead (Machine.resolve m s).1
  exact ((hread.setP (hstatus _ _ hread.breaks)).cpuWrite _ _).charge _

theorem State.Inv.shiftClass {g : Target} {shift : Byte → Bool → Shifted} (e : shiftClass g shift s = .next t) : t.Inv := by
  cases g <;> dsimp only [Machine.shiftClass] at e
  case acc => exact h.registerClass e fun u hu => (hu.setP (shiftStatus_breaks _ _ hu.breaks)).setA _
  case mem m => exact h.modifyMemory e fun b p hp => shiftStatus_breaks _ p hp

theorem State.Inv.branchClass {cond : Bool} {off : Byte} (e : branchClass cond off s = .next t) : t.Inv := by
  rw [branchClass_eq] at e
  split at e
  · cases e
    exact (h.setPC _).charge _
  · cases e
    exact h.charge 2

/-- The flag instructions write none of the break bits. -/
theorem State.Inv.flagClass {f : Flag} {on : Bool} (e : flagClass f on s = .next t) (hb : f ≠ .b) (hu : f ≠ .u) : t.Inv :=
  h.registerClass e fun u hi => hi.setP (setFlag_breaks f on u.cpu.p hb hu hi.breaks)

/-! ### Every instruction and every transition keeps the invariant -/

theorem State.Inv.exec {i : Instr} (e : exec i s = .next t) : t.Inv := by
  cases i <;> dsimp only [Machine.exec] at e
  case lda src => exact h.readClass e fun b _ hu => (hu.setA b).setZN b
  case ldx src => exact h.readClass e fun b _ hu => (hu.setX b).setZN b
  case ldy src => exact h.readClass e fun b _ hu => (hu.setY b).setZN b
  case lax m => exact h.readClass e fun b _ hu => ((hu.setA b).setX b).setZN b
  case sta m | stx m | sty m | sax m => exact h.writeClass e
  case tax | tsx | inx | dex => exact h.registerClass e fun _ hu => (hu.setX _).setZN _
  case tay | iny | dey => exact h.registerClass e fun _ hu => (hu.setY _).setZN _
  case txa | tya => exact h.registerClass e fun _ hu => (hu.setA _).setZN _
  case txs => exact h.registerClass e fun u hu => hu.setSP u.cpu.x
  case adc src => exact h.readClass e fun b _ hu => hu.addToA b
  case sbc src => exact h.readClass e fun b _ hu => hu.addToA (complement b)
  case and src | ora src | eor src => exact h.readClass e fun _ _ hu => hu.logicToA _
  case cmp src | cpx src | cpy src => exact h.readClass e fun b u hu => hu.setP (compareStatus_breaks _ b _ hu.breaks)
  case bit m => exact h.readClass e fun b u hu => hu.setP (bitStatus_breaks _ b _ hu.breaks)
  case inc m | dec m => exact h.modifyMemory e fun _ p hp => setZN_breaks _ p hp
  case asl g | lsr g | rol g | ror g => exact h.shiftClass e
  case jmp g =>
    cases g with
    | abs w => cases e; exact (h.setPC w).charge 3
    | ind w => cases e; exact ((h.readWord _ _).setPC _).charge 5
  case jsr w => cases e; exact ((h.pushWord _).setPC w).charge 6
  case rts => cases e; exact (h.popWord.setPC _).charge 6
  case rti =>
    cases e
    exact ((h.pop.setP (restoredStatus_breaks _)).popWord.setPC _).charge 6
  case bpl off | bmi off | bvc off | bvs off | bcc off | bcs off | bne off | beq off => exact h.branchClass e
  case brk | undefined op => cases e; exact h.withCpu _ h.breaks
  case pha | php => cases e; exact (h.push _).charge 3
  case pla => cases e; exact ((h.pop.setA _).setZN _).charge 4
  case plp => cases e; exact (h.pop.setP (restoredStatus_breaks _)).charge 4
  case clc | sec | cli | sei | clv | cld | sed => exact h.flagClass e (by decide) (by decide)
  case nop op src =>
    cases src <;> dsimp only [execNop] at e
    case none => exact h.registerClass e fun _ hu => hu
    case some src => exact h.readClass e fun _ _ hu => hu

theorem State.Inv.cpuStep (e : cpuStep s = .next t) : t.Inv := by
  by_cases he : s.cpu.errKind = .none
  · rw [cpuStep_eq s he] at e
    have hbegin : (beginStep s).Inv := h.withCpu _ h.breaks
    exact hbegin.fetchInstr.exec e
  · rw [cpuStep_halted s he] at e
    cases e; exact h

theorem State.Inv.raiseReset (n : Nat) : (raiseReset n s).Inv := by
  have hregs : (s.withCpu { s.cpu with sp := resetSP, cyc := n }).Inv := h.withCpu _ h.breaks
  exact (hregs.readWord vectorReset (vectorReset + 1)).setPC _

theorem State.Inv.raiseIRQ : (raiseIRQ s).Inv := by
  unfold Machine.raiseIRQ
  split
  · exact h
  · exact h.enterInterrupt vectorIRQ

/-- A new buffer is canonical, and every page entry still points into its buffer. -/
theorem State.Inv.createBuffer (n : Nat) : (s.withBufs (s.bufs ++ [Buffer.zero n])).Inv where
  bufs b hb := by
    rcases List.mem_append.mp hb with hb | hb
    · exact h.bufs b hb
    · rw [List.mem_singleton.mp hb]; exact Buffer.zero_wf n
  cpuBus := s.cpuBus.valid_append _ _ h.cpuBus
  ppuBus := s.ppuBus.valid_append _ _ h.ppuBus
  breaks := h.breaks
  ppu := h.ppu

theorem State.Inv.storeWrite (l : Loc) (v : Byte) : (s.withBufs (storeWrite s.bufs l v)).Inv :=
  h.frame (storeWrite_wf _ _ _ h.bufs) (storeWrite_lens _ _ _) rfl rfl h.breaks h.ppu

theorem State.Inv.issue {r : Transition} (e : issue r s = .next t) : t.Inv := by
  cases r <;> dsimp only [Machine.issue] at e
  case cpuStep => exact h.cpuStep e
  case ppuTick => cases e; exact h.countedTick
  case systemTick => cases e; exact h.systemTick
  case raiseIRQ => cases e; exact h.raiseIRQ
  case raiseNMI => cases e; exact h.enterInterrupt vectorNMI
  case raiseReset n => cases e; exact (h.raiseReset n).withPlat _
  case copyOAM hi dest => rw [(next_of_guard e).2]; exact h.copyOAM hi dest
  case map bus buf start stop mask =>
    obtain ⟨b, hb, ha, ⟨-, rfl⟩ | ⟨-, rfl⟩⟩ := hostMap_next e
    · exact h.withCpuBus (s.cpuBus.valid_map _ _ _ _ _ _ hb ha h.cpuBus)
    · exact h.withPpuBus (s.ppuBus.valid_map _ _ _ _ _ _ hb ha h.ppuBus)
  case unmap bus start stop =>
    obtain ⟨ha, ⟨-, rfl⟩ | ⟨-, rfl⟩⟩ := hostUnmap_next e
    · exact h.withCpuBus (s.cpuBus.valid_unmap _ _ _ ha h.cpuBus)
    · exact h.withPpuBus (s.ppuBus.valid_unmap _ _ _ ha h.ppuBus)
  case mapCpuRegister start stop context callback =>
    obtain ⟨hr, rfl⟩ := hostMapCpuRegister_next e
    exact h.withCpuBus (s.cpuBus.valid_mapRegister _ _ hr h.cpuBus)
  case mapPpuRegister start stop context =>
    obtain ⟨hr, rfl⟩ := hostMapPpuRegister_next e
    exact h.withPpuBus (s.ppuBus.valid_mapRegister _ _ hr h.ppuBus)
  case forcePC w => cases e; exact h.setPC w
  case createBuffer n => cases e; exact h.createBuffer n
  case writeBuffer buf off v => obtain ⟨-, rfl⟩ := hostWriteBuffer_next e; exact h.storeWrite _ v

theorem State.Inv.referenceTurn (e : referenceTurn s = .next t) : t.Inv := by
  unfold Machine.referenceTurn at e
  split at e
  · cases e; exact h
  · split at e
    · exact h.cpuStep e
    · cases e; exact h.systemTick

theorem State.Inv.step (e : step s = .next t) : t.Inv := by
  cases hp : s.plat.pending with
  | nil =>
    rw [step_idle s hp] at e
    exact h.referenceTurn e
  | cons r rest =>
    rw [step_pending s r rest hp] at e
    exact (h.withPlat _).issue e

end

/-- Settles O14: each shared operation keeps the invariant, so each instruction and each transition does. -/
theorem everyStepKeepsTheInvariant : Obligations.EveryStepKeepsTheInvariant := fun _ _ h e => h.step e

/-! ### The error latch (R22, R423) -/

theorem raiseReset_cpu (n : Nat) (s : State) :
    ∃ w, (raiseReset n s).cpu = { s.cpu with sp := resetSP, cyc := n, pc := w } := ⟨_, by simp [raiseReset]; rfl⟩

theorem systemTick_cpu (s : State) : (systemTick s).cpu = s.cpu := by
  obtain ⟨l, e⟩ := systemTick_frame s
  rw [e, withPlat_cpu, countedTick_cpu]

/-- `d` is the CPU `c` but for the registers a host operation can reach: `SP`, `P`, `PC` and `CYC`. -/
def Cpu.HostFrame (c d : Cpu) : Prop := ∃ sp p pc cyc, d = { c with sp := sp, p := p, pc := pc, cyc := cyc }

theorem Cpu.HostFrame.of_eq {c d : Cpu} (h : d = c) : c.HostFrame d := ⟨_, _, _, _, h⟩

theorem enterInterrupt_hostFrame (vec : Addr) (s : State) : s.cpu.HostFrame (enterInterrupt vec s).cpu := by
  obtain ⟨n, w, h⟩ := enterInterrupt_cpu vec s
  exact ⟨_, _, _, _, h⟩

/-- A transition other than a CPU step reaches those four registers of the CPU at most. -/
theorem issue_hostFrame {r : Transition} {s t : State} (hr : r ≠ .cpuStep) (e : issue r s = .next t) :
    s.cpu.HostFrame t.cpu := by
  cases r <;> dsimp only [issue] at e
  case cpuStep => exact absurd rfl hr
  case ppuTick => cases e; exact .of_eq (countedTick_cpu s)
  case systemTick => cases e; exact .of_eq (systemTick_cpu s)
  case raiseIRQ =>
    cases e
    unfold raiseIRQ
    split
    · exact .of_eq rfl
    · exact enterInterrupt_hostFrame vectorIRQ s
  case raiseNMI => cases e; exact enterInterrupt_hostFrame vectorNMI s
  case raiseReset n =>
    cases e
    obtain ⟨w, h⟩ := raiseReset_cpu n s
    exact ⟨_, _, _, _, h⟩
  case copyOAM hi dest => rw [(next_of_guard e).2]; exact ⟨_, _, _, _, copyOAM_cpu hi dest s⟩
  case map bus buf start stop mask => obtain ⟨b, -, -, ⟨-, rfl⟩ | ⟨-, rfl⟩⟩ := hostMap_next e <;> exact .of_eq rfl
  case unmap bus start stop => obtain ⟨-, ⟨-, rfl⟩ | ⟨-, rfl⟩⟩ := hostUnmap_next e <;> exact .of_eq rfl
  case mapCpuRegister start stop context callback => obtain ⟨-, rfl⟩ := hostMapCpuRegister_next e; exact .of_eq rfl
  case mapPpuRegister start stop context => obtain ⟨-, rfl⟩ := hostMapPpuRegister_next e; exact .of_eq rfl
  case forcePC w => cases e; exact ⟨_, _, _, _, setPC_cpu s w⟩
  case createBuffer n => cases e; exact .of_eq rfl
  case writeBuffer buf off v => obtain ⟨-, rfl⟩ := hostWriteBuffer_next e; exact .of_eq rfl

/-- On a halted CPU no transition, a CPU step included, reaches the error latch. -/
theorem issue_latch {r : Transition} {s t : State} (hs : s.cpu.errKind ≠ .none) (e : issue r s = .next t) :
    t.cpu.errKind = s.cpu.errKind ∧ t.cpu.errOpcode = s.cpu.errOpcode := by
  by_cases hr : r = .cpuStep
  · subst hr
    have hcpu : cpuStep s = .next t := e
    rw [cpuStep_halted s hs] at hcpu
    cases hcpu
    exact ⟨rfl, rfl⟩
  · obtain ⟨sp, p, pc, cyc, h⟩ := issue_hostFrame hr e
    rw [h]
    exact ⟨rfl, rfl⟩

theorem referenceTurn_halted (s : State) (hs : s.cpu.errKind ≠ .none) : referenceTurn s = .next s := by
  simp [referenceTurn, State.hasError, hs]

/-- Settles O8: with nothing pending a halted machine stays as it is, and no pending transition reaches the latch. -/
theorem latchedErrorIsSticky : Obligations.LatchedErrorIsSticky := by
  intro s t e hs
  cases hp : s.plat.pending with
  | nil =>
    rw [step_idle s hp, referenceTurn_halted s hs] at e
    cases e
    exact ⟨rfl, rfl⟩
  | cons r rest =>
    rw [step_pending s r rest hp] at e
    exact issue_latch (s := s.withPlat { s.plat with pending := rest }) hs e

end Sys2Proof.Machine

/-! SUPPORT. The family spec/20_memory.md: how an address resolves, writes seen through both AddressSpaces, the configuration
operations as transitions, the trap slots, and operands read from untrapped addresses. -/

namespace Sys2Proof.Machine

/-! ### Page number and offset of an address (R60) -/

theorem ofNat_page_eq_hiByte (a : Addr) : BitVec.ofNat 8 (a.toNat / 256) = hiByte a := by
  rw [← hiByte_toNat, BitVec.ofNat_toNat, BitVec.setWidth_eq]

theorem ofNat_toNat_eq_loByte (a : Addr) : BitVec.ofNat 8 a.toNat = loByte a := by
  apply BitVec.eq_of_toNat_eq
  rw [BitVec.toNat_ofNat, loByte_toNat]

/-! ### Resolution in one AddressSpace (R62, R71) -/

section
variable {κ : Type} (bus : AddressSpace κ) (a : Addr)

theorem AddressSpace.trapAt_eq_some_iff (t : Trap κ) :
    bus.trapAt a = some t ↔ ∃ i : Nat, bus.traps[i]? = some t ∧ t.start ≤ a ∧ a ≤ t.stop ∧
      ∀ j < i, ∀ u : Trap κ, bus.traps[j]? = some u → ¬ (u.start ≤ a ∧ a ≤ u.stop) := by
  simp only [trapAt, List.find?_eq_some_iff_getElem, Bool.and_eq_true, decide_eq_true_eq, Bool.not_eq_true',
    ← Bool.not_eq_true]
  constructor
  · rintro ⟨⟨hstart, hstop⟩, i, hi, rfl, hfirst⟩
    refine ⟨i, List.getElem?_eq_getElem hi, hstart, hstop, fun j hj u hu => ?_⟩
    obtain ⟨_, rfl⟩ := List.getElem?_eq_some_iff.mp hu
    exact hfirst j hj
  · rintro ⟨i, hget, hstart, hstop, hfirst⟩
    obtain ⟨hi, rfl⟩ := List.getElem?_eq_some_iff.mp hget
    exact ⟨⟨hstart, hstop⟩, i, hi, rfl, fun j hj => hfirst j hj _ (List.getElem?_eq_getElem (hj.trans hi))⟩

theorem AddressSpace.trapAt_eq_none_iff :
    bus.trapAt a = none ↔ ∀ t ∈ bus.traps, ¬ (t.start ≤ a ∧ a ≤ t.stop) := by
  simp only [trapAt, List.find?_eq_none, Bool.and_eq_true, decide_eq_true_eq]

variable {bus a}

theorem AddressSpace.locate_of_mapped {h base : Nat} {mask : Byte}
    (hp : atByte bus.pages (hiByte a) = .mapped h base mask) :
    bus.locate a = some (h, base + (loByte a &&& mask).toNat) := by
  simp only [locate, hp]

theorem AddressSpace.locate_of_unmapped (hp : atByte bus.pages (hiByte a) = .unmapped) : bus.locate a = none := by
  simp only [locate, hp]

/-- Where an address points depends on the entry of its page alone. -/
theorem AddressSpace.locate_congr {bus' : AddressSpace κ}
    (hp : atByte bus'.pages (hiByte a) = atByte bus.pages (hiByte a)) : bus'.locate a = bus.locate a := by
  simp only [locate, hp]

variable {bufs : List Buffer} {l : Loc}

theorem AddressSpace.peek_of_some (hl : bus.locate a = some l) : bus.peek bufs a = storeRead bufs l := by
  simp only [peek, hl]

theorem AddressSpace.peek_of_none (hl : bus.locate a = none) : bus.peek bufs a = 0x00 := by
  simp only [peek, hl]

theorem AddressSpace.poke_of_some (hl : bus.locate a = some l) (v : Byte) :
    bus.poke bufs a v = storeWrite bufs l v := by
  simp only [poke, hl]

theorem AddressSpace.poke_of_none (hl : bus.locate a = none) (v : Byte) : bus.poke bufs a v = bufs := by
  simp only [poke, hl]

end

/-! ### Accesses of both AddressSpaces, by who takes them (R62, R63, R72) -/

section
variable {a : Addr} {s : State}

theorem cpuRead_trapped {t : Trap CpuCallback} (ht : s.cpuBus.trapAt a = some t) : cpuRead a s = cpuTrapRead t a s := by
  simp only [cpuRead, ht]

theorem cpuWrite_trapped {t : Trap CpuCallback} (ht : s.cpuBus.trapAt a = some t) (v : Byte) :
    cpuWrite a v s = cpuTrapWrite t a v s := by
  simp only [cpuWrite, ht]

theorem ppuBusRead_trapped {t : Trap PpuCallback} (ht : s.ppuBus.trapAt a = some t) :
    ppuBusRead a s = externalRead t.context a s := by
  simp only [ppuBusRead, ht]

theorem ppuBusWrite_trapped {t : Trap PpuCallback} (ht : s.ppuBus.trapAt a = some t) (v : Byte) :
    ppuBusWrite a v s = externalWrite t.context a v s := by
  simp only [ppuBusWrite, ht]

theorem ppuBusRead_untrapped (hu : s.ppuBus.trapAt a = none) : ppuBusRead a s = (s.ppuBus.peek s.bufs a, s) := by
  simp only [ppuBusRead, hu]

theorem ppuBusWrite_untrapped (hu : s.ppuBus.trapAt a = none) (v : Byte) :
    ppuBusWrite a v s = s.withBufs (s.ppuBus.poke s.bufs a v) := by
  simp only [ppuBusWrite, hu]

end

section
variable {t : Trap CpuCallback} (a : Addr) (v : Byte) (s : State)

/-- Every trap of `CpuBus` but the PPU's window answers a read with an external input. -/
theorem cpuTrapRead_of_ne_window (hc : t.callback ≠ .ppuWindow) : cpuTrapRead t a s = externalRead t.context a s := by
  unfold cpuTrapRead
  split
  · exact absurd ‹_› hc
  · rfl
  · rfl

theorem cpuTrapWrite_external (hc : t.callback = .external) : cpuTrapWrite t a v s = externalWrite t.context a v s := by
  simp only [cpuTrapWrite, hc]

/-- The DMA trap: `copyOAM` at the DMA register, an output event elsewhere in its range (R460). -/
theorem cpuTrapWrite_oamDma {reg : Addr} (hc : t.callback = .oamDma reg) :
    cpuTrapWrite t a v s = if a = reg then copyOAM v .oam s else externalWrite t.context a v s := by
  simp only [cpuTrapWrite, hc]

end

/-- Settles O39: the trap search by position, the page entry by its cases, the callback by its kind. -/
theorem accessResolution : Obligations.AccessResolution := by
  refine ⟨fun κ bus a => ?resolution, fun a v s => ?access, fun a v s => ?callbacks⟩
  case resolution =>
    rw [ofNat_page_eq_hiByte, ofNat_toNat_eq_loByte]
    exact ⟨bus.trapAt_eq_some_iff a, bus.trapAt_eq_none_iff a, fun _ _ _ => AddressSpace.locate_of_mapped,
      AddressSpace.locate_of_unmapped⟩
  case access =>
    refine ⟨fun t ht => ⟨cpuRead_trapped ht, cpuWrite_trapped ht v⟩, fun hu l hl => ?_, fun hu hl => ?_,
      fun hu l hl => ?_, fun hu hl => ?_⟩
    · rw [cpuRead_untrapped a s hu, cpuWrite_untrapped a v s hu, State.byteAt, AddressSpace.peek_of_some hl,
        AddressSpace.poke_of_some hl]
      exact ⟨rfl, rfl⟩
    · rw [cpuRead_untrapped a s hu, cpuWrite_untrapped a v s hu, State.byteAt, AddressSpace.peek_of_none hl,
        AddressSpace.poke_of_none hl]
      exact ⟨rfl, rfl⟩
    · rw [ppuBusRead_untrapped hu, ppuBusWrite_untrapped hu, AddressSpace.peek_of_some hl, AddressSpace.poke_of_some hl]
      exact ⟨rfl, rfl⟩
    · rw [ppuBusRead_untrapped hu, ppuBusWrite_untrapped hu, AddressSpace.peek_of_none hl, AddressSpace.poke_of_none hl]
      exact ⟨rfl, rfl⟩
  case callbacks =>
    refine ⟨fun t ht => ?cpuBus, fun t ht => ?ppuBus⟩
    case cpuBus =>
      rw [cpuRead_trapped ht, cpuWrite_trapped ht]
      refine ⟨fun hc => ?_, fun hc => ?_, fun hc => ?_, fun reg hc hne => ?_⟩
      · rw [cpuTrapRead_of_ne_window a s hc, externalRead_eq]
      · rw [cpuTrapWrite_external a v s hc]
        rfl
      · rw [cpuTrapWrite_oamDma a v s hc, if_pos rfl]
      · rw [cpuTrapWrite_oamDma a v s hc, if_neg hne]
        rfl
    case ppuBus =>
      rw [ppuBusRead_trapped ht, ppuBusWrite_trapped ht, externalRead_eq]
      exact ⟨rfl, rfl⟩

/-! ### A write seen through any page table (R74, R84, R26) -/

section
variable {κ κ' : Type} {bus : AddressSpace κ} {bus' : AddressSpace κ'} {bufs : List Buffer} {a b : Addr}

/-- After a write inside the store, any page table shows the value at every address of the same byte. -/
theorem peek_poke_same (v : Byte) (hw : ∀ c ∈ bufs, c.wf = true) (hm : ∃ l, bus.locate a = some l ∧ inStore bufs l)
    (he : bus'.locate b = bus.locate a) : bus'.peek (bus.poke bufs a v) b = v := by
  obtain ⟨l, hl, hin⟩ := hm
  rw [AddressSpace.poke_of_some hl, AddressSpace.peek_of_some (he.trans hl), storeRead_write_same bufs l v hw hin]

/-- A write leaves what any page table shows at an address of another byte, or of an unmapped page. -/
theorem peek_poke_ne (v : Byte) (hne : bus'.locate b ≠ bus.locate a) :
    bus'.peek (bus.poke bufs a v) b = bus'.peek bufs b := by
  cases hb : bus'.locate b with
  | none => rw [AddressSpace.peek_of_none hb, AddressSpace.peek_of_none hb]
  | some k =>
    rw [AddressSpace.peek_of_some hb, AddressSpace.peek_of_some hb]
    exact (poke_kept bus bufs a v).1 k (hb ▸ hne)

end

/-- Both halves of visibility for one pair of AddressSpaces: the write went to the store through `bus`, the reads go through
`bus'`. -/
theorem read_after_poke {κ κ' : Type} {bus : AddressSpace κ} {bus' : AddressSpace κ'} {bufs : List Buffer} {a b : Addr}
    {v after before : Byte} (hw : ∀ c ∈ bufs, c.wf = true) (hm : ∃ l, bus.locate a = some l ∧ inStore bufs l)
    (hafter : after = bus'.peek (bus.poke bufs a v) b) (hbefore : before = bus'.peek bufs b) :
    (bus'.locate b = bus.locate a → after = v) ∧ (bus'.locate b ≠ bus.locate a → after = before) := by
  subst hafter hbefore
  exact ⟨peek_poke_same v hw hm, peek_poke_ne v⟩

theorem cpuRead_fst_untrapped {b : Addr} {s : State} (hu : s.untrapped b) :
    (cpuRead b s).1 = s.cpuBus.peek s.bufs b := by
  rw [cpuRead_untrapped b s hu]
  rfl

theorem ppuBusRead_fst_untrapped {b : Addr} {s : State} (hu : s.ppuBus.trapAt b = none) :
    (ppuBusRead b s).1 = s.ppuBus.peek s.bufs b := by
  rw [ppuBusRead_untrapped hu]

/-- Settles O40: an untrapped write of either AddressSpace is one write of the store, which any page table then shows. -/
theorem writesAreVisible : Obligations.WritesAreVisible := by
  intro a b v s hw
  refine ⟨fun ⟨hu, hm⟩ hb => ?_, fun ⟨hu, hm⟩ hb => ?_, fun ⟨hu, hm⟩ hb => ?_, fun ⟨hu, hm⟩ hb => ?_⟩
  · rw [cpuWrite_untrapped a v s hu]
    exact read_after_poke hw hm (cpuRead_fst_untrapped hb) (cpuRead_fst_untrapped hb)
  · rw [cpuWrite_untrapped a v s hu]
    exact read_after_poke hw hm (ppuBusRead_fst_untrapped hb) (ppuBusRead_fst_untrapped hb)
  · rw [ppuBusWrite_untrapped hu]
    exact read_after_poke hw hm (cpuRead_fst_untrapped hb) (cpuRead_fst_untrapped hb)
  · rw [ppuBusWrite_untrapped hu]
    exact read_after_poke hw hm (ppuBusRead_fst_untrapped hb) (ppuBusRead_fst_untrapped hb)

/-! ### `map` and `unmap` address by address (R64 to R66, R68) -/

theorem rangeAligned_of_mapAllowed {len : Nat} {start stop : Addr} {mask : Byte}
    (h : mapAllowed len start stop mask = true) : rangeAligned start stop = true := by
  simp only [mapAllowed, Bool.and_eq_true] at h
  exact h.1.1

section
variable {κ : Type} (bus : AddressSpace κ) {start stop a : Addr} (hr : rangeAligned start stop = true)
include hr

theorem AddressSpace.locate_map_inside (h len : Nat) (mask : Byte) (ha : start ≤ a ∧ a ≤ stop) :
    (bus.map h len start stop mask).locate a =
      some (h, (a.toNat - start.toNat) / 256 % srcPages len * 256 + (loByte a &&& mask).toNat) :=
  locate_of_mapped ((map_page bus h len start stop a mask hr).trans (if_pos ha))

theorem AddressSpace.locate_map_outside (h len : Nat) (mask : Byte) (ha : ¬ (start ≤ a ∧ a ≤ stop)) :
    (bus.map h len start stop mask).locate a = bus.locate a :=
  locate_congr ((map_page bus h len start stop a mask hr).trans (if_neg ha))

theorem AddressSpace.locate_unmap_inside (ha : start ≤ a ∧ a ≤ stop) : (bus.unmap start stop).locate a = none :=
  locate_of_unmapped ((unmap_page bus start stop a hr).trans (if_pos ha))

theorem AddressSpace.locate_unmap_outside (ha : ¬ (start ≤ a ∧ a ≤ stop)) :
    (bus.unmap start stop).locate a = bus.locate a :=
  locate_congr ((unmap_page bus start stop a hr).trans (if_neg ha))

end

/-- Settles O41: the page entries that `map` and `unmap` leave, read through `locate`. -/
theorem mapTilesAndUnmapClears : Obligations.MapTilesAndUnmapClears := by
  intro κ bus h len start stop mask a
  rw [ofNat_toNat_eq_loByte]
  refine ⟨fun ha => ?_, fun hr => ?_⟩
  · have hr := rangeAligned_of_mapAllowed ha
    exact ⟨rfl,
      fun h1 h2 => ⟨bus.locate_map_inside hr h len mask ⟨h1, h2⟩, mapAllowed_inside len _ start stop mask _ ha⟩,
      bus.locate_map_outside hr h len mask⟩
  · exact ⟨rfl, fun h1 h2 => bus.locate_unmap_inside hr ⟨h1, h2⟩, bus.locate_unmap_outside hr⟩

/-! ### The preconditions as arithmetic (R65, R68, R25) -/

theorem rangeAligned_iff (start stop : Addr) : rangeAligned start stop = true ↔
    start.toNat % 256 = 0 ∧ stop.toNat % 256 = 255 ∧ start.toNat ≤ stop.toNat := by
  simp only [rangeAligned, Bool.and_eq_true, decide_eq_true_eq, and_assoc]

theorem mapAllowed_iff (len : Nat) (start stop : Addr) (mask : Byte) : mapAllowed len start stop mask = true ↔
    (start.toNat % 256 = 0 ∧ stop.toNat % 256 = 255 ∧ start.toNat ≤ stop.toNat) ∧
      dstPages start stop % srcPages len = 0 ∧ ((0 < len ∧ len % 256 = 0) ∨ (len < 256 ∧ mask.toNat < len)) := by
  simp only [mapAllowed, Bool.and_eq_true, Bool.or_eq_true, decide_eq_true_eq, rangeAligned_iff, and_assoc]

/-- A call fills a slot with a reversed range when a slot is free and `end < start`. -/
theorem AddressSpace.fillsReversed_iff {κ : Type} (bus : AddressSpace κ) (t : Trap κ) :
    bus.fillsReversed t = true ↔ bus.traps.length < 4 ∧ t.stop.toNat < t.start.toNat := by
  rw [fillsReversed, Bool.and_eq_true, decide_eq_true_iff, decide_eq_true_iff, BitVec.lt_def, Config.trapSlots]

theorem AddressSpace.fillsReversed_of_ordered {κ : Type} (bus : AddressSpace κ) {t : Trap κ}
    (h : t.start.toNat ≤ t.stop.toNat) : bus.fillsReversed t = false := by
  rw [Bool.eq_false_iff, Ne, fillsReversed_iff]
  omega

/-! ### What each host operation answers, its precondition met or not -/

section
variable {s : State} {bus : Bus} {h : Nat} {b : Buffer} {start stop : Addr} {mask : Byte}

theorem hostMap_cpu (hb : s.bufs[h]? = some b) (ha : mapAllowed b.len start stop mask = true) :
    hostMap .cpu h start stop mask s = .next (s.withCpuBus (s.cpuBus.map h b.len start stop mask)) := by
  simp only [hostMap, hb, ha, if_true]

theorem hostMap_ppu (hb : s.bufs[h]? = some b) (ha : mapAllowed b.len start stop mask = true) :
    hostMap .ppu h start stop mask s = .next (s.withPpuBus (s.ppuBus.map h b.len start stop mask)) := by
  simp only [hostMap, hb, ha, if_true]

theorem hostMap_refused (hb : s.bufs[h]? = some b) (ha : ¬ mapAllowed b.len start stop mask = true) :
    hostMap bus h start stop mask s = .refused .mapPrecondition := by
  simp only [hostMap, hb, if_neg ha]

theorem hostUnmap_cpu (hr : rangeAligned start stop = true) :
    hostUnmap .cpu start stop s = .next (s.withCpuBus (s.cpuBus.unmap start stop)) := if_pos hr

theorem hostUnmap_ppu (hr : rangeAligned start stop = true) :
    hostUnmap .ppu start stop s = .next (s.withPpuBus (s.ppuBus.unmap start stop)) := if_pos hr

theorem hostUnmap_refused (hr : ¬ rangeAligned start stop = true) :
    hostUnmap bus start stop s = .refused .unmapPrecondition := if_neg hr

theorem hostMapCpuRegister_eq_next {d : Trap CpuCallback} (hd : s.cpuBus.fillsReversed d = false) :
    hostMapCpuRegister d s = .next (s.withCpuBus (s.cpuBus.mapRegister d)) := if_neg (Bool.eq_false_iff.mp hd)

theorem hostMapPpuRegister_eq_next {d : Trap PpuCallback} (hd : s.ppuBus.fillsReversed d = false) :
    hostMapPpuRegister d s = .next (s.withPpuBus (s.ppuBus.mapRegister d)) := if_neg (Bool.eq_false_iff.mp hd)

theorem hostMapCpuRegister_full {d : Trap CpuCallback} (hf : 4 ≤ s.cpuBus.traps.length) :
    hostMapCpuRegister d s = .next s := by
  obtain ⟨hsame, hnot⟩ := s.cpuBus.mapRegister_full d hf
  rw [hostMapCpuRegister_eq_next hnot, hsame, withCpuBus_self]

theorem hostMapPpuRegister_full {d : Trap PpuCallback} (hf : 4 ≤ s.ppuBus.traps.length) :
    hostMapPpuRegister d s = .next s := by
  obtain ⟨hsame, hnot⟩ := s.ppuBus.mapRegister_full d hf
  rw [hostMapPpuRegister_eq_next hnot, hsame, withPpuBus_self]

theorem hostMapCpuRegister_refused {d : Trap CpuCallback} (hf : s.cpuBus.traps.length < 4)
    (hd : d.stop.toNat < d.start.toNat) : hostMapCpuRegister d s = .refused .trapRange :=
  if_pos ((s.cpuBus.fillsReversed_iff d).mpr ⟨hf, hd⟩)

theorem hostMapPpuRegister_refused {d : Trap PpuCallback} (hf : s.ppuBus.traps.length < 4)
    (hd : d.stop.toNat < d.start.toNat) : hostMapPpuRegister d s = .refused .trapRange :=
  if_pos ((s.ppuBus.fillsReversed_iff d).mpr ⟨hf, hd⟩)

end

/-- Settles O42: the step issues the pending operation, which answers by its precondition. -/
theorem configurationPreconditions : Obligations.ConfigurationPreconditions := by
  intro s r bus h start stop mask
  refine ⟨fun b hp hb => ?map, fun hp => ?unmap, fun context callback hp => ?cpuRegister, fun context hp => ?ppuRegister⟩
  all_goals
    rw [step_pending s _ r hp]
    dsimp only [issue]
  case map =>
    refine ⟨fun hok => ?_, fun hok => hostMap_refused hb fun ha => hok ((mapAllowed_iff ..).mp ha)⟩
    have ha : mapAllowed b.len start stop mask = true := (mapAllowed_iff ..).mpr hok
    refine ⟨ha, ?_, ?_⟩
    · rintro rfl; exact hostMap_cpu hb ha
    · rintro rfl; exact hostMap_ppu hb ha
  case unmap =>
    refine ⟨fun hok => ?_, fun hok => hostUnmap_refused fun hr => hok ((rangeAligned_iff ..).mp hr)⟩
    have hr : rangeAligned start stop = true := (rangeAligned_iff ..).mpr hok
    refine ⟨hr, ?_, ?_⟩
    · rintro rfl; exact hostUnmap_cpu hr
    · rintro rfl; exact hostUnmap_ppu hr
  case cpuRegister =>
    exact ⟨fun hfull => hostMapCpuRegister_full hfull,
      fun _ ho => hostMapCpuRegister_eq_next (AddressSpace.fillsReversed_of_ordered _ ho),
      fun hf hd => hostMapCpuRegister_refused hf hd⟩
  case ppuRegister =>
    exact ⟨fun hfull => hostMapPpuRegister_full hfull,
      fun _ ho => hostMapPpuRegister_eq_next (AddressSpace.fillsReversed_of_ordered _ ho),
      fun hf hd => hostMapPpuRegister_refused hf hd⟩

/-! ### An operand on untrapped addresses (R62, R79, R150) -/

theorem load_mem (m : AddrMode) (s : State) : load (.mem m) s = cpuRead (resolve m s).1 (resolve m s).2 := rfl

/-- With its pointer and its effective address untrapped an operand is the mapped byte; only `pageCrossed` changes. -/
theorem load_mem_untrapped (m : AddrMode) (s : State) (hp : ∀ a ∈ pointerAddrs m s, s.untrapped a)
    (hea : s.untrapped (resolve m s).1) :
    load (.mem m) s = (s.byteAt (resolve m s).1, s.setCrossed (resolve m s).2.cpu.pageCrossed) := by
  calc load (.mem m) s
      = ((resolve m s).2.byteAt (resolve m s).1, (resolve m s).2) :=
        cpuRead_untrapped _ _ ((untrapped_resolve m s _).mpr hea)
    _ = (s.byteAt (resolve m s).1, s.setCrossed (resolve m s).2.cpu.pageCrossed) := by
        rw [byteAt_resolve, ← resolve_untrapped m s hp]

/-- Settles O16: an untrapped read is the page table's answer, and an operand is its byte or one read. -/
theorem untrappedReadsHaveNoSideEffect : Obligations.UntrappedReadsHaveNoSideEffect := by
  refine ⟨fun a s hu => ?_, fun _ _ => rfl, load_mem, load_mem_untrapped⟩
  rw [cpuRead_untrapped a s hu]
  exact ⟨rfl, AddressSpace.peek_of_none, fun _ => AddressSpace.peek_of_some⟩

/-! ### The trap slots (R69 to R71) -/

section
variable {κ : Type} {bus : AddressSpace κ} (t : Trap κ) (hf : bus.traps.length < 4)
include hf

theorem AddressSpace.mapRegister_free : bus.mapRegister t = { bus with traps := bus.traps ++ [t] } := if_pos hf

/-- With a slot free the new trap is asked last. -/
theorem AddressSpace.trapAt_mapRegister_free (a : Addr) : (bus.mapRegister t).trapAt a =
    (bus.trapAt a).or (if t.start ≤ a ∧ a ≤ t.stop then some t else none) := by
  simp only [mapRegister_free t hf, trapAt, List.find?_append, List.find?_singleton, Bool.and_eq_true, decide_eq_true_eq]

end

/-- Settles O43: the new trap stands after the filled slots, so it takes only what they leave. -/
theorem trapSlots : Obligations.TrapSlots := by
  refine fun κ bus t => ⟨fun hf => ?_, fun hfull => (bus.mapRegister_full t hfull).1⟩
  refine ⟨?_, ?_, fun a => ⟨fun u hu => ?_, fun hn hstart hstop => ?_⟩⟩
  · rw [AddressSpace.mapRegister_free t hf]
  · rw [AddressSpace.mapRegister_free t hf]
  · rw [AddressSpace.trapAt_mapRegister_free t hf, hu, Option.some_or]
  · rw [AddressSpace.trapAt_mapRegister_free t hf, hn, Option.none_or, if_pos ⟨hstart, hstop⟩]

end Sys2Proof.Machine

/-! SUPPORT. The family spec/30_encoding.md: the decoder against the encoder, the opcode classes, the fetch of an instruction
by a step, effective addresses, and the stack accesses as arithmetic. -/

namespace Sys2Proof

open Machine

/-! ### What a form reads (R110, R111) -/

/-- A form builds an instruction from exactly these operand bytes. -/
inductive Form.Reads : Form → List Byte → Instr → Prop
  | f1 (i : Instr) : Reads (.f1 i) [] i
  | f2 (f : Byte → Instr) (b : Byte) : Reads (.f2 f) [b] (f b)
  | f3 (f : Addr → Instr) (lo hi : Byte) : Reads (.f3 f) [lo, hi] (f (wordOf hi lo))

/-- The decoder reads an instruction by the form of its opcode byte and leaves the bytes after its operand. -/
theorem decode_cons_eq_ok_iff (op : Byte) (tail : List Byte) (i : Instr) (rest : List Byte) :
    decode (op :: tail) = .ok (i, rest) ↔ ∃ bs, (opcodeForm op).Reads bs i ∧ tail = bs ++ rest := by
  constructor
  · intro h
    cases hf : opcodeForm op <;> simp only [decode, hf] at h
    case f1 j => cases h; exact ⟨[], .f1 i, rfl⟩
    case f2 f =>
      match tail, h with
      | [], h => cases h
      | b :: _, h => cases h; exact ⟨[b], .f2 f b, rfl⟩
    case f3 f =>
      match tail, h with
      | [], h => cases h
      | [_], h => cases h
      | lo :: hi :: _, h => cases h; exact ⟨[lo, hi], .f3 f lo hi, rfl⟩
  · rintro ⟨bs, hr, rfl⟩
    cases hf : opcodeForm op <;> rw [hf] at hr <;> cases hr
    case f1 => exact decode_f1 op rest i hf
    case f2 f b => exact decode_f2 op b rest f hf
    case f3 f lo hi => exact decode_f3 op lo hi rest f hf

/-- What is read at an opcode byte is a row of the table with that opcode byte and the bytes read as its operand. -/
theorem Form.Reads.agrees {op : Byte} {bs : List Byte} {i : Instr} (h : (opcodeForm op).Reads bs i) :
    i.opcode = op ∧ i.operandBytes = bs ∧ i.wellFormed = true := by
  have ha := opcodeForm_agrees op
  generalize opcodeForm op = form at h ha
  cases h with
  | f1 => exact ha
  | f2 f b => exact ha b
  | f3 f lo hi => simpa using ha (wordOf hi lo)

/-- The operand bytes an instruction was read from are as many as its opcode byte asks for. -/
theorem Form.Reads.length_eq {op : Byte} {bs : List Byte} {i : Instr} (h : (opcodeForm op).Reads bs i) :
    opcodeLength op = bs.length + 1 := by
  unfold opcodeLength
  generalize opcodeForm op = form at h
  cases h <;> rfl

/-- As many bytes as the opcode byte asks for are read. -/
theorem exists_reads (op : Byte) (bs : List Byte) (h : opcodeLength op = bs.length + 1) :
    ∃ i, (opcodeForm op).Reads bs i := by
  unfold opcodeLength at h
  cases hf : opcodeForm op <;> simp only [hf] at h
  case f1 i =>
    obtain rfl := List.length_eq_zero_iff.mp (by omega : bs.length = 0)
    exact ⟨i, .f1 i⟩
  case f2 f =>
    obtain ⟨b, rfl⟩ := List.length_eq_one_iff.mp (by omega : bs.length = 1)
    exact ⟨f b, .f2 f b⟩
  case f3 f =>
    obtain ⟨lo, hi, rfl⟩ := List.length_eq_two.mp (by omega : bs.length = 2)
    exact ⟨f (wordOf hi lo), .f3 f lo hi⟩

/-! ### Decoding an encoded instruction (R128, R131, R132) -/

open Laws in
/-- Every row of the table is built by the form at its opcode byte. -/
theorem opcodeForm_builds : ∀ i : Instr, OpcodeForm.Statement i
  | .lda s => OpcodeForm.lda s | .ldx s => OpcodeForm.ldx s | .ldy s => OpcodeForm.ldy s | .lax m => OpcodeForm.lax m
  | .sta m => OpcodeForm.sta m | .stx m => OpcodeForm.stx m | .sty m => OpcodeForm.sty m | .sax m => OpcodeForm.sax m
  | .tax => OpcodeForm.tax | .tay => OpcodeForm.tay | .txa => OpcodeForm.txa
  | .tya => OpcodeForm.tya | .tsx => OpcodeForm.tsx | .txs => OpcodeForm.txs
  | .adc s => OpcodeForm.adc s | .sbc s => OpcodeForm.sbc s | .and s => OpcodeForm.and s
  | .ora s => OpcodeForm.ora s | .eor s => OpcodeForm.eor s
  | .cmp s => OpcodeForm.cmp s | .cpx s => OpcodeForm.cpx s | .cpy s => OpcodeForm.cpy s | .bit m => OpcodeForm.bit m
  | .inc m => OpcodeForm.inc m | .dec m => OpcodeForm.dec m
  | .inx => OpcodeForm.inx | .iny => OpcodeForm.iny | .dex => OpcodeForm.dex | .dey => OpcodeForm.dey
  | .asl t => OpcodeForm.asl t | .lsr t => OpcodeForm.lsr t | .rol t => OpcodeForm.rol t | .ror t => OpcodeForm.ror t
  | .jmp t => OpcodeForm.jmp t | .jsr w => OpcodeForm.jsr w | .rts => OpcodeForm.rts | .rti => OpcodeForm.rti
  | .bpl o => OpcodeForm.bpl o | .bmi o => OpcodeForm.bmi o | .bvc o => OpcodeForm.bvc o | .bvs o => OpcodeForm.bvs o
  | .bcc o => OpcodeForm.bcc o | .bcs o => OpcodeForm.bcs o | .bne o => OpcodeForm.bne o | .beq o => OpcodeForm.beq o
  | .brk => OpcodeForm.brk
  | .pha => OpcodeForm.pha | .pla => OpcodeForm.pla | .php => OpcodeForm.php | .plp => OpcodeForm.plp
  | .clc => OpcodeForm.clc | .sec => OpcodeForm.sec | .cli => OpcodeForm.cli | .sei => OpcodeForm.sei
  | .clv => OpcodeForm.clv | .cld => OpcodeForm.cld | .sed => OpcodeForm.sed
  | .nop op s => OpcodeForm.nop op s
  | .undefined op => OpcodeForm.undefined op

/-- The form at the opcode byte of a row of the table reads that row from its operand bytes. -/
theorem reads_operandBytes {i : Instr} (hw : i.wellFormed = true) :
    (opcodeForm i.opcode).Reads i.operandBytes i := by
  have hb := opcodeForm_builds i hw
  generalize opcodeForm i.opcode = form at hb
  cases form with
  | f1 j => obtain ⟨rfl, he⟩ := hb; rw [he]; exact .f1 j
  | f2 f => obtain ⟨b, rfl, he⟩ := hb; rw [he]; exact .f2 f b
  | f3 f =>
    obtain ⟨w, rfl, he⟩ := hb
    rw [he]
    simpa using Form.Reads.f3 f (loByte w) (hiByte w)

/-- Settles O2: the form at the encoder's opcode byte reads the instruction from its operand bytes. -/
theorem decodeOfEncode : Obligations.DecodeOfEncode := fun i rest hw =>
  (decode_cons_eq_ok_iff i.opcode (i.operandBytes ++ rest) i rest).mpr ⟨i.operandBytes, reads_operandBytes hw, rfl⟩

theorem decode_encode {i : Instr} (hw : i.wellFormed = true) : decode (encode i) = .ok (i, []) := by
  simpa using decodeOfEncode i [] hw

/-- Settles O3: what a form reads agrees with the encoder's lists. -/
theorem encodeOfDecode : Obligations.EncodeOfDecode := by
  intro bytes i rest h
  match bytes, h with
  | [], h => cases h
  | op :: tail, h =>
    obtain ⟨bs, hr, rfl⟩ := (decode_cons_eq_ok_iff op tail i rest).mp h
    obtain ⟨hop, hbs, hw⟩ := hr.agrees
    exact ⟨hw, by rw [encode, hop, hbs]; rfl⟩

/-! ### Lengths (R110, R130) -/

theorem AddrMode.bytes_length (m : AddrMode) : m.bytes.length + 1 = modeLength m := by cases m <;> rfl

theorem Source.bytes_length (src : Source) : src.bytes.length + 1 = sourceLength src := by
  cases src with
  | imm b => rfl
  | mem m => exact m.bytes_length

theorem Target.bytes_length (t : Target) : t.bytes.length + 1 = targetLength t := by
  cases t with
  | acc => rfl
  | mem m => exact m.bytes_length

/-- The length R130 gives the mode counts the opcode byte and the operand bytes. -/
theorem length_eq_lengthByMode (i : Instr) : i.length = lengthByMode i := by
  cases i
  case lda s | ldx s | ldy s | adc s | sbc s | and s | ora s | eor s | cmp s | cpx s | cpy s => exact s.bytes_length
  case lax m | sta m | stx m | sty m | sax m | bit m | inc m | dec m => exact m.bytes_length
  case asl t | lsr t | rol t | ror t => exact t.bytes_length
  case jmp t => cases t <;> rfl
  case nop op src =>
    cases src with
    | none => rfl
    | some s => exact s.bytes_length
  all_goals rfl

theorem opcodeLength_opcode {i : Instr} (hw : i.wellFormed = true) : opcodeLength i.opcode = i.length :=
  (reads_operandBytes hw).length_eq

theorem opcodeLength_pos (op : Byte) : 0 < opcodeLength op := by unfold opcodeLength; split <;> decide

theorem opcodeLength_le (op : Byte) : opcodeLength op ≤ 3 := by unfold opcodeLength; split <;> decide

/-- With the bytes its opcode byte asks for an instruction decodes and consumes exactly those. -/
theorem exists_decode (op : Byte) (tail : List Byte) (h : opcodeLength op ≤ tail.length + 1) :
    ∃ i rest, decode (op :: tail) = .ok (i, rest) ∧ i.opcode = op ∧
      tail.length + 1 = opcodeLength op + rest.length := by
  have hpos := opcodeLength_pos op
  have hlen : (tail.take (opcodeLength op - 1)).length = opcodeLength op - 1 := List.length_take_of_le (by omega)
  obtain ⟨i, hr⟩ := exists_reads op (tail.take (opcodeLength op - 1)) (by omega)
  obtain ⟨hop, -, -⟩ := hr.agrees
  refine ⟨i, tail.drop (opcodeLength op - 1), (decode_cons_eq_ok_iff ..).mpr ⟨_, hr, (List.take_append_drop ..).symm⟩,
    hop, ?_⟩
  rw [List.length_drop]
  omega

/-- With fewer bytes decoding is refused. -/
theorem decode_missingOperand (op : Byte) (tail : List Byte) (h : tail.length + 1 < opcodeLength op) :
    decode (op :: tail) = .error (.missingOperand op) := by
  unfold opcodeLength at h
  cases hf : opcodeForm op <;> simp only [hf] at h
  case f1 => omega
  case f2 =>
    obtain rfl := List.length_eq_zero_iff.mp (by omega : tail.length = 0)
    simp only [decode, hf]
  case f3 =>
    match tail, h with
    | [], _ => simp only [decode, hf]
    | [_], _ => simp only [decode, hf]

/-- Settles O4: each form reads as many bytes as its length says, and the length is the encoder's. -/
theorem decoderTotalWithLengthByMode : Obligations.DecoderTotalWithLengthByMode := by
  refine ⟨fun op tail => ⟨exists_decode op tail, decode_missingOperand op tail⟩, fun i hw => ?_⟩
  rw [opcodeLength_opcode hw]
  exact ⟨length_eq_lengthByMode i, length_eq_lengthByMode i⟩

/-! ### The classes of opcode bytes (R131, R132, R134) -/

theorem not_mem_unofficialOpcodes {op : Byte} (h : op ∈ undefinedOpcodes) : op ∉ unofficialOpcodes := by
  have hdisjoint : ∀ x ∈ undefinedOpcodes, x ∉ unofficialOpcodes := by decide +kernel
  exact hdisjoint op h

/-- The opcode bytes of NOP in each of its modes are unofficial, all but 0xEA (R128, R131). -/
theorem nopOpcodes_unofficial (src : Option Source) :
    ∀ op ∈ nopOpcodes src, unofficialOpcodes.contains op = (op != 0xEA) := by
  rcases src with _ | (b | m)
  · decide
  · dsimp only [nopOpcodes]; decide
  · cases m <;> (dsimp only [nopOpcodes]; decide)

/-- A row of the table is of an unofficial kind exactly if R131 lists its opcode byte. -/
theorem contains_opcode_eq_isUnofficial {i : Instr} (hw : i.wellFormed = true) :
    unofficialOpcodes.contains i.opcode = isUnofficial i := by
  cases i
  case lda s | ldx s | ldy s | adc s | sbc s | and s | ora s | eor s | cmp s | cpx s | cpy s =>
    cases s with
    | imm b => rfl
    | mem m => cases m <;> rfl
  case lax m =>
    cases m with
    | zpx b | abx w => cases hw
    | _ => rfl
  case sax m =>
    cases m with
    | zpx b | abx w | aby w | izy b => cases hw
    | _ => rfl
  case sta m | stx m | sty m | bit m | inc m | dec m => cases m <;> rfl
  case asl t | lsr t | rol t | ror t =>
    cases t with
    | acc => rfl
    | mem m => cases m <;> rfl
  case jmp t => cases t <;> rfl
  case nop op src => exact nopOpcodes_unofficial src op (List.contains_iff_mem.mp hw)
  case undefined op =>
    exact Bool.eq_false_iff.mpr fun h =>
      not_mem_unofficialOpcodes (List.contains_iff_mem.mp hw) (List.contains_iff_mem.mp h)
  all_goals rfl

/-- A byte of R132 stands for UNDEFINED, and no other byte does. -/
theorem mem_undefinedOpcodes_iff {op : Byte} {bs : List Byte} {i : Instr} (h : (opcodeForm op).Reads bs i) :
    op ∈ undefinedOpcodes ↔ i = .undefined op := by
  constructor
  · intro hop
    have hf : opcodeForm op = .f1 (.undefined op) := by rw [opcodeForm, undefined_cell op hop]; rfl
    rw [hf] at h
    cases h
    rfl
  · rintro rfl
    obtain ⟨-, -, hw⟩ := h.agrees
    exact List.contains_iff_mem.mp hw

theorem mem_unofficialOpcodes_iff {op : Byte} {bs : List Byte} {i : Instr} (h : (opcodeForm op).Reads bs i) :
    op ∈ unofficialOpcodes ↔ isUnofficial i = true := by
  obtain ⟨rfl, -, hw⟩ := h.agrees
  rw [← contains_opcode_eq_isUnofficial hw, List.contains_iff_mem]

/-- Settles O5: two bytes after it are enough for every opcode byte, and the two lists are compared as lists. -/
theorem opcodeClasses : Obligations.OpcodeClasses := by
  have hundefined : undefinedOpcodes.Nodup := by decide +kernel
  have hunofficial : unofficialOpcodes.Nodup := by decide +kernel
  refine ⟨fun op x y => ?_, fun op h => not_mem_unofficialOpcodes h.1 h.2, rfl, hundefined, rfl, hunofficial, ?_⟩
  · obtain ⟨i, rest, hd, -⟩ := exists_decode op [x, y] (opcodeLength_le op)
    obtain ⟨bs, hr, -⟩ := (decode_cons_eq_ok_iff ..).mp hd
    exact ⟨i, rest, hd, mem_undefinedOpcodes_iff hr, mem_unofficialOpcodes_iff hr⟩
  · decide +kernel

/-- Settles O1: each word is looked up in the map. -/
theorem exampleWordsDecode : Obligations.ExampleWordsDecode :=
  ⟨rfl, rfl, rfl, rfl, rfl, rfl, rfl, rfl, rfl, rfl, rfl, rfl, rfl, rfl, rfl, rfl, rfl, rfl, rfl⟩

/-! ### Sums of bytes and words as numbers (R8) -/

theorem zext16_eq_ofNat (b : Byte) : zext16 b = BitVec.ofNat 16 b.toNat := by
  apply BitVec.eq_of_toNat_eq
  have := b.isLt
  rw [zext16_toNat, BitVec.toNat_ofNat]
  omega

theorem zext16_add (b c : Byte) : zext16 (b + c) = BitVec.ofNat 16 ((b.toNat + c.toNat) % 256) := by
  rw [zext16_eq_ofNat, BitVec.toNat_add]

theorem zext16_succ (b : Byte) : zext16 (b + 1) = BitVec.ofNat 16 ((b.toNat + 1) % 256) := zext16_add b 1

theorem add_zext16 (w : Addr) (b : Byte) : w + zext16 b = BitVec.ofNat 16 ((w.toNat + b.toNat) % 65536) := by
  apply BitVec.eq_of_toNat_eq
  rw [BitVec.toNat_add, zext16_toNat, BitVec.toNat_ofNat, Nat.mod_mod]

end Sys2Proof

namespace Sys2Proof.Machine

/-! ### Effective addresses (R116 to R123, R127) -/

theorem crosses_eq_decide (a b : Addr) : crosses a b = decide (hiByte a ≠ hiByte b) := by
  rw [crosses, Bool.eq_iff_iff, bne_iff_ne, decide_eq_true_iff]

theorem indexed_eq (base : Addr) (index : Byte) (s : State) :
    let ea := BitVec.ofNat 16 ((base.toNat + index.toNat) % 65536)
    indexed base index s = (ea, s.setCrossed (decide (hiByte ea ≠ hiByte base))) := by
  rw [indexed, add_zext16, crosses_eq_decide]

/-- The pointer at page-0 offset `z`, its second byte read after the first and from within page 0. -/
theorem zeroPageWord_eq (z : Byte) (s : State) :
    let lo := cpuRead (BitVec.ofNat 16 z.toNat) s
    let hi := cpuRead (BitVec.ofNat 16 ((z.toNat + 1) % 256)) lo.2
    zeroPageWord z s = (wordOf hi.1 lo.1, hi.2) := by
  rw [zeroPageWord, zext16_succ, zext16_eq_ofNat]
  rfl

/-- Settles O15: each mode is an offset into page 0, a word, or one of these with an index. -/
theorem effectiveAddresses : Obligations.EffectiveAddresses := by
  refine fun b w s => ⟨?zp, ?zpx, ?zpy, rfl, indexed_eq w s.cpu.x s, indexed_eq w s.cpu.y s, ?izx, ?izy⟩
  case zp => rw [resolve, zext16_eq_ofNat]
  case zpx => rw [resolve, zext16_add]
  case zpy => rw [resolve, zext16_add]
  case izx => rw [resolve, zeroPageWord_eq, BitVec.toNat_add]
  case izy =>
    rw [resolve, zeroPageWord_eq]
    dsimp only
    rw [cpuRead_cpu, cpuRead_cpu, indexed_eq]

/-! ### `fetch`, `push` and `pop` (R112, R18, R19) -/

theorem stackAddr_eq_ofNat (sp : Byte) : stackAddr sp = BitVec.ofNat 16 (0x0100 + sp.toNat) := by
  apply BitVec.eq_of_toNat_eq
  have := sp.isLt
  rw [stackAddr, wordOf_toNat, BitVec.toNat_ofNat, Nat.mod_eq_of_lt (by omega)]
  rfl

theorem stackAddr_succ (sp : Byte) : stackAddr (sp + 1) = BitVec.ofNat 16 (0x0100 + (sp.toNat + 1) % 256) := by
  rw [stackAddr_eq_ofNat, BitVec.toNat_add]
  rfl

/-- Settles O32: a write keeps `SP` and a read keeps the CPU, so each update counts from the state before the access. -/
theorem fetchPushAndPop : Obligations.FetchPushAndPop := by
  refine fun v s => ⟨?fetch, ?push, ?pop⟩
  case fetch =>
    rw [fetch]
    dsimp only
    rw [State.setPC, cpuRead_cpu]
  case push =>
    have hdec : s.cpu.sp - 1 = BitVec.ofNat 8 (s.cpu.sp.toNat + 255) := by bv_omega
    rw [push, cpuWrite_sp, hdec, stackAddr_eq_ofNat]
  case pop =>
    have hinc : s.cpu.sp + 1 = BitVec.ofNat 8 (s.cpu.sp.toNat + 1) := by bv_omega
    rw [pop]
    dsimp only
    rw [cpuRead_cpu, stackAddr_succ, hinc]

/-! ### The instruction a step fetches and runs (R80, R111, R112) -/

/-- The instruction fetch is as many single fetches as the opcode byte asks for, and what they read decodes to it. -/
theorem fetchInstr_eq_fetches (s : State) :
    let f := fetches (opcodeLength (fetch s).1) s
    decode f.1 = .ok ((fetchInstr s).1, []) ∧ f.2 = (fetchInstr s).2 := by
  cases hf : opcodeForm (fetch s).1 <;>
    simp only [opcodeLength, hf, fetches, fetchInstr, decode, and_self]

/-- Fetches from untrapped addresses read the bytes there and move `PC` past them. -/
theorem fetches_untrapped (n : Nat) (s : State) (h : ∀ k < n, s.untrapped (s.cpu.pc + BitVec.ofNat 16 k)) :
    fetches n s = ((List.range n).map fun k => s.byteAt (s.cpu.pc + BitVec.ofNat 16 k),
      s.setPC (s.cpu.pc + BitVec.ofNat 16 n)) := by
  induction n generalizing s with
  | zero => rw [fetches, BitVec.add_zero]; rfl
  | succ n ih =>
    have hnext (k : Nat) : s.cpu.pc + 1 + BitVec.ofNat 16 k = s.cpu.pc + BitVec.ofNat 16 (k + 1) := by
      rw [BitVec.add_assoc, BitVec.add_comm 1, BitVec.ofNat_add]; rfl
    have hpc : s.untrapped s.cpu.pc := by simpa using h 0 n.succ_pos
    have htail := ih (s.setPC (s.cpu.pc + 1)) fun k hk => by
      rw [setPC_cpu, hnext]
      exact h (k + 1) (by omega)
    simp only [setPC_cpu, hnext, byteAt_setPC] at htail
    rw [fetches, fetch_untrapped s hpc]
    dsimp only
    rw [htail, List.range_succ_eq_map, List.map_cons, List.map_map, BitVec.add_zero]
    rfl

/-- From untrapped addresses the instruction fetched is the one that the bytes there decode to. -/
theorem fetchInstr_untrapped {s : State} {i : Instr} {rest : List Byte}
    (hu : ∀ k < i.length, s.untrapped (s.cpu.pc + BitVec.ofNat 16 k))
    (hd : decode [s.byteAt s.cpu.pc, s.byteAt (s.cpu.pc + 1), s.byteAt (s.cpu.pc + 2)] = .ok (i, rest)) :
    fetchInstr s = (i, s.setPC (s.cpu.pc + BitVec.ofNat 16 i.length)) := by
  obtain ⟨hw, henc⟩ := encodeOfDecode _ i rest hd
  have hop : (fetch s).1 = i.opcode := by
    rw [fetch_untrapped s (by simpa using hu 0 (Nat.succ_pos _))]
    exact (List.cons.inj henc).1.symm
  have hle : i.length ≤ 3 := opcodeLength_opcode hw ▸ opcodeLength_le _
  have hbytes : (List.range i.length).map (fun k => s.byteAt (s.cpu.pc + BitVec.ofNat 16 k)) = encode i := by
    calc (List.range i.length).map (fun k => s.byteAt (s.cpu.pc + BitVec.ofNat 16 k))
        = ((List.range 3).map fun k => s.byteAt (s.cpu.pc + BitVec.ofNat 16 k)).take i.length := by
          rw [← List.map_take, List.take_range, Nat.min_eq_left hle]
      _ = (encode i ++ rest).take i.length := by rw [henc]; simp [List.range_succ]
      _ = encode i := List.take_left
  obtain ⟨hdec, hstate⟩ := fetchInstr_eq_fetches s
  rw [hop, opcodeLength_opcode hw, fetches_untrapped _ _ hu] at hdec hstate
  dsimp only at hdec hstate
  rw [hbytes, decode_encode hw] at hdec
  cases hdec
  rw [hstate]

/-- `CPU.step` without an error latched is `exec` of the one instruction that its fetches decode to. -/
theorem cpuStep_runs (s : State) (he : s.cpu.errKind = .none) :
    (∃ i, let f := fetches (opcodeLength (fetch (beginStep s)).1) (beginStep s)
      decode f.1 = .ok (i, []) ∧ cpuStep s = exec i f.2) ∧
    ∀ (i : Instr) (rest : List Byte),
      (∀ k < i.length, s.untrapped (s.cpu.pc + BitVec.ofNat 16 k)) →
      decode [s.byteAt s.cpu.pc, s.byteAt (s.cpu.pc + 1), s.byteAt (s.cpu.pc + 2)] = .ok (i, rest) →
      cpuStep s = exec i ((beginStep s).setPC (s.cpu.pc + BitVec.ofNat 16 i.length)) := by
  rw [cpuStep_eq s he]
  refine ⟨⟨(fetchInstr (beginStep s)).1, ?_⟩, fun i rest hu hd => ?_⟩
  · obtain ⟨hdec, hstate⟩ := fetchInstr_eq_fetches (beginStep s)
    exact ⟨hdec, by rw [hstate]⟩
  · have hfetch : fetchInstr (beginStep s) = (i, (beginStep s).setPC (s.cpu.pc + BitVec.ofNat 16 i.length)) :=
      fetchInstr_untrapped hu hd
    rw [hfetch]

/-- The reference schedule issues the CPU step when the PPU has caught up (R458). -/
theorem referenceTurn_cpuStep (s : State) (he : s.cpu.errKind = .none) (hc : 3 * s.cpu.cyc ≤ s.plat.ppuDots) :
    referenceTurn s = cpuStep s := by
  simp [referenceTurn, State.hasError, he, hc]

/-- Settles O6: either way the step is a `CPU.step`, which runs what it fetched. -/
theorem stepRunsDecodedInstruction : Obligations.StepRunsDecodedInstruction := by
  intro s he
  dsimp only
  refine ⟨fun hp hc => ?_, fun r hp => ?_⟩
  · rw [step_idle s hp, referenceTurn_cpuStep s he hc]
    exact cpuStep_runs s he
  · rw [step_pending s _ r hp]
    exact cpuStep_runs (s.withPlat { s.plat with pending := r }) he

end Sys2Proof.Machine

/-! SUPPORT. The family spec/40_load_store_transfer.md, with INX, INY, DEX and DEY of spec/41_arithmetic_logic.md:
loads, stores and the instructions on one register. -/

namespace Sys2Proof.Machine

/-! ### The opcode bytes of a mnemonic (R128, R131) -/

/-- The byte the opcode table has for an instruction; none where the mnemonic lacks the mode. -/
def tableOpcode (i : Instr) : Option Byte := if i.wellFormed then some i.opcode else none

theorem hasOpcode_iff (i : Instr) (op : Option Byte) : HasOpcode i op ↔ tableOpcode i = op := by
  unfold HasOpcode tableOpcode
  cases op <;> simp

/-- The opcode bytes of a mnemonic by memory mode, as one list in the order of `AddrMode`. -/
theorem memOpcodes_of_map {f : AddrMode → Instr} {zp zpx zpy abs abx aby izx izy : Option Byte}
    (h : ∀ (b : Byte) (w : Addr),
      [.zp b, .zpx b, .zpy b, .abs w, .abx w, .aby w, .izx b, .izy b].map (fun m => tableOpcode (f m)) =
        [zp, zpx, zpy, abs, abx, aby, izx, izy]) :
    MemOpcodes f zp zpx zpy abs abx aby izx izy := by
  intro b w
  simpa [hasOpcode_iff] using h b w

/-- The opcode bytes of a read-class mnemonic: the immediate form, then the memory modes. -/
theorem readOpcodes_of_map {f : Source → Instr} {imm : Byte} {zp zpx zpy abs abx aby izx izy : Option Byte}
    (himm : ∀ b, tableOpcode (f (.imm b)) = some imm)
    (h : ∀ (b : Byte) (w : Addr),
      [.zp b, .zpx b, .zpy b, .abs w, .abx w, .aby w, .izx b, .izy b].map (fun m => tableOpcode (f (.mem m))) =
        [zp, zpx, zpy, abs, abx, aby, izx, izy]) :
    ReadOpcodes f imm zp zpx zpy abs abx aby izx izy :=
  ⟨fun b => (hasOpcode_iff _ _).mpr (himm b), memOpcodes_of_map h⟩

/-! ### A byte written to a register, Z and N set from it (R180) -/

theorem zNFrom_setZN (v p : Byte) : ZNFrom v p (setZN v p) := by
  refine ⟨?z, ?n, fun f hf => ?others⟩
  case z => rw [getFlag_setZN, beq_eq_decide]
  case n => rw [getFlag_setZN]
  case others => cases f <;> simp_all

/-- `write` puts a byte into registers and touches none of `P`, `CYC` and `pageCrossed`. -/
structure WritesData (write : Cpu → Byte → Cpu) : Prop where
  p : ∀ c v, (write c v).p = c.p
  cyc : ∀ c v, (write c v).cyc = c.cyc
  pageCrossed : ∀ c v x, write { c with pageCrossed := x } v = { write c v with pageCrossed := x }

theorem writesData_a : WritesData fun c v => { c with a := v } := ⟨fun _ _ => rfl, fun _ _ => rfl, fun _ _ _ => rfl⟩
theorem writesData_x : WritesData fun c v => { c with x := v } := ⟨fun _ _ => rfl, fun _ _ => rfl, fun _ _ _ => rfl⟩
theorem writesData_y : WritesData fun c v => { c with y := v } := ⟨fun _ _ => rfl, fun _ _ => rfl, fun _ _ _ => rfl⟩
theorem writesData_ax : WritesData fun c v => { c with a := v, x := v } :=
  ⟨fun _ _ => rfl, fun _ _ => rfl, fun _ _ _ => rfl⟩

/-- The action that loads, transfers, increments and decrements share. -/
def State.writeZN (s : State) (write : Cpu → Byte → Cpu) (v : Byte) : State := (s.withCpu (write s.cpu v)).setZN v

/-- A read-class instruction that writes a byte `v` computed from the operand and the registers, and sets Z and N from
it. -/
theorem readClass_writeZN {write : Cpu → Byte → Cpu} (hw : WritesData write) (src : Source)
    (value : Byte → Cpu → Byte) (s : State) (v : Byte)
    (hv : ∀ x, value (load src s).1 { s.cpu with pageCrossed := x } = v) :
    ∃ t, readClass src (fun b u => u.writeZN write (value b u.cpu)) s = .next t ∧
      AfterRead src s t { write s.cpu v with p := t.cpu.p } ∧ ZNFrom v s.cpu.p t.cpu.p := by
  obtain ⟨t, ht, hp, hafter⟩ := readClass_after src (fun b u => u.writeZN write (value b u.cpu)) s
    { write s.cpu v with p := setZN v s.cpu.p } fun u hu => by
      rw [State.writeZN, hu, hv, hw.pageCrossed, State.setZN, State.setP, withCpu_cpu, withCpu_withCpu, hw.p]
  refine ⟨t, ht, ?after, ?flags⟩
  case after => rwa [hp]
  case flags =>
    rw [hp]
    exact zNFrom_setZN v s.cpu.p

/-- A register-class instruction that writes the byte `value` and sets Z and N from it. -/
theorem registerRule_of_writeZN {i : Instr} {op : Byte} {value : Cpu → Byte} {write : Cpu → Byte → Cpu}
    (hw : WritesData write) (hop : HasOpcode i (some op))
    (hexec : ∀ s, exec i s = .next ((s.writeZN write (value s.cpu)).charge 2)) : RegisterRule i op value write := by
  intro s
  refine ⟨hop, _, hexec s, ?state, ?flags⟩
  case state => simp [State.writeZN, State.charge, State.setZN, State.setP, hw.cyc]
  case flags => simpa [State.writeZN, hw.p] using zNFrom_setZN (value s.cpu) s.cpu.p

/-! ### Loads (R151 to R153, R170) -/

/-- Settles O18: each load is one read whose byte goes to its registers, Z and N. -/
theorem loadsWriteTheirRegister : Obligations.LoadsWriteTheirRegister := by
  refine ⟨fun src s => ⟨?lda, ?ldx, ?ldy⟩, fun m s => ?lax, ?ldaOpcodes, ?ldxOpcodes, ?ldyOpcodes, ?laxOpcodes⟩
  case lda => exact readClass_writeZN writesData_a src (fun b _ => b) s _ fun _ => rfl
  case ldx => exact readClass_writeZN writesData_x src (fun b _ => b) s _ fun _ => rfl
  case ldy => exact readClass_writeZN writesData_y src (fun b _ => b) s _ fun _ => rfl
  case lax => exact readClass_writeZN writesData_ax (.mem m) (fun b _ => b) s _ fun _ => rfl
  case laxOpcodes => exact memOpcodes_of_map fun _ _ => rfl
  all_goals exact readOpcodes_of_map (fun _ => rfl) fun _ _ => rfl

/-! ### Stores (R154 to R156, R171) -/

/-- Settles O19: each store is one write of registers that the address computation keeps. -/
theorem storesWriteOneByte : Obligations.StoresWriteOneByte := by
  refine ⟨fun m s => ⟨?sta, ?stx, ?sty, ?sax⟩, ?_, ?_, ?_, ?_⟩
  case sta => exact writeClass_after m (fun u => u.cpu.a) s _ (resolve_a m s)
  case stx => exact writeClass_after m (fun u => u.cpu.x) s _ (resolve_x m s)
  case sty => exact writeClass_after m (fun u => u.cpu.y) s _ (resolve_y m s)
  case sax => exact writeClass_after m (fun u => u.cpu.a &&& u.cpu.x) s _ (by rw [resolve_a, resolve_x])
  all_goals exact memOpcodes_of_map fun _ _ => rfl

/-! ### Transfers, increments and decrements of registers (R157 to R163, R195 to R198) -/

theorem ofNat_toNat_succ (x : Byte) : BitVec.ofNat 8 (x.toNat + 1) = x + 1 := rfl

theorem ofNat_toNat_pred (x : Byte) : BitVec.ofNat 8 (x.toNat + 255) = x - 1 := by
  rw [Nat.add_comm]
  rfl

/-- Settles O20: each instruction is one register write in two cycles. -/
theorem registerInstructions : Obligations.RegisterInstructions := by
  refine ⟨?tax, ?tay, ?txa, ?tya, ?tsx, ?inx, ?iny, ?dex, ?dey, ⟨rfl, rfl⟩, fun s => rfl⟩
  case tax => exact registerRule_of_writeZN writesData_x ⟨rfl, rfl⟩ fun _ => rfl
  case tay => exact registerRule_of_writeZN writesData_y ⟨rfl, rfl⟩ fun _ => rfl
  case txa => exact registerRule_of_writeZN writesData_a ⟨rfl, rfl⟩ fun _ => rfl
  case tya => exact registerRule_of_writeZN writesData_a ⟨rfl, rfl⟩ fun _ => rfl
  case tsx => exact registerRule_of_writeZN writesData_x ⟨rfl, rfl⟩ fun _ => rfl
  case inx => exact registerRule_of_writeZN writesData_x ⟨rfl, rfl⟩ fun s => by rw [ofNat_toNat_succ]; rfl
  case iny => exact registerRule_of_writeZN writesData_y ⟨rfl, rfl⟩ fun s => by rw [ofNat_toNat_succ]; rfl
  case dex => exact registerRule_of_writeZN writesData_x ⟨rfl, rfl⟩ fun s => by rw [ofNat_toNat_pred]; rfl
  case dey => exact registerRule_of_writeZN writesData_y ⟨rfl, rfl⟩ fun s => by rw [ofNat_toNat_pred]; rfl

end Sys2Proof.Machine

/-! SUPPORT. The family spec/41_arithmetic_logic.md: addition and subtraction, logic, compares, the bit test, INC and
DEC. -/

namespace Sys2Proof.Machine

/-! ### Read-class instructions that write CPU registers (R182) -/

/-- A read-class instruction whose action computes the CPU registers from the byte read and the registers, and has no part
in `pageCrossed`. -/
theorem readClass_withCpu (src : Source) (write : Byte → Cpu → Cpu) (s : State)
    (hw : ∀ b c x, write b { c with pageCrossed := x } = { write b c with pageCrossed := x }) :
    let c := write (load src s).1 s.cpu
    ∃ t, readClass src (fun b u => u.withCpu (write b u.cpu)) s = .next t ∧ AfterRead src s t { c with p := t.cpu.p } ∧
      t.cpu.p = c.p := by
  obtain ⟨t, ht, hp, hafter⟩ := readClass_after src (fun b u => u.withCpu (write b u.cpu)) s (write (load src s).1 s.cpu)
    fun u hu => by rw [hu, hw]
  exact ⟨t, ht, by rwa [hp], hp⟩

/-! ### Addition and subtraction (R183, R184) -/

/-- A read-class instruction that adds the byte `f` makes of the byte read. -/
theorem readClass_addToA (src : Source) (f : Byte → Byte) (s : State) :
    let m := f (load src s).1
    let r := addResult s.cpu.a m (getFlag s.cpu.p .c)
    ∃ t, readClass src (fun b => addToA (f b)) s = .next t ∧ AfterRead src s t { s.cpu with a := r, p := t.cpu.p } ∧
      t.cpu.p = addStatus s.cpu.a m s.cpu.p :=
  readClass_withCpu src
    (fun b c => { c with a := addResult c.a (f b) (getFlag c.p .c), p := addStatus c.a (f b) c.p }) s fun _ _ _ => rfl

theorem flagsKept_addStatus (a m p : Byte) : FlagsKept [.c, .v, .z, .n] p (addStatus a m p) := by
  intro f hf
  cases f <;> simp_all

/-- V by the formula of R183. -/
theorem addStatus_v_formula (a m p : Byte) :
    let r := addResult a m (getFlag p .c)
    getFlag (addStatus a m p) .v = decide ((a ^^^ r) &&& (m ^^^ r) &&& 0x80 ≠ 0) := by
  rw [getFlag_addStatus, addOverflow, bne, beq_eq_decide]
  exact decide_not.symm

/-- V as overflow of the two's-complement sum. -/
theorem addStatus_v_signed (a m p : Byte) :
    let c := (getFlag p .c).toNat
    getFlag (addStatus a m p) .v = decide (a.toInt + m.toInt + c < -128 ∨ 127 < a.toInt + m.toInt + c) := by
  rw [getFlag_addStatus, addOverflow_iff]

theorem addStatus_z (a m p : Byte) :
    getFlag (addStatus a m p) .z = decide (addResult a m (getFlag p .c) = 0) := by
  rw [getFlag_addStatus, beq_eq_decide]

/-- Settles O21: one read, then the addition, whose V has both forms. -/
theorem adcAddsWithCarry : Obligations.AdcAddsWithCarry := by
  refine ⟨fun src s => ?rule, readOpcodes_of_map (fun _ => rfl) fun _ _ => rfl⟩
  obtain ⟨t, ht, hafter, hp⟩ := readClass_addToA src id s
  refine ⟨t, ht, hafter, ?flags⟩
  rw [hp]
  exact ⟨getFlag_addStatus _ _ _ .c, addStatus_v_formula _ _ _, addStatus_v_signed _ _ _, addStatus_z _ _ _,
    getFlag_addStatus _ _ _ .n, flagsKept_addStatus _ _ _⟩

theorem complement_toNat (m : Byte) : (complement m).toNat = 255 - m.toNat := by
  rw [complement]
  bv_omega

theorem complement_toInt (m : Byte) : (complement m).toInt = -1 - m.toInt := by
  have hm := m.isLt
  rw [toInt_eq, toInt_eq, complement_toNat]
  split <;> split <;> omega

theorem addSum_complement (a m : Byte) (c : Bool) :
    addSum a (complement m) c = a.toNat + (255 - m.toNat) + c.toNat := by
  rw [addSum, complement_toNat]

/-- The ninth bit of the sum with `255 - m` says that `m` and the borrow `1 - C` do not exceed `A`. -/
theorem addSum_complement_carry (a m : Byte) (c : Bool) :
    addSum a (complement m) c > 0xFF ↔ m.toNat + (1 - c.toNat) ≤ a.toNat := by
  have hm := m.isLt
  have hc := Bool.toNat_le c
  rw [addSum_complement]
  omega

/-- Settles O22: SBC is the addition of `255 - m`, whose signed value is `-1 - m`. -/
theorem sbcSubtractsWithBorrow : Obligations.SbcSubtractsWithBorrow := by
  refine ⟨fun src s => ?rule, readOpcodes_of_map (fun _ => rfl) fun _ _ => rfl⟩
  dsimp only
  rw [← addSum_complement]
  obtain ⟨t, ht, hafter, hp⟩ := readClass_addToA src complement s
  refine ⟨t, ht, hafter, ?flags⟩
  rw [hp]
  refine ⟨getFlag_addStatus _ _ _ .c, ?borrow, addStatus_v_formula _ _ _, ?signed, addStatus_z _ _ _,
    getFlag_addStatus _ _ _ .n, flagsKept_addStatus _ _ _⟩
  case borrow => rw [getFlag_addStatus, decide_eq_decide, addSum_complement_carry]
  case signed =>
    rw [addStatus_v_signed, decide_eq_decide, complement_toInt]
    omega

/-! ### Logic (R185 to R187) -/

/-- Settles O23: each is one read whose byte is combined with `A` and goes to `A`, Z and N. -/
theorem logicOnTheAccumulator : Obligations.LogicOnTheAccumulator := by
  refine ⟨fun src s => ⟨?and, ?ora, ?eor⟩, ?_, ?_, ?_⟩
  case and => exact readClass_writeZN writesData_a src (fun b c => c.a &&& b) s _ fun _ => rfl
  case ora => exact readClass_writeZN writesData_a src (fun b c => c.a ||| b) s _ fun _ => rfl
  case eor => exact readClass_writeZN writesData_a src (fun b c => c.a ^^^ b) s _ fun _ => rfl
  all_goals exact readOpcodes_of_map (fun _ => rfl) fun _ _ => rfl

/-! ### Compares and the bit test (R188 to R192) -/

theorem flagsKept_compareStatus (r m p : Byte) : FlagsKept [.c, .z, .n] p (compareStatus r m p) := by
  intro f hf
  cases f <;> simp_all

theorem flagsKept_bitStatus (a m p : Byte) : FlagsKept [.z, .v, .n] p (bitStatus a m p) := by
  intro f hf
  cases f <;> simp_all

theorem ofInt_toNat_sub (r m : Byte) : BitVec.ofInt 8 (r.toNat - m.toNat) = r - m := by
  apply BitVec.eq_of_toNat_eq
  rw [BitVec.toNat_ofInt, BitVec.toNat_sub]
  omega

/-- The common rule of the three compares (R188), for a register that the operand's read keeps. -/
theorem readClass_compare (src : Source) (reg : Cpu → Byte) (s : State)
    (hreg : ∀ c x, reg { c with pageCrossed := x } = reg c) :
    let m := (load src s).1
    let r := reg s.cpu
    ∃ t, readClass src (fun m u => u.setP (compareStatus (reg u.cpu) m u.cpu.p)) s = .next t ∧
      AfterRead src s t { s.cpu with p := t.cpu.p } ∧
      getFlag t.cpu.p .c = decide (m.toNat ≤ r.toNat) ∧ getFlag t.cpu.p .z = decide (r = m) ∧
      getFlag t.cpu.p .n = (BitVec.ofInt 8 (r.toNat - m.toNat)).getLsbD 7 ∧ FlagsKept [.c, .z, .n] s.cpu.p t.cpu.p := by
  obtain ⟨t, ht, hafter, hp⟩ := readClass_withCpu src (fun m c => { c with p := compareStatus (reg c) m c.p }) s
    fun b c x => by rw [hreg]
  refine ⟨t, ht, hafter, ?flags⟩
  rw [hp]
  refine ⟨?carry, ?zero, ?negative, flagsKept_compareStatus _ _ _⟩
  case carry => rw [getFlag_compareStatus]; rfl
  case zero => rw [getFlag_compareStatus, beq_eq_decide]
  case negative => rw [getFlag_compareStatus, ofInt_toNat_sub]

/-- Settles O24: each is one read that leaves the byte in no register and sets flags from it. -/
theorem comparesAndBitTest : Obligations.ComparesAndBitTest := by
  refine ⟨fun src s => ⟨?cmp, ?cpx, ?cpy⟩, fun m s => ?bit, ?_, ?_, ?_, ?bitOpcodes⟩
  case cmp => exact readClass_compare src Cpu.a s fun _ _ => rfl
  case cpx => exact readClass_compare src Cpu.x s fun _ _ => rfl
  case cpy => exact readClass_compare src Cpu.y s fun _ _ => rfl
  case bit =>
    obtain ⟨t, ht, hafter, hp⟩ := readClass_withCpu (.mem m) (fun b c => { c with p := bitStatus c.a b c.p }) s
      fun _ _ _ => rfl
    refine ⟨t, ht, hafter, ?_⟩
    rw [hp]
    refine ⟨?zero, getFlag_bitStatus _ _ _ .v, getFlag_bitStatus _ _ _ .n, flagsKept_bitStatus _ _ _⟩
    rw [getFlag_bitStatus, beq_eq_decide]
  case bitOpcodes => exact memOpcodes_of_map fun _ _ => rfl
  all_goals exact readOpcodes_of_map (fun _ => rfl) fun _ _ => rfl

/-! ### INC and DEC (R193, R194) -/

/-- A read-modify-write that sets Z and N from the byte it writes. -/
theorem modifyMemory_setZN (m : AddrMode) (r : Byte → Byte) (s : State) :
    ∃ t, modifyMemory m (fun b _ => r b) (fun b p => setZN (r b) p) s = .next t ∧ AfterModify m r t.cpu.p s t ∧
      ZNFrom (r (modifyOperand m s)) s.cpu.p t.cpu.p := by
  obtain ⟨t, ht, hp, hafter⟩ :=
    modifyMemory_after m (fun b _ => r b) (fun b p => setZN (r b) p) s r (setZN (r (modifyOperand m s)) s.cpu.p) rfl rfl
  refine ⟨t, ht, by rwa [hp], ?flags⟩
  rw [hp]
  exact zNFrom_setZN _ _

/-- Settles O25: each is one read-modify-write; adding 255 modulo 256 subtracts one. -/
theorem incDecModifyMemory : Obligations.IncDecModifyMemory := by
  refine ⟨fun m s => ⟨?inc, ?dec⟩, ?_, ?_⟩
  case inc => exact modifyMemory_setZN m (fun b => b + 1) s
  case dec =>
    simp only [ofNat_toNat_pred]
    exact modifyMemory_setZN m (fun b => b - 1) s
  all_goals exact memOpcodes_of_map fun _ _ => rfl

end Sys2Proof.Machine

/-! SUPPORT. The family spec/42_shift_rotate.md: shifts and rotates of the accumulator and of memory. -/

namespace Sys2Proof.Machine

/-! ### The four shifts as arithmetic (R211 to R214) -/

theorem shiftAsl_eq (m : Byte) (c : Bool) :
    shiftAsl m c = { result := BitVec.ofNat 8 (2 * m.toNat), carry := m.getLsbD 7 } := by
  have h : m <<< 1 = BitVec.ofNat 8 (2 * m.toNat) := by bv_omega
  rw [shiftAsl, h]

theorem shiftLsr_eq (m : Byte) (c : Bool) :
    shiftLsr m c = { result := BitVec.ofNat 8 (m.toNat / 2), carry := m.getLsbD 0 } := by
  have h : m >>> 1 = BitVec.ofNat 8 (m.toNat / 2) := by bv_omega
  rw [shiftLsr, h]

/-- A bit that enters where the shifted byte has a 0 is added to it. -/
theorem or_ite_eq_add {x k : Byte} (h : x &&& k = 0#8) (c : Bool) :
    (x ||| if c then k else 0x00) = x + if c then k else 0x00 := by
  cases c with
  | false => exact BitVec.or_zero.trans (BitVec.add_zero x).symm
  | true => rw [if_pos rfl, BitVec.add_eq_or_of_and_eq_zero _ _ h]

theorem shiftLeft_one_and_bit0 (m : Byte) : m <<< 1 &&& 0x01 = 0#8 := by
  ext i hi
  interval_cases i <;> simp

theorem shiftRight_one_and_bit7 (m : Byte) : m >>> 1 &&& 0x80 = 0#8 := by
  ext i hi
  interval_cases i <;> simp

theorem shiftRol_eq (m : Byte) (c : Bool) :
    shiftRol m c = { result := BitVec.ofNat 8 (2 * m.toNat + c.toNat), carry := m.getLsbD 7 } := by
  have hc : (if c then 0x01 else 0x00 : Byte).toNat = c.toNat := by cases c <;> rfl
  have h : m <<< 1 + (if c then 0x01 else 0x00) = BitVec.ofNat 8 (2 * m.toNat + c.toNat) := by bv_omega
  rw [shiftRol, or_ite_eq_add (shiftLeft_one_and_bit0 m), h]

theorem shiftRor_eq (m : Byte) (c : Bool) :
    shiftRor m c = { result := BitVec.ofNat 8 (m.toNat / 2 + 128 * c.toNat), carry := m.getLsbD 0 } := by
  have hc : (if c then 0x80 else 0x00 : Byte).toNat = 128 * c.toNat := by cases c <;> rfl
  have h : m >>> 1 + (if c then 0x80 else 0x00) = BitVec.ofNat 8 (m.toNat / 2 + 128 * c.toNat) := by bv_omega
  rw [shiftRor, or_ite_eq_add (shiftRight_one_and_bit7 m), h]

/-- The instruction of a rule is the shift class with a shift that computes the rule's result and carry. -/
theorem exists_shift_of_mem_shiftRules {rule : (Target → Instr) × (Nat → Nat → Nat) × (Byte → Bool)}
    (h : rule ∈ shiftRules) : ∃ shift : Byte → Bool → Shifted,
      (∀ g s, exec (rule.1 g) s = shiftClass g shift s) ∧
      ∀ m c, shift m c = { result := BitVec.ofNat 8 (rule.2.1 m.toNat c.toNat), carry := rule.2.2 m } := by
  simp only [shiftRules, List.mem_cons, List.not_mem_nil, or_false] at h
  obtain rfl | rfl | rfl | rfl := h
  · exact ⟨shiftAsl, fun _ _ => rfl, shiftAsl_eq⟩
  · exact ⟨shiftLsr, fun _ _ => rfl, shiftLsr_eq⟩
  · exact ⟨shiftRol, fun _ _ => rfl, shiftRol_eq⟩
  · exact ⟨shiftRor, fun _ _ => rfl, shiftRor_eq⟩

/-! ### The shift class on its two kinds of target (R210) -/

/-- From `p` to `q` the flags become those of a shift with result and carry `r`: C, Z, N and no other. -/
def CZNFrom (r : Shifted) (p q : Byte) : Prop :=
  getFlag q .c = r.carry ∧ getFlag q .z = decide (r.result = 0) ∧ getFlag q .n = r.result.getLsbD 7 ∧
    FlagsKept [.c, .z, .n] p q

theorem cZNFrom_shiftStatus (r : Shifted) (p : Byte) : CZNFrom r p (shiftStatus r p) := by
  refine ⟨?c, ?z, ?n, fun f hf => ?others⟩
  case c => rw [getFlag_shiftStatus]
  case z => rw [getFlag_shiftStatus, beq_eq_decide]
  case n => rw [getFlag_shiftStatus]
  case others => cases f <;> simp_all

theorem shiftClass_acc (shift : Byte → Bool → Shifted) (s : State) :
    let r := shift s.cpu.a (getFlag s.cpu.p .c)
    ∃ t, shiftClass .acc shift s = .next t ∧
      t = s.withCpu { s.cpu with a := r.result, p := t.cpu.p, cyc := s.cpu.cyc + 2 } ∧ CZNFrom r s.cpu.p t.cpu.p :=
  ⟨_, rfl, rfl, cZNFrom_shiftStatus _ _⟩

theorem shiftClass_mem (m : AddrMode) (shift : Byte → Bool → Shifted) (s : State) :
    let c := getFlag s.cpu.p .c
    ∃ t, shiftClass (.mem m) shift s = .next t ∧ AfterModify m (fun b => (shift b c).result) t.cpu.p s t ∧
      CZNFrom (shift (modifyOperand m s) c) s.cpu.p t.cpu.p := by
  obtain ⟨t, ht, hp, hafter⟩ := modifyMemory_after m (fun b p => (shift b (getFlag p .c)).result)
    (fun b p => shiftStatus (shift b (getFlag p .c)) p) s (fun b => (shift b (getFlag s.cpu.p .c)).result) _ rfl rfl
  refine ⟨t, ht, by rwa [hp], ?flags⟩
  rw [hp]
  exact cZNFrom_shiftStatus _ _

/-! ### The two statements -/

/-- Settles O27: each is one read-modify-write whose shift is the rule's arithmetic. -/
theorem shiftsOfMemory : Obligations.ShiftsOfMemory := by
  refine ⟨fun rule hrule m s => ?rule, ?_, ?_, ?_, ?_⟩
  case rule =>
    obtain ⟨shift, hexec, hshift⟩ := exists_shift_of_mem_shiftRules hrule
    have h := shiftClass_mem m shift s
    rw [← hexec] at h
    simpa only [hshift, CZNFrom] using h
  all_goals exact ⟨⟨rfl, rfl⟩, memOpcodes_of_map fun _ _ => rfl⟩

/-- Settles O26: each is one write of `A` in two cycles, of the rule's arithmetic. -/
theorem shiftsOfTheAccumulator : Obligations.ShiftsOfTheAccumulator := by
  intro rule hrule s
  obtain ⟨shift, hexec, hshift⟩ := exists_shift_of_mem_shiftRules hrule
  have h := shiftClass_acc shift s
  rw [← hexec] at h
  simpa only [hshift, CZNFrom] using h

end Sys2Proof.Machine

/-! SUPPORT. The family spec/43_control_flow.md: JMP, JSR, the returns and the branches, and the round trips through the
stack. -/

namespace Sys2Proof.Machine

/-! ### JMP (R221, R222, R124) -/

theorem charge_setPC (s : State) (w : Addr) (n : Nat) :
    (s.setPC w).charge n = s.withCpu { s.cpu with pc := w, cyc := s.cpu.cyc + n } := rfl

/-- The address after a pointer's, without leaving the pointer's page (R124). -/
theorem wordOf_hiByte_loByte_succ (w : Addr) :
    wordOf (hiByte w) (loByte w + 1) = BitVec.ofNat 16 (w.toNat / 256 * 256 + (w.toNat + 1) % 256) := by
  apply BitVec.eq_of_toNat_eq
  have := w.isLt
  have hlo : (loByte w + 1).toNat = (w.toNat % 256 + 1) % 256 := by rw [BitVec.toNat_add, loByte_toNat]; rfl
  rw [wordOf_toNat, hiByte_toNat, hlo, BitVec.toNat_ofNat]
  omega

/-- Settles O28: the indirect form is two reads, which change no CPU register, and nothing at all when untrapped. -/
theorem jmpSetsPC : Obligations.JmpSetsPC := by
  intro w s
  refine ⟨⟨rfl, rfl⟩, ⟨rfl, rfl⟩, rfl, ?_⟩
  dsimp only
  rw [exec_jmp_ind, ← wordOf_hiByte_loByte_succ, charge_setPC, readWord_cpu]
  refine ⟨rfl, fun hlo hhi => ?_⟩
  rw [readWord_untrapped _ _ _ hlo hhi]

/-! ### JSR (R223) -/

/-- A push changes `SP`, and `CYC` by an amount that is 0 on an untrapped stack address. -/
theorem exists_push_cpu (v : Byte) (s : State) :
    ∃ n, (push v s).cpu = { s.cpu with sp := s.cpu.sp - 1, cyc := s.cpu.cyc + n } ∧
      (s.untrapped (stackAddr s.cpu.sp) → n = 0) := by
  by_cases hu : s.untrapped (stackAddr s.cpu.sp)
  · exact ⟨0, by rw [push_untrapped v s hu]; rfl, fun _ => rfl⟩
  · obtain ⟨n, hn⟩ := push_cpu v s
    exact ⟨n, hn, fun h => absurd h hu⟩

theorem untrapped_push (v : Byte) (s : State) (a : Addr) : (push v s).untrapped a ↔ s.untrapped a := by
  rw [State.untrapped, push_cpuBus, State.untrapped]

/-- A push keeps every byte of memory but the one its write reaches. -/
theorem push_memory (v : Byte) (s : State) : MemoryKeptBut (cpuStoreLoc s (stackAddr s.cpu.sp)) s (push v s) :=
  cpuWrite_memory (stackAddr s.cpu.sp) v s

/-- What two pushes do to the CPU, with no DMA when both stack addresses are untrapped. -/
theorem exists_push_push_cpu (v w : Byte) (s : State) :
    ∃ n, (push w (push v s)).cpu = { s.cpu with sp := s.cpu.sp - 2, cyc := s.cpu.cyc + n } ∧
      (s.untrapped (stackAddr s.cpu.sp) → s.untrapped (stackAddr (s.cpu.sp - 1)) → n = 0) := by
  obtain ⟨n, hn, hn0⟩ := exists_push_cpu v s
  obtain ⟨k, hk, hk0⟩ := exists_push_cpu w (push v s)
  have hsp : s.cpu.sp - 1 - 1 = s.cpu.sp - 2 := by bv_omega
  refine ⟨n + k, ?cpu, fun h1 h2 => ?cost⟩
  case cpu => rw [hk, hn, hsp, Nat.add_assoc]
  case cost =>
    rw [untrapped_push, push_sp] at hk0
    rw [hn0 h1, hk0 h2]

/-- Settles O29: two pushes, each with the frame of one write, then `PC` and the cost. -/
theorem jsrPushesTheReturnAddress : Obligations.JsrPushesTheReturnAddress := by
  intro w s ret
  refine ⟨⟨rfl, rfl⟩, _, exec_jsr w s, rfl, ?cpu, ⟨?cpuBus, ?ppuBus⟩, fun l h1 h2 => ?memory, fun h hw => ?stack⟩
  case cpu =>
    obtain ⟨n, hn, hn0⟩ := exists_push_push_cpu (hiByte ret) (loByte ret) s
    exact ⟨n, by rw [charge_setPC, withCpu_cpu, hn], hn0⟩
  case cpuBus => exact pushWord_cpuBus ret s
  case ppuBus => exact pushWord_ppuBus ret s
  case memory =>
    rw [← push_sp (hiByte ret) s] at h2
    exact ((push_memory _ _).1 l h2).trans ((push_memory _ _).1 l h1)
  case stack =>
    obtain ⟨-, hppu, hplat, -, -, hhi, hlo, -⟩ := pushWord_stack ret s h hw
    exact ⟨hppu, hplat, hhi, hlo⟩

/-! ### RTS and RTI (R224, R233) -/

theorem sp_add_one_add_one (sp : Byte) : sp + 1 + 1 = sp + 2 := by bv_omega

/-- RTS on a stack, in one equation. -/
theorem exec_rts_stack (s : State) (h : s.hasStack) : exec .rts s =
    .next (s.withCpu
      { s.cpu with sp := s.cpu.sp + 2, cyc := s.cpu.cyc + 6,
                   pc := s.wordAt (stackAddr (s.cpu.sp + 1)) (stackAddr (s.cpu.sp + 2)) + 1 }) := by
  rw [exec_rts, popWord_stack s h]
  rfl

/-- RTI on a stack, in one equation. -/
theorem exec_rti_stack (s : State) (h : s.hasStack) : exec .rti s =
    .next (s.withCpu
      { s.cpu with sp := s.cpu.sp + 3, cyc := s.cpu.cyc + 6,
                   p := restoredStatus (s.byteAt (stackAddr (s.cpu.sp + 1))),
                   pc := s.wordAt (stackAddr (s.cpu.sp + 2)) (stackAddr (s.cpu.sp + 3)) }) := by
  have h1 : ((s.setSP (s.cpu.sp + 1)).setP (restoredStatus (s.byteAt (stackAddr (s.cpu.sp + 1))))).hasStack := h
  have h2 : s.cpu.sp + 1 + 2 = s.cpu.sp + 3 := by bv_omega
  rw [exec_rti, pop_stack s h]
  dsimp only
  rw [popWord_stack _ h1]
  simp only [setP_cpu, setSP_cpu, sp_add_one_add_one, h2]
  rfl

/-- Settles O30: a pop changes `SP` alone in the CPU, and no memory. -/
theorem returnsPopTheirTarget : Obligations.ReturnsPopTheirTarget := by
  intro s
  refine ⟨⟨rfl, rfl⟩, ⟨rfl, rfl⟩, ?rts, ?rti, fun h => ⟨exec_rts_stack s h, exec_rti_stack s h⟩⟩
  case rts =>
    refine ⟨_, exec_rts s, popWord_bufs s, ⟨popWord_cpuBus s, popWord_ppuBus s⟩, ?_⟩
    rw [charge_setPC, popWord_cpu, sp_add_one_add_one]
    rfl
  case rti =>
    have hsp : s.cpu.sp + 1 + 1 + 1 = s.cpu.sp + 3 := by bv_omega
    refine ⟨_, exec_rti s, by simp, ⟨by simp, by simp⟩, ?_⟩
    rw [charge_setPC, popWord_cpu, setP_cpu, pop_cpu, hsp]
    rfl

/-! ### Branches (R225 to R232, R234) -/

/-- The target of a branch as a signed sum modulo 65536 (R125). -/
theorem branchTarget_eq_ofInt (off : Byte) (s : State) :
    branchTarget off s = BitVec.ofInt 16 (s.cpu.pc.toNat + off.toInt) := by
  rw [branchTarget, sext16_eq, BitVec.ofInt_add, BitVec.ofInt_natCast, BitVec.ofNat_toNat, BitVec.setWidth_eq]

/-- A taken branch costs 3 cycles, or 4 when its target is on another page than the next instruction. -/
theorem branchCost_eq (target pc : Addr) :
    (2 + if crosses target pc then 2 else 1) = if hiByte target = hiByte pc then 3 else 4 := by
  rw [crosses_eq_decide]
  by_cases h : hiByte target = hiByte pc <;> simp [h]

/-- An instruction that is the branch class on a condition of `P` follows the branch rule. -/
theorem branchRule_of_branchClass {f : Byte → Instr} {op : Byte} {cond : Byte → Bool}
    (hop : ∀ off, HasOpcode (f off) (some op)) (hexec : ∀ off s, exec (f off) s = branchClass (cond s.cpu.p) off s) :
    BranchRule f op cond := by
  refine fun off s => ⟨hop off, fun hc => ?notTaken, fun hc => ?taken⟩
  case notTaken =>
    rw [hexec, branchClass_eq, hc]
    rfl
  case taken =>
    rw [hexec, branchClass_eq, if_pos hc, charge_setPC, branchTarget_eq_ofInt, branchCost_eq]

/-- Settles O31: each is the branch class on its flag. -/
theorem branchesTestOneFlag : Obligations.BranchesTestOneFlag := by
  refine ⟨?_, ?_, ?_, ?_, ?_, ?_, ?_, ?_⟩
  all_goals exact branchRule_of_branchClass (fun _ => ⟨rfl, rfl⟩) fun _ _ => rfl

/-! ### Round trips through the stack -/

/-- A pop returns the byte that stands where `SP` was before its push. -/
theorem pop_of_byteAt {u : State} (sp b : Byte) (h : u.hasStack) (hsp : u.cpu.sp = sp - 1)
    (hb : u.byteAt (stackAddr sp) = b) : pop u = (b, u.setSP sp) := by
  have e : u.cpu.sp + 1 = sp := by rw [hsp, BitVec.sub_add_cancel]
  rw [pop_stack u h, e, hb]

/-- Two pops return the word that stands where `SP` was before its pushes. -/
theorem popWord_of_byteAt {u : State} (sp : Byte) (w : Addr) (h : u.hasStack) (hsp : u.cpu.sp = sp - 2)
    (hhi : u.byteAt (stackAddr sp) = hiByte w) (hlo : u.byteAt (stackAddr (sp - 1)) = loByte w) :
    popWord u = (w, u.setSP sp) := by
  have e1 : u.cpu.sp + 1 = sp - 1 := by rw [hsp]; bv_omega
  have e2 : u.cpu.sp + 2 = sp := by rw [hsp, BitVec.sub_add_cancel]
  rw [popWord_stack u h, e1, e2, State.wordAt, hhi, hlo, wordOf_hi_lo]

/-- A push on a stack in terms of the buffers it leaves, which hold the byte pushed. -/
theorem exists_push_eq (v : Byte) {s : State} (h : s.hasStack) (hw : ∀ b ∈ s.bufs, b.wf = true) :
    ∃ bufs, push v s = (s.withBufs bufs).setSP (s.cpu.sp - 1) ∧ (s.withBufs bufs).hasStack ∧
      (s.withBufs bufs).byteAt (stackAddr s.cpu.sp) = v := by
  have heq := push_stack v s h
  have hstack := push_hasStack v s h
  have hbyte := byteAt_push_same v s h hw
  rw [heq] at hstack hbyte
  exact ⟨_, heq, hstack, hbyte⟩

/-- The pushes of a word on a stack in terms of the buffers they leave, which hold the word. -/
theorem exists_pushWord_eq (w : Addr) {s : State} (h : s.hasStack) (hw : ∀ b ∈ s.bufs, b.wf = true) :
    ∃ bufs, pushWord w s = (s.withBufs bufs).setSP (s.cpu.sp - 2) ∧ (s.withBufs bufs).hasStack ∧
      (s.withBufs bufs).byteAt (stackAddr s.cpu.sp) = hiByte w ∧
      (s.withBufs bufs).byteAt (stackAddr (s.cpu.sp - 1)) = loByte w := by
  obtain ⟨hcpu, hppu, hplat, hstack, -, hhi, hlo, -⟩ := pushWord_stack w s h hw
  have heq : pushWord w s = (s.withBufs (pushWord w s).bufs).setSP (s.cpu.sp - 2) :=
    state_ext hcpu (pushWord_cpuBus w s) (pushWord_ppuBus w s) rfl hppu hplat
  rw [heq] at hstack hhi hlo
  exact ⟨_, heq, hstack, hhi, hlo⟩

/-- JSR then RTS on a stack. -/
theorem exec_rts_of_exec_jsr {s t : State} (h : s.hasStack) (hw : ∀ b ∈ s.bufs, b.wf = true) {w : Addr}
    (ht : exec (.jsr w) s = .next t) :
    ∃ bufs, exec .rts t = .next ((s.withBufs bufs).withCpu { s.cpu with cyc := s.cpu.cyc + 12 }) := by
  obtain ⟨bufs, hpush, hstack, hhi, hlo⟩ := exists_pushWord_eq (s.cpu.pc - 1) h hw
  rw [exec_jsr, ← pushWord, hpush] at ht
  cases ht
  refine ⟨bufs, ?_⟩
  rw [exec_rts, popWord_of_byteAt s.cpu.sp (s.cpu.pc - 1)]
  · dsimp only
    rw [BitVec.sub_add_cancel]
    rfl
  exacts [hstack, rfl, hhi, hlo]

/-- PHA then PLA on a stack, with any `A` and `P` between them. -/
theorem exec_pla_of_exec_pha {s t : State} (h : s.hasStack) (hw : ∀ b ∈ s.bufs, b.wf = true) (a p : Byte)
    (ht : exec .pha s = .next t) :
    ∃ bufs, exec .pla (t.withCpu { t.cpu with a := a, p := p }) =
      .next ((s.withBufs bufs).withCpu { s.cpu with p := setZN s.cpu.a p, cyc := s.cpu.cyc + 7 }) := by
  obtain ⟨bufs, hpush, hstack, hbyte⟩ := exists_push_eq s.cpu.a h hw
  rw [exec_pha, hpush] at ht
  cases ht
  refine ⟨bufs, ?_⟩
  rw [exec_pla, pop_of_byteAt s.cpu.sp s.cpu.a]
  exacts [rfl, hstack, rfl, hbyte]

/-- PHP then PLP on a stack, with any `P` between them. -/
theorem exec_plp_of_exec_php {s t : State} (h : s.hasStack) (hw : ∀ b ∈ s.bufs, b.wf = true) (p : Byte)
    (hp : s.cpu.p &&& 0x30 = 0x20) (ht : exec .php s = .next t) :
    ∃ bufs, exec .plp (t.setP p) = .next ((s.withBufs bufs).withCpu { s.cpu with cyc := s.cpu.cyc + 7 }) := by
  obtain ⟨bufs, hpush, hstack, hbyte⟩ := exists_push_eq (pushedStatus s.cpu.p) h hw
  rw [exec_php, hpush] at ht
  cases ht
  refine ⟨bufs, ?_⟩
  rw [exec_plp, pop_of_byteAt s.cpu.sp (pushedStatus s.cpu.p), restored_pushed s.cpu.p hp]
  exacts [rfl, hstack, rfl, hbyte]

/-- An interrupt entry then RTI on a stack. -/
theorem exec_rti_enterInterrupt {s : State} (h : s.hasStack) (hw : ∀ b ∈ s.bufs, b.wf = true) {vec : Addr}
    (hp : s.cpu.p &&& 0x30 = 0x20) (hv : s.untrapped vec) (hv' : s.untrapped (vec + 1)) :
    ∃ u : State, exec .rti (enterInterrupt vec s) = .next (u.withCpu { s.cpu with cyc := s.cpu.cyc + 13 }) ∧
      u.ppu = s.ppu ∧ u.plat = s.plat := by
  obtain ⟨u, hu, hcpu, hppu, hplat, hstack, hhi, hlo, hstatus⟩ := enterInterrupt_stack vec s h hw hv hv'
  have hsp : s.cpu.sp - 3 = s.cpu.sp - 2 - 1 := by bv_omega
  refine ⟨u, ?_, hppu, hplat⟩
  rw [exec_rti, hu, pop_of_byteAt (s.cpu.sp - 2) (pushedStatus s.cpu.p), popWord_of_byteAt s.cpu.sp s.cpu.pc]
  · dsimp only
    rw [restored_pushed s.cpu.p hp]
    simp only [charge_setPC, setSP_cpu, setP_cpu, withCpu_cpu, hcpu]
    rfl
  exacts [hstack, rfl, hhi, hlo, hstack, by rw [charge_setPC, withCpu_cpu, hcpu, hsp], hstatus]

/-- Settles O36: each pair pops, from the buffers its pushes left, what was pushed. -/
theorem stackRoundTrips : Obligations.StackRoundTrips := by
  refine fun s h hw => ⟨fun w t ht => ?jsr, fun a p t ht => ?pha, fun p t hp ht => ?php, fun vec hp hv hv' => ?entry⟩
  case jsr =>
    obtain ⟨bufs, hu⟩ := exec_rts_of_exec_jsr h hw ht
    exact ⟨_, hu, rfl, rfl, rfl⟩
  case pha =>
    obtain ⟨bufs, hu⟩ := exec_pla_of_exec_pha h hw a p ht
    exact ⟨_, hu, rfl, zNFrom_setZN _ _, rfl, rfl⟩
  case php =>
    obtain ⟨bufs, hu⟩ := exec_plp_of_exec_php h hw p hp ht
    exact ⟨_, hu, rfl, rfl, rfl⟩
  case entry =>
    obtain ⟨u, hu, hppu, hplat⟩ := exec_rti_enterInterrupt h hw hp hv hv'
    exact ⟨_, hu, rfl, hppu, hplat⟩

end Sys2Proof.Machine

/-! SUPPORT. The family spec/44_stack_flags_nop.md: the pushes and pulls of `A` and `P`, the flag instructions and NOP. -/

namespace Sys2Proof.Machine

/-! ### PHA, PHP, PLA and PLP (R250 to R253) -/

/-- A byte pushed on plain memory stands at the stack address, and the PPU and the platform are as before. -/
theorem push_isMemory (v : Byte) (s : State) (h : s.isMemory (stackAddr s.cpu.sp)) (hw : ∀ b ∈ s.bufs, b.wf = true) :
    (push v s).byteAt (stackAddr s.cpu.sp) = v ∧ (push v s).ppu = s.ppu ∧ (push v s).plat = s.plat := by
  have heq := push_untrapped v s h.1
  refine ⟨?byte, by rw [heq]; rfl, by rw [heq]; rfl⟩
  rw [push, byteAt_setSP]
  exact byteAt_cpuWrite _ v s h hw

/-- What PHA and PHP have in common: one push and its cost, nothing else. -/
theorem push_charge_frame (v : Byte) (s : State) :
    let t := (push v s).charge 3
    (∃ n, t.cpu = { s.cpu with sp := s.cpu.sp - 1, cyc := s.cpu.cyc + n + 3 } ∧
      (s.untrapped (stackAddr s.cpu.sp) → n = 0)) ∧
    MemoryKeptBut (cpuStoreLoc s (stackAddr s.cpu.sp)) s t ∧ BusesKept s t ∧
    (s.isMemory (stackAddr s.cpu.sp) → (∀ b ∈ s.bufs, b.wf = true) →
      t.byteAt (stackAddr s.cpu.sp) = v ∧ t.ppu = s.ppu ∧ t.plat = s.plat) := by
  obtain ⟨n, hcpu, hn⟩ := exists_push_cpu v s
  exact ⟨⟨n, by rw [charge_cpu, hcpu], hn⟩, push_memory v s, ⟨push_cpuBus v s, push_ppuBus v s⟩, push_isMemory v s⟩

/-- Settles O33: a push has the frame of one write, and a pop changes `SP` alone in the CPU, and no memory. -/
theorem stackInstructions : Obligations.StackInstructions := by
  intro s
  refine ⟨⟨_, exec_pha s, rfl, push_charge_frame s.cpu.a s⟩, ⟨_, exec_php s, rfl, push_charge_frame _ s⟩, ?pla, ?plp,
    ⟨rfl, rfl⟩, ⟨rfl, rfl⟩, ⟨rfl, rfl⟩, ⟨rfl, rfl⟩⟩
  case pla =>
    refine ⟨_, exec_pla s, pop_bufs s, ⟨pop_cpuBus s, pop_ppuBus s⟩, ?state, ?flags⟩
    case state =>
      rw [State.charge, setZN_cpu, setA_cpu, pop_cpu]
      rfl
    case flags =>
      rw [charge_cpu, setZN_cpu, setA_cpu, pop_cpu]
      exact zNFrom_setZN _ _
  case plp =>
    refine ⟨_, exec_plp s, pop_bufs s, ⟨pop_cpuBus s, pop_ppuBus s⟩, ?_⟩
    rw [State.charge, setP_cpu, pop_cpu]
    rfl

/-! ### The flag instructions (R254 to R260) -/

theorem flagsKept_setFlag (f : Flag) (on : Bool) (p : Byte) : FlagsKept [f] p (setFlag f on p) := by
  intro g hg
  rw [getFlag_setFlag, if_neg (List.ne_of_not_mem_cons hg)]

/-- An instruction that is the flag class on one flag follows the flag rule. -/
theorem flagRule_of_flagClass {i : Instr} {op : Byte} {f : Flag} {on : Bool} (hop : HasOpcode i (some op))
    (hexec : ∀ s, exec i s = flagClass f on s) : FlagRule i op f on := fun s =>
  ⟨hop, _, hexec s, rfl, by rw [charge_cpu, setP_cpu, getFlag_setFlag, if_pos rfl], flagsKept_setFlag f on s.cpu.p⟩

/-- Settles O34: each is the flag class on its flag. -/
theorem flagInstructions : Obligations.FlagInstructions := by
  refine ⟨?_, ?_, ?_, ?_, ?_, ?_, ?_⟩
  all_goals exact flagRule_of_flagClass ⟨rfl, rfl⟩ fun _ => rfl

/-! ### NOP (R270 to R272) -/

theorem nop_wellFormed_iff (op : Byte) (src : Option Source) :
    (Instr.nop op src).wellFormed = true ↔ op ∈ nopOpcodes src := List.contains_iff_mem

/-- The read class with an action that discards the byte. -/
theorem readClass_discard (src : Source) (s : State) :
    ∃ t, readClass src (fun _ u => u) s = .next t ∧ AfterRead src s t s.cpu := by
  obtain ⟨t, ht, -, hafter⟩ := readClass_after src (fun _ u => u) s s.cpu fun u hu => by rw [← hu, withCpu_self]
  exact ⟨t, ht, hafter⟩

/-- Settles O35: an operand is one read whose byte is discarded, and the opcode bytes are the list of the mode. -/
theorem nopDiscardsItsOperand : Obligations.NopDiscardsItsOperand :=
  ⟨fun _ s => ⟨rfl, fun src => readClass_discard src s⟩,
    fun op _ _ => ⟨nop_wellFormed_iff op _, nop_wellFormed_iff op _, nop_wellFormed_iff op _, nop_wellFormed_iff op _,
      nop_wellFormed_iff op _, nop_wellFormed_iff op _⟩⟩

end Sys2Proof.Machine

/-! SUPPORT. The family spec/47_ppu_registers.md: the register window, each register's read and write, and the PPU's
accesses of video memory. -/

namespace Sys2Proof.Machine

/-! ### Bits of `t` after a register write (R305, R312, R313) -/

section
variable (p : Ppu) (d : Byte) {i : Nat} (hi : i < 15)
include hi

theorem getLsbD_t_writeCtrl :
    (writeCtrl p d).t.getLsbD i = if 10 ≤ i ∧ i < 12 then d.getLsbD (i - 10) else p.t.getLsbD i := by
  interval_cases i <;> simp [writeCtrl]

theorem getLsbD_t_writeScroll_first (hw : p.w = false) :
    (writeScroll p d).t.getLsbD i = if i < 5 then d.getLsbD (i + 3) else p.t.getLsbD i := by
  rw [writeScroll, if_pos hw]
  interval_cases i <;> simp

theorem getLsbD_t_writeScroll_second (hw : p.w = true) :
    (writeScroll p d).t.getLsbD i =
      if 5 ≤ i ∧ i < 10 then d.getLsbD (i - 2) else if 12 ≤ i then d.getLsbD (i - 12) else p.t.getLsbD i := by
  rw [writeScroll, if_neg (ne_false_of_eq_true hw)]
  interval_cases i <;> simp

theorem getLsbD_t_writeAddr_first (hw : p.w = false) :
    (writeAddr p d).t.getLsbD i =
      if i < 8 then p.t.getLsbD i else if i < 14 then d.getLsbD (i - 8) else false := by
  rw [writeAddr, if_pos hw]
  interval_cases i <;> simp

theorem getLsbD_t_writeAddr_second (hw : p.w = true) :
    (writeAddr p d).t.getLsbD i = if i < 8 then d.getLsbD i else p.t.getLsbD i := by
  rw [writeAddr, if_neg (ne_false_of_eq_true hw)]
  interval_cases i <;> simp

end

/-- A scroll register has no bit above bit 14, so bits that agree below 15 agree. -/
theorem getLsbD_eq_of_lt {t u : Scroll} {i : Nat} (h : i < 15 → t.getLsbD i = u.getLsbD i) :
    t.getLsbD i = u.getLsbD i := by
  by_cases hi : i < 15
  · exact h hi
  · rw [BitVec.getLsbD_of_ge t i (not_lt.mp hi), BitVec.getLsbD_of_ge u i (not_lt.mp hi)]

/-! ### The registers a write by the toggle `w` changes (R312, R313) -/

section
variable (d : Byte) (s : State)

theorem regWrite_scroll_first (hw : s.ppu.w = false) : regWrite .scroll d s =
    s.withPpu { s.ppu with t := (writeScroll s.ppu d).t, x := BitVec.ofNat 3 d.toNat, w := true } := by
  simp only [regWrite, writeScroll, if_pos hw]
  rfl

theorem regWrite_scroll_second (hw : s.ppu.w = true) : regWrite .scroll d s =
    s.withPpu { s.ppu with t := (writeScroll s.ppu d).t, w := false } := by
  simp only [regWrite, writeScroll, if_neg (ne_false_of_eq_true hw)]

theorem regWrite_addr_first (hw : s.ppu.w = false) : regWrite .addr d s =
    s.withPpu { s.ppu with t := (writeAddr s.ppu d).t, w := true } := by
  simp only [regWrite, writeAddr, if_pos hw]

theorem regWrite_addr_second (hw : s.ppu.w = true) : regWrite .addr d s =
    s.withPpu { s.ppu with t := (writeAddr s.ppu d).t, v := (writeAddr s.ppu d).t, w := false } := by
  simp only [regWrite, writeAddr, if_neg (ne_false_of_eq_true hw)]

end

/-- Settles O46: for each value of `w`, the registers the write changes and every bit of the new `t`. -/
theorem scrollAndAddressWrites : Obligations.ScrollAndAddressWrites := by
  intro d s
  refine ⟨fun hw => ⟨⟨_, regWrite_scroll_first d s hw, fun i hi => ?coarseX, fun i hi => ?scrollKept⟩,
      ⟨_, regWrite_addr_first d s hw, fun i hi => ?lowKept, fun i hi => ?high, ?bit14⟩⟩,
    fun hw => ⟨⟨_, regWrite_scroll_second d s hw, fun i hi => ?coarseXKept, fun i hi => ?coarseY, fun i hi => ?fineY,
        ?bit10, ?bit11⟩,
      ⟨_, regWrite_addr_second d s hw, fun i hi => ?low, fun i hi => ?highKept⟩⟩⟩
  case coarseX => rw [getLsbD_t_writeScroll_first s.ppu d (by omega) hw, if_pos hi]
  case scrollKept =>
    refine getLsbD_eq_of_lt fun h15 => ?_
    rw [getLsbD_t_writeScroll_first s.ppu d h15 hw, if_neg (by omega)]
  case lowKept => rw [getLsbD_t_writeAddr_first s.ppu d (by omega) hw, if_pos hi]
  case high =>
    rw [getLsbD_t_writeAddr_first s.ppu d (by omega) hw, if_neg (by omega), if_pos (by omega), Nat.add_sub_cancel]
  case bit14 => exact getLsbD_t_writeAddr_first s.ppu d (by omega) hw
  case coarseXKept =>
    rw [getLsbD_t_writeScroll_second s.ppu d (by omega) hw, if_neg (by omega), if_neg (by omega)]
  case coarseY =>
    rw [getLsbD_t_writeScroll_second s.ppu d (by omega) hw, if_pos (by omega)]
    rfl
  case fineY =>
    rw [getLsbD_t_writeScroll_second s.ppu d (by omega) hw, if_neg (by omega), if_pos (by omega), Nat.add_sub_cancel]
  case bit10 => exact getLsbD_t_writeScroll_second s.ppu d (by omega) hw
  case bit11 => exact getLsbD_t_writeScroll_second s.ppu d (by omega) hw
  case low => rw [getLsbD_t_writeAddr_second s.ppu d (by omega) hw, if_pos hi]
  case highKept =>
    refine getLsbD_eq_of_lt fun h15 => ?_
    rw [getLsbD_t_writeAddr_second s.ppu d h15 hw, if_neg (by omega)]

/-! ### CTRL, MASK and OAMADDR (R305, R306, R309) -/

/-- Settles O45: bits 11:10 of `t` are the low bits of the byte, and every other bit is kept. -/
theorem controlRegisterWrites : Obligations.ControlRegisterWrites := by
  refine fun d s => ⟨⟨(writeCtrl s.ppu d).t, rfl, ?bit10, ?bit11, fun i h10 h11 => ?kept⟩, rfl, rfl⟩
  case bit10 => exact getLsbD_t_writeCtrl s.ppu d (by omega)
  case bit11 => exact getLsbD_t_writeCtrl s.ppu d (by omega)
  case kept =>
    refine getLsbD_eq_of_lt fun h15 => ?_
    rw [getLsbD_t_writeCtrl s.ppu d h15, if_neg (by omega)]

/-! ### STATUS and OAMDATA (R307, R310, R311) -/

theorem getLsbD_status_and_0x7F (st : Byte) :
    (st &&& 0x7F).getLsbD 7 = false ∧ ∀ i < 7, (st &&& 0x7F).getLsbD i = st.getLsbD i := by
  refine ⟨by simp, fun i hi => ?_⟩
  interval_cases i <;> simp

/-- OAM is hidden from reads while rendering is enabled on dots 1 to 64 of a visible line (R310). -/
def Ppu.oamHidden (p : Ppu) : Bool :=
  p.renderingEnabled && p.visible && decide (1 ≤ p.dot) && decide (p.dot ≤ 64)

theorem Ppu.oamHidden_iff (p : Ppu) : p.oamHidden = true ↔
    (p.mask.getLsbD 3 || p.mask.getLsbD 4) = true ∧ p.scanline ≤ 239 ∧ 1 ≤ p.dot ∧ p.dot ≤ 64 := by
  simp only [oamHidden, renderingEnabled, visible, Bool.and_eq_true, decide_eq_true_eq, and_assoc]

theorem Ppu.renderingActive_iff (p : Ppu) : p.renderingActive = true ↔
    (p.mask.getLsbD 3 || p.mask.getLsbD 4) = true ∧ (p.scanline ≤ 239 ∨ p.scanline = 261) := by
  simp only [renderingActive, renderingEnabled, visible, Bool.and_eq_true, Bool.or_eq_true (decide _), decide_eq_true_eq]

theorem regRead_oamData (s : State) :
    regRead .oamData s = if s.ppu.oamHidden then (0xFF, s) else (atByte s.ppu.oam s.ppu.oamAddr, s) := rfl

theorem regWrite_oamData (d : Byte) (s : State) : regWrite .oamData d s = if s.ppu.renderingActive then s else
    s.withPpu { s.ppu with oam := setAtByte s.ppu.oam s.ppu.oamAddr d, oamAddr := s.ppu.oamAddr + 1 } :=
  apply_ite s.withPpu _ _ _

/-- Settles O47: the two gates as conditions on `MASK` and the position, each with what its register does behind it. -/
theorem statusAndOamData : Obligations.StatusAndOamData := by
  intro d s
  dsimp only
  rw [← s.ppu.oamHidden_iff, ← s.ppu.renderingActive_iff, regRead_oamData, regWrite_oamData]
  exact ⟨⟨_, rfl, getLsbD_status_and_0x7F s.ppu.status⟩, fun h => if_pos h, fun h => if_neg h, fun h => if_pos h,
    fun h => if_neg h⟩

/-! ### 14-bit addresses and DATA (R318 to R320) -/

/-- The mask 0x3FFF keeps an address modulo 0x4000. -/
theorem toNat_and_0x3FFF (a : Addr) : (a &&& 0x3FFF).toNat = a.toNat % 0x4000 := by
  rw [BitVec.toNat_and]
  exact Nat.and_two_pow_sub_one_eq_mod a.toNat 14

theorem scrollAddr_and_0x3FFF (v : Scroll) : scrollAddr v &&& 0x3FFF = BitVec.ofNat 16 (v.toNat % 0x4000) := by
  apply BitVec.eq_of_toNat_eq
  have hv : (scrollAddr v).toNat = v.toNat := BitVec.toNat_setWidth_of_le (by decide)
  rw [toNat_and_0x3FFF, hv, BitVec.toNat_ofNat]
  omega

theorem Ppu.advanceV_eq (p : Ppu) :
    p.advanceV = { p with v := BitVec.ofNat 15 (p.v.toNat + if p.ctrl.getLsbD 2 then 32 else 1) } := by
  have hv : p.v + p.increment = BitVec.ofNat 15 (p.v.toNat + if p.ctrl.getLsbD 2 then 32 else 1) := by
    rw [increment]
    split <;> bv_omega
  rw [advanceV, hv]

section
variable (s : State)

/-- A read of `DATA` as one read of `PpuBus` at `a`, the 14-bit address in `v` (R318). -/
theorem regRead_data {a : Addr} (ha : scrollAddr s.ppu.v &&& 0x3FFF = a) : regRead .data s =
    if 0x3F00 ≤ a then ((ppuRead a s).1, (ppuRead a s).2.withPpu s.ppu.advanceV)
    else (s.ppu.readBuffer, (ppuRead a s).2.withPpu ({ s.ppu with readBuffer := (ppuRead a s).1 } : Ppu).advanceV) := by
  subst ha
  simp only [regRead, readData, ppuRead_ppu]

theorem regWrite_data (d : Byte) {a : Addr} (ha : scrollAddr s.ppu.v &&& 0x3FFF = a) :
    regWrite .data d s = (ppuWrite a d s).withPpu s.ppu.advanceV := by
  subst ha
  simp only [regWrite, writeData, ppuWrite_ppu]

end

/-- The palette starts at 0x3F00 (R318). -/
theorem palette_le_iff (v : Scroll) :
    (0x3F00 : Addr) ≤ BitVec.ofNat 16 (v.toNat % 0x4000) ↔ 0x3F00 ≤ v.toNat % 0x4000 := by
  rw [BitVec.le_def, BitVec.toNat_ofNat]
  change 0x3F00 ≤ _ ↔ _
  omega

/-- Settles O48: one access of `PpuBus` at `v` modulo 0x4000, split at the palette, then the increment. -/
theorem dataRegister : Obligations.DataRegister := by
  intro d s
  have ha := scrollAddr_and_0x3FFF s.ppu.v
  refine ⟨fun hpalette => ?palette, fun hother => ?other, ?write⟩
  case palette => rw [regRead_data s ha, if_pos ((palette_le_iff _).mpr hpalette), Ppu.advanceV_eq]
  case other => rw [regRead_data s ha, if_neg (mt (palette_le_iff _).mp hother.not_ge), Ppu.advanceV_eq]
  case write => rw [regWrite_data s d ha, Ppu.advanceV_eq]

/-! ### The register window (R301 to R303, R308) -/

theorem cpuTrapRead_window {t : Trap CpuCallback} (hc : t.callback = .ppuWindow) (a : Addr) (s : State) :
    cpuTrapRead t a s = regRead (PpuReg.ofAddr a) s := by
  simp only [cpuTrapRead, hc]

theorem cpuTrapWrite_window {t : Trap CpuCallback} (hc : t.callback = .ppuWindow) (a : Addr) (v : Byte) (s : State) :
    cpuTrapWrite t a v s = regWrite (PpuReg.ofAddr a) v s := by
  simp only [cpuTrapWrite, hc]

/-- The registers stand in the order of R302 at the addresses modulo 8. -/
theorem getElem?_registers_mod_8 (a : Addr) :
    [PpuReg.ctrl, .mask, .status, .oamAddr, .oamData, .scroll, .addr, .data][a.toNat % 8]? = some (PpuReg.ofAddr a) := by
  have hlt : a.toNat % 8 < 8 := Nat.mod_lt _ (by decide)
  rw [PpuReg.ofAddr]
  generalize a.toNat % 8 = n at hlt
  interval_cases n <;> rfl

theorem regRead_of_writeOnly (s : State) :
    ∀ r ∈ [PpuReg.ctrl, .mask, .oamAddr, .scroll, .addr], regRead r s = (0x00, s) := by
  simp only [List.forall_mem_cons]
  exact ⟨rfl, rfl, rfl, rfl, rfl, nofun⟩

/-- Settles O44: the trap of the window hands the access to the register `a & 7`. -/
theorem ppuWindow : Obligations.PpuWindow := by
  refine ⟨fun a v s t ht hc => ⟨?read, ?write⟩, getElem?_registers_mod_8, regRead_of_writeOnly, fun _ _ => rfl⟩
  case read => rw [cpuRead_trapped ht, cpuTrapRead_window hc]
  case write => rw [cpuWrite_trapped ht, cpuTrapWrite_window hc]

/-! ### The palette aliases (R322, R323) -/

/-- The 14-bit address is one of the four aliases exactly if its number is. -/
theorem palette_alias_iff (a : Addr) :
    (a &&& 0x3FFF = 0x3F10 ∨ a &&& 0x3FFF = 0x3F14 ∨ a &&& 0x3FFF = 0x3F18 ∨ a &&& 0x3FFF = 0x3F1C) ↔
      a.toNat % 0x4000 ∈ [0x3F10, 0x3F14, 0x3F18, 0x3F1C] := by
  simp only [← BitVec.toNat_inj, toNat_and_0x3FFF, List.mem_cons, List.not_mem_nil, or_false]
  rfl

theorem toNat_ppuBusAddr (a : Addr) : (ppuBusAddr a).toNat =
    if a.toNat % 0x4000 ∈ [0x3F10, 0x3F14, 0x3F18, 0x3F1C] then a.toNat % 0x4000 - 0x10 else a.toNat % 0x4000 := by
  have hlow (h : a.toNat % 0x4000 ∈ [0x3F10, 0x3F14, 0x3F18, 0x3F1C]) : (0x10 : Addr) ≤ a &&& 0x3FFF := by
    rw [BitVec.le_def, toNat_and_0x3FFF]
    simp only [List.mem_cons, List.not_mem_nil, or_false] at h
    change 0x10 ≤ _
    omega
  simp only [ppuBusAddr, palette_alias_iff]
  split
  · rw [BitVec.toNat_sub_of_le (hlow ‹_›), toNat_and_0x3FFF]
    rfl
  · exact toNat_and_0x3FFF a

/-- Settles O49: `prd` and `pwr` are one access of `PpuBus` at the reduced address, and an untrapped one is the page
table's. -/
theorem paletteAlias : Obligations.PaletteAlias := by
  refine ⟨fun _ _ _ => ⟨rfl, rfl⟩, fun a => ⟨fun h => ?lower, fun h => ?other⟩,
    fun _ d _ hu => ⟨ppuBusRead_untrapped hu, ppuBusWrite_untrapped hu d⟩⟩
  case lower => rw [toNat_ppuBusAddr, if_pos h]
  case other => rw [toNat_ppuBusAddr, if_neg h]

end Sys2Proof.Machine

/-! SUPPORT. The family spec/48_ppu_rendering.md: the PPU's tick, its counters, status flags and frame buffer, the
background pipeline, the sprites, the scroll updates and the compositor. -/

namespace Sys2Proof.Machine

/-! ### The counters (R358) -/

/-- The registers and the memory of the PPU that no phase of a tick writes (R309, R314). -/
theorem ppuTick_kept (s : State) :
    (ppuTick s).2.ppu = { (ppuTick s).2.ppu with
      ctrl := s.ppu.ctrl, mask := s.ppu.mask, oamAddr := s.ppu.oamAddr, oam := s.ppu.oam, t := s.ppu.t, x := s.ppu.x,
      w := s.ppu.w, readBuffer := s.ppu.readBuffer } := by
  obtain ⟨p, hp⟩ := ppuPhases_kept s
  obtain ⟨d, y, f, hc⟩ := advanceCounters_frame (ppuPhases s).ppu
  have e : (ppuTick s).2.ppu = { (ppuPhases s).ppu with dot := d, scanline := y, frame := f } := hc
  rw [e, hp]

/-- The counters after a tick follow from the counters before it alone. -/
theorem ppuTick_counters (s : State) :
    (ppuTick s).2.ppu.dot = (advanceCounters s.ppu).dot ∧
    (ppuTick s).2.ppu.scanline = (advanceCounters s.ppu).scanline ∧
    (ppuTick s).2.ppu.frame = (advanceCounters s.ppu).frame := by
  simp only [ppuTick_eq, withPpu_ppu, advanceCounters, ppuPhases_lineLength, ppuPhases_dot, ppuPhases_scanline]
  split
  · split <;> simp
  · simp

section
variable {s : State}

/-- Inside a line a tick moves to the next dot. -/
theorem ppuTick_nextDot (h : s.ppu.dot + 1 ≠ s.ppu.lineLength) :
    (ppuTick s).2.ppu.dot = s.ppu.dot + 1 ∧ (ppuTick s).2.ppu.scanline = s.ppu.scanline ∧
    (ppuTick s).2.ppu.frame = s.ppu.frame := by
  obtain ⟨hd, hy, hf⟩ := ppuTick_counters s
  rw [hd, hy, hf, advanceCounters, if_neg h]
  exact ⟨rfl, rfl, rfl⟩

/-- At the end of a line but the last a tick starts the next line. -/
theorem ppuTick_nextLine (h : s.ppu.dot + 1 = s.ppu.lineLength) (hy : s.ppu.scanline ≠ 261) :
    (ppuTick s).2.ppu.dot = 0 ∧ (ppuTick s).2.ppu.scanline = s.ppu.scanline + 1 ∧
    (ppuTick s).2.ppu.frame = s.ppu.frame := by
  obtain ⟨hd, hy', hf⟩ := ppuTick_counters s
  rw [hd, hy', hf, advanceCounters, if_pos h, if_neg (by omega)]
  exact ⟨rfl, rfl, rfl⟩

/-- At the end of the pre-render line a tick starts the next frame. -/
theorem ppuTick_nextFrame (h : s.ppu.dot + 1 = s.ppu.lineLength) (hy : s.ppu.scanline = 261) :
    (ppuTick s).2.ppu.dot = 0 ∧ (ppuTick s).2.ppu.scanline = 0 ∧ (ppuTick s).2.ppu.frame = s.ppu.frame + 1 := by
  obtain ⟨hd, hy', hf⟩ := ppuTick_counters s
  rw [hd, hy', hf, advanceCounters, if_pos h, if_pos (by omega)]
  exact ⟨rfl, rfl, rfl⟩

end

theorem ppuTick_fst (s : State) : (ppuTick s).1 = decide (s.ppu.scanline = 241 ∧ s.ppu.dot = 1) :=
  (Bool.decide_and _ _).symm

/-- A tick changes the platform by the answers of trapped reads alone. -/
theorem ppuTick_plat (s : State) : (ppuTick s).2.plat =
    { s.plat with inputs := (ppuTick s).2.plat.inputs, extReads := (ppuTick s).2.plat.extReads } := by
  dsimp only
  rw [← ppuTick_pending s, ← ppuTick_ppuDots s, ← ppuTick_outputs s]

/-- Lines 240 to 260 in the form of R353: the counters and the edge are all that a tick changes. -/
theorem ppuTick_idle_frame (s : State) (h1 : 240 ≤ s.ppu.scanline) (h2 : s.ppu.scanline ≤ 260) :
    let t := (ppuTick s).2
    t = s.withPpu { s.ppu with
      dot := t.ppu.dot, scanline := t.ppu.scanline, frame := t.ppu.frame,
      status := if s.ppu.scanline = 241 ∧ s.ppu.dot = 1 then s.ppu.status ||| 0x80 else s.ppu.status } := by
  dsimp only
  rw [ppuTick_idle s h1 h2, withPpu_ppu]
  congr 1
  obtain ⟨d, y, f, hc⟩ := advanceCounters_frame { s.ppu with
    status := if s.ppu.scanline = 241 ∧ s.ppu.dot = 1 then s.ppu.status ||| 0x80 else s.ppu.status }
  rw [hc]

/-- Settles O50: the frame of the phases, then the three ways the counters advance. -/
theorem tickAdvancesTheCounters : Obligations.TickAdvancesTheCounters := by
  intro s
  refine ⟨ppuTick_fst s, ppuTick_cpu s, ppuTick_bufs s, ⟨ppuTick_cpuBus s, ppuTick_ppuBus s⟩, ppuTick_plat s,
    ppuTick_kept s, ppuTick_idle_frame s, ppuTick_nextDot, fun hend => ⟨?_, fun hlast => ?_, fun hy => ?_⟩⟩
  · by_cases hlast : s.ppu.scanline = 261
    · exact (ppuTick_nextFrame hend hlast).1
    · exact (ppuTick_nextLine hend hlast).1
  · exact (ppuTick_nextFrame hend hlast).2
  · exact (ppuTick_nextLine hend hy).2

/-! ### A frame of ticks (R359) -/

/-- After `n` ticks from the start of a frame, still inside it, the position is that of the `n`-th dot of the frame. -/
theorem ticks_counters (s : State) (hd : s.ppu.dot = 0) (hy : s.ppu.scanline = 0) (n : Nat)
    (hn : n < if s.ppu.frame % 2 = 1 then 89341 else 89342) :
    (ticks n s).ppu.dot = n % 341 ∧ (ticks n s).ppu.scanline = n / 341 ∧ (ticks n s).ppu.frame = s.ppu.frame := by
  induction n with
  | zero => exact ⟨hd, hy, rfl⟩
  | succ n ih =>
    obtain ⟨ihd, ihy, ihf⟩ := ih (by omega)
    have hlen : (ticks n s).ppu.lineLength = if n / 341 = 261 ∧ s.ppu.frame % 2 = 1 then 340 else 341 := by
      rw [Ppu.lineLength, ihy, ihf]
    by_cases hend : (ticks n s).ppu.dot + 1 = (ticks n s).ppu.lineLength
    · obtain ⟨hd', hy', hf'⟩ := ppuTick_nextLine hend (by split at hn <;> split at hlen <;> omega)
      rw [ticks, hd', hy', hf', ihy, ihf]
      split at hn <;> split at hlen <;> omega
    · obtain ⟨hd', hy', hf'⟩ := ppuTick_nextDot hend
      rw [ticks, hd', hy', hf', ihd, ihy, ihf]
      split at hn <;> split at hlen <;> omega

/-- The last tick of a frame starts the next one (R359). -/
theorem ticks_frame (s : State) (hd : s.ppu.dot = 0) (hy : s.ppu.scanline = 0) {len : Nat}
    (hlen : len = if s.ppu.frame % 2 = 1 then 89341 else 89342) :
    (ticks len s).ppu.dot = 0 ∧ (ticks len s).ppu.scanline = 0 ∧ (ticks len s).ppu.frame = s.ppu.frame + 1 := by
  obtain ⟨n, rfl⟩ : ∃ n, len = n + 1 := ⟨len - 1, by split at hlen <;> omega⟩
  obtain ⟨hd', hy', hf'⟩ := ticks_counters s hd hy n (by omega)
  have hend : (ticks n s).ppu.dot + 1 = (ticks n s).ppu.lineLength := by
    rw [Ppu.lineLength, hd', hy', hf']
    split at hlen <;> split <;> omega
  have hlast : (ticks n s).ppu.scanline = 261 := by split at hlen <;> omega
  rw [← hf']
  exact ppuTick_nextFrame hend hlast

/-- Settles O51: the position of each tick of the frame, of which only number 82182 is (241, 1). -/
theorem oneVBlankEdgeInEveryFrame : Obligations.OneVBlankEdgeInEveryFrame := by
  refine fun s hd hy => ⟨fun n hn => ?_, ticks_frame s hd hy rfl⟩
  obtain ⟨hd', hy', -⟩ := ticks_counters s hd hy n hn
  rw [ppuTick_fst, hd', hy', decide_eq_decide]
  omega

/-! ### Parts of the PPU that a phase leaves alone (R351)

A part of the PPU is a function of it. Each predicate says that a part reads none of the fields that a phase writes; the
frame of the phase (Laws/Tick) then says that the part stays. -/

section
variable {α : Type} (f : Ppu → α)

/-- Phase 1 writes none of this part. -/
def IgnoresEdges : Prop := ∀ (p : Ppu) st sl z, f { p with status := st, slots := sl, slot0IsSprite0 := z } = f p

/-- The shift and the reload write none of this part. -/
def IgnoresShift : Prop := ∀ (p : Ppu) a b c d,
  f { p with bgShiftLo := a, bgShiftHi := b, atShiftLo := c, atShiftHi := d } = f p

/-- Phase 2 writes none of this part. -/
def IgnoresBackground : Prop := ∀ (p : Ppu) v nt pal lo hi a b c d sl,
  f { p with v := v, ntLatch := nt, atLatch := pal, bgLoLatch := lo, bgHiLatch := hi, bgShiftLo := a, bgShiftHi := b,
             atShiftLo := c, atShiftHi := d, slots := sl } = f p

/-- Phase 3 writes none of this part. -/
def IgnoresPixel : Prop := ∀ (p : Ppu) st fb, f { p with status := st, frameBuffer := fb } = f p

/-- The clear of secondary OAM writes none of this part. -/
def IgnoresSecondaryClear : Prop := ∀ (p : Ppu) sec, f { p with secondaryOam := sec } = f p

/-- The clear and the evaluation write none of this part. -/
def IgnoresScan : Prop := ∀ (p : Ppu) sec k z,
  f { p with secondaryOam := sec, secCount := k, secHasSprite0 := z } = f p

/-- The sprite fetch writes none of this part. -/
def IgnoresSpriteFetch : Prop := ∀ (p : Ppu) sl z, f { p with slots := sl, slot0IsSprite0 := z } = f p

/-- Phase 4 writes none of this part. -/
def IgnoresSprites : Prop := ∀ (p : Ppu) sec k z sl z',
  f { p with secondaryOam := sec, secCount := k, secHasSprite0 := z, slots := sl, slot0IsSprite0 := z' } = f p

/-- Phase 5 writes none of this part. -/
def IgnoresCounters : Prop := ∀ (p : Ppu) d y n, f { p with dot := d, scanline := y, frame := n } = f p

end

/-! ### The phases of a tick by position (R351 to R353) -/

theorem Ppu.renderingEnabled_iff (p : Ppu) :
    p.renderingEnabled = true ↔ p.mask.getLsbD 3 = true ∨ p.mask.getLsbD 4 = true :=
  Iff.of_eq (Bool.or_eq_true _ _)

/-- The dot outputs a pixel (R390). -/
def Ppu.onScreen (p : Ppu) : Prop := p.scanline ≤ 239 ∧ 1 ≤ p.dot ∧ p.dot ≤ 256

theorem Ppu.onScreen_iff (p : Ppu) : p.visible = true ∧ 1 ≤ p.dot ∧ p.dot ≤ 256 ↔ p.onScreen := by
  rw [visible, decide_eq_true_eq, onScreen]

section
variable {p : Ppu}

theorem statusEdges_vblank (h : p.scanline = 241 ∧ p.dot = 1) :
    statusEdges p = { p with status := p.status ||| 0x80 } := by
  rw [statusEdges, if_pos h]

theorem statusEdges_preRender (h : p.scanline = 261 ∧ p.dot = 1) : statusEdges p =
    { p with status := p.status &&& 0x1F, slots := mapSlots SpriteSlot.clearPattern p.slots,
             slot0IsSprite0 := false } := by
  rw [statusEdges, if_neg (by omega), if_pos h]

theorem statusEdges_elsewhere (h1 : ¬ (p.scanline = 241 ∧ p.dot = 1)) (h2 : ¬ (p.scanline = 261 ∧ p.dot = 1)) :
    statusEdges p = p := by
  rw [statusEdges, if_neg h1, if_neg h2]

theorem statusEdges_visible (h : p.scanline ≤ 239) : statusEdges p = p :=
  statusEdges_elsewhere (by omega) (by omega)

end

/-- A part of the PPU that phase 1 leaves alone. -/
theorem statusEdges_field {α : Type} (p : Ppu) (f : Ppu → α)
    (h : IgnoresEdges f := by intro; intros; rfl) : f (statusEdges p) = f p := by
  obtain ⟨st, sl, z, e⟩ := statusEdges_frame p
  rw [e, h]

/-- A part of the PPU that phase 2 leaves alone. -/
theorem backgroundPhase_field {α : Type} (s : State) (f : Ppu → α)
    (h : IgnoresBackground f := by intro; intros; rfl) : f (backgroundPhase s).ppu = f s.ppu := by
  obtain ⟨v, nt, pal, lo, hi, a, b, c, d, sl, e, -⟩ := backgroundPhase_frame s
  rw [e, h]

/-- A part of the PPU that phase 3 leaves alone. -/
theorem pixelOutput_field {α : Type} (s : State) (f : Ppu → α)
    (h : IgnoresPixel f := by intro; intros; rfl) : f (pixelOutput s).ppu = f s.ppu := by
  obtain ⟨st, fb, e, -⟩ := pixelOutput_frame s
  rw [e, h]

/-- A part of the PPU that the counters are not in stands after the tick as phases 1 to 4 left it. -/
theorem ppuTick_field_phases {α : Type} (s : State) (f : Ppu → α)
    (hCount : IgnoresCounters f := by intro; intros; rfl) :
    f (ppuTick s).2.ppu = f (ppuPhases s).ppu := by
  obtain ⟨d, y, n, e⟩ := advanceCounters_frame (ppuPhases s).ppu
  rw [ppuTick_eq, withPpu_ppu, e, hCount]

/-- A part of the PPU that phases 4 and 5 leave alone stands after the tick as the pixel output left it. -/
theorem ppuTick_field_pixelOutput {α : Type} (s : State) (f : Ppu → α)
    (hSprite : IgnoresSprites f := by intro; intros; rfl)
    (hCount : IgnoresCounters f := by intro; intros; rfl) :
    f (ppuTick s).2.ppu = f (pixelOutput (backgroundPhase (s.withPpu (statusEdges s.ppu)))).ppu := by
  obtain ⟨sec, k, z, sl, z', e, -⟩ :=
    spritePhase_frame (pixelOutput (backgroundPhase (s.withPpu (statusEdges s.ppu))))
  rw [ppuTick_field_phases s f hCount, ppuPhases, e, hSprite]

/-- The sprite phase runs: rendering enabled on a visible line (R351). -/
def Ppu.spritesActive (p : Ppu) : Bool := p.renderingEnabled && p.visible

theorem Ppu.spritesActive_iff (p : Ppu) : p.spritesActive = true ↔
    (p.mask.getLsbD 3 = true ∨ p.mask.getLsbD 4 = true) ∧ p.scanline ≤ 239 := by
  rw [spritesActive, Bool.and_eq_true, renderingEnabled_iff, visible, decide_eq_true_eq]

theorem backgroundPhase_inactive {s : State} (h : ¬ s.ppu.renderingActive = true) : backgroundPhase s = s := by
  rw [backgroundPhase, if_neg h]

theorem spritePhase_active {s : State} (h : s.ppu.spritesActive = true) :
    spritePhase s = spriteFetch (s.withPpu (spriteEvaluation (secondaryClear s.ppu))) :=
  if_pos h

theorem spritePhase_inactive {s : State} (h : ¬ s.ppu.spritesActive = true) : spritePhase s = s := if_neg h

/-! ### Pixel output (R390 to R398) -/

/-- The background pixel of this dot. -/
def Ppu.bgHere (p : Ppu) : BgPixel := bgPixel p (p.dot - 1)

/-- The sprite pixel of this dot. -/
def Ppu.spriteHere (p : Ppu) : SpritePixel := spritePixel p (p.dot - 1)

theorem pixelOutput_offScreen {s : State} (h : ¬ s.ppu.onScreen) : pixelOutput s = s := by
  rw [pixelOutput, if_neg (mt s.ppu.onScreen_iff.mp h)]

theorem pixelOutput_onScreen {s : State} (h : s.ppu.onScreen) : (pixelOutput s).ppu = { s.ppu with
    status := if spriteZeroHit s.ppu.bgHere s.ppu.spriteHere then s.ppu.status ||| 0x40 else s.ppu.status,
    frameBuffer := s.ppu.frameBuffer.setIfInBounds (s.ppu.scanline * 256 + (s.ppu.dot - 1))
      ((ppuRead (paletteAddr (composite s.ppu.bgHere s.ppu.spriteHere)) s).1.setWidth 6) } := by
  rw [pixelOutput, if_pos (s.ppu.onScreen_iff.mpr h)]
  simp only [withPpu_ppu, ppuRead_ppu]
  rfl

section
variable {s : State}

/-- Off the screen phases 1 and 5 are all that reaches a part that phases 2 and 4 leave alone. -/
theorem ppuTick_field_offScreen {α : Type} (hoff : ¬ s.ppu.onScreen) (f : Ppu → α)
    (hBackground : IgnoresBackground f := by intro; intros; rfl)
    (hSprite : IgnoresSprites f := by intro; intros; rfl)
    (hCount : IgnoresCounters f := by intro; intros; rfl) :
    f (ppuTick s).2.ppu = f (statusEdges s.ppu) := by
  have hb : ¬ (backgroundPhase (s.withPpu (statusEdges s.ppu))).ppu.onScreen := by
    rwa [backgroundPhase_field _ Ppu.onScreen, withPpu_ppu, statusEdges_field _ Ppu.onScreen]
  rw [ppuTick_field_pixelOutput s f hSprite hCount, pixelOutput_offScreen hb, backgroundPhase_field _ f hBackground,
    withPpu_ppu]

/-- Off the screen a tick changes `STATUS` at its two edges only. -/
theorem ppuTick_status_offScreen (h : ¬ s.ppu.onScreen) : (ppuTick s).2.ppu.status = (statusEdges s.ppu).status :=
  ppuTick_field_offScreen h Ppu.status

/-- Off the screen a tick writes no pixel. -/
theorem ppuTick_frameBuffer_offScreen (h : ¬ s.ppu.onScreen) : (ppuTick s).2.ppu.frameBuffer = s.ppu.frameBuffer :=
  (ppuTick_field_offScreen h Ppu.frameBuffer).trans (statusEdges_field _ Ppu.frameBuffer)

/-- On the screen a part of the PPU that phases 4 and 5 leave alone is what phases 2 and 3 make of it. -/
theorem ppuTick_field_onScreen {α : Type} (hon : s.ppu.onScreen) (f : Ppu → α)
    (hSprite : IgnoresSprites f := by intro; intros; rfl)
    (hCount : IgnoresCounters f := by intro; intros; rfl) :
    f (ppuTick s).2.ppu = f (pixelOutput (backgroundPhase s)).ppu := by
  rw [ppuTick_field_pixelOutput s f hSprite hCount, statusEdges_visible hon.1, withPpu_self]

theorem backgroundPhase_onScreen (hon : s.ppu.onScreen) : (backgroundPhase s).ppu.onScreen := by
  rwa [backgroundPhase_field s Ppu.onScreen]

/-- On the screen a tick can only set sprite-zero hit in `STATUS` (R396). -/
theorem ppuTick_status_onScreen (hon : s.ppu.onScreen) : (ppuTick s).2.ppu.status =
    if spriteZeroHit (backgroundPhase s).ppu.bgHere (backgroundPhase s).ppu.spriteHere then s.ppu.status ||| 0x40
    else s.ppu.status := by
  rw [ppuTick_field_onScreen hon Ppu.status, pixelOutput_onScreen (backgroundPhase_onScreen hon),
    backgroundPhase_field s Ppu.status]

/-- On the screen a tick writes one pixel (R397, R398). -/
theorem ppuTick_frameBuffer_onScreen (hon : s.ppu.onScreen) : (ppuTick s).2.ppu.frameBuffer =
    s.ppu.frameBuffer.setIfInBounds (s.ppu.scanline * 256 + (s.ppu.dot - 1))
      ((ppuRead (paletteAddr (composite (backgroundPhase s).ppu.bgHere (backgroundPhase s).ppu.spriteHere))
        (backgroundPhase s)).1.setWidth 6) := by
  rw [ppuTick_field_onScreen hon Ppu.frameBuffer, pixelOutput_onScreen (backgroundPhase_onScreen hon),
    backgroundPhase_field s Ppu.frameBuffer, backgroundPhase_field s Ppu.scanline, backgroundPhase_field s Ppu.dot]

end

/-! ### The status flags (R356, R357, R396) -/

theorem getLsbD_or_0x40 (st : Byte) {i : Nat} (hi : i ≠ 6) : (st ||| 0x40).getLsbD i = st.getLsbD i := by
  have h : (0x40 : Byte).getLsbD i = false := by
    change (BitVec.twoPow 8 6).getLsbD i = false
    rw [BitVec.getLsbD_twoPow, decide_eq_false hi.symm, Bool.and_false]
  rw [BitVec.getLsbD_or, h, Bool.or_false]

theorem getLsbD_6_or_0x40 (st : Byte) : (st ||| 0x40).getLsbD 6 = true := by
  rw [BitVec.getLsbD_or]
  exact Bool.or_true _

/-- Settles O52: the two edges of phase 1; elsewhere the pixel output can set bit 6 alone. -/
theorem statusFlagsChangeOnlyWhereStated : Obligations.StatusFlagsChangeOnlyWhereStated := by
  intro s
  dsimp only
  refine ⟨fun h => ?vblank, fun h => ?preRender, fun h1 h2 => ?elsewhere⟩
  case vblank => rw [ppuTick_status_offScreen (by unfold Ppu.onScreen; omega), statusEdges_vblank h]
  case preRender => rw [ppuTick_status_offScreen (by unfold Ppu.onScreen; omega), statusEdges_preRender h]
  case elsewhere =>
    have hoff (h : ¬ s.ppu.onScreen) : (ppuTick s).2.ppu.status = s.ppu.status := by
      rw [ppuTick_status_offScreen h, statusEdges_elsewhere h1 h2]
    have hcases : (ppuTick s).2.ppu.status = s.ppu.status ∨ (ppuTick s).2.ppu.status = s.ppu.status ||| 0x40 := by
      by_cases hon : s.ppu.onScreen
      · rw [ppuTick_status_onScreen hon]
        split
        · exact .inr rfl
        · exact .inl rfl
      · exact .inl (hoff hon)
    refine ⟨fun i hi => ?_, fun h6 => ?_, hoff⟩
    · rcases hcases with e | e
      · rw [e]
      · rw [e, getLsbD_or_0x40 _ hi]
    · rcases hcases with e | e
      · rw [e, h6]
      · rw [e, getLsbD_6_or_0x40]

/-! ### Rendering off (R352, R399) -/

theorem bgPixel_hidden {p : Ppu} (h : p.mask.getLsbD 3 = false) (px : Nat) : bgPixel p px = { pix := 0, pal := 0 } := by
  rw [bgPixel, h, Bool.false_and, if_neg Bool.false_ne_true]

theorem spritePixel_hidden {p : Ppu} (h : p.mask.getLsbD 4 = false) (px : Nat) :
    spritePixel p px = { pix := 0, pal := 0, behind := false, isZero := false } := by
  rw [spritePixel, h, Bool.false_and, if_neg Bool.false_ne_true]

section
variable {s : State} (h : ¬ s.ppu.renderingEnabled = true)
include h

theorem backgroundPhase_off : backgroundPhase s = s :=
  backgroundPhase_inactive fun ha => h (Bool.and_eq_true _ _ ▸ ha).1

theorem spritePhase_off : spritePhase s = s :=
  spritePhase_inactive fun ha => h (Bool.and_eq_true _ _ ▸ ha).1

theorem ppuPhases_off : ppuPhases s = pixelOutput (s.withPpu (statusEdges s.ppu)) := by
  have he : ¬ (s.withPpu (statusEdges s.ppu)).ppu.renderingEnabled = true := by
    rwa [withPpu_ppu, statusEdges_field _ Ppu.renderingEnabled]
  have hp : ¬ (pixelOutput (s.withPpu (statusEdges s.ppu))).ppu.renderingEnabled = true := by
    rwa [pixelOutput_field _ Ppu.renderingEnabled]
  rw [ppuPhases, backgroundPhase_off he, spritePhase_off hp]

/-- With rendering off a tick leaves the pipeline alone. -/
theorem ppuTick_off_frame : let t := (ppuTick s).2.ppu
    t = { s.ppu with dot := t.dot, scanline := t.scanline, frame := t.frame, status := t.status, slots := t.slots,
                     slot0IsSprite0 := t.slot0IsSprite0, frameBuffer := t.frameBuffer } := by
  obtain ⟨d, y, n, hc⟩ := advanceCounters_frame (ppuPhases s).ppu
  obtain ⟨st, fb, hp, -⟩ := pixelOutput_frame (s.withPpu (statusEdges s.ppu))
  obtain ⟨st', sl, z, he⟩ := statusEdges_frame s.ppu
  have e : (ppuTick s).2.ppu = { (ppuPhases s).ppu with dot := d, scanline := y, frame := n } := hc
  dsimp only
  rw [e, ppuPhases_off h, hp, withPpu_ppu, he]

/-- With rendering off a part of the PPU outside pixels and counters changes in phase 1 alone. -/
theorem ppuTick_field_off {α : Type} (f : Ppu → α)
    (hPixel : IgnoresPixel f := by intro; intros; rfl)
    (hCount : IgnoresCounters f := by intro; intros; rfl) :
    f (ppuTick s).2.ppu = f (statusEdges s.ppu) := by
  rw [ppuTick_field_phases s f hCount, ppuPhases_off h, pixelOutput_field _ f hPixel, withPpu_ppu]

end

/-- Settles O53: phases 2 and 4 do nothing, and both layers are transparent. -/
theorem renderingOffLeavesThePipelineAlone : Obligations.RenderingOffLeavesThePipelineAlone := by
  intro s h3 h4
  have hoff : ¬ s.ppu.renderingEnabled = true := by rw [s.ppu.renderingEnabled_iff, h3, h4]; decide
  have hbg : s.ppu.bgHere = { pix := 0, pal := 0 } := bgPixel_hidden h3 _
  have hsp : s.ppu.spriteHere = { pix := 0, pal := 0, behind := false, isZero := false } := spritePixel_hidden h4 _
  refine ⟨ppuTick_off_frame hoff, fun h261 => ⟨?slots, ?mark, fun h241 => ?status⟩, fun hy h1 h256 => ?backdrop⟩
  case slots =>
    rw [ppuTick_field_off hoff Ppu.slots, statusEdges, if_neg h261]
    split <;> rfl
  case mark =>
    rw [ppuTick_field_off hoff Ppu.slot0IsSprite0, statusEdges, if_neg h261]
    split <;> rfl
  case status =>
    by_cases hon : s.ppu.onScreen
    · rw [ppuTick_status_onScreen hon, backgroundPhase_off hoff, hbg, hsp]
      rfl
    · rw [ppuTick_status_offScreen hon, statusEdges_elsewhere h241 h261]
  case backdrop =>
    rw [ppuTick_frameBuffer_onScreen ⟨hy, h1, h256⟩, backgroundPhase_off hoff, hbg, hsp]
    rfl

/-! ### The pixel a tick writes (R390 to R398) -/

/-- Before dot 257 phase 4 leaves the sprite slots alone. -/
theorem spritePhase_field_before257 {α : Type} {s : State} (hd : s.ppu.dot ≤ 256) (f : Ppu → α)
    (h : IgnoresScan f := by intro; intros; rfl) : f (spritePhase s).ppu = f s.ppu := by
  obtain ⟨sec, k, z, e, -⟩ := spriteScan_frame s.ppu
  rw [spritePhase]
  split
  · rw [e, spriteFetch, if_neg (by dsimp; omega), if_neg (by dsimp; omega), if_neg (by dsimp; omega), withPpu_ppu, h]
  · rfl

section
variable {s : State} (hon : s.ppu.onScreen)
include hon

/-- The background pixel composed in a tick is that of the shifters as the tick leaves them. -/
theorem bgPixel_ppuTick : bgPixel (ppuTick s).2.ppu (s.ppu.dot - 1) = (backgroundPhase s).ppu.bgHere := by
  rw [ppuTick_field s (bgPixel · (s.ppu.dot - 1)) (by intros; rfl) (by intros; rfl) (by intros; rfl),
    statusEdges_visible hon.1, withPpu_self, Ppu.bgHere, backgroundPhase_field s Ppu.dot]

/-- The sprite pixel composed in a tick is that of the slots as the tick leaves them. -/
theorem spritePixel_ppuTick : spritePixel (ppuTick s).2.ppu (s.ppu.dot - 1) = (backgroundPhase s).ppu.spriteHere := by
  have hd : (pixelOutput (backgroundPhase s)).ppu.dot ≤ 256 := by
    rw [pixelOutput_field _ Ppu.dot, backgroundPhase_field s Ppu.dot]
    exact hon.2.2
  rw [ppuTick_field_phases s (spritePixel · (s.ppu.dot - 1)), ppuPhases,
    statusEdges_visible hon.1, withPpu_self, spritePhase_field_before257 hd (spritePixel · _),
    pixelOutput_field _ (spritePixel · _), Ppu.spriteHere, backgroundPhase_field s Ppu.dot]

end

theorem paletteAddr_eq_ofNat (idx : BitVec 5) : paletteAddr idx = BitVec.ofNat 16 (0x3F00 + idx.toNat) := by
  revert idx
  decide

/-- Settles O54: off the screen the frame buffer stays; on it one entry is set, from the two pixels the tick leaves. -/
theorem frameBufferWrittenAtThePixelOnly : Obligations.FrameBufferWrittenAtThePixelOnly := by
  refine ⟨fun s i hi => ?kept, fun s i hy h1 h256 hi => ?written⟩
  case kept =>
    by_cases hon : s.ppu.onScreen
    · rw [ppuTick_frameBuffer_onScreen hon, Fin.getElem_fin, Vector.getElem_setIfInBounds_ne]
      · rfl
      · exact fun e => hi ⟨hon.1, hon.2.1, hon.2.2, e.symm⟩
    · rw [ppuTick_frameBuffer_offScreen hon]
  case written =>
    have hon : s.ppu.onScreen := ⟨hy, h1, h256⟩
    dsimp only
    rw [bgPixel_ppuTick hon, spritePixel_ppuTick hon, ← paletteAddr_eq_ofNat]
    have hpixel : (ppuTick s).2.ppu.frameBuffer[i] = (ppuRead (paletteAddr (composite (backgroundPhase s).ppu.bgHere
        (backgroundPhase s).ppu.spriteHere)) (backgroundPhase s)).1.setWidth 6 := by
      rw [ppuTick_frameBuffer_onScreen hon, Fin.getElem_fin]
      simp only [← hi, Vector.getElem_setIfInBounds_self]
    refine ⟨hpixel, fun hu => ?untrapped, ?hit⟩
    case untrapped =>
      rw [hpixel, ppuRead_untrapped _ _ (by rwa [backgroundPhase_ppuBus]), backgroundPhase_ppuBus, backgroundPhase_bufs]
    case hit =>
      rw [ppuTick_status_onScreen hon]
      split
      case isTrue h => rw [h, getLsbD_6_or_0x40, Bool.or_true]
      case isFalse h => rw [Bool.eq_false_of_not_eq_true h, Bool.or_false]

/-! ### The compositor (R392 to R394, R396) -/

theorem toNat_paletteEntry (pal pix : BitVec 2) : (paletteEntry pal pix).toNat = 4 * pal.toNat + pix.toNat := by
  revert pal pix
  decide

theorem toNat_spritePaletteEntry (pal pix : BitVec 2) :
    (0x10 ||| paletteEntry pal pix).toNat = 16 + 4 * pal.toNat + pix.toNat := by
  revert pal pix
  decide

theorem toNat_twoBits (hi lo : Bool) : (twoBits hi lo).toNat = 2 * hi.toNat + lo.toNat := by
  revert hi lo
  decide

theorem spriteZeroHit_bgHidden (sp : SpritePixel) : spriteZeroHit { pix := 0, pal := 0 } sp = false := rfl

theorem spriteZeroHit_spriteHidden (bg : BgPixel) :
    spriteZeroHit bg { pix := 0, pal := 0, behind := false, isZero := false } = false :=
  Bool.and_false _

/-! ### The two layers' pixels (R392, R393) -/

/-- A layer shows at a column if its mask bit is set and the column is not hidden by its left-column bit. -/
theorem shown_iff (on left : Bool) (px : Nat) :
    (on && (decide (8 ≤ px) || left)) = true ↔ on = true ∧ (8 ≤ px ∨ left = true) := by
  simp

theorem SpriteSlot.opaquePixel_iff (k : SpriteSlot) :
    k.opaquePixel = true ↔ k.sprX = 0 ∧ 2 * (k.sprHi.getLsbD 7).toNat + (k.sprLo.getLsbD 7).toNat ≠ 0 := by
  have hpix : k.pix = 0 ↔ 2 * (k.sprHi.getLsbD 7).toNat + (k.sprLo.getLsbD 7).toNat = 0 := by
    rw [← BitVec.toNat_inj, pix, toNat_twoBits]
    rfl
  rw [opaquePixel, Bool.and_eq_true, decide_eq_true_eq, decide_eq_true_eq, ne_eq, hpix]

/-- The slot found is the first that shows an opaque pixel. -/
theorem firstOpaque_eq_some {l : List SpriteSlot} {k : Nat} {slot : SpriteSlot} (hk : l[k]? = some slot)
    (hop : slot.opaquePixel = true) (hlow : ∀ j < k, ∀ r, l[j]? = some r → ¬ r.opaquePixel = true) (i : Nat) :
    firstOpaque l i = some (i + k, slot) := by
  induction l generalizing k i with
  | nil => simp at hk
  | cons r rest ih =>
    cases k with
    | zero =>
      obtain rfl : r = slot := Option.some.inj hk
      rw [firstOpaque, if_pos hop, Nat.add_zero]
    | succ k =>
      rw [firstOpaque, if_neg (hlow 0 (Nat.succ_pos k) r rfl),
        ih hk (fun j hj r' hr' => hlow (j + 1) (Nat.succ_lt_succ hj) r' hr'), Nat.add_right_comm, Nat.add_assoc]

/-- Without an opaque pixel no slot is found. -/
theorem firstOpaque_eq_none {l : List SpriteSlot} (h : ∀ r ∈ l, ¬ r.opaquePixel = true) (i : Nat) :
    firstOpaque l i = none := by
  induction l generalizing i with
  | nil => rfl
  | cons r rest ih =>
    obtain ⟨hr, hrest⟩ := List.forall_mem_cons.mp h
    rw [firstOpaque, if_neg hr, ih hrest]

section
variable {p : Ppu} {px : Nat}

theorem bgPixel_shown (h : p.mask.getLsbD 3 = true ∧ (8 ≤ px ∨ p.mask.getLsbD 1 = true)) : bgPixel p px =
    { pix := twoBits (p.bgShiftHi.getLsbD (15 - p.x.toNat)) (p.bgShiftLo.getLsbD (15 - p.x.toNat)),
      pal := twoBits (p.atShiftHi.getLsbD (15 - p.x.toNat)) (p.atShiftLo.getLsbD (15 - p.x.toNat)) } := by
  rw [bgPixel, if_pos ((shown_iff _ _ _).mpr h)]

theorem bgPixel_notShown (h : ¬ (p.mask.getLsbD 3 = true ∧ (8 ≤ px ∨ p.mask.getLsbD 1 = true))) :
    bgPixel p px = { pix := 0, pal := 0 } := by
  rw [bgPixel, if_neg (mt (shown_iff _ _ _).mp h)]

theorem spritePixel_shown (h : p.mask.getLsbD 4 = true ∧ (8 ≤ px ∨ p.mask.getLsbD 2 = true)) {k : Fin 8}
    (hk : p.slots[k].opaquePixel = true) (hlow : ∀ j < k, ¬ p.slots[j].opaquePixel = true) : spritePixel p px =
    { pix := p.slots[k].pix, pal := p.slots[k].sprAttr.setWidth 2, behind := p.slots[k].sprAttr.getLsbD 5,
      isZero := decide (k = 0) && p.slot0IsSprite0 } := by
  have hfirst : firstOpaque p.slots.toList 0 = some (0 + k.val, p.slots[k]) := by
    refine firstOpaque_eq_some (by simp) hk (fun j hj r hr => ?_) 0
    have hj8 : j < 8 := hj.trans k.isLt
    obtain rfl : p.slots[j] = r := by simpa [hj8] using hr
    exact hlow ⟨j, hj8⟩ hj
  rw [spritePixel, if_pos ((shown_iff _ _ _).mpr h), hfirst, Nat.zero_add]
  simp only [Fin.ext_iff, Fin.val_zero]

theorem spritePixel_none (h : ¬ (p.mask.getLsbD 4 = true ∧ (8 ≤ px ∨ p.mask.getLsbD 2 = true)) ∨
    ∀ k : Fin 8, ¬ p.slots[k].opaquePixel = true) :
    spritePixel p px = { pix := 0, pal := 0, behind := false, isZero := false } := by
  rcases h with h | h
  · rw [spritePixel, if_neg (mt (shown_iff _ _ _).mp h)]
  · have hnone : firstOpaque p.slots.toList 0 = none := by
      refine firstOpaque_eq_none (fun r hr => ?_) 0
      obtain ⟨j, hj, rfl⟩ := Vector.mem_iff_getElem.mp (Vector.mem_toList_iff.mp hr)
      exact h ⟨j, hj⟩
    rw [spritePixel, hnone, ite_self]

end

/-- Settles O57: the rows of the table, no hit from a hidden layer, and each layer's pixel shown and not shown. -/
theorem compositorTable : Obligations.CompositorTable := by
  refine ⟨fun bp bl sp sl behind zero => ?table, fun p hoff px => ?noHit, fun p px => ?background, fun p px => ?sprite⟩
  case table =>
    refine ⟨fun hb hs => ?_, fun hb hs => ?_, fun hb hs => ?_, fun hb hs hf => ?_, fun hb hs hf => ?_, rfl⟩
    · rw [composite, if_pos hs, if_pos hb]
      rfl
    · rw [composite, if_neg hs, if_pos hb, toNat_spritePaletteEntry]
    · rw [composite, if_pos hs, if_neg hb, toNat_paletteEntry]
    · rw [composite, if_neg hs, if_neg hb, if_neg (ne_true_of_eq_false hf), toNat_spritePaletteEntry]
    · rw [composite, if_neg hs, if_neg hb, if_pos hf, toNat_paletteEntry]
  case noHit =>
    rcases hoff with h3 | h4
    · rw [bgPixel_hidden h3, spriteZeroHit_bgHidden]
    · rw [spritePixel_hidden h4, spriteZeroHit_spriteHidden]
  case background =>
    refine ⟨fun hshown => ?_, bgPixel_notShown⟩
    rw [bgPixel_shown hshown]
    exact ⟨toNat_twoBits _ _, toNat_twoBits _ _⟩
  case sprite =>
    simp only [← SpriteSlot.opaquePixel_iff]
    refine ⟨fun k hshown hk hlow => ?_, spritePixel_none⟩
    rw [spritePixel_shown hshown hk hlow]
    exact ⟨toNat_twoBits _ _, BitVec.toNat_setWidth _ _, rfl, rfl⟩

/-! ### Fields of a word -/

/-- A field is the same in two words if its bits are. -/
theorem toNat_field_congr {w : Nat} {v u : BitVec w} (lo n : Nat)
    (h : ∀ i < n, v.getLsbD (lo + i) = u.getLsbD (lo + i)) :
    v.toNat / 2 ^ lo % 2 ^ n = u.toNat / 2 ^ lo % 2 ^ n := by
  refine Nat.eq_of_testBit_eq fun i => ?_
  rw [Nat.testBit_mod_two_pow, Nat.testBit_mod_two_pow, Nat.testBit_div_two_pow, Nat.testBit_div_two_pow]
  by_cases hi : i < n
  · rw [Nat.add_comm, BitVec.testBit_toNat, BitVec.testBit_toNat, h i hi]
  · simp only [decide_eq_false hi, Bool.false_and]

/-- A mask of `n` bits from bit `lo` keeps a field in its place. -/
theorem nat_and_mask (x lo n : Nat) : x &&& (2 ^ n - 1) * 2 ^ lo = x / 2 ^ lo % 2 ^ n * 2 ^ lo := by
  rw [← Nat.shiftLeft_eq, ← Nat.shiftLeft_eq, ← Nat.and_two_pow_sub_one_eq_mod, ← Nat.shiftRight_eq_div_pow]
  refine Nat.eq_of_testBit_eq fun i => ?_
  simp only [Nat.testBit_and, Nat.testBit_shiftLeft, Nat.testBit_shiftRight]
  by_cases h : lo ≤ i
  · simp [h]
  · simp [h]

/-! ### The updates of `v` in its fields (R368 to R371) -/

section
variable (v t : Scroll) {i : Nat} (hi : i < 15)
include hi

theorem getLsbD_copyHorizontal :
    (copyHorizontal v t).getLsbD i = if i < 5 ∨ i = 10 then t.getLsbD i else v.getLsbD i := by
  interval_cases i <;> simp [copyHorizontal]

theorem getLsbD_copyVertical :
    (copyVertical v t).getLsbD i = if i < 5 ∨ i = 10 then v.getLsbD i else t.getLsbD i := by
  interval_cases i <;> simp [copyVertical]

/-- Coarse X at its end: it becomes 0 and bit 10 flips. -/
theorem getLsbD_incCoarseX_wrap (h : v &&& 0x001F = 0x001F) : (incCoarseX v).getLsbD i =
    if i < 5 then false else if i = 10 then !v.getLsbD i else v.getLsbD i := by
  rw [incCoarseX, if_pos h]
  interval_cases i <;> simp

/-- Fine Y and coarse Y at the last row of a nametable: both become 0 and bit 11 flips. -/
theorem getLsbD_incFineY_lastRow (h7 : v &&& 0x7000 = 0x7000) (h29 : v &&& 0x0FFF &&& 0x03E0 = 0x03A0) :
    (incFineY v).getLsbD i = if i < 5 ∨ i = 10 then v.getLsbD i else if i = 11 then !v.getLsbD i else false := by
  rw [incFineY, if_neg (not_not_intro h7), if_pos h29]
  interval_cases i <;> simp

/-- Fine Y and coarse Y at their ends: both become 0. -/
theorem getLsbD_incFineY_wrap (h7 : v &&& 0x7000 = 0x7000) (h31 : v &&& 0x0FFF &&& 0x03E0 = 0x03E0) :
    (incFineY v).getLsbD i = if i < 5 ∨ i = 10 ∨ i = 11 then v.getLsbD i else false := by
  rw [incFineY, if_neg (not_not_intro h7), if_neg (by rw [h31]; decide), if_pos h31]
  interval_cases i <;> simp

end

/-- A masked field compared with a constant of that field. -/
theorem and_mask_eq_iff (v : Scroll) {lo n k : Nat} (hm : (2 ^ n - 1) * 2 ^ lo < 2 ^ 15) (hk : k * 2 ^ lo < 2 ^ 15) :
    v &&& BitVec.ofNat 15 ((2 ^ n - 1) * 2 ^ lo) = BitVec.ofNat 15 (k * 2 ^ lo) ↔ v.toNat / 2 ^ lo % 2 ^ n = k := by
  rw [← BitVec.toNat_inj, BitVec.toNat_and, BitVec.toNat_ofNat, BitVec.toNat_ofNat, Nat.mod_eq_of_lt hm,
    Nat.mod_eq_of_lt hk, nat_and_mask, Nat.mul_left_inj (by positivity)]

theorem coarseX_eq_31_iff (v : Scroll) : v &&& 0x001F = 0x001F ↔ v.toNat % 32 = 31 := by
  have h := and_mask_eq_iff v (lo := 0) (n := 5) (k := 31) (by decide) (by decide)
  rwa [pow_zero, Nat.div_one] at h

theorem fineY_eq_7_iff (v : Scroll) : v &&& 0x7000 = 0x7000 ↔ v.toNat / 4096 = 7 := by
  have h := and_mask_eq_iff v (lo := 12) (n := 3) (k := 7) (by decide) (by decide)
  have hv := v.isLt
  rwa [Nat.mod_eq_of_lt (by omega)] at h

theorem toNat_and_0x0FFF (v : Scroll) : (v &&& 0x0FFF).toNat = v.toNat % 4096 := by
  rw [BitVec.toNat_and]
  exact Nat.and_two_pow_sub_one_eq_mod v.toNat 12

/-- Coarse Y after fine Y was cleared. -/
theorem coarseY_eq_iff (v : Scroll) {k : Nat} (hk : k < 32) :
    v &&& 0x0FFF &&& 0x03E0 = BitVec.ofNat 15 (k * 32) ↔ v.toNat / 32 % 32 = k := by
  have h := and_mask_eq_iff (v &&& 0x0FFF) (lo := 5) (n := 5) (k := k) (by decide) (by omega)
  rw [toNat_and_0x0FFF] at h
  exact h.trans (by omega)

section
variable {v u : Scroll}

theorem coarseX_congr (h : ∀ i < 5, v.getLsbD i = u.getLsbD i) : v.toNat % 32 = u.toNat % 32 := by
  have e := toNat_field_congr (v := v) (u := u) 0 5 fun i hi => by rw [Nat.zero_add, h i hi]
  rwa [pow_zero, Nat.div_one, Nat.div_one] at e

theorem coarseY_congr (h : ∀ i < 5, v.getLsbD (5 + i) = u.getLsbD (5 + i)) :
    v.toNat / 32 % 32 = u.toNat / 32 % 32 :=
  toNat_field_congr 5 5 h

theorem fineY_congr (h : ∀ i < 3, v.getLsbD (12 + i) = u.getLsbD (12 + i)) : v.toNat / 4096 = u.toNat / 4096 := by
  have e := toNat_field_congr 12 3 h
  have hv := v.isLt
  have hu := u.isLt
  rwa [Nat.mod_eq_of_lt (by omega), Nat.mod_eq_of_lt (by omega)] at e

/-- A field of one bit. -/
theorem toNat_bit {w : Nat} (v : BitVec w) (i : Nat) : v.toNat / 2 ^ i % 2 = (v.getLsbD i).toNat :=
  (Nat.toNat_testBit v.toNat i).symm

theorem bit_congr {i : Nat} (h : v.getLsbD i = u.getLsbD i) : v.toNat / 2 ^ i % 2 = u.toNat / 2 ^ i % 2 := by
  rw [toNat_bit, toNat_bit, h]

theorem bit_flip {i : Nat} (h : v.getLsbD i = !u.getLsbD i) : v.toNat / 2 ^ i % 2 = 1 - u.toNat / 2 ^ i % 2 := by
  rw [toNat_bit, toNat_bit, h]
  cases u.getLsbD i <;> rfl

end

/-- The horizontal copy takes coarse X and its nametable bit from `t` (R370). -/
theorem copyHorizontal_fields (v t : Scroll) :
    (copyHorizontal v t).toNat % 32 = t.toNat % 32 ∧
    (copyHorizontal v t).toNat / 1024 % 2 = t.toNat / 1024 % 2 ∧
    (copyHorizontal v t).toNat / 32 % 32 = v.toNat / 32 % 32 ∧
    (copyHorizontal v t).toNat / 2048 % 2 = v.toNat / 2048 % 2 ∧
    (copyHorizontal v t).toNat / 4096 = v.toNat / 4096 := by
  have htaken (i : Nat) (hi : i < 5 ∨ i = 10) : (copyHorizontal v t).getLsbD i = t.getLsbD i := by
    rw [getLsbD_copyHorizontal v t (by omega), if_pos hi]
  have hkept (i : Nat) (h15 : i < 15) (hi : ¬ (i < 5 ∨ i = 10)) : (copyHorizontal v t).getLsbD i = v.getLsbD i := by
    rw [getLsbD_copyHorizontal v t h15, if_neg hi]
  exact ⟨coarseX_congr fun i hi => htaken i (by omega), bit_congr (htaken 10 (by omega)),
    coarseY_congr fun i hi => hkept _ (by omega) (by omega), bit_congr (hkept 11 (by omega) (by omega)),
    fineY_congr fun i hi => hkept _ (by omega) (by omega)⟩

/-- The vertical copy takes the other fields (R371). -/
theorem copyVertical_fields (v t : Scroll) :
    (copyVertical v t).toNat % 32 = v.toNat % 32 ∧
    (copyVertical v t).toNat / 1024 % 2 = v.toNat / 1024 % 2 ∧
    (copyVertical v t).toNat / 32 % 32 = t.toNat / 32 % 32 ∧
    (copyVertical v t).toNat / 2048 % 2 = t.toNat / 2048 % 2 ∧
    (copyVertical v t).toNat / 4096 = t.toNat / 4096 := by
  have hkept (i : Nat) (hi : i < 5 ∨ i = 10) : (copyVertical v t).getLsbD i = v.getLsbD i := by
    rw [getLsbD_copyVertical v t (by omega), if_pos hi]
  have htaken (i : Nat) (h15 : i < 15) (hi : ¬ (i < 5 ∨ i = 10)) : (copyVertical v t).getLsbD i = t.getLsbD i := by
    rw [getLsbD_copyVertical v t h15, if_neg hi]
  exact ⟨coarseX_congr fun i hi => hkept i (by omega), bit_congr (hkept 10 (by omega)),
    coarseY_congr fun i hi => htaken _ (by omega) (by omega), bit_congr (htaken 11 (by omega) (by omega)),
    fineY_congr fun i hi => htaken _ (by omega) (by omega)⟩

/-- The coarse-X increment carries from 31 into the horizontal nametable bit (R368). -/
theorem incCoarseX_fields (v : Scroll) :
    (incCoarseX v).toNat % 32 = (v.toNat % 32 + 1) % 32 ∧
    (incCoarseX v).toNat / 1024 % 2 = (if v.toNat % 32 = 31 then 1 - v.toNat / 1024 % 2 else v.toNat / 1024 % 2) ∧
    (incCoarseX v).toNat / 32 % 32 = v.toNat / 32 % 32 ∧
    (incCoarseX v).toNat / 2048 % 2 = v.toNat / 2048 % 2 ∧
    (incCoarseX v).toNat / 4096 = v.toNat / 4096 := by
  by_cases h : v &&& 0x001F = 0x001F
  · have h31 := (coarseX_eq_31_iff v).mp h
    have hkept (i : Nat) (h15 : i < 15) (h5 : ¬ i < 5) (h10 : i ≠ 10) : (incCoarseX v).getLsbD i = v.getLsbD i := by
      rw [getLsbD_incCoarseX_wrap v h15 h, if_neg h5, if_neg h10]
    rw [h31, if_pos rfl]
    refine ⟨?coarseX, bit_flip (i := 10) ?ntX, coarseY_congr fun i hi => ?coarseY, bit_congr (i := 11) ?ntY,
      fineY_congr fun i hi => ?fineY⟩
    case coarseX =>
      refine coarseX_congr (u := 0) fun i hi => ?_
      rw [getLsbD_incCoarseX_wrap v (by omega) h, if_pos hi]
      exact BitVec.getLsbD_zero.symm
    case ntX => rw [getLsbD_incCoarseX_wrap v (by omega) h, if_neg (by omega), if_pos rfl]
    all_goals exact hkept _ (by omega) (by omega) (by omega)
  · have h31 := mt (coarseX_eq_31_iff v).mpr h
    have hv := v.isLt
    have hv1 : (incCoarseX v).toNat = v.toNat + 1 := by
      rw [incCoarseX, if_neg h]
      exact BitVec.toNat_add_of_lt (by change v.toNat + 1 < 2 ^ 15; omega)
    rw [hv1, if_neg h31]
    omega

/-- The fine-Y increment below the last row of a tile (R369). -/
theorem toNat_incFineY_of_lt (v : Scroll) (h : v.toNat / 4096 < 7) :
    (incFineY v).toNat = v.toNat + 4096 := by
  have h7 : ¬ v &&& 0x7000 = 0x7000 := mt (fineY_eq_7_iff v).mp (by omega)
  rw [incFineY, if_pos h7]
  exact BitVec.toNat_add_of_lt (by change v.toNat + 4096 < 2 ^ 15; omega)

/-- The fine-Y increment's carry inside a nametable (R369). -/
theorem toNat_incFineY_carry (v : Scroll) (h7 : v.toNat / 4096 = 7) (h29 : v.toNat / 32 % 32 ≠ 29)
    (h31 : v.toNat / 32 % 32 ≠ 31) : (incFineY v).toNat = v.toNat % 4096 + 32 := by
  have e29 : ¬ v &&& 0x0FFF &&& 0x03E0 = 0x03A0 := mt (coarseY_eq_iff v (k := 29) (by decide)).mp h29
  have e31 : ¬ v &&& 0x0FFF &&& 0x03E0 = 0x03E0 := mt (coarseY_eq_iff v (k := 31) (by decide)).mp h31
  rw [incFineY, if_neg (not_not_intro ((fineY_eq_7_iff v).mpr h7)), if_neg e29, if_neg e31,
    BitVec.toNat_add_of_lt (by rw [toNat_and_0x0FFF]; change _ + 32 < 2 ^ 15; omega), toNat_and_0x0FFF]
  rfl

/-- The fine-Y increment's carry at the last row of a nametable (R369). -/
theorem incFineY_lastRow_fields (v : Scroll) (h7 : v.toNat / 4096 = 7) (h29 : v.toNat / 32 % 32 = 29) :
    (incFineY v).toNat % 32 = v.toNat % 32 ∧ (incFineY v).toNat / 1024 % 2 = v.toNat / 1024 % 2 ∧
    (incFineY v).toNat / 4096 = 0 ∧ (incFineY v).toNat / 32 % 32 = 0 ∧
    (incFineY v).toNat / 2048 % 2 = 1 - v.toNat / 2048 % 2 := by
  have hbit (i : Nat) (hi : i < 15) := getLsbD_incFineY_lastRow v hi ((fineY_eq_7_iff v).mpr h7)
    ((coarseY_eq_iff v (k := 29) (by decide)).mpr h29)
  have hkept (i : Nat) (hi : i < 5 ∨ i = 10) : (incFineY v).getLsbD i = v.getLsbD i := by
    rw [hbit i (by omega), if_pos hi]
  have hzero (i : Nat) (h15 : i < 15) (hi : ¬ (i < 5 ∨ i = 10)) (h11 : i ≠ 11) :
      (incFineY v).getLsbD i = (0 : Scroll).getLsbD i := by
    rw [hbit i h15, if_neg hi, if_neg h11]
    exact BitVec.getLsbD_zero.symm
  refine ⟨coarseX_congr fun i hi => hkept i (by omega), bit_congr (hkept 10 (by omega)),
    fineY_congr (u := 0) fun i hi => hzero _ (by omega) (by omega) (by omega),
    coarseY_congr (u := 0) fun i hi => hzero _ (by omega) (by omega) (by omega), bit_flip (i := 11) ?_⟩
  rw [hbit 11 (by omega), if_neg (by omega), if_pos rfl]

/-- The fine-Y increment's carry from coarse Y 31 (R369). -/
theorem incFineY_wrap_fields (v : Scroll) (h7 : v.toNat / 4096 = 7) (h31 : v.toNat / 32 % 32 = 31) :
    (incFineY v).toNat % 32 = v.toNat % 32 ∧ (incFineY v).toNat / 1024 % 2 = v.toNat / 1024 % 2 ∧
    (incFineY v).toNat / 4096 = 0 ∧ (incFineY v).toNat / 32 % 32 = 0 ∧
    (incFineY v).toNat / 2048 % 2 = v.toNat / 2048 % 2 := by
  have hbit (i : Nat) (hi : i < 15) := getLsbD_incFineY_wrap v hi ((fineY_eq_7_iff v).mpr h7)
    ((coarseY_eq_iff v (k := 31) (by decide)).mpr h31)
  have hkept (i : Nat) (hi : i < 5 ∨ i = 10 ∨ i = 11) : (incFineY v).getLsbD i = v.getLsbD i := by
    rw [hbit i (by omega), if_pos hi]
  have hzero (i : Nat) (h15 : i < 15) (hi : ¬ (i < 5 ∨ i = 10 ∨ i = 11)) :
      (incFineY v).getLsbD i = (0 : Scroll).getLsbD i := by
    rw [hbit i h15, if_neg hi]
    exact BitVec.getLsbD_zero.symm
  exact ⟨coarseX_congr fun i hi => hkept i (by omega), bit_congr (hkept 10 (by omega)),
    fineY_congr (u := 0) fun i hi => hzero _ (by omega) (by omega),
    coarseY_congr (u := 0) fun i hi => hzero _ (by omega) (by omega), bit_congr (hkept 11 (by omega))⟩

/-- The fine-Y increment carries from 7 into coarse Y, which wraps at 29 into the vertical nametable bit and at 31 without
it (R369). -/
theorem incFineY_fields (v : Scroll) :
    (incFineY v).toNat % 32 = v.toNat % 32 ∧ (incFineY v).toNat / 1024 % 2 = v.toNat / 1024 % 2 ∧
    (incFineY v).toNat / 4096 = (v.toNat / 4096 + 1) % 8 ∧
    (v.toNat / 4096 < 7 → (incFineY v).toNat / 32 % 32 = v.toNat / 32 % 32 ∧
      (incFineY v).toNat / 2048 % 2 = v.toNat / 2048 % 2) ∧
    (v.toNat / 4096 = 7 → v.toNat / 32 % 32 = 29 → (incFineY v).toNat / 32 % 32 = 0 ∧
      (incFineY v).toNat / 2048 % 2 = 1 - v.toNat / 2048 % 2) ∧
    (v.toNat / 4096 = 7 → v.toNat / 32 % 32 ≠ 29 → (incFineY v).toNat / 32 % 32 = (v.toNat / 32 % 32 + 1) % 32 ∧
      (incFineY v).toNat / 2048 % 2 = v.toNat / 2048 % 2) := by
  have hv := v.isLt
  by_cases hlt : v.toNat / 4096 < 7
  · have hadd := toNat_incFineY_of_lt v hlt
    omega
  · have h7 : v.toNat / 4096 = 7 := by omega
    by_cases h29 : v.toNat / 32 % 32 = 29
    · have hrow := incFineY_lastRow_fields v h7 h29
      omega
    · by_cases h31 : v.toNat / 32 % 32 = 31
      · have hwrap := incFineY_wrap_fields v h7 h31
        omega
      · have hcarry := toNat_incFineY_carry v h7 h29 h31
        omega

/-! ### The background phase of a tick (R351, R354) -/

theorem Ppu.renderingActive_iff_or (p : Ppu) : p.renderingActive = true ↔
    (p.mask.getLsbD 3 = true ∨ p.mask.getLsbD 4 = true) ∧ (p.scanline ≤ 239 ∨ p.scanline = 261) := by
  rw [renderingActive_iff, Bool.or_eq_true]

theorem coarseXDot_iff (d : Nat) :
    coarseXDot d = true ↔ (d % 8 = 0 ∧ 8 ≤ d ∧ d ≤ 256) ∨ d = 328 ∨ d = 336 := by
  simp only [coarseXDot, Bool.or_eq_true, Bool.and_eq_true, decide_eq_true_eq, and_assoc, or_assoc]

theorem shiftDot_iff (d : Nat) : shiftDot d = true ↔ (2 ≤ d ∧ d ≤ 257) ∨ (322 ≤ d ∧ d ≤ 337) := by
  simp only [shiftDot, Bool.or_eq_true, Bool.and_eq_true, decide_eq_true_eq]

theorem reloadDot_iff (d : Nat) :
    reloadDot d = true ↔ (d % 8 = 1 ∧ 9 ≤ d ∧ d ≤ 257) ∨ d = 329 ∨ d = 337 := by
  simp only [reloadDot, Bool.or_eq_true, Bool.and_eq_true, decide_eq_true_eq, and_assoc, or_assoc]

theorem fetchDot_iff (d : Nat) : fetchDot d = true ↔ (1 ≤ d ∧ d ≤ 256) ∨ (321 ≤ d ∧ d ≤ 336) := by
  simp only [fetchDot, Bool.or_eq_true, Bool.and_eq_true, decide_eq_true_eq]

/-- At most one of the updates of `v` falls on a dot, but for the two increments on dot 256. -/
theorem updateV_v (p : Ppu) : (updateV p).v =
    if p.dot = 256 then incFineY (incCoarseX p.v)
    else if (p.dot % 8 = 0 ∧ 8 ≤ p.dot ∧ p.dot ≤ 248) ∨ p.dot = 328 ∨ p.dot = 336 then incCoarseX p.v
    else if p.dot = 257 then copyHorizontal p.v p.t
    else if p.scanline = 261 ∧ 280 ≤ p.dot ∧ p.dot ≤ 304 then copyVertical p.v p.t
    else p.v := by
  simp only [updateV, coarseXDot_iff]
  by_cases h256 : p.dot = 256
  · rw [if_neg (by omega), if_neg (by omega), if_pos h256, if_pos (by omega), if_pos h256]
  by_cases hx : (p.dot % 8 = 0 ∧ 8 ≤ p.dot ∧ p.dot ≤ 248) ∨ p.dot = 328 ∨ p.dot = 336
  · rw [if_neg (by omega), if_neg (by omega), if_neg h256, if_pos (by omega), if_neg h256, if_pos hx]
  have hc : ¬ ((p.dot % 8 = 0 ∧ 8 ≤ p.dot ∧ p.dot ≤ 256) ∨ p.dot = 328 ∨ p.dot = 336) := by omega
  rw [if_neg hc, if_neg h256, if_neg h256, if_neg hx]
  by_cases h257 : p.dot = 257
  · rw [if_pos h257, if_neg (by omega), if_pos h257]
  · rw [if_neg h257, if_neg h257]

section
variable {s : State}

/-- With rendering inactive a part of the PPU outside the edges, pixels, sprites and counters stays. -/
theorem ppuTick_field_inactive {α : Type} (h : ¬ s.ppu.renderingActive = true) (f : Ppu → α)
    (hPixel : IgnoresPixel f := by intro; intros; rfl)
    (hSprite : IgnoresSprites f := by intro; intros; rfl)
    (hCount : IgnoresCounters f := by intro; intros; rfl)
    (hEdge : IgnoresEdges f := by intro; intros; rfl) :
    f (ppuTick s).2.ppu = f s.ppu := by
  have he : ¬ (s.withPpu (statusEdges s.ppu)).ppu.renderingActive = true := by
    rwa [withPpu_ppu, statusEdges_field _ Ppu.renderingActive]
  rw [ppuTick_field s f hPixel hSprite hCount, backgroundPhase_inactive he, withPpu_ppu, statusEdges_field _ f hEdge]

/-- The state in which a tick makes its background fetch: after the edges, the shift and the reload. -/
def beforeFetch (s : State) : State := s.withPpu (bgReload (bgShift (statusEdges s.ppu)))

theorem beforeFetch_field {α : Type} (s : State) (f : Ppu → α)
    (hEdge : IgnoresEdges f := by intro; intros; rfl)
    (hShift : IgnoresShift f := by intro; intros; rfl) :
    f (beforeFetch s).ppu = f s.ppu := by
  obtain ⟨a, b, c, d, e⟩ := bgShiftReload_frame (statusEdges s.ppu)
  rw [beforeFetch, withPpu_ppu, e, hShift, statusEdges_field _ f hEdge]

/-- With rendering active a part of the PPU outside pixels, sprites and counters is what phase 2 makes of it. -/
theorem ppuTick_field_active {α : Type} (h : s.ppu.renderingActive = true) (f : Ppu → α)
    (hPixel : IgnoresPixel f := by intro; intros; rfl)
    (hSprite : IgnoresSprites f := by intro; intros; rfl)
    (hCount : IgnoresCounters f := by intro; intros; rfl) :
    f (ppuTick s).2.ppu = f (updateV (bgFetch (beforeFetch s)).ppu) := by
  have he : (s.withPpu (statusEdges s.ppu)).ppu.renderingActive = true := by
    rwa [withPpu_ppu, statusEdges_field _ Ppu.renderingActive]
  have hslots (p : Ppu) : f (spriteUpdate p) = f p := by
    rw [spriteUpdate]
    split
    · exact hSprite p p.secondaryOam p.secCount p.secHasSprite0 _ p.slot0IsSprite0
    · rfl
  rw [ppuTick_field s f hPixel hSprite hCount, backgroundPhase, if_pos he]
  exact hslots _

end

/-! ### The scroll register in a tick (R368 to R372) -/

/-- The position and both scroll registers stand at the updates of `v` as before the tick. -/
theorem updateV_bgFetch_beforeFetch (s : State) : (updateV (bgFetch (beforeFetch s)).ppu).v = (updateV s.ppu).v := by
  obtain ⟨nt, pal, lo, hi, e, -⟩ := bgFetch_frame (beforeFetch s)
  rw [e]
  exact beforeFetch_field s (fun p => (updateV p).v)

/-- Settles O58: the four updates field by field, then which of them falls on the dot. -/
theorem scrollUpdates : Obligations.ScrollUpdates := by
  refine ⟨fun v t => ⟨incCoarseX_fields v, incFineY_fields v, copyHorizontal_fields v t, copyVertical_fields v t⟩,
    fun s => ?t, fun s hoff => ?inactive, fun s hmask hline => ?active⟩
  case t => exact (congrArg Ppu.t (ppuTick_kept s) :)
  case inactive => exact ppuTick_field_inactive (mt s.ppu.renderingActive_iff_or.mp hoff) Ppu.v
  case active =>
    rw [ppuTick_field_active (s.ppu.renderingActive_iff_or.mpr ⟨hmask, hline⟩) Ppu.v, updateV_bgFetch_beforeFetch]
    exact updateV_v s.ppu

/-! ### The addresses of the background pipeline (R363, R364, R366) -/

theorem toNat_scrollAddr (v : Scroll) : (scrollAddr v).toNat = v.toNat :=
  BitVec.toNat_setWidth_of_le (by decide)

/-- `or` of a multiple of a power of two and a smaller number is their sum. -/
theorem nat_or_eq_add {a b : Nat} (i : Nat) (ha : a % 2 ^ i = 0) (hb : b < 2 ^ i) : a ||| b = a + b := by
  obtain ⟨c, rfl⟩ := Nat.dvd_of_mod_eq_zero ha
  exact (Nat.two_pow_add_eq_or_of_lt hb c).symm

theorem toNat_nametableAddr (v : Scroll) : (nametableAddr v).toNat = 0x2000 + v.toNat % 4096 := by
  have hlow : (scrollAddr v).toNat &&& 0x0FFF = v.toNat % 4096 := by
    rw [toNat_scrollAddr]
    exact Nat.and_two_pow_sub_one_eq_mod v.toNat 12
  rw [nametableAddr, BitVec.toNat_or, BitVec.toNat_and]
  exact (congrArg (0x2000 ||| ·) hlow).trans (nat_or_eq_add 12 (by decide) (by omega))

theorem toNat_attributeAddr (v : Scroll) : (attributeAddr v).toNat =
    0x23C0 + v.toNat / 1024 % 4 * 1024 + v.toNat / 32 % 32 / 4 * 8 + v.toNat % 32 / 4 := by
  have hnt : (scrollAddr v).toNat &&& 0x0C00 = v.toNat / 1024 % 4 * 1024 := by
    rw [toNat_scrollAddr]
    exact nat_and_mask v.toNat 10 2
  have hy : (scrollAddr v >>> 4).toNat &&& 0x38 = v.toNat / 32 % 32 / 4 * 8 := by
    rw [BitVec.toNat_ushiftRight, toNat_scrollAddr, Nat.shiftRight_eq_div_pow]
    exact (nat_and_mask (v.toNat / 2 ^ 4) 3 3).trans (by omega)
  have hx : (scrollAddr v >>> 2).toNat &&& 0x07 = v.toNat % 32 / 4 := by
    rw [BitVec.toNat_ushiftRight, toNat_scrollAddr, Nat.shiftRight_eq_div_pow]
    exact (Nat.and_two_pow_sub_one_eq_mod (v.toNat / 2 ^ 2) 3).trans (by omega)
  have hbase : 0x23C0 ||| v.toNat / 1024 % 4 * 1024 = 0x23C0 + v.toNat / 1024 % 4 * 1024 := by
    have hlt : v.toNat / 1024 % 4 < 4 := Nat.mod_lt _ (by decide)
    generalize v.toNat / 1024 % 4 = k at hlt
    interval_cases k <;> rfl
  have hall : (attributeAddr v).toNat = 0x23C0 ||| ((scrollAddr v).toNat &&& 0x0C00) |||
      ((scrollAddr v >>> 4).toNat &&& 0x38) ||| ((scrollAddr v >>> 2).toNat &&& 0x07) := rfl
  rw [hall, hnt, hy, hx, hbase, nat_or_eq_add (b := v.toNat / 32 % 32 / 4 * 8) 6 (by omega) (by omega),
    nat_or_eq_add 3 (by omega) (by omega)]

theorem toNat_and_3 (b : Byte) : (b &&& 3).toNat = b.toNat % 4 := Nat.and_two_pow_sub_one_eq_mod b.toNat 2

theorem toNat_attributeBits (v : Scroll) (b : Byte) : (attributeBits v b).toNat =
    b.toNat / (if v.toNat / 32 % 32 / 2 % 2 = 1 then 16 else 1) / (if v.toNat % 32 / 2 % 2 = 1 then 4 else 1) % 4 := by
  have hbit (i : Nat) : v.getLsbD i = true ↔ v.toNat / 2 ^ i % 2 = 1 := by
    rw [toNat_bit, Bool.toNat_eq_one]
  have h6 : v.getLsbD 6 = true ↔ v.toNat / 32 % 32 / 2 % 2 = 1 := (hbit 6).trans (by omega)
  have h1 : v.getLsbD 1 = true ↔ v.toNat % 32 / 2 % 2 = 1 := (hbit 1).trans (by omega)
  simp only [attributeBits, h6, h1, toNat_and_3, apply_ite BitVec.toNat, BitVec.toNat_ushiftRight,
    Nat.shiftRight_eq_div_pow]
  split <;> split <;> omega

/-- The address of a row of a tile in one of the two pattern tables. -/
theorem toNat_patternByte (table : Bool) (tile : Byte) {row : Addr} (hrow : row.toNat < 8) :
    ((if table then (0x1000 : Addr) else 0x0000) ||| (tile.setWidth 16 <<< 4) ||| row).toNat =
      (if table then 4096 else 0) + tile.toNat * 16 + row.toNat := by
  have htile : (tile.setWidth 16 <<< 4).toNat = tile.toNat * 16 := by
    have := tile.isLt
    rw [BitVec.toNat_shiftLeft, BitVec.toNat_setWidth, Nat.shiftLeft_eq]
    omega
  have htable : (if table then (0x1000 : Addr) else 0x0000).toNat = if table then 4096 else 0 := by
    cases table <;> rfl
  have := tile.isLt
  rw [BitVec.toNat_or, BitVec.toNat_or, htile, htable,
    nat_or_eq_add (a := if table then 4096 else 0) 12 (by split <;> rfl) (by omega),
    nat_or_eq_add 4 (by split <;> omega) (by omega)]

theorem toNat_patternAddr (p : Ppu) : (patternAddr p).toNat =
    (if p.ctrl.getLsbD 4 then 4096 else 0) + p.ntLatch.toNat * 16 + p.v.toNat / 4096 := by
  have hrow : (scrollAddr p.v >>> 12).toNat = p.v.toNat / 4096 := by
    rw [BitVec.toNat_ushiftRight, toNat_scrollAddr, Nat.shiftRight_eq_div_pow]
  have := p.v.isLt
  rw [patternAddr, toNat_patternByte _ _ (by omega), hrow]

/-! ### The address of a sprite's pattern (R383) -/

/-- The row of the sprite in entry `k` that the line shows, vertical flip honoured. -/
def Ppu.spriteRow (p : Ppu) (k : Nat) : Byte :=
  if (p.secByte k 2).getLsbD 7 then BitVec.ofNat 8 (p.spriteHeight - 1) - (BitVec.ofNat 8 p.scanline - p.secByte k 0)
  else BitVec.ofNat 8 p.scanline - p.secByte k 0

section
variable {p : Ppu} {k : Nat}

theorem Ppu.toNat_spriteRow (hline : p.scanline ≤ 239) (hy : (p.secByte k 0).toNat ≤ p.scanline)
    (hh : p.scanline < (p.secByte k 0).toNat + p.spriteHeight) : (p.spriteRow k).toNat =
      if (p.secByte k 2).getLsbD 7 then p.spriteHeight - 1 - (p.scanline - (p.secByte k 0).toNat)
      else p.scanline - (p.secByte k 0).toNat := by
  have hheight : p.spriteHeight = 8 ∨ p.spriteHeight = 16 := by
    rw [spriteHeight]
    split
    · exact .inr rfl
    · exact .inl rfl
  have hofNat (n : Nat) (hn : n < 256) : (BitVec.ofNat 8 n).toNat = n := by
    rw [BitVec.toNat_ofNat, Nat.mod_eq_of_lt hn]
  have hrow0 : (BitVec.ofNat 8 p.scanline - p.secByte k 0).toNat = p.scanline - (p.secByte k 0).toNat := by
    have hle : p.secByte k 0 ≤ BitVec.ofNat 8 p.scanline := by
      rw [BitVec.le_def, hofNat _ (by omega)]
      exact hy
    rw [BitVec.toNat_sub_of_le hle, hofNat _ (by omega)]
  rw [spriteRow]
  split
  · have hle : BitVec.ofNat 8 p.scanline - p.secByte k 0 ≤ BitVec.ofNat 8 (p.spriteHeight - 1) := by
      rw [BitVec.le_def, hofNat _ (by omega), hrow0]
      omega
    rw [BitVec.toNat_sub_of_le hle, hofNat _ (by omega), hrow0]
  · exact hrow0

theorem toNat_lowRow (row : Byte) : ((row &&& 7).setWidth 16 : Addr).toNat = row.toNat % 8 := by
  rw [BitVec.toNat_setWidth_of_le (by decide)]
  exact Nat.and_two_pow_sub_one_eq_mod row.toNat 3

theorem toNat_spriteAddr_8x8 (h : p.ctrl.getLsbD 5 = false) (hrow : (p.spriteRow k).toNat < 8) :
    (spriteAddr p k).toNat =
      (if p.ctrl.getLsbD 3 then 4096 else 0) + (p.secByte k 1).toNat * 16 + (p.spriteRow k).toNat := by
  have hheight : p.spriteHeight = 8 := by rw [Ppu.spriteHeight, if_neg (ne_true_of_eq_false h)]
  have hlow := toNat_lowRow (p.spriteRow k)
  rw [Nat.mod_eq_of_lt hrow] at hlow
  rw [spriteAddr, if_pos hheight]
  exact (toNat_patternByte _ _ (hlow.trans_lt hrow)).trans (by rw [hlow])

/-- The upper or the lower tile of a tall sprite: the even tile number and bit 3 of the row. -/
theorem toNat_tallTile (tile row : Byte) (hrow : row.toNat < 16) :
    ((tile &&& 0xFE) + if row.getLsbD 3 then 1 else 0).toNat = tile.toNat / 2 * 2 + row.toNat / 8 := by
  have heven : (tile &&& 0xFE).toNat = tile.toNat / 2 * 2 := by
    have := tile.isLt
    rw [BitVec.toNat_and]
    exact (nat_and_mask tile.toNat 1 7).trans (by omega)
  have hhalf : (if row.getLsbD 3 then 1 else 0 : Byte).toNat = row.toNat / 8 := by
    have hbit : (row.getLsbD 3).toNat = row.toNat / 8 := (toNat_bit row 3).symm.trans (by omega)
    rw [← hbit]
    cases row.getLsbD 3 <;> rfl
  have := tile.isLt
  rw [BitVec.toNat_add_of_lt (by rw [heven, hhalf]; omega), heven, hhalf]

theorem toNat_spriteAddr_8x16 (h : p.ctrl.getLsbD 5 = true) (hrow : (p.spriteRow k).toNat < 16) :
    (spriteAddr p k).toNat = (p.secByte k 1).toNat % 2 * 4096 +
      ((p.secByte k 1).toNat / 2 * 2 + (p.spriteRow k).toNat / 8) * 16 + (p.spriteRow k).toNat % 8 := by
  have hheight : ¬ p.spriteHeight = 8 := by rw [Ppu.spriteHeight, if_pos h]; decide
  have hlow := toNat_lowRow (p.spriteRow k)
  have htable : (if (p.secByte k 1).getLsbD 0 then 4096 else 0) = (p.secByte k 1).toNat % 2 * 4096 := by
    have hbit : ((p.secByte k 1).getLsbD 0).toNat = (p.secByte k 1).toNat % 2 := (toNat_bit _ 0).symm.trans (by omega)
    rw [← hbit]
    cases (p.secByte k 1).getLsbD 0 <;> rfl
  rw [spriteAddr, if_neg hheight]
  refine (toNat_patternByte _ _ (hlow.trans_lt (Nat.mod_lt _ (by decide)))).trans ?_
  rw [hlow, htable, ← toNat_tallTile _ _ hrow]
  rfl

/-- The sprite pattern address on every line the entry's range includes. -/
theorem toNat_spriteAddr (hline : p.scanline ≤ 239) (hy : (p.secByte k 0).toNat ≤ p.scanline)
    (hh : p.scanline < (p.secByte k 0).toNat + if p.ctrl.getLsbD 5 then 16 else 8) :
    let tile := (p.secByte k 1).toNat
    let h := if p.ctrl.getLsbD 5 then 16 else 8
    let row := if (p.secByte k 2).getLsbD 7 then h - 1 - (p.scanline - (p.secByte k 0).toNat)
      else p.scanline - (p.secByte k 0).toNat
    (p.ctrl.getLsbD 5 = false →
      (spriteAddr p k).toNat = (if p.ctrl.getLsbD 3 then 4096 else 0) + tile * 16 + row) ∧
    (p.ctrl.getLsbD 5 = true →
      (spriteAddr p k).toNat = tile % 2 * 4096 + (tile / 2 * 2 + row / 8) * 16 + row % 8) := by
  have hrow := p.toNat_spriteRow hline hy hh
  have hlt : (p.spriteRow k).toNat < p.spriteHeight := by
    change _ < _ + p.spriteHeight at hh
    rw [hrow]
    split <;> omega
  dsimp only
  change (p.spriteRow k).toNat = if _ then (if p.ctrl.getLsbD 5 then 16 else 8) - 1 - _ else _ at hrow
  rw [← hrow]
  rw [Ppu.spriteHeight] at hlt
  refine ⟨fun h => ?_, fun h => ?_⟩
  · rw [if_neg (ne_true_of_eq_false h)] at hlt
    exact toNat_spriteAddr_8x8 h hlt
  · rw [if_pos h] at hlt
    exact toNat_spriteAddr_8x16 h hlt

end

/-! ### The background pipeline of a tick (R360 to R367, R372) -/

/-- The fetch step as the latches it leaves. -/
theorem bgFetch_ppu (s : State) : (bgFetch s).ppu = { s.ppu with
    ntLatch := if fetchDot s.ppu.dot = true ∧ s.ppu.dot % 8 = 1 then (ppuRead (nametableAddr s.ppu.v) s).1
      else s.ppu.ntLatch,
    atLatch := if fetchDot s.ppu.dot = true ∧ s.ppu.dot % 8 = 3 then
        attributeBits s.ppu.v (ppuRead (attributeAddr s.ppu.v) s).1
      else s.ppu.atLatch,
    bgLoLatch := if fetchDot s.ppu.dot = true ∧ s.ppu.dot % 8 = 5 then (ppuRead (patternAddr s.ppu) s).1
      else s.ppu.bgLoLatch,
    bgHiLatch := if fetchDot s.ppu.dot = true ∧ s.ppu.dot % 8 = 7 then (ppuRead (patternAddr s.ppu + 8) s).1
      else s.ppu.bgHiLatch } := by
  rw [bgFetch]
  split
  case isTrue hfetch =>
    split
    case h_5 h1 h3 h5 h7 => simp only [hfetch, true_and, if_neg h1, if_neg h3, if_neg h5, if_neg h7]
    all_goals
      rename_i h8
      simp [hfetch, h8]
  case isFalse hfetch => simp [hfetch]

/-- A shifter shifted, then its low half reloaded from `low`, each on its dots. -/
def movedShifter (d : Nat) (r : BitVec 16) (low : Byte) : BitVec 16 :=
  let r1 := if shiftDot d then r <<< 1 else r
  if reloadDot d then reloadLow r1 low else r1

theorem bgReload_bgShift (p : Ppu) : bgReload (bgShift p) = { p with
    bgShiftLo := movedShifter p.dot p.bgShiftLo p.bgLoLatch, bgShiftHi := movedShifter p.dot p.bgShiftHi p.bgHiLatch,
    atShiftLo := movedShifter p.dot p.atShiftLo (if p.atLatch.getLsbD 0 then 0xFF else 0x00),
    atShiftHi := movedShifter p.dot p.atShiftHi (if p.atLatch.getLsbD 1 then 0xFF else 0x00) } := by
  unfold bgReload bgShift movedShifter
  by_cases hs : shiftDot p.dot = true <;> by_cases hr : reloadDot p.dot = true <;> simp [hs, hr]

theorem reloadLow_eq_ofNat (r : BitVec 16) (b : Byte) :
    reloadLow r b = BitVec.ofNat 16 (r.toNat / 256 * 256 + b.toNat) := by
  have hr := r.isLt
  have hb := b.isLt
  have hhigh : r.toNat &&& 0xFF00 = r.toNat / 256 * 256 := (nat_and_mask r.toNat 8 8).trans (by omega)
  have hlow : (b.setWidth 16).toNat = b.toNat := BitVec.toNat_setWidth_of_le (by decide)
  apply BitVec.eq_of_toNat_eq
  rw [reloadLow, BitVec.toNat_or, BitVec.toNat_and, hlow, BitVec.toNat_ofNat]
  change (r.toNat &&& 0xFF00) ||| _ = _
  rw [hhigh, nat_or_eq_add 8 (by omega) hb]
  omega

theorem shiftLeft_one_eq_ofNat {w : Nat} (r : BitVec w) : r <<< 1 = BitVec.ofNat w (2 * r.toNat) := by
  apply BitVec.eq_of_toNat_eq
  rw [BitVec.toNat_shiftLeft, BitVec.toNat_ofNat, Nat.shiftLeft_eq, pow_one, Nat.mul_comm]

theorem movedShifter_eq (d : Nat) (r : BitVec 16) (low : Byte) : movedShifter d r low =
    let r1 := if (2 ≤ d ∧ d ≤ 257) ∨ (322 ≤ d ∧ d ≤ 337) then BitVec.ofNat 16 (2 * r.toNat) else r
    if (d % 8 = 1 ∧ 9 ≤ d ∧ d ≤ 257) ∨ d = 329 ∨ d = 337 then BitVec.ofNat 16 (r1.toNat / 256 * 256 + low.toNat)
    else r1 := by
  simp only [movedShifter, shiftDot_iff, reloadDot_iff, reloadLow_eq_ofNat, shiftLeft_one_eq_ofNat]

/-- The state before the fetch, with the shifters shifted and reloaded. -/
theorem beforeFetch_ppu (s : State) : (beforeFetch s).ppu = { statusEdges s.ppu with
    bgShiftLo := movedShifter s.ppu.dot s.ppu.bgShiftLo s.ppu.bgLoLatch,
    bgShiftHi := movedShifter s.ppu.dot s.ppu.bgShiftHi s.ppu.bgHiLatch,
    atShiftLo := movedShifter s.ppu.dot s.ppu.atShiftLo (if s.ppu.atLatch.getLsbD 0 then 0xFF else 0x00),
    atShiftHi := movedShifter s.ppu.dot s.ppu.atShiftHi (if s.ppu.atLatch.getLsbD 1 then 0xFF else 0x00) } := by
  obtain ⟨st, sl, z, e⟩ := statusEdges_frame s.ppu
  rw [beforeFetch, withPpu_ppu, bgReload_bgShift, e]

/-- The shift and the reload do not reach `PpuBus`. -/
theorem ppuRead_beforeFetch (a : Addr) (s : State) : (ppuRead a (beforeFetch s)).1 = (ppuRead a s).1 := by
  rw [beforeFetch, ppuRead_withPpu]

/-- The latches and shifters of the background pipeline (R34, R35). -/
def Ppu.pipeline (p : Ppu) : Byte × Byte × Byte × Byte × BitVec 16 × BitVec 16 × BitVec 16 × BitVec 16 :=
  (p.ntLatch, p.atLatch, p.bgLoLatch, p.bgHiLatch, p.bgShiftLo, p.bgShiftHi, p.atShiftLo, p.atShiftHi)

section
variable {s : State}

theorem ppuTick_pipeline_inactive (h : ¬ s.ppu.renderingActive = true) :
    (ppuTick s).2.ppu.pipeline = s.ppu.pipeline :=
  ppuTick_field_inactive h Ppu.pipeline

/-- With rendering active: the fetch of this dot into its latch, the shifters moved before it. -/
theorem ppuTick_pipeline_active (h : s.ppu.renderingActive = true) : (ppuTick s).2.ppu.pipeline =
    let fetch := fetchDot s.ppu.dot = true
    (if fetch ∧ s.ppu.dot % 8 = 1 then (ppuRead (nametableAddr s.ppu.v) s).1 else s.ppu.ntLatch,
     if fetch ∧ s.ppu.dot % 8 = 3 then attributeBits s.ppu.v (ppuRead (attributeAddr s.ppu.v) s).1 else s.ppu.atLatch,
     if fetch ∧ s.ppu.dot % 8 = 5 then (ppuRead (patternAddr s.ppu) s).1 else s.ppu.bgLoLatch,
     if fetch ∧ s.ppu.dot % 8 = 7 then (ppuRead (patternAddr s.ppu + 8) s).1 else s.ppu.bgHiLatch,
     movedShifter s.ppu.dot s.ppu.bgShiftLo s.ppu.bgLoLatch, movedShifter s.ppu.dot s.ppu.bgShiftHi s.ppu.bgHiLatch,
     movedShifter s.ppu.dot s.ppu.atShiftLo (if s.ppu.atLatch.getLsbD 0 then 0xFF else 0x00),
     movedShifter s.ppu.dot s.ppu.atShiftHi (if s.ppu.atLatch.getLsbD 1 then 0xFF else 0x00)) := by
  have hv (p : Ppu) : (updateV p).pipeline = p.pipeline := rfl
  obtain ⟨st, sl, z, e⟩ := statusEdges_frame s.ppu
  rw [ppuTick_field_active h Ppu.pipeline, hv, bgFetch_ppu]
  simp only [ppuRead_beforeFetch, beforeFetch_ppu, e]
  rfl

end

/-- Settles O56: the addresses as arithmetic, then the pipeline of a tick with rendering active and inactive. -/
theorem fetchAddresses : Obligations.FetchAddresses := by
  refine ⟨fun p v b => ⟨toNat_nametableAddr v, toNat_attributeAddr v, toNat_attributeBits v b, toNat_patternAddr p⟩,
    fun p k hline hy hh => toNat_spriteAddr hline hy hh, fun s hmask hline => ?active, fun s hoff => ?inactive⟩
  case active =>
    have h := ppuTick_pipeline_active (s.ppu.renderingActive_iff_or.mpr ⟨hmask, hline⟩)
    simp only [Ppu.pipeline, Prod.mk.injEq, movedShifter_eq, fetchDot_iff] at h
    exact h
  case inactive =>
    have h := ppuTick_pipeline_inactive (mt s.ppu.renderingActive_iff_or.mp hoff)
    simpa only [Ppu.pipeline, Prod.mk.injEq] using h

/-! ### Sprite evaluation (R378) -/

/-- The entries among the first `n` of primary OAM that the scan takes: the first eight in range. -/
def Ppu.chosen (p : Ppu) (n : Nat) : List Nat := ((List.range n).filter p.spriteInRange).take 8

section
variable {p : Ppu} {n : Nat}

theorem Ppu.length_chosen_le (p : Ppu) (n : Nat) : (p.chosen n).length ≤ 8 := List.length_take_le _ _

theorem Ppu.chosen_succ_taken (h : p.spriteInRange n = true) (hlt : (p.chosen n).length < 8) :
    p.chosen (n + 1) = p.chosen n ++ [n] := by
  have hlen : ((List.range n).filter p.spriteInRange).length < 8 := by
    rw [chosen, List.length_take] at hlt
    omega
  rw [chosen, chosen, List.range_succ, List.filter_append, List.filter_singleton, h, List.take_of_length_le hlen.le,
    List.take_of_length_le]
  · rfl
  · rw [List.length_append]
    exact hlen

theorem Ppu.chosen_succ_skipped (h : ¬ (p.spriteInRange n = true ∧ (p.chosen n).length < 8)) :
    p.chosen (n + 1) = p.chosen n := by
  rw [chosen, chosen, List.range_succ, List.filter_append, List.filter_singleton]
  by_cases hin : p.spriteInRange n = true
  · have hlen : 8 ≤ ((List.range n).filter p.spriteInRange).length := by
      have hfull : ¬ (p.chosen n).length < 8 := fun hlt => h ⟨hin, hlt⟩
      rw [chosen, List.length_take] at hfull
      omega
    rw [List.take_append_of_le_length hlen]
  · rw [Bool.eq_false_of_not_eq_true hin, cond_false, List.append_nil]

end

/-- Byte `j` of entry `k` of a secondary OAM. -/
theorem Ppu.secByte_eq_getElem (p : Ppu) {k j : Nat} (h : 4 * k + j < 32) :
    p.secByte k j = p.secondaryOam[4 * k + j] := by
  rw [secByte, List.getD_eq_getElem?_getD, Vector.getElem?_toList, Vector.getElem?_eq_getElem h, Option.getD_some]

/-- A copied entry: its four bytes, the other entries kept. -/
theorem copyEntry_getElem (p : Ppu) (n : Nat) {m k j : Nat} (hm : m < 8) (hj : j < 4) :
    (copyEntry p n k)[4 * m + j] = if m = k then p.oamByte n j else p.secByte m j := by
  rw [p.secByte_eq_getElem (by omega)]
  simp only [copyEntry, Vector.getElem_setIfInBounds]
  by_cases hk : m = k
  · subst hk
    rw [if_pos rfl]
    interval_cases j <;> simp
  · rw [if_neg hk, if_neg (by omega), if_neg (by omega), if_neg (by omega), if_neg (by omega)]

/-- The scan reads primary OAM, the line and the sprite height, which it leaves alone. -/
theorem evalEntries_inputs (n : Nat) (p : Ppu) :
    (evalEntries n p).spriteInRange = p.spriteInRange ∧ (evalEntries n p).oamByte = p.oamByte := by
  obtain ⟨sec, k, z, e, -⟩ := evalEntries_frame n p
  rw [e]
  exact ⟨rfl, rfl⟩

theorem getElem?_append_singleton {α : Type} (l : List α) (a : α) (k : Nat) :
    (l ++ [a])[k]? = if k = l.length then some a else l[k]? := by
  split
  case isTrue h => rw [h, List.getElem?_concat_length]
  case isFalse h =>
    rcases Nat.lt_or_gt_of_ne h with hlt | hgt
    · exact List.getElem?_append_left hlt
    · rw [List.getElem?_eq_none hgt.le, List.getElem?_eq_none (by rw [List.length_append]; exact hgt)]

/-- After the first `n` entries: how many were taken, whether entry 0 is one, and the bytes of secondary OAM. -/
theorem evalEntries_chosen (p : Ppu) (h0 : p.secCount = 0) (hz : p.secHasSprite0 = false) (n : Nat) :
    (evalEntries n p).secCount = (p.chosen n).length ∧
    (evalEntries n p).secHasSprite0 = (decide (0 < n) && p.spriteInRange 0) ∧
    ∀ k < 8, ∀ j < 4, (evalEntries n p).secByte k j = ((p.chosen n)[k]?.map (p.oamByte · j)).getD (p.secByte k j) := by
  induction n with
  | zero => exact ⟨h0, hz, fun k hk j hj => rfl⟩
  | succ n ih =>
    obtain ⟨ihCount, ihZero, ihBytes⟩ := ih
    obtain ⟨hrange, hbyte⟩ := evalEntries_inputs n p
    rw [evalEntries, evalEntry, hrange, ihCount]
    by_cases htaken : p.spriteInRange n = true ∧ (p.chosen n).length < 8
    · rw [if_pos htaken, Ppu.chosen_succ_taken htaken.1 htaken.2, List.length_append]
      refine ⟨rfl, ?_, fun k hk j hj => ?_⟩
      · dsimp only
        rw [ihZero]
        cases n with
        | zero => exact htaken.1.symm
        | succ n => simp
      · rw [Ppu.secByte_eq_getElem _ (by omega)]
        dsimp only
        rw [copyEntry_getElem _ n hk hj, hbyte, getElem?_append_singleton]
        split
        · rfl
        · exact ihBytes k hk j hj
    · rw [if_neg htaken, Ppu.chosen_succ_skipped htaken]
      refine ⟨ihCount, ihZero.trans ?_, ihBytes⟩
      cases n with
      | zero => exact (Bool.eq_false_of_not_eq_true fun h => htaken ⟨h, Nat.zero_lt_succ 7⟩).symm
      | succ n => simp

/-- The evaluation on dot 256. -/
theorem spriteEvaluation_chosen {p : Ppu} (hd : p.dot = 256) :
    (spriteEvaluation p).secCount = (p.chosen 64).length ∧
    (spriteEvaluation p).secHasSprite0 = p.spriteInRange 0 ∧
    ∀ k < 8, ∀ j < 4, (spriteEvaluation p).secByte k j =
      ((p.chosen 64)[k]?.map (p.oamByte · j)).getD (p.secByte k j) := by
  rw [spriteEvaluation, if_pos hd]
  exact evalEntries_chosen { p with secCount := 0, secHasSprite0 := false } rfl rfl 64

theorem spriteEvaluation_frame (p : Ppu) : spriteEvaluation p = { p with
    secondaryOam := (spriteEvaluation p).secondaryOam, secCount := (spriteEvaluation p).secCount,
    secHasSprite0 := (spriteEvaluation p).secHasSprite0 } := by
  rw [spriteEvaluation]
  split
  · obtain ⟨sec, k, z, e, -⟩ := evalEntries_frame 64 { p with secCount := 0, secHasSprite0 := false }
    rw [e]
  · rfl

theorem Ppu.spriteInRange_eq (p : Ppu) : p.spriteInRange = fun n => decide ((p.oamByte n 0).toNat ≤ p.scanline ∧
    p.scanline < (p.oamByte n 0).toNat + if p.ctrl.getLsbD 5 then 16 else 8) :=
  funext fun _ => (Bool.decide_and _ _).symm

/-- The copied entries are those chosen, and the entries behind them are kept. -/
theorem spriteEvaluation_firstEight {p : Ppu} (hd : p.dot = 256) :
    (∀ k n, (p.chosen 64)[k]? = some n → ∀ j < 4, (spriteEvaluation p).secByte k j = p.oamByte n j) ∧
    ∀ k j, (p.chosen 64).length ≤ k → k < 8 → j < 4 → (spriteEvaluation p).secByte k j = p.secByte k j := by
  obtain ⟨-, -, hbytes⟩ := spriteEvaluation_chosen hd
  refine ⟨fun k n hk j hj => ?_, fun k j hlen hk hj => ?_⟩
  · obtain ⟨hlt, -⟩ := List.getElem?_eq_some_iff.mp hk
    rw [hbytes k (hlt.trans_le (p.length_chosen_le 64)) j hj, hk]
    rfl
  · rw [hbytes k hk j hj, List.getElem?_eq_none hlen]
    rfl

/-! ### The evaluation inside a tick -/

/-- What the scan of phase 4 reads of the PPU. -/
def Ppu.scanInput (p : Ppu) : Vector Byte 256 × Nat × Nat × Byte × Vector Byte 32 × Nat × Bool :=
  (p.oam, p.dot, p.scanline, p.ctrl, p.secondaryOam, p.secCount, p.secHasSprite0)

section
variable {p q : Ppu}

theorem evalEntry_scanInput_congr (h : p.scanInput = q.scanInput) (n : Nat) :
    (evalEntry p n).scanInput = (evalEntry q n).scanInput := by
  simp only [Ppu.scanInput, Prod.mk.injEq] at h
  obtain ⟨hoam, hdot, hline, hctrl, hsec, hcount, hzero⟩ := h
  have hbyte : p.oamByte = q.oamByte := by unfold Ppu.oamByte; rw [hoam]
  have hrange : p.spriteInRange n = q.spriteInRange n := by
    rw [Ppu.spriteInRange_eq, Ppu.spriteInRange_eq, hbyte, hline, hctrl]
  have hcopy (k : Nat) : copyEntry p n k = copyEntry q n k := by simp only [copyEntry, hbyte, hsec]
  simp only [evalEntry, hrange, hcount, hzero, hcopy]
  split <;> simp only [Ppu.scanInput, hoam, hdot, hline, hctrl, hsec, hcount, hzero]

theorem evalEntries_scanInput_congr (h : p.scanInput = q.scanInput) (n : Nat) :
    (evalEntries n p).scanInput = (evalEntries n q).scanInput := by
  induction n with
  | zero => exact h
  | succ n ih => exact evalEntry_scanInput_congr ih n

theorem spriteEvaluation_scanInput_congr (h : p.scanInput = q.scanInput) :
    (spriteEvaluation p).scanInput = (spriteEvaluation q).scanInput := by
  have hparts := h
  simp only [Ppu.scanInput, Prod.mk.injEq] at hparts
  obtain ⟨hoam, hdot, hline, hctrl, hsec, -, -⟩ := hparts
  rw [spriteEvaluation, spriteEvaluation, hdot]
  split
  · exact evalEntries_scanInput_congr (by simp only [Ppu.scanInput, hoam, hline, hctrl, hsec]) 64
  · exact h

theorem secondaryClear_scanInput_congr (h : p.scanInput = q.scanInput) :
    (secondaryClear p).scanInput = (secondaryClear q).scanInput := by
  have hparts := h
  simp only [Ppu.scanInput, Prod.mk.injEq] at hparts
  obtain ⟨hoam, hdot, hline, hctrl, hsec, hcount, hzero⟩ := hparts
  rw [secondaryClear, secondaryClear, hdot]
  split
  · simp only [Ppu.scanInput, hoam, hline, hctrl, hsec, hcount, hzero]
  · exact h

end

/-- Clear and evaluation fall on different dots. -/
theorem spriteScan_eq (p : Ppu) : spriteEvaluation (secondaryClear p) =
    if p.dot = 256 then spriteEvaluation p else secondaryClear p := by
  split
  case isTrue h => rw [secondaryClear, if_neg (by omega)]
  case isFalse h =>
    have hdot : (secondaryClear p).dot = p.dot := by
      rw [secondaryClear]
      split <;> rfl
    rw [spriteEvaluation, hdot, if_neg h]

theorem spriteScan_idle {p : Ppu} (h64 : 64 < p.dot) (h256 : p.dot ≠ 256) :
    spriteEvaluation (secondaryClear p) = p := by
  rw [spriteScan_eq, if_neg h256, secondaryClear, if_neg (by omega)]

theorem spriteScan_field {α : Type} (p : Ppu) (f : Ppu → α)
    (h : IgnoresScan f := by intro; intros; rfl) : f (spriteEvaluation (secondaryClear p)) = f p := by
  obtain ⟨sec, k, z, e, -⟩ := spriteScan_frame p
  rw [e, h]

theorem secondaryClear_field {α : Type} (p : Ppu) (f : Ppu → α)
    (h : IgnoresSecondaryClear f := by intro; intros; rfl) : f (secondaryClear p) = f p := by
  rw [secondaryClear]
  split
  · exact h p _
  · rfl

/-- The byte cleared on a dot (R375). -/
theorem secondaryClear_secondaryOam (p : Ppu) (j : Fin 32) : (secondaryClear p).secondaryOam[j] =
    if 1 ≤ p.dot ∧ p.dot ≤ 64 ∧ j.val = (p.dot - 1) / 2 then 0xFF else p.secondaryOam[j] := by
  by_cases hclear : 1 ≤ p.dot ∧ p.dot ≤ 64
  · rw [secondaryClear, if_pos hclear, Fin.getElem_fin, Vector.getElem_setIfInBounds]
    by_cases hj : j.val = (p.dot - 1) / 2
    · rw [if_pos hj.symm, if_pos ⟨hclear.1, hclear.2, hj⟩]
    · have hkept : ¬ (1 ≤ p.dot ∧ p.dot ≤ 64 ∧ j.val = (p.dot - 1) / 2) := fun h => hj h.2.2
      rw [if_neg (Ne.symm hj), if_neg hkept]
      rfl
  · have hkept : ¬ (1 ≤ p.dot ∧ p.dot ≤ 64 ∧ j.val = (p.dot - 1) / 2) := fun h => hclear ⟨h.1, h.2.1⟩
    rw [secondaryClear, if_neg hclear, if_neg hkept]

/-! ### The sprites in a tick (R357, R375, R380, R385, R387) -/

/-- Phase 2 moves the sprite slots on dots 2 to 256 of a visible line (R387). -/
theorem backgroundPhase_slots (s : State) : (backgroundPhase s).ppu.slots =
    if s.ppu.spritesActive = true ∧ 2 ≤ s.ppu.dot ∧ s.ppu.dot ≤ 256 then
      mapSlots SpriteSlot.update s.ppu.slots
    else s.ppu.slots := by
  obtain ⟨a, b, c, d, hshift⟩ := bgShiftReload_frame s.ppu
  obtain ⟨nt, pal, lo, hi, hfetch, -⟩ := bgFetch_frame (s.withPpu (bgReload (bgShift s.ppu)))
  rw [withPpu_ppu, hshift] at hfetch
  rw [backgroundPhase]
  split
  case isTrue h =>
    have hon : s.ppu.renderingEnabled = true := (Bool.and_eq_true _ _ ▸ h).1
    rw [Ppu.spritesActive, hon, Bool.true_and]
    refine (spriteUpdate_slots _).trans ?_
    rw [hshift, hfetch]
    rfl
  case isFalse h =>
    rw [if_neg]
    rintro ⟨hon, -⟩
    obtain ⟨hr, hv⟩ := Bool.and_eq_true _ _ ▸ hon
    exact h (by rw [Ppu.renderingActive, hr, hv]; rfl)

section
variable {s : State}

theorem spriteFetch_mark (h : s.ppu.dot = 257) :
    spriteFetch s = s.withPpu { s.ppu with slot0IsSprite0 := s.ppu.secHasSprite0 } := by
  rw [spriteFetch, if_pos h]

theorem spriteFetch_low {n : Nat} (hn : n < 8) (h : s.ppu.dot = 262 + 8 * n) : spriteFetch s = fetchSpriteLow n s := by
  rw [spriteFetch, if_neg (by omega), if_pos (by omega), show (s.ppu.dot - 262) / 8 = n by omega]

theorem spriteFetch_high {n : Nat} (hn : n < 8) (h : s.ppu.dot = 264 + 8 * n) : spriteFetch s = fetchSpriteHigh n s := by
  rw [spriteFetch, if_neg (by omega), if_neg (by omega), if_pos (by omega), show (s.ppu.dot - 264) / 8 = n by omega]

theorem spriteFetch_idle (hmark : s.ppu.dot ≠ 257) (hlow : ∀ n < 8, s.ppu.dot ≠ 262 + 8 * n)
    (hhigh : ∀ n < 8, s.ppu.dot ≠ 264 + 8 * n) : spriteFetch s = s := by
  have hlow' : ¬ (262 ≤ s.ppu.dot ∧ s.ppu.dot ≤ 318 ∧ s.ppu.dot % 8 = 6) := fun h =>
    hlow ((s.ppu.dot - 262) / 8) (by omega) (by omega)
  have hhigh' : ¬ (264 ≤ s.ppu.dot ∧ s.ppu.dot ≤ 320 ∧ s.ppu.dot % 8 = 0) := fun h =>
    hhigh ((s.ppu.dot - 264) / 8) (by omega) (by omega)
  rw [spriteFetch, if_neg hmark, if_neg hlow', if_neg hhigh']

/-- The dot of a sprite fetch step is the mark's, the low or the high fetch of one slot, or idle. -/
theorem spriteFetch_cases (s : State) :
    (s.ppu.dot = 257 ∧ spriteFetch s = s.withPpu { s.ppu with slot0IsSprite0 := s.ppu.secHasSprite0 }) ∨
    (∃ n < 8, s.ppu.dot = 262 + 8 * n ∧ spriteFetch s = fetchSpriteLow n s) ∨
    (∃ n < 8, s.ppu.dot = 264 + 8 * n ∧ spriteFetch s = fetchSpriteHigh n s) ∨
    (s.ppu.dot ≠ 257 ∧ (∀ n < 8, s.ppu.dot ≠ 262 + 8 * n) ∧ (∀ n < 8, s.ppu.dot ≠ 264 + 8 * n) ∧ spriteFetch s = s) := by
  by_cases hmark : s.ppu.dot = 257
  · exact .inl ⟨hmark, spriteFetch_mark hmark⟩
  by_cases hlow : ∃ n < 8, s.ppu.dot = 262 + 8 * n
  · obtain ⟨n, hn, h⟩ := hlow
    exact .inr (.inl ⟨n, hn, h, spriteFetch_low hn h⟩)
  by_cases hhigh : ∃ n < 8, s.ppu.dot = 264 + 8 * n
  · obtain ⟨n, hn, h⟩ := hhigh
    exact .inr (.inr (.inl ⟨n, hn, h, spriteFetch_high hn h⟩))
  · push Not at hlow hhigh
    exact .inr (.inr (.inr ⟨hmark, hlow, hhigh, spriteFetch_idle hmark hlow hhigh⟩))

end

/-- The fetch step's slots (R380, R385). -/
theorem spriteFetch_slots (s : State) (k : Fin 8) : (spriteFetch s).ppu.slots[k] =
    if s.ppu.dot = 262 + 8 * k.val then (fetchSpriteLow k.val s).ppu.slots[k]
    else if s.ppu.dot = 264 + 8 * k.val then (fetchSpriteHigh k.val s).ppu.slots[k]
    else s.ppu.slots[k] := by
  have hk := k.isLt
  rcases spriteFetch_cases s with ⟨hd, e⟩ | ⟨n, hn, hd, e⟩ | ⟨n, hn, hd, e⟩ | ⟨hmark, hlow, hhigh, e⟩
  · rw [e, if_neg (by omega), if_neg (by omega), withPpu_ppu]
  · by_cases hkn : k.val = n
    · subst hkn
      rw [e, if_pos hd]
    · rw [e, if_neg (by omega), if_neg (by omega), fetchSpriteLow_slots, if_neg hkn]
  · by_cases hkn : k.val = n
    · subst hkn
      rw [e, if_neg (by omega), if_pos hd]
    · rw [e, if_neg (by omega), if_neg (by omega), fetchSpriteHigh_slots, if_neg hkn]
  · rw [e, if_neg (hlow k hk), if_neg (hhigh k hk)]

theorem fetchSprite_slot0IsSprite0 (n : Nat) (s : State) :
    (fetchSpriteLow n s).ppu.slot0IsSprite0 = s.ppu.slot0IsSprite0 ∧
    (fetchSpriteHigh n s).ppu.slot0IsSprite0 = s.ppu.slot0IsSprite0 := by
  have hset (f : SpriteSlot → SpriteSlot) : (s.ppu.setSlot n f).slot0IsSprite0 = s.ppu.slot0IsSprite0 := by
    obtain ⟨sl, e⟩ := setSlot_frame s.ppu n f
    rw [e]
  constructor
  · rw [fetchSpriteLow]
    split <;> simp only [withPpu_ppu, ppuRead_ppu, hset]
  · rw [fetchSpriteHigh]
    split <;> simp only [withPpu_ppu, ppuRead_ppu, hset]

theorem spriteFetch_slot0IsSprite0 (s : State) : (spriteFetch s).ppu.slot0IsSprite0 =
    if s.ppu.dot = 257 then s.ppu.secHasSprite0 else s.ppu.slot0IsSprite0 := by
  rcases spriteFetch_cases s with ⟨hd, e⟩ | ⟨n, hn, hd, e⟩ | ⟨n, hn, hd, e⟩ | ⟨hmark, -, -, e⟩
  · rw [e, if_pos hd, withPpu_ppu]
  · rw [e, if_neg (by omega), (fetchSprite_slot0IsSprite0 n s).1]
  · rw [e, if_neg (by omega), (fetchSprite_slot0IsSprite0 n s).2]
  · rw [e, if_neg hmark]

/-- The state of a tick on a visible line after phase 3. -/
def beforeSprites (s : State) : State := pixelOutput (backgroundPhase s)

theorem beforeSprites_field {α : Type} (s : State) (f : Ppu → α)
    (hBackground : IgnoresBackground f := by intro; intros; rfl)
    (hPixel : IgnoresPixel f := by intro; intros; rfl) :
    f (beforeSprites s).ppu = f s.ppu := by
  rw [beforeSprites, pixelOutput_field _ f hPixel, backgroundPhase_field s f hBackground]

/-- On the dots of the sprite fetches phases 2 and 3 do not reach `PpuBus`. -/
theorem beforeSprites_eq_withPpu {s : State} (h1 : 257 ≤ s.ppu.dot) (h2 : s.ppu.dot ≤ 320) :
    beforeSprites s = s.withPpu (beforeSprites s).ppu := by
  have hoff : ¬ (backgroundPhase s).ppu.onScreen := by
    rw [backgroundPhase_field s Ppu.onScreen, Ppu.onScreen]
    omega
  have hfetch : ¬ fetchDot s.ppu.dot = true := by
    rw [fetchDot_iff]
    omega
  have hdot : (bgReload (bgShift s.ppu)).dot = s.ppu.dot := by
    rw [bgReload_bgShift]
  rw [beforeSprites, pixelOutput_offScreen hoff, backgroundPhase]
  split
  · rw [bgFetch, withPpu_ppu, hdot, if_neg hfetch]
    rfl
  · rfl

section
variable {s : State} (hon : s.ppu.spritesActive = true)
include hon

/-- Phases 1 to 4 on a visible line with rendering enabled. -/
theorem ppuPhases_spritesActive : ppuPhases s = spriteFetch
    ((beforeSprites s).withPpu (spriteEvaluation (secondaryClear (beforeSprites s).ppu))) := by
  have hline : s.ppu.scanline ≤ 239 := (s.ppu.spritesActive_iff.mp hon).2
  have hact : (beforeSprites s).ppu.spritesActive = true := by
    rwa [beforeSprites_field s Ppu.spritesActive]
  rw [ppuPhases, statusEdges_visible hline, withPpu_self, ← beforeSprites, spritePhase_active hact]

/-- A part of the PPU outside the counters, which the sprite fetch leaves alone, is what the scan makes of it. -/
theorem ppuTick_field_scan {α : Type} (f : Ppu → α)
    (hFetch : IgnoresSpriteFetch f := by intro; intros; rfl)
    (hCount : IgnoresCounters f := by intro; intros; rfl) :
    f (ppuTick s).2.ppu = f (spriteEvaluation (secondaryClear (beforeSprites s).ppu)) := by
  obtain ⟨sl, z, e⟩ := spriteFetch_frame
    ((beforeSprites s).withPpu (spriteEvaluation (secondaryClear (beforeSprites s).ppu)))
  rw [ppuTick_field_phases s f hCount, ppuPhases_spritesActive hon, e, hFetch, withPpu_ppu]

/-- The scan of a tick is that of the state before it. -/
theorem ppuTick_scan :
    (ppuTick s).2.ppu.secondaryOam = (spriteEvaluation (secondaryClear s.ppu)).secondaryOam ∧
    (ppuTick s).2.ppu.secCount = (spriteEvaluation (secondaryClear s.ppu)).secCount ∧
    (ppuTick s).2.ppu.secHasSprite0 = (spriteEvaluation (secondaryClear s.ppu)).secHasSprite0 := by
  have hscan := spriteEvaluation_scanInput_congr (secondaryClear_scanInput_congr
    (beforeSprites_field s Ppu.scanInput))
  simp only [Ppu.scanInput, Prod.mk.injEq] at hscan
  obtain ⟨-, -, -, -, hsec, hcount, hzero⟩ := hscan
  rw [ppuTick_field_scan hon Ppu.secondaryOam, ppuTick_field_scan hon Ppu.secCount,
    ppuTick_field_scan hon Ppu.secHasSprite0]
  exact ⟨hsec, hcount, hzero⟩

end

section
variable {s : State}

theorem beforeSprites_slots (s : State) : (beforeSprites s).ppu.slots =
    if s.ppu.spritesActive = true ∧ 2 ≤ s.ppu.dot ∧ s.ppu.dot ≤ 256 then
      mapSlots SpriteSlot.update s.ppu.slots
    else s.ppu.slots := by
  rw [beforeSprites, pixelOutput_field _ Ppu.slots, backgroundPhase_slots]

/-- A slot's update as arithmetic on its bytes (R387). -/
theorem SpriteSlot.update_eq (k : SpriteSlot) : k.update =
    if k.sprX = 0 then
      { k with sprLo := BitVec.ofNat 8 (2 * k.sprLo.toNat), sprHi := BitVec.ofNat 8 (2 * k.sprHi.toNat) }
    else { k with sprX := BitVec.ofNat 8 (k.sprX.toNat - 1) } := by
  rw [update]
  by_cases h : k.sprX = 0
  · rw [if_neg (not_not_intro h), if_pos h, shiftLeft_one_eq_ofNat, shiftLeft_one_eq_ofNat]
  · have hpred : k.sprX - 1 = BitVec.ofNat 8 (k.sprX.toNat - 1) := by bv_omega
    rw [if_pos h, if_neg h, hpred]

section
variable (hon : s.ppu.spritesActive = true)
include hon

/-- On the dots of the fetches phases 1 to 4 are the fetch step alone, as far as it can see. -/
theorem ppuPhases_fetchDots (h1 : 257 ≤ s.ppu.dot) (h2 : s.ppu.dot ≤ 320) :
    ppuPhases s = spriteFetch (s.withPpu (beforeSprites s).ppu) := by
  have hdot : (beforeSprites s).ppu.dot = s.ppu.dot := beforeSprites_field s Ppu.dot
  rw [ppuPhases_spritesActive hon, spriteScan_idle (by omega) (by omega), beforeSprites_eq_withPpu h1 h2]
  rfl

theorem ppuTick_slot0IsSprite0_active : (ppuTick s).2.ppu.slot0IsSprite0 =
    if s.ppu.dot = 257 then s.ppu.secHasSprite0 else s.ppu.slot0IsSprite0 := by
  have hdot : (beforeSprites s).ppu.dot = s.ppu.dot := beforeSprites_field s Ppu.dot
  rw [ppuTick_field_phases s Ppu.slot0IsSprite0, ppuPhases_spritesActive hon,
    spriteFetch_slot0IsSprite0, withPpu_ppu, spriteScan_field _ Ppu.dot,
    spriteScan_field _ Ppu.slot0IsSprite0, hdot, beforeSprites_field s Ppu.slot0IsSprite0]
  split
  · rw [spriteScan_idle (by omega) (by omega), beforeSprites_field s Ppu.secHasSprite0]
  · rfl

/-- Off the fetch's dots a slot is what phase 2 made of it. -/
theorem ppuTick_slots_noFetch (k : Fin 8) (hlow : s.ppu.dot ≠ 262 + 8 * k.val) (hhigh : s.ppu.dot ≠ 264 + 8 * k.val) :
    (ppuTick s).2.ppu.slots[k] = if 2 ≤ s.ppu.dot ∧ s.ppu.dot ≤ 256 then s.ppu.slots[k].update else s.ppu.slots[k] := by
  have hdot : (spriteEvaluation (secondaryClear (beforeSprites s).ppu)).dot = s.ppu.dot := by
    rw [spriteScan_field _ Ppu.dot, beforeSprites_field s Ppu.dot]
  rw [ppuTick_field_phases s Ppu.slots, ppuPhases_spritesActive hon, spriteFetch_slots, withPpu_ppu,
    hdot, if_neg hlow, if_neg hhigh, spriteScan_field _ Ppu.slots, beforeSprites_slots]
  by_cases hmove : 2 ≤ s.ppu.dot ∧ s.ppu.dot ≤ 256
  · rw [if_pos ⟨hon, hmove⟩, if_pos hmove, mapSlots_get]
  · rw [if_neg fun h => hmove h.2, if_neg hmove]

/-- The slot whose low fetch falls on the dot (R380, R385). -/
theorem ppuTick_slots_low (k : Fin 8) (hd : s.ppu.dot = 262 + 8 * k.val) : (ppuTick s).2.ppu.slots[k] =
    if k.val < s.ppu.secCount then
      { s.ppu.slots[k] with sprLo := flipH (s.ppu.secByte k 2) (ppuRead (spriteAddr s.ppu k) s).1,
                            sprAttr := s.ppu.secByte k 2, sprX := s.ppu.secByte k 3 }
    else { s.ppu.slots[k] with sprLo := 0, sprAttr := 0, sprX := 0 } := by
  have hdot : (beforeSprites s).ppu.dot = s.ppu.dot := beforeSprites_field s Ppu.dot
  have hslots : (beforeSprites s).ppu.slots = s.ppu.slots := by rw [beforeSprites_slots, if_neg (by omega)]
  rw [ppuTick_field_phases s Ppu.slots, ppuPhases_fetchDots hon (by omega) (by omega),
    spriteFetch_slots, withPpu_ppu, hdot, if_pos hd, fetchSpriteLow_slots, if_pos rfl, withPpu_ppu, ppuRead_withPpu,
    hslots, beforeSprites_field s Ppu.secCount, beforeSprites_field s Ppu.secByte,
    beforeSprites_field s spriteAddr]

/-- The slot whose high fetch falls on the dot (R380, R385). -/
theorem ppuTick_slots_high (k : Fin 8) (hd : s.ppu.dot = 264 + 8 * k.val) : (ppuTick s).2.ppu.slots[k] =
    { s.ppu.slots[k] with
        sprHi := if k.val < s.ppu.secCount then flipH (s.ppu.secByte k 2) (ppuRead (spriteAddr s.ppu k + 8) s).1
          else 0 } := by
  have hdot : (beforeSprites s).ppu.dot = s.ppu.dot := beforeSprites_field s Ppu.dot
  have hslots : (beforeSprites s).ppu.slots = s.ppu.slots := by rw [beforeSprites_slots, if_neg (by omega)]
  rw [ppuTick_field_phases s Ppu.slots, ppuPhases_fetchDots hon (by omega) (by omega),
    spriteFetch_slots, withPpu_ppu, hdot, if_neg (by omega), if_pos hd, fetchSpriteHigh_slots, if_pos rfl, withPpu_ppu,
    ppuRead_withPpu, hslots, beforeSprites_field s Ppu.secCount, beforeSprites_field s Ppu.secByte,
    beforeSprites_field s spriteAddr]

/-- Secondary OAM after a tick, byte by byte (R375, R378). -/
theorem ppuTick_secondaryOam_active (j : Fin 32) : (ppuTick s).2.ppu.secondaryOam[j] =
    if 1 ≤ s.ppu.dot ∧ s.ppu.dot ≤ 64 ∧ j.val = (s.ppu.dot - 1) / 2 then 0xFF
    else if s.ppu.dot = 256 then (spriteEvaluation s.ppu).secondaryOam[j] else s.ppu.secondaryOam[j] := by
  rw [(ppuTick_scan hon).1, spriteScan_eq]
  by_cases h256 : s.ppu.dot = 256
  · rw [if_pos h256, if_neg (by omega), if_pos h256]
  rw [if_neg h256, if_neg h256, secondaryClear_secondaryOam]

theorem ppuTick_secCount_active :
    (ppuTick s).2.ppu.secCount = if s.ppu.dot = 256 then (spriteEvaluation s.ppu).secCount else s.ppu.secCount := by
  rw [(ppuTick_scan hon).2.1, spriteScan_eq, apply_ite Ppu.secCount, secondaryClear_field _ Ppu.secCount]

theorem ppuTick_secHasSprite0_active : (ppuTick s).2.ppu.secHasSprite0 =
    if s.ppu.dot = 256 then (spriteEvaluation s.ppu).secHasSprite0 else s.ppu.secHasSprite0 := by
  rw [(ppuTick_scan hon).2.2, spriteScan_eq, apply_ite Ppu.secHasSprite0, secondaryClear_field _ Ppu.secHasSprite0]

end

section
variable (hoff : ¬ s.ppu.spritesActive = true)
include hoff

/-- Without the sprite phase a part of the PPU outside pixels and counters is what phases 1 and 2 make of it. -/
theorem ppuTick_field_spritesInactive {α : Type} (f : Ppu → α)
    (hPixel : IgnoresPixel f := by intro; intros; rfl)
    (hCount : IgnoresCounters f := by intro; intros; rfl) :
    f (ppuTick s).2.ppu = f (backgroundPhase (s.withPpu (statusEdges s.ppu))).ppu := by
  have hinactive : ¬ (pixelOutput (backgroundPhase (s.withPpu (statusEdges s.ppu)))).ppu.spritesActive = true := by
    rwa [pixelOutput_field _ Ppu.spritesActive,
      backgroundPhase_field _ Ppu.spritesActive, withPpu_ppu,
      statusEdges_field _ Ppu.spritesActive]
  rw [ppuTick_field_phases s f hCount, ppuPhases, spritePhase_inactive hinactive, pixelOutput_field _ f hPixel]

theorem ppuTick_slots_inactive : (ppuTick s).2.ppu.slots = (statusEdges s.ppu).slots := by
  have he : ¬ (statusEdges s.ppu).spritesActive = true := by
    rwa [statusEdges_field _ Ppu.spritesActive]
  rw [ppuTick_field_spritesInactive hoff Ppu.slots, backgroundPhase_slots, withPpu_ppu,
    if_neg fun h => he h.1]

theorem ppuTick_slot0IsSprite0_inactive : (ppuTick s).2.ppu.slot0IsSprite0 = (statusEdges s.ppu).slot0IsSprite0 := by
  rw [ppuTick_field_spritesInactive hoff Ppu.slot0IsSprite0, backgroundPhase_field _ Ppu.slot0IsSprite0, withPpu_ppu]

/-- Without the sprite phase secondary OAM, its count and its mark stay. -/
theorem ppuTick_field_scanInactive {α : Type} (f : Ppu → α)
    (hPixel : IgnoresPixel f := by intro; intros; rfl)
    (hCount : IgnoresCounters f := by intro; intros; rfl)
    (hBackground : IgnoresBackground f := by intro; intros; rfl)
    (hEdge : IgnoresEdges f := by intro; intros; rfl) :
    f (ppuTick s).2.ppu = f s.ppu := by
  rw [ppuTick_field_spritesInactive hoff f hPixel hCount, backgroundPhase_field _ f hBackground, withPpu_ppu,
    statusEdges_field _ f hEdge]

end

end

/-- Settles O55: the scan as the list of the entries it takes; then the tick with the sprite phase, slot by slot, and
without it. -/
theorem spriteEvaluationTakesTheFirstEight : Obligations.SpriteEvaluationTakesTheFirstEight := by
  refine ⟨fun p hd => ?evaluation, fun s => ⟨fun hon => ?active, fun hoff => ?inactive⟩⟩
  case evaluation =>
    dsimp only
    rw [← p.spriteInRange_eq]
    obtain ⟨hcount, hzero, -⟩ := spriteEvaluation_chosen hd
    obtain ⟨htaken, hkept⟩ := spriteEvaluation_firstEight hd
    exact ⟨hcount, hzero.trans (congrFun p.spriteInRange_eq 0), htaken, hkept, spriteEvaluation_frame p⟩
  case active =>
    rw [← s.ppu.spritesActive_iff] at hon
    refine ⟨ppuTick_secondaryOam_active hon, ppuTick_secCount_active hon, ppuTick_secHasSprite0_active hon,
      ppuTick_slot0IsSprite0_active hon, fun k => ?_⟩
    by_cases hlow : s.ppu.dot = 262 + 8 * k.val
    · have hmove : ¬ (2 ≤ s.ppu.dot ∧ s.ppu.dot ≤ 256) := by omega
      rw [ppuTick_slots_low hon k hlow, if_neg hmove, if_pos hlow]
      rfl
    by_cases hhigh : s.ppu.dot = 264 + 8 * k.val
    · have hmove : ¬ (2 ≤ s.ppu.dot ∧ s.ppu.dot ≤ 256) := by omega
      rw [ppuTick_slots_high hon k hhigh, if_neg hmove, if_neg hlow, if_pos hhigh]
      rfl
    · rw [ppuTick_slots_noFetch hon k hlow hhigh, SpriteSlot.update_eq, if_neg hlow, if_neg hhigh]
  case inactive =>
    rw [← s.ppu.spritesActive_iff] at hoff
    refine ⟨ppuTick_field_scanInactive hoff Ppu.secondaryOam, ppuTick_field_scanInactive hoff Ppu.secCount,
      ppuTick_field_scanInactive hoff Ppu.secHasSprite0, fun h261 => ?_, fun h261 => ?_⟩
    · rw [ppuTick_slots_inactive hoff, ppuTick_slot0IsSprite0_inactive hoff, statusEdges_preRender h261]
      exact ⟨rfl, fun k => mapSlots_get _ _ k⟩
    · rw [ppuTick_slots_inactive hoff, ppuTick_slot0IsSprite0_inactive hoff, statusEdges, if_neg h261]
      split <;> exact ⟨rfl, rfl⟩

end Sys2Proof.Machine

/-! SUPPORT. The family spec/60_exceptions.md: what every instruction keeps, the error latch, interrupt entry, reset,
`copyOAM`, the schedule and the NMI request. -/

namespace Sys2Proof.Machine

/-! ### What every instruction keeps (R424, R425, R83) -/

/-- What instruction `i` keeps from `s` to `t`: the latch unless it raises an error, `P.I` unless it writes it, and of
everything else what no instruction may change. -/
structure InstrKeeps (i : Instr) (s t : State) : Prop where
  buses   : BusesKept s t
  lens    : t.bufs.map Buffer.len = s.bufs.map Buffer.len
  instrPC : t.cpu.instrPC = s.cpu.instrPC
  latch   : (∀ op, i ≠ .undefined op) → i ≠ .brk → t.cpu.errKind = s.cpu.errKind ∧ t.cpu.errOpcode = s.cpu.errOpcode
  mask    : i ∉ [Instr.sei, .cli, .plp, .rti] → getFlag t.cpu.p .i = getFlag s.cpu.p .i

section
variable {i : Instr} {s t u : State}

theorem InstrKeeps.trans (h : InstrKeeps i s t) (h' : InstrKeeps i t u) : InstrKeeps i s u where
  buses := ⟨h'.buses.1.trans h.buses.1, h'.buses.2.trans h.buses.2⟩
  lens := h'.lens.trans h.lens
  instrPC := h'.instrPC.trans h.instrPC
  latch hu hb := ⟨(h'.latch hu hb).1.trans (h.latch hu hb).1, (h'.latch hu hb).2.trans (h.latch hu hb).2⟩
  mask hi := (h'.mask hi).trans (h.mask hi)

/-- A change of CPU registers only, none of which is `instrPC` or the latch. -/
theorem instrKeeps_of_cpu (ht : t = s.withCpu t.cpu) (hpc : t.cpu.instrPC = s.cpu.instrPC)
    (hkind : t.cpu.errKind = s.cpu.errKind) (hop : t.cpu.errOpcode = s.cpu.errOpcode)
    (hmask : i ∉ [Instr.sei, .cli, .plp, .rti] → getFlag t.cpu.p .i = getFlag s.cpu.p .i) : InstrKeeps i s t where
  buses := by rw [ht]; exact ⟨rfl, rfl⟩
  lens := by rw [ht]; rfl
  instrPC := hpc
  latch _ _ := ⟨hkind, hop⟩
  mask := hmask

/-- An access that changes no CPU register but `SP`, `PC`, `CYC` and `pageCrossed`. -/
theorem instrKeeps_of_access (hbuses : BusesKept s t) (hlens : t.bufs.map Buffer.len = s.bufs.map Buffer.len)
    (hcpu : ∃ sp pc cyc x, t.cpu = { s.cpu with sp := sp, pc := pc, cyc := cyc, pageCrossed := x }) : InstrKeeps i s t := by
  obtain ⟨sp, pc, cyc, x, hcpu⟩ := hcpu
  exact ⟨hbuses, hlens, by rw [hcpu], fun _ _ => by rw [hcpu]; exact ⟨rfl, rfl⟩, fun _ => by rw [hcpu]⟩

theorem instrKeeps_resolve (m : AddrMode) : InstrKeeps i s (resolve m s).2 :=
  instrKeeps_of_access ⟨resolve_cpuBus m s, resolve_ppuBus m s⟩ (by rw [resolve_bufs]) ⟨_, _, _, _, resolve_cpu m s⟩

theorem instrKeeps_load (src : Source) : InstrKeeps i s (load src s).2 :=
  instrKeeps_of_access ⟨load_cpuBus src s, load_ppuBus src s⟩ (by rw [load_bufs]) ⟨_, _, _, _, load_cpu src s⟩

theorem instrKeeps_cpuRead (a : Addr) : InstrKeeps i s (cpuRead a s).2 :=
  instrKeeps_of_access ⟨cpuRead_cpuBus a s, cpuRead_ppuBus a s⟩ (by rw [cpuRead_bufs]) ⟨_, _, _, _, cpuRead_cpu a s⟩

theorem instrKeeps_readWord (a b : Addr) : InstrKeeps i s (readWord a b s).2 :=
  (instrKeeps_cpuRead a).trans (instrKeeps_cpuRead b)

theorem instrKeeps_cpuWrite (a : Addr) (v : Byte) : InstrKeeps i s (cpuWrite a v s) := by
  obtain ⟨n, hcpu⟩ := cpuWrite_cpu a v s
  exact instrKeeps_of_access ⟨cpuWrite_cpuBus a v s, cpuWrite_ppuBus a v s⟩ (cpuWrite_memory a v s).2 ⟨_, _, _, _, hcpu⟩

theorem instrKeeps_push (v : Byte) : InstrKeeps i s (push v s) :=
  (instrKeeps_cpuWrite (stackAddr s.cpu.sp) v).trans (instrKeeps_of_cpu rfl rfl rfl rfl fun _ => rfl)

theorem instrKeeps_pop : InstrKeeps i s (pop s).2 :=
  instrKeeps_of_access ⟨pop_cpuBus s, pop_ppuBus s⟩ (by rw [pop_bufs]) ⟨_, _, _, _, pop_cpu s⟩

theorem instrKeeps_popWord : InstrKeeps i s (popWord s).2 := instrKeeps_pop.trans instrKeeps_pop

theorem instrKeeps_charge (n : Nat) : InstrKeeps i s (s.charge n) := instrKeeps_of_cpu rfl rfl rfl rfl fun _ => rfl

theorem instrKeeps_setPC (w : Addr) : InstrKeeps i s (s.setPC w) := instrKeeps_of_cpu rfl rfl rfl rfl fun _ => rfl

theorem instrKeeps_setP {p : Byte} (hp : i ∉ [Instr.sei, .cli, .plp, .rti] → getFlag p .i = getFlag s.cpu.p .i) :
    InstrKeeps i s (s.setP p) := instrKeeps_of_cpu rfl rfl rfl rfl hp

end

/-- Instruction `i` completes with the answer `r` from `s`, and keeps what it may not change. -/
def Completes (i : Instr) (s : State) (r : Result) : Prop := ∃ t, r = .next t ∧ InstrKeeps i s t

section
variable {i : Instr} {s u : State}

/-- Most meanings end by charging their cycles. -/
theorem completes_charge (h : InstrKeeps i s u) (n : Nat) : Completes i s (.next (u.charge n)) :=
  ⟨_, rfl, h.trans (instrKeeps_charge n)⟩

theorem completes_readClass {src : Source} {act : Byte → State → State} (hact : ∀ b u, InstrKeeps i u (act b u)) :
    Completes i s (readClass src act s) :=
  completes_charge ((instrKeeps_load src).trans (hact _ _)) _

theorem completes_writeClass {m : AddrMode} {value : State → Byte} : Completes i s (writeClass m value s) :=
  completes_charge ((instrKeeps_resolve m).trans (instrKeeps_cpuWrite _ _)) _

theorem completes_registerClass {act : State → State} (hact : InstrKeeps i s (act s)) :
    Completes i s (registerClass act s) :=
  completes_charge hact 2

theorem completes_modifyMemory {m : AddrMode} {result status : Byte → Byte → Byte}
    (hstatus : ∀ b p, getFlag (status b p) .i = getFlag p .i) : Completes i s (modifyMemory m result status s) := by
  rw [modifyMemory_eq]
  have hread : InstrKeeps i s (cpuRead (resolve m s).1 (resolve m s).2).2 :=
    (instrKeeps_resolve m).trans (instrKeeps_cpuRead _)
  have hflags (b : Byte) : InstrKeeps i s ((cpuRead (resolve m s).1 (resolve m s).2).2.setP
      (status b (cpuRead (resolve m s).1 (resolve m s).2).2.cpu.p)) :=
    hread.trans (instrKeeps_setP fun _ => hstatus _ _)
  exact completes_charge ((hflags _).trans (instrKeeps_cpuWrite _ _)) _

theorem completes_shiftClass {g : Target} {shift : Byte → Bool → Shifted} : Completes i s (shiftClass g shift s) := by
  cases g <;> dsimp only [shiftClass]
  case acc => exact completes_registerClass (instrKeeps_of_cpu rfl rfl rfl rfl fun _ => getFlag_shiftStatus _ _ .i)
  case mem m => exact completes_modifyMemory fun _ _ => getFlag_shiftStatus _ _ .i

theorem completes_branchClass {cond : Bool} {off : Byte} : Completes i s (branchClass cond off s) := by
  rw [branchClass_eq]
  split
  · exact completes_charge (instrKeeps_setPC _) _
  · exact ⟨_, rfl, instrKeeps_charge 2⟩

/-- Only the flag instructions of `P.I` may write it. -/
theorem completes_flagClass {f : Flag} {on : Bool} (hf : i ∉ [Instr.sei, .cli, .plp, .rti] → .i ≠ f) :
    Completes i s (flagClass f on s) :=
  completes_registerClass (instrKeeps_setP fun hi => by rw [getFlag_setFlag, if_neg (hf hi)])

end

theorem exec_completes (i : Instr) (s : State) : Completes i s (exec i s) := by
  cases i <;> dsimp only [exec]
  case lda src | ldx src | ldy src | and src | ora src | eor src =>
    exact completes_readClass fun _ _ => instrKeeps_of_cpu rfl rfl rfl rfl fun _ => getFlag_setZN _ _ .i
  case lax m => exact completes_readClass fun _ _ => instrKeeps_of_cpu rfl rfl rfl rfl fun _ => getFlag_setZN _ _ .i
  case adc src | sbc src =>
    exact completes_readClass fun _ _ => instrKeeps_of_cpu rfl rfl rfl rfl fun _ => getFlag_addStatus _ _ _ .i
  case cmp src | cpx src | cpy src =>
    exact completes_readClass fun _ _ => instrKeeps_setP fun _ => getFlag_compareStatus _ _ _ .i
  case bit m => exact completes_readClass fun _ _ => instrKeeps_setP fun _ => getFlag_bitStatus _ _ _ .i
  case nop op src =>
    cases src with
    | none => exact completes_registerClass (instrKeeps_of_cpu rfl rfl rfl rfl fun _ => rfl)
    | some src => exact completes_readClass fun _ _ => instrKeeps_of_cpu rfl rfl rfl rfl fun _ => rfl
  case sta m | stx m | sty m | sax m => exact completes_writeClass
  case tax | tay | txa | tya | tsx | inx | iny | dex | dey =>
    exact completes_registerClass (instrKeeps_of_cpu rfl rfl rfl rfl fun _ => getFlag_setZN _ _ .i)
  case txs => exact completes_registerClass (instrKeeps_of_cpu rfl rfl rfl rfl fun _ => rfl)
  case inc m | dec m => exact completes_modifyMemory fun _ _ => getFlag_setZN _ _ .i
  case asl g | lsr g | rol g | ror g => exact completes_shiftClass
  case jmp g =>
    cases g with
    | abs w => exact completes_charge (instrKeeps_setPC w) _
    | ind w => exact completes_charge ((instrKeeps_readWord _ _).trans (instrKeeps_setPC _)) _
  case jsr w =>
    exact completes_charge (((instrKeeps_push _).trans (instrKeeps_push _)).trans (instrKeeps_setPC w)) _
  case rts => exact completes_charge (instrKeeps_popWord.trans (instrKeeps_setPC _)) _
  case rti =>
    have hstatus : InstrKeeps .rti s ((pop s).2.setP (restoredStatus (pop s).1)) :=
      instrKeeps_pop.trans (instrKeeps_setP fun hi => (hi (by decide)).elim)
    exact completes_charge ((hstatus.trans instrKeeps_popWord).trans (instrKeeps_setPC _)) _
  case bpl off | bmi off | bvc off | bvs off | bcc off | bcs off | bne off | beq off => exact completes_branchClass
  case brk => exact ⟨_, rfl, ⟨rfl, rfl⟩, rfl, rfl, fun _ hb => absurd rfl hb, fun _ => rfl⟩
  case undefined op => exact ⟨_, rfl, ⟨rfl, rfl⟩, rfl, rfl, fun hu => absurd rfl (hu op), fun _ => rfl⟩
  case pha | php => exact completes_charge (instrKeeps_push _) _
  case pla =>
    have hload : InstrKeeps .pla s (((pop s).2.setA (pop s).1).setZN (pop s).1) :=
      instrKeeps_pop.trans (instrKeeps_of_cpu rfl rfl rfl rfl fun _ => getFlag_setZN _ _ .i)
    exact completes_charge hload 4
  case plp =>
    exact completes_charge (instrKeeps_pop.trans (instrKeeps_setP fun hi => (hi (by decide)).elim)) _
  case clc | sec | clv | cld | sed => exact completes_flagClass fun _ => by decide
  case cli | sei => exact completes_flagClass fun hi => absurd (by decide) hi

/-- Settles O59: the access classes keep it, so each instruction does. -/
theorem everyInstructionCompletes : Obligations.EveryInstructionCompletes := by
  intro i s
  obtain ⟨t, ht, h⟩ := exec_completes i s
  exact ⟨t, ht, h.buses, h.lens, h.instrPC, h.latch, h.mask⟩

/-! ### The error latch (R420 to R422) -/

/-- A byte whose form has no operand, fetched from an untrapped address, is the whole instruction. -/
theorem fetchInstr_f1 {s : State} {i : Instr} (hu : s.untrapped s.cpu.pc) (hf : opcodeForm (s.byteAt s.cpu.pc) = .f1 i) :
    fetchInstr s = (i, s.setPC (s.cpu.pc + 1)) := by
  simp only [fetchInstr, fetch_untrapped s hu, hf]

theorem opcodeForm_undefined {op : Byte} (h : op ∈ undefinedOpcodes) : opcodeForm op = .f1 (.undefined op) := by
  rw [opcodeForm, undefined_cell op h]
  rfl

theorem opcodeForm_brk : opcodeForm 0x00 = .f1 .brk := rfl

/-- A CPU step that fetches a byte without operand from an untrapped `PC`. -/
theorem cpuStep_f1 {s : State} {i : Instr} (he : s.cpu.errKind = .none) (hu : s.untrapped s.cpu.pc)
    (hf : opcodeForm (s.byteAt s.cpu.pc) = .f1 i) :
    cpuStep s = exec i (s.withCpu { s.cpu with instrPC := s.cpu.pc, pageCrossed := false, pc := s.cpu.pc + 1 }) := by
  have hfetch : fetchInstr (beginStep s) = (i, (beginStep s).setPC (s.cpu.pc + 1)) := fetchInstr_f1 hu hf
  rw [cpuStep_eq s he, hfetch]
  rfl

/-- Settles O7: `exec` writes the latch alone, and the step adds one fetch of one byte. -/
theorem errorsAreLatchedAndNothingElse : Obligations.ErrorsAreLatchedAndNothingElse := by
  refine ⟨fun op s => ⟨rfl, rfl⟩, fun s he hu => ⟨fun hop => ?undefined, fun hop => ?brk⟩⟩
  case undefined => exact cpuStep_f1 he hu (opcodeForm_undefined hop)
  case brk => exact cpuStep_f1 he hu (by rw [hop, opcodeForm_brk])

/-! ### Interrupt entry (R430 to R432) -/

/-- Interrupt entry as the three pushes, the flag and the two reads of R430. -/
theorem enterInterrupt_sequence (vec : Addr) (s : State) :
    let s1 := push (s.cpu.p ||| 0x30) (push (loByte s.cpu.pc) (push (hiByte s.cpu.pc) s))
    let lo := cpuRead vec (s1.withCpu { s1.cpu with p := setFlag .i true s.cpu.p })
    let hi := cpuRead (vec + 1) lo.2
    enterInterrupt vec s = hi.2.withCpu { hi.2.cpu with pc := wordOf hi.1 lo.1, cyc := hi.2.cpu.cyc + 7 } := by
  simp only [enterInterrupt_eq, pushWord, pushedStatus, State.setP, readWord, charge_setPC]

/-- Interrupt entry on a stack, the two bytes of the vector untrapped, as it shows in the state after it. -/
theorem enterInterrupt_onStack {vec : Addr} {s : State} (h : s.hasStack) (hw : ∀ b ∈ s.bufs, b.wf = true)
    (hv : s.untrapped vec) (hv' : s.untrapped (vec + 1)) :
    let t := enterInterrupt vec s
    t.cpu.cyc = s.cpu.cyc + 7 ∧ t.cpu.pc = t.wordAt vec (vec + 1) ∧ t.ppu = s.ppu ∧ t.plat = s.plat ∧
      t.byteAt (stackAddr s.cpu.sp) = hiByte s.cpu.pc ∧ t.byteAt (stackAddr (s.cpu.sp - 1)) = loByte s.cpu.pc ∧
      t.byteAt (stackAddr (s.cpu.sp - 2)) = s.cpu.p ||| 0x30 := by
  obtain ⟨u, hu, hcpu, hppu, hplat, -, hhi, hlo, hstatus⟩ := enterInterrupt_stack vec s h hw hv hv'
  rw [hu]
  exact ⟨by rw [charge_cpu, setPC_cpu, hcpu], rfl, hppu, hplat, hhi, hlo, hstatus⟩

/-- Settles O37: the entry is R430's sequence, whose pushes and reads have their frames. -/
theorem interruptEntry : Obligations.InterruptEntry := by
  refine ⟨fun vec s => ?entry, fun s => ⟨fun hi => if_pos hi, fun hi => if_neg (Bool.eq_false_iff.mp hi), rfl⟩⟩
  obtain ⟨n, w, hcpu⟩ := enterInterrupt_cpu vec s
  have hsequence := enterInterrupt_sequence vec s
  have hp : (enterInterrupt vec s).cpu.p = setFlag .i true s.cpu.p := by rw [hcpu]
  have hpc : (enterInterrupt vec s).cpu.pc = w := by rw [hcpu]
  refine ⟨hsequence, ⟨n, ?cpu⟩, ?set, ?others, ⟨enterInterrupt_cpuBus vec s, enterInterrupt_ppuBus vec s⟩,
    enterInterrupt_onStack⟩
  case cpu => rw [hp, hcpu, ← hpc, hsequence, withCpu_cpu]
  case set => rw [hp, getFlag_setFlag, if_pos rfl]
  case others =>
    rw [hp]
    exact flagsKept_setFlag .i true s.cpu.p

/-! ### Reset (R440, R472) -/

/-- Reset as two register writes, the two reads of the vector and `PC`. -/
theorem raiseReset_sequence (n : Nat) (s : State) :
    let lo := cpuRead 0xFFFC (s.withCpu { s.cpu with sp := 0xFD, cyc := n })
    let hi := cpuRead 0xFFFD lo.2
    raiseReset n s = hi.2.withCpu { s.cpu with sp := 0xFD, cyc := n, pc := wordOf hi.1 lo.1 } := by
  have hreset : raiseReset n s =
      (readWord 0xFFFC 0xFFFD (s.withCpu { s.cpu with sp := 0xFD, cyc := n })).2.setPC
        (readWord 0xFFFC 0xFFFD (s.withCpu { s.cpu with sp := 0xFD, cyc := n })).1 := rfl
  rw [hreset, State.setPC, readWord_cpu]
  rfl

/-- Settles O13: reads change no CPU register, and nothing at all when untrapped. -/
theorem raiseResetWritesThreeRegisters : Obligations.RaiseResetWritesThreeRegisters := by
  intro n s
  have hsequence := raiseReset_sequence n s
  refine ⟨hsequence, ?bufs, ⟨?cpuBus, ?ppuBus⟩, fun hlo hhi => ?untrapped, fun r hp => ?pending⟩
  case untrapped =>
    rw [hsequence, cpuRead_untrapped 0xFFFC _ ((untrapped_withCpu ..).mpr hlo),
      cpuRead_untrapped 0xFFFD _ ((untrapped_withCpu ..).mpr hhi)]
    rfl
  case pending => rw [step_pending s _ r hp]; rfl
  all_goals rw [hsequence]; simp

/-! ### The schedule (R458) -/

/-- The reference schedule ticks the PPU while it is behind (R458). -/
theorem referenceTurn_tick (s : State) (he : s.cpu.errKind = .none) (hc : s.plat.ppuDots < 3 * s.cpu.cyc) :
    referenceTurn s = .next (systemTick s) := by
  simp [referenceTurn, State.hasError, he, hc]

/-- A tick as a transition, the dot counted from the state before it. -/
theorem countedTick_ppuDots_eq (s : State) : countedTick s =
    (ppuTick s).2.withPlat { (ppuTick s).2.plat with ppuDots := s.plat.ppuDots + 1 } := by
  rw [countedTick_eq, ppuTick_ppuDots]

theorem destOk_buffer {bufs : List Buffer} {k : Nat} {b : Buffer} (hb : bufs[k]? = some b) :
    destOk bufs (.buffer k) = decide (256 ≤ b.len) := by
  simp only [destOk, hb]

section
variable {s : State} {k : Nat} {b : Buffer} (hb : s.bufs[k]? = some b)
include hb

theorem issue_copyOAM_buffer (h : Byte) (hlen : 256 ≤ b.len) :
    issue (.copyOAM h (.buffer k)) s = .next (copyOAM h (.buffer k) s) :=
  if_pos (by rw [destOk_buffer hb, decide_eq_true hlen])

theorem issue_copyOAM_short (h : Byte) (hlen : b.len < 256) :
    issue (.copyOAM h (.buffer k)) s = .refused .noSuchBuffer :=
  if_neg (by rw [destOk_buffer hb, decide_eq_true_iff]; omega)

theorem issue_writeBuffer {off : Nat} (v : Byte) (hoff : off < b.len) :
    issue (.writeBuffer k off v) s = .next (s.withBufs (storeWrite s.bufs (k, off) v)) := by
  simp only [issue, hostWriteBuffer, hb, if_pos hoff]

end

/-- Settles O9: a pending transition is issued by its kind; without one the turn is the reference loop's. -/
theorem referenceSchedule : Obligations.ReferenceSchedule := by
  intro s
  refine ⟨fun he => ⟨cpuStep_halted s he, fun hp => ?halted⟩, fun he hp => ⟨fun hc => ?step, fun hc => ?tick⟩,
    fun r t hp => ?pending⟩
  case halted => rw [step_idle s hp, referenceTurn_halted s he]
  case step => rw [step_idle s hp, referenceTurn_cpuStep s he hc]
  case tick => rw [step_idle s hp, referenceTurn_tick s he hc]
  case pending =>
    rw [step_pending s t r hp]
    refine ⟨?_, ?ppuTick, ?_, ?_, ?_, ?_, fun h k b ht hb => ?copyBuffer, ?_, ?_, fun k off v b ht hb hoff => ?writeBuffer⟩
    case ppuTick =>
      rintro rfl
      exact congrArg _ (countedTick_ppuDots_eq _)
    case copyBuffer =>
      subst ht
      exact ⟨issue_copyOAM_buffer (s := s.withPlat { s.plat with pending := r }) hb h,
        issue_copyOAM_short (s := s.withPlat { s.plat with pending := r }) hb h⟩
    case writeBuffer =>
      subst ht
      exact issue_writeBuffer (s := s.withPlat { s.plat with pending := r }) hb v hoff
    all_goals
      intros
      subst t
      rfl

/-! ### The NMI request (R456, R350) -/

theorem Ppu.nmiEdge_iff (p : Ppu) : (p.atVBlankEdge && p.ctrl.getLsbD 7) = true ↔
    p.scanline = 241 ∧ p.dot = 1 ∧ p.ctrl.getLsbD 7 = true := by
  simp only [atVBlankEdge, Bool.and_eq_true, decide_eq_true_eq, and_assoc]

section
variable {s : State}

theorem systemTick_edge (h : s.ppu.scanline = 241 ∧ s.ppu.dot = 1 ∧ s.ppu.ctrl.getLsbD 7 = true) : systemTick s =
    (countedTick s).withPlat { (countedTick s).plat with pending := requestNMI s.plat.pending } := by
  rw [systemTick_eq, if_pos (s.ppu.nmiEdge_iff.mpr h), countedTick_pending]

theorem systemTick_noEdge (h : ¬ (s.ppu.scanline = 241 ∧ s.ppu.dot = 1 ∧ s.ppu.ctrl.getLsbD 7 = true)) :
    systemTick s = countedTick s := by
  rw [systemTick_eq, if_neg (mt s.ppu.nmiEdge_iff.mp h)]

/-- A pending NMI, alone in the list, is the next step. -/
theorem step_raiseNMI (hp : s.plat.pending = []) :
    step (s.withPlat { s.plat with pending := [.raiseNMI] }) = .next (enterInterrupt 0xFFFA s) := by
  have hs : s.withPlat { s.plat with pending := [] } = s := by rw [← hp]; rfl
  rw [step_pending _ .raiseNMI [] rfl, withPlat_withPlat, withPlat_plat]
  dsimp only
  rw [hs]
  rfl

end

/-- Settles O10: the tick requests at the edge alone, and the request stands where `requestNMI` puts it. -/
theorem nmiOnlyAtTheVBlankEdge : Obligations.NmiOnlyAtTheVBlankEdge := by
  intro s
  dsimp only
  rw [← countedTick_ppuDots_eq]
  refine ⟨countedTick_pending s, fun h => ?edge, systemTick_noEdge, fun h hp he hc => ?next, fun r hp => ?alone⟩
  case edge =>
    obtain ⟨before, after, hl, hbefore, hafter, hrequest⟩ := requestNMI_spec s.plat.pending
    exact ⟨before, after, hl, hbefore, hafter, by rw [systemTick_edge h, hrequest]⟩
  case next =>
    refine ⟨_, ?_, rfl, step_raiseNMI (by rw [countedTick_pending, hp])⟩
    rw [step_idle s hp, referenceTurn_tick s he hc, systemTick_edge h, hp]
    rfl
  case alone =>
    exact ⟨_, step_pending s _ r hp, countedTick_pending _, countedTick_cpu _⟩

/-! ### `copyOAM` (R445, R446, R460) -/

/-- One byte of the copy: the read at index `n` of the page, then the write at index `n` of the destination (R446). -/
def copyStep (h : Byte) (dest : CopyDest) (s : State) (n : Nat) : State :=
  let r := cpuRead (wordOf h (BitVec.ofNat 8 n)) s
  writeDest dest (BitVec.ofNat 8 n) r.1 r.2

theorem copyBytes_succ (h : Byte) (dest : CopyDest) (n : Nat) (s : State) :
    copyBytes h dest (n + 1) s = copyStep h dest (copyBytes h dest n s) n := rfl

theorem copyBytes_eq_foldl (h : Byte) (dest : CopyDest) (n : Nat) (s : State) :
    copyBytes h dest n s = (List.range n).foldl (copyStep h dest) s := by
  induction n with
  | zero => rfl
  | succ n ih => rw [copyBytes_succ, List.range_succ, List.foldl_append, ← ih]; rfl

theorem toNat_ofNat_index {n : Nat} (hn : n < 256) : (BitVec.ofNat 8 n).toNat = n := by
  rw [BitVec.toNat_ofNat, Nat.mod_eq_of_lt hn]

/-- From an untrapped page the copy into primary OAM is a change of primary OAM alone, whose first `n` bytes become the
page's. -/
theorem copyBytes_oam {h : Byte} {s : State} (hpage : ∀ i : Byte, s.untrapped (wordOf h i)) {n : Nat} (hn : n ≤ 256) :
    ∃ oam, copyBytes h .oam n s = s.withPpu { s.ppu with oam := oam } ∧
      ∀ i : Byte, i.toNat < n → atByte oam i = s.byteAt (wordOf h i) := by
  induction n with
  | zero => exact ⟨s.ppu.oam, rfl, fun i hi => absurd hi (Nat.not_lt_zero _)⟩
  | succ n ih =>
    obtain ⟨oam, hcopy, hbytes⟩ := ih (by omega)
    have hread := cpuRead_untrapped (wordOf h (BitVec.ofNat 8 n)) (s.withPpu { s.ppu with oam := oam }) (hpage _)
    refine ⟨setAtByte oam (BitVec.ofNat 8 n) (s.byteAt (wordOf h (BitVec.ofNat 8 n))), ?_, fun i hi => ?_⟩
    · rw [copyBytes_succ, hcopy, copyStep, hread]
      rfl
    · by_cases hin : i = BitVec.ofNat 8 n
      · rw [hin, atByte_set_same]
      · have hne : i.toNat ≠ n := fun e => hin (by rw [← e, BitVec.ofNat_toNat, BitVec.setWidth_eq])
        rw [atByte_set_ne _ _ _ _ hin, hbytes i (by omega)]

/-! ### `copyOAM` to a buffer, byte by byte -/

section
variable (h : Byte) (k : Nat) (s : State)

theorem copyBytes_buffer_succ_bufs {n : Nat} (hn : n < 256) :
    (copyBytes h (.buffer k) (n + 1) s).bufs = storeWrite (copyBytes h (.buffer k) n s).bufs (k, n)
      (cpuRead (wordOf h (BitVec.ofNat 8 n)) (copyBytes h (.buffer k) n s)).1 := by
  rw [copyBytes_succ, copyStep]
  dsimp only [writeDest, withBufs_bufs]
  rw [cpuRead_bufs, toNat_ofNat_index hn]

/-- The bytes `m` to `n - 1` of the copy reach those bytes of the destination and no other place. -/
theorem copyBytes_buffer_storeRead {l : Loc} {m n : Nat} (hmn : m ≤ n) (hn : n ≤ 256)
    (hl : ∀ j, m ≤ j → j < n → l ≠ (k, j)) :
    storeRead (copyBytes h (.buffer k) n s).bufs l = storeRead (copyBytes h (.buffer k) m s).bufs l := by
  induction n, hmn using Nat.le_induction with
  | base => rfl
  | succ n hmn ih =>
    rw [copyBytes_buffer_succ_bufs h k s (by omega), storeRead_write_ne _ _ _ _ (hl n hmn n.lt_succ_self)]
    exact ih (by omega) fun j hj hjn => hl j hj (by omega)

theorem copyBytes_bufs_wf (hw : ∀ c ∈ s.bufs, c.wf = true) {n : Nat} (hn : n ≤ 256) :
    ∀ c ∈ (copyBytes h (.buffer k) n s).bufs, c.wf = true := by
  induction n with
  | zero => exact hw
  | succ n ih =>
    rw [copyBytes_buffer_succ_bufs h k s (by omega)]
    exact storeWrite_wf _ _ _ (ih (by omega))

/-- From an untrapped page the copy into a buffer changes the store alone. -/
theorem copyBytes_buffer_eq (hpage : ∀ i : Byte, s.untrapped (wordOf h i)) (n : Nat) :
    ∃ bufs, copyBytes h (.buffer k) n s = s.withBufs bufs := by
  induction n with
  | zero => exact ⟨s.bufs, rfl⟩
  | succ n ih =>
    obtain ⟨bufs, hcopy⟩ := ih
    have hread := cpuRead_untrapped (wordOf h (BitVec.ofNat 8 n)) (s.withBufs bufs) (hpage _)
    rw [copyBytes_succ, hcopy, copyStep, hread]
    exact ⟨_, rfl⟩

/-- Byte `i` of the destination at the end is what the page showed at `i` after `i` bytes of the copy. -/
theorem copyBytes_buffer_byte {b : Buffer} (hb : s.bufs[k]? = some b) (hlen : 256 ≤ b.len)
    (hw : ∀ c ∈ s.bufs, c.wf = true) (hpage : ∀ i : Byte, s.untrapped (wordOf h i)) (i : Byte) :
    storeRead (copyBytes h (.buffer k) 256 s).bufs (k, i.toNat) =
      s.cpuBus.peek (copyBytes h (.buffer k) i.toNat s).bufs (wordOf h i) := by
  have hi := i.isLt
  have hu : (copyBytes h (.buffer k) i.toNat s).untrapped (wordOf h i) := by
    rw [State.untrapped, copyBytes_cpuBus]
    exact hpage i
  have hin : inStore (copyBytes h (.buffer k) i.toNat s).bufs (k, i.toNat) := by
    rw [inStore_iff, copyBytes_lens, ← inStore_iff]
    exact ⟨b, hb, by dsimp only; omega⟩
  calc storeRead (copyBytes h (.buffer k) 256 s).bufs (k, i.toNat)
      = storeRead (copyBytes h (.buffer k) (i.toNat + 1) s).bufs (k, i.toNat) :=
        copyBytes_buffer_storeRead h k s hi (Nat.le_refl _) fun j hj _ e => Nat.ne_of_lt hj (Prod.mk.inj e).2
    _ = (cpuRead (wordOf h i) (copyBytes h (.buffer k) i.toNat s)).1 := by
        rw [copyBytes_buffer_succ_bufs h k s hi, storeRead_write_same _ _ _ (copyBytes_bufs_wf h k s hw hi.le) hin,
          BitVec.ofNat_toNat, BitVec.setWidth_eq]
    _ = s.cpuBus.peek (copyBytes h (.buffer k) i.toNat s).bufs (wordOf h i) := by
        rw [cpuRead_fst_untrapped hu, copyBytes_cpuBus]

/-- Where the page shows no byte copied so far, it shows what it showed before the copy. -/
theorem peek_copyBytes_notCopied {a : Addr} {i : Byte}
    (hl : ∀ j : Byte, j < i → s.cpuBus.locate a ≠ some (k, j.toNat)) :
    s.cpuBus.peek (copyBytes h (.buffer k) i.toNat s).bufs a = s.byteAt a := by
  rw [State.byteAt]
  cases ha : s.cpuBus.locate a with
  | none => rw [AddressSpace.peek_of_none ha, AddressSpace.peek_of_none ha]
  | some l =>
    rw [AddressSpace.peek_of_some ha, AddressSpace.peek_of_some ha]
    refine copyBytes_buffer_storeRead h k s (Nat.zero_le _) i.isLt.le fun j _ hj e => ?_
    have hindex : (BitVec.ofNat 8 j).toNat = j := toNat_ofNat_index (hj.trans i.isLt)
    exact hl (BitVec.ofNat 8 j) (by rwa [BitVec.lt_def, hindex]) (by rw [ha, e, hindex])

/-- Where the page shows a byte copied before, it shows that byte's value at the end of the copy. -/
theorem peek_copyBytes_copied {a : Addr} {i j : Byte} (hj : j < i) (hl : s.cpuBus.locate a = some (k, j.toNat)) :
    s.cpuBus.peek (copyBytes h (.buffer k) i.toNat s).bufs a =
      storeRead (copyBytes h (.buffer k) 256 s).bufs (k, j.toNat) := by
  rw [AddressSpace.peek_of_some hl]
  refine (copyBytes_buffer_storeRead h k s i.isLt.le (Nat.le_refl 256) fun m hm _ e => ?_).symm
  exact Nat.ne_of_lt (Nat.lt_of_lt_of_le hj hm) (Prod.mk.inj e).2

end

theorem copyStep_eq (h : Byte) (dest : CopyDest) (u : State) {n : Nat} (hn : n < 256) : copyStep h dest u n =
    let i := BitVec.ofNat 8 n
    let r := cpuRead (wordOf h i) u
    match dest with
    | .oam => r.2.withPpu { r.2.ppu with oam := setAtByte r.2.ppu.oam i r.1 }
    | .buffer k => r.2.withBufs (storeWrite r.2.bufs (k, n) r.1) := by
  cases dest with
  | oam => rfl
  | buffer k => simp only [copyStep, writeDest, toNat_ofNat_index hn]

section
variable (h : Byte) (s : State)

theorem copyOAM_eq (dest : CopyDest) : copyOAM h dest s =
    copyBytes h dest 256 (s.withCpu { s.cpu with cyc := s.cpu.cyc + if s.cpu.cyc % 2 = 1 then 514 else 513 }) := rfl

theorem copyOAM_oam_untrapped (hpage : ∀ i : Byte, s.untrapped (wordOf h i)) :
    let t := copyOAM h .oam s
    t.ppu = { s.ppu with oam := t.ppu.oam } ∧ t.plat = s.plat ∧
      ∀ i : Byte, atByte t.ppu.oam i = s.byteAt (wordOf h i) := by
  obtain ⟨oam, hcopy, hbytes⟩ := copyBytes_oam (s := s.charge (copyOamCost s.cpu.cyc)) hpage (Nat.le_refl 256)
  rw [copyOAM, hcopy]
  exact ⟨rfl, rfl, fun i => hbytes i i.isLt⟩

/-- The copy to a buffer reaches no place but its first 256 bytes. -/
theorem copyOAM_buffer_storeRead {k : Nat} {l : Loc} (hl : l.1 ≠ k ∨ 256 ≤ l.2) :
    storeRead (copyOAM h (.buffer k) s).bufs l = storeRead s.bufs l := by
  refine copyBytes_buffer_storeRead h k (s.charge (copyOamCost s.cpu.cyc)) (Nat.zero_le 256) (Nat.le_refl _)
    fun j _ hj e => ?_
  subst e
  exact hl.elim (fun hk => hk rfl) fun hle => Nat.not_le_of_lt hj hle

/-- The copy from an untrapped page to a buffer: each byte by what the page shows at its turn. -/
theorem copyOAM_buffer_untrapped {k : Nat} {b : Buffer} (hb : s.bufs[k]? = some b) (hlen : 256 ≤ b.len)
    (hw : ∀ c ∈ s.bufs, c.wf = true) (hpage : ∀ i : Byte, s.untrapped (wordOf h i)) :
    let t := copyOAM h (.buffer k) s
    t.ppu = s.ppu ∧ t.plat = s.plat ∧ ∀ i : Byte,
      ((∀ j : Byte, j < i → s.cpuBus.locate (wordOf h i) ≠ some (k, j.toNat)) →
        storeRead t.bufs (k, i.toNat) = s.byteAt (wordOf h i)) ∧
      (∀ j : Byte, j < i → s.cpuBus.locate (wordOf h i) = some (k, j.toNat) →
        storeRead t.bufs (k, i.toNat) = storeRead t.bufs (k, j.toNat)) := by
  obtain ⟨bufs, hcopy⟩ := copyBytes_buffer_eq h k (s.charge (copyOamCost s.cpu.cyc)) hpage 256
  refine ⟨by rw [copyOAM, hcopy]; rfl, by rw [copyOAM, hcopy]; rfl, fun i => ?_⟩
  have hbyte := copyBytes_buffer_byte h k (s.charge (copyOamCost s.cpu.cyc)) hb hlen hw hpage i
  exact ⟨fun hl => hbyte.trans (peek_copyBytes_notCopied h k _ hl),
    fun j hj hl => hbyte.trans (peek_copyBytes_copied h k _ hj hl)⟩

end

/-- A store to the DMA register: `copyOAM` first, then the store's own cost (R460). -/
theorem exec_sta_oamDma {s : State} {w : Addr} {d : Trap CpuCallback} (hd : s.cpuBus.trapAt w = some d)
    (hc : d.callback = .oamDma w) : exec (.sta (.abs w)) s = .next ((copyOAM s.cpu.a .oam s).charge 4) := by
  have hwrite : cpuWrite w s.cpu.a s = copyOAM s.cpu.a .oam s := by
    rw [cpuWrite_trapped hd, cpuTrapWrite_oamDma _ _ _ hc, if_pos rfl]
  rw [← hwrite]
  rfl

/-- Settles O38: the copy is a fold of single bytes, and its effect on memory is read off byte by byte. -/
theorem copyOamCopiesAPage : Obligations.CopyOamCopiesAPage := by
  refine fun h s => ⟨fun dest => ?common, ⟨copyOAM_oam_bufs h s, copyOAM_oam_untrapped h s⟩,
    fun k b hb hlen hw => ⟨fun l hl => copyOAM_buffer_storeRead h s hl, copyOAM_buffer_untrapped h s hb hlen hw⟩,
    fun w d hd hc => exec_sta_oamDma hd hc⟩
  refine ⟨copyOAM_cpu h dest s, ⟨copyOAM_cpuBus h dest s, copyOAM_ppuBus h dest s⟩, copyOAM_lens h dest s, ?_⟩
  rw [copyOAM_eq, copyBytes_eq_foldl]
  exact List.foldl_ext _ _ _ fun u n hn => copyStep_eq h dest u (List.mem_range.mp hn)

end Sys2Proof.Machine

/-! SUPPORT. The family spec/70_reset_and_hazards.md: the costs by access class and mode, what every instruction adds to `CYC`,
and that `CYC` grows along every transition but `raiseReset`. -/

namespace Sys2Proof.Machine

/-! ### Costs by class and mode (R486) -/

/-- Settles O17, row by row of R486. -/
theorem costsByClassAndMode : Obligations.CostsByClassAndMode := by
  refine fun b w => ⟨fun c => ?readAlways, ?readByPage, ?write, ?readModifyWrite⟩
  case readAlways => exact ⟨rfl, rfl, rfl, rfl, rfl, rfl⟩
  case readByPage => exact ⟨rfl, rfl, rfl, rfl, rfl, rfl⟩
  case write => exact ⟨rfl, rfl, rfl, rfl, rfl, rfl, rfl, rfl⟩
  case readModifyWrite => exact ⟨rfl, rfl, rfl, rfl⟩

/-! ### DMAs started by writes (R445, R460) -/

/-- `CYC` after a DMA called at `CYC = cyc` (R445). -/
def cycAfterDma (cyc : Nat) : Nat := cyc + copyOamCost cyc

theorem le_iterate_cycAfterDma (n cyc : Nat) : cyc ≤ cycAfterDma^[n] cyc :=
  Function.id_le_iterate_of_id_le (fun c => Nat.le_add_right c (copyOamCost c)) n cyc

/-- No trap of `CpuBus` is the DMA register's. -/
def State.NoDmaTrap (s : State) : Prop := ∀ d ∈ s.cpuBus.traps, ∀ reg, d.callback ≠ .oamDma reg

/-- From `s` to `t` the cycle count grows by what at most `k` DMAs one after the other cost, and by nothing when no trap is
the DMA register's. -/
structure ChargesDmas (k : Nat) (s t : State) : Prop where
  cpuBus : t.cpuBus = s.cpuBus
  cyc    : ∃ n ≤ k, t.cpu.cyc = cycAfterDma^[n] s.cpu.cyc ∧ (s.NoDmaTrap → n = 0)

section
variable {k l : Nat} {s t u : State}

theorem ChargesDmas.trans (h : ChargesDmas k s t) (h' : ChargesDmas l t u) : ChargesDmas (k + l) s u := by
  obtain ⟨n, hn, ht, hno⟩ := h.cyc
  obtain ⟨m, hm, hu, hno'⟩ := h'.cyc
  have hcyc : u.cpu.cyc = cycAfterDma^[m + n] s.cpu.cyc := by rw [hu, ht, Function.iterate_add_apply]
  refine ⟨h'.cpuBus.trans h.cpuBus, m + n, by omega, hcyc, fun hs => ?_⟩
  have htraps : t.NoDmaTrap := by rwa [State.NoDmaTrap, h.cpuBus]
  rw [hno hs, hno' htraps]

theorem ChargesDmas.mono (h : ChargesDmas k s t) (hkl : k ≤ l) : ChargesDmas l s t := by
  obtain ⟨n, hn, hcyc⟩ := h.cyc
  exact ⟨h.cpuBus, n, hn.trans hkl, hcyc⟩

/-- What writes no memory starts no DMA. -/
theorem chargesDmas_of_cyc (hbus : t.cpuBus = s.cpuBus) (hcyc : t.cpu.cyc = s.cpu.cyc) : ChargesDmas k s t :=
  ⟨hbus, 0, Nat.zero_le k, hcyc, fun _ => rfl⟩

theorem chargesDmas_cpuWrite (a : Addr) (v : Byte) : ChargesDmas 1 s (cpuWrite a v s) := by
  refine ⟨cpuWrite_cpuBus a v s, ?_⟩
  rcases cpuWrite_dma a v s with hcpu | ⟨hcpu, d, hd, hdma⟩
  · exact ⟨0, Nat.zero_le 1, by rw [hcpu]; rfl, fun _ => rfl⟩
  · exact ⟨1, Nat.le_refl 1, by rw [hcpu]; rfl, fun hno => absurd hdma (hno d hd a)⟩

theorem chargesDmas_push (v : Byte) : ChargesDmas 1 s (push v s) := by
  have hsp : ChargesDmas 0 (cpuWrite (stackAddr s.cpu.sp) v s) (push v s) := chargesDmas_of_cyc rfl rfl
  exact (chargesDmas_cpuWrite _ _).trans hsp

theorem chargesDmas_pushWord (w : Addr) : ChargesDmas 2 s (pushWord w s) := (chargesDmas_push _).trans (chargesDmas_push _)

end

/-! ### The cost of an access class (R150, R182, R225, R485) -/

/-- How many writes an instruction makes at most: JSR pushes a word (R223). -/
def maxWrites : Instr → Nat
  | .jsr _ => 2
  | _ => 1

theorem one_le_maxWrites (i : Instr) : 1 ≤ maxWrites i := by
  unfold maxWrites
  split
  · exact Nat.le_succ 1
  · exact Nat.le_refl 1

/-- Only JSR can start a second DMA. -/
theorem dmas_cases {i : Instr} {n : Nat} (h : n ≤ maxWrites i) : n = 0 ∨ n = 1 ∨ n = 2 ∧ ∃ w, i = .jsr w := by
  unfold maxWrites at h
  split at h
  next w =>
    have hn : n = 0 ∨ n = 1 ∨ n = 2 := by omega
    exact hn.imp_right (Or.imp_right fun h2 => ⟨h2, w, rfl⟩)
  next => omega

/-- The answer `r` of instruction `i` from `s` is a next state, reached by DMAs of the writes of `i` and then the table
cost. -/
def Pays (i : Instr) (s : State) (r : Result) : Prop :=
  ∃ u, r = .next (u.charge (tableCost i s u.cpu.pageCrossed)) ∧ ChargesDmas (maxWrites i) s u

/-- An update of registers that the cost of an instruction does not depend on. -/
structure KeepsClock (s t : State) : Prop where
  cpuBus  : t.cpuBus = s.cpuBus
  cyc     : t.cpu.cyc = s.cpu.cyc
  crossed : t.cpu.pageCrossed = s.cpu.pageCrossed

section
variable {i : Instr} {s u : State}

/-- Most meanings end by charging their cycles. -/
theorem pays_of_charge {r : Result} {n : Nat} (e : r = .next (u.charge n)) (h : ChargesDmas (maxWrites i) s u)
    (hcost : tableCost i s u.cpu.pageCrossed = n) : Pays i s r :=
  ⟨u, by rw [e, hcost], h⟩

theorem pays_readClass {src : Source} {act : Byte → State → State} (hact : ∀ b u, KeepsClock u (act b u))
    (hcost : ∀ x, tableCost i s x = readCost src x) : Pays i s (readClass src act s) := by
  obtain ⟨hbus, hcyc, hcrossed⟩ := hact (load src s).1 (load src s).2
  have hload : (load src s).2.cpu.cyc = s.cpu.cyc := by rw [load_cpu]
  have hdmas : ChargesDmas (maxWrites i) s (act (load src s).1 (load src s).2) :=
    chargesDmas_of_cyc (hbus.trans (load_cpuBus src s)) (hcyc.trans hload)
  exact pays_of_charge (readClass_eq src act s) hdmas (by rw [hcrossed, hcost])

theorem pays_writeClass {m : AddrMode} {value : State → Byte} (hcost : ∀ x, tableCost i s x = writeCost m) :
    Pays i s (writeClass m value s) := by
  have hresolve : ChargesDmas 0 s (resolve m s).2 := chargesDmas_of_cyc (resolve_cpuBus m s) (resolve_cyc m s)
  exact pays_of_charge (writeClass_eq m value s)
    ((hresolve.trans (chargesDmas_cpuWrite _ _)).mono (one_le_maxWrites i)) (hcost _)

theorem pays_registerClass {act : State → State} (hact : KeepsClock s (act s)) (hcost : ∀ x, tableCost i s x = 2) :
    Pays i s (registerClass act s) :=
  pays_of_charge rfl (chargesDmas_of_cyc hact.cpuBus hact.cyc) (hcost _)

theorem pays_modifyMemory {m : AddrMode} {result status : Byte → Byte → Byte} (hcost : ∀ x, tableCost i s x = rmwCost m) :
    Pays i s (modifyMemory m result status s) := by
  have hread (p : Byte) : ChargesDmas 0 s ((cpuRead (resolve m s).1 (resolve m s).2).2.setP p) :=
    chargesDmas_of_cyc (by simp) (by simp)
  exact pays_of_charge (modifyMemory_eq m result status s)
    (((hread _).trans (chargesDmas_cpuWrite _ _)).mono (one_le_maxWrites i)) (hcost _)

/-- The four shifts cost alike. -/
theorem pays_shiftClass {g : Target} {shift : Byte → Bool → Shifted}
    (hcost : ∀ x, tableCost i s x = tableCost (.asl g) s x) : Pays i s (shiftClass g shift s) := by
  cases g <;> dsimp only [shiftClass]
  case acc => exact pays_registerClass ⟨rfl, rfl, rfl⟩ hcost
  case mem m => exact pays_modifyMemory hcost

theorem pays_flagClass {f : Flag} {on : Bool} (hcost : ∀ x, tableCost i s x = 2) : Pays i s (flagClass f on s) :=
  pays_registerClass ⟨rfl, rfl, rfl⟩ hcost

theorem pays_branchClass {cond : Bool} {off : Byte} (hcost : ∀ x, tableCost i s x =
      if cond then (if hiByte (branchTarget off s) = hiByte s.cpu.pc then 3 else 4) else 2) :
    Pays i s (branchClass cond off s) := by
  rw [branchClass_eq]
  split
  next hc => exact pays_of_charge rfl (chargesDmas_of_cyc rfl rfl) (by rw [hcost, if_pos hc, branchCost_eq])
  next hc => exact pays_of_charge rfl (chargesDmas_of_cyc rfl rfl) (by rw [hcost, if_neg hc])

end

/-! ### The cost of every instruction (R485, R486) -/

theorem exec_pays (i : Instr) (s : State) : Pays i s (exec i s) := by
  cases i <;> dsimp only [exec]
  case lda src | ldx src | ldy src | adc src | sbc src | and src | ora src | eor src | cmp src | cpx src | cpy src =>
    exact pays_readClass (fun _ _ => ⟨rfl, rfl, rfl⟩) fun _ => rfl
  case lax m | bit m => exact pays_readClass (fun _ _ => ⟨rfl, rfl, rfl⟩) fun _ => rfl
  case sta m | stx m | sty m | sax m => exact pays_writeClass fun _ => rfl
  case inc m | dec m => exact pays_modifyMemory fun _ => rfl
  case asl g | lsr g | rol g | ror g => exact pays_shiftClass fun _ => rfl
  case tax | tay | txa | tya | tsx | txs | inx | iny | dex | dey =>
    exact pays_registerClass ⟨rfl, rfl, rfl⟩ fun _ => rfl
  case clc | sec | cli | sei | clv | cld | sed => exact pays_flagClass fun _ => rfl
  case nop op src =>
    cases src with
    | none => exact pays_registerClass ⟨rfl, rfl, rfl⟩ fun _ => rfl
    | some src => exact pays_readClass (fun _ _ => ⟨rfl, rfl, rfl⟩) fun _ => rfl
  case jmp g =>
    cases g with
    | abs w => exact pays_of_charge (exec_jmp_abs w s) (chargesDmas_of_cyc rfl rfl) rfl
    | ind w => exact pays_of_charge (exec_jmp_ind w s) (chargesDmas_of_cyc (by simp) (by simp)) rfl
  case jsr w =>
    have hpc : ChargesDmas 0 (pushWord (s.cpu.pc - 1) s) ((pushWord (s.cpu.pc - 1) s).setPC w) :=
      chargesDmas_of_cyc rfl rfl
    exact pays_of_charge (exec_jsr w s) ((chargesDmas_pushWord _).trans hpc) rfl
  case rts => exact pays_of_charge (exec_rts s) (chargesDmas_of_cyc (by simp) (by simp)) rfl
  case rti => exact pays_of_charge (exec_rti s) (chargesDmas_of_cyc (by simp) (by simp)) rfl
  case bpl off | bmi off | bvc off | bvs off | bcc off | bcs off | bne off | beq off =>
    exact pays_branchClass fun _ => rfl
  case brk => exact pays_of_charge (u := raiseError .brk 0x00 s) (n := 0) rfl (chargesDmas_of_cyc rfl rfl) rfl
  case undefined op =>
    exact pays_of_charge (u := raiseError .unknownOpcode op s) (n := 0) rfl (chargesDmas_of_cyc rfl rfl) rfl
  case pha => exact pays_of_charge (exec_pha s) (chargesDmas_push _) rfl
  case php => exact pays_of_charge (exec_php s) (chargesDmas_push _) rfl
  case pla => exact pays_of_charge (exec_pla s) (chargesDmas_of_cyc (by simp) (by simp)) rfl
  case plp => exact pays_of_charge (exec_plp s) (chargesDmas_of_cyc (by simp) (by simp)) rfl

/-- The cycle count an instruction leaves: `n` DMAs, then the table cost. -/
theorem exec_cyc {i : Instr} {s t : State} (e : exec i s = .next t) :
    ∃ n ≤ maxWrites i, t.cpu.cyc = cycAfterDma^[n] s.cpu.cyc + tableCost i s t.cpu.pageCrossed ∧ (s.NoDmaTrap → n = 0) := by
  obtain ⟨u, he, hu⟩ := exec_pays i s
  obtain ⟨n, hn, hcyc, hno⟩ := hu.cyc
  cases e.symm.trans he
  exact ⟨n, hn, congrArg (· + tableCost i s u.cpu.pageCrossed) hcyc, hno⟩

/-! ### `CYC` along a transition (R20, R440) -/

section
variable {s t : State}

theorem exec_cyc_le {i : Instr} (e : exec i s = .next t) : s.cpu.cyc ≤ t.cpu.cyc := by
  obtain ⟨n, -, hcyc, -⟩ := exec_cyc e
  rw [hcyc]
  exact (le_iterate_cycAfterDma n _).trans (Nat.le_add_right _ _)

theorem cpuStep_cyc_le (e : cpuStep s = .next t) : s.cpu.cyc ≤ t.cpu.cyc := by
  by_cases he : s.cpu.errKind = .none
  · rw [cpuStep_eq s he] at e
    obtain ⟨w, hfetch⟩ := fetchInstr_cpu (beginStep s)
    have hcyc : (fetchInstr (beginStep s)).2.cpu.cyc = s.cpu.cyc := by rw [hfetch]; rfl
    exact hcyc.symm.le.trans (exec_cyc_le e)
  · rw [cpuStep_halted s he] at e
    cases e
    exact Nat.le_refl _

theorem enterInterrupt_cyc_le (vec : Addr) (s : State) : s.cpu.cyc ≤ (enterInterrupt vec s).cpu.cyc := by
  obtain ⟨n, w, hcpu⟩ := enterInterrupt_cpu vec s
  rw [hcpu, Nat.add_assoc]
  exact Nat.le_add_right _ _

theorem raiseIRQ_cyc_le (s : State) : s.cpu.cyc ≤ (raiseIRQ s).cpu.cyc := by
  unfold raiseIRQ
  split
  · exact Nat.le_refl _
  · exact enterInterrupt_cyc_le vectorIRQ s

/-- Every transition but `raiseReset`, which sets `CYC` anew (R440). -/
theorem issue_cyc_le {r : Transition} (hr : ∀ n, r ≠ .raiseReset n) (e : issue r s = .next t) :
    s.cpu.cyc ≤ t.cpu.cyc := by
  cases r <;> dsimp only [issue] at e
  case cpuStep => exact cpuStep_cyc_le e
  case ppuTick => cases e; rw [countedTick_cpu]
  case systemTick => cases e; rw [systemTick_cpu]
  case raiseIRQ => cases e; exact raiseIRQ_cyc_le s
  case raiseNMI => cases e; exact enterInterrupt_cyc_le vectorNMI s
  case raiseReset n => exact absurd rfl (hr n)
  case copyOAM hi dest => rw [(next_of_guard e).2, copyOAM_cpu]; exact Nat.le_add_right _ _
  case map bus buf start stop mask => obtain ⟨b, -, -, ⟨-, rfl⟩ | ⟨-, rfl⟩⟩ := hostMap_next e <;> exact Nat.le_refl _
  case unmap bus start stop => obtain ⟨-, ⟨-, rfl⟩ | ⟨-, rfl⟩⟩ := hostUnmap_next e <;> exact Nat.le_refl _
  case mapCpuRegister start stop context callback => obtain ⟨-, rfl⟩ := hostMapCpuRegister_next e; exact Nat.le_refl _
  case mapPpuRegister start stop context => obtain ⟨-, rfl⟩ := hostMapPpuRegister_next e; exact Nat.le_refl _
  case forcePC w => cases e; exact Nat.le_refl _
  case createBuffer n => cases e; exact Nat.le_refl _
  case writeBuffer buf off v => obtain ⟨-, rfl⟩ := hostWriteBuffer_next e; exact Nat.le_refl _

theorem referenceTurn_cyc_le (e : referenceTurn s = .next t) : s.cpu.cyc ≤ t.cpu.cyc := by
  unfold referenceTurn at e
  split at e
  · cases e; exact Nat.le_refl _
  · split at e
    · exact cpuStep_cyc_le e
    · cases e; rw [systemTick_cpu]

theorem step_cyc_le (e : step s = .next t) (hr : ∀ n r, s.plat.pending ≠ .raiseReset n :: r) : s.cpu.cyc ≤ t.cpu.cyc := by
  cases hp : s.plat.pending with
  | nil =>
    rw [step_idle s hp] at e
    exact referenceTurn_cyc_le e
  | cons r rest =>
    rw [step_pending s r rest hp] at e
    have hreset (n : Nat) : r ≠ .raiseReset n := fun h => hr n rest (by rw [hp, h])
    exact issue_cyc_le (s := s.withPlat { s.plat with pending := rest }) hreset e

end

/-- Settles O60: `CYC` counts the DMAs of the instruction's writes, then its table cost. -/
theorem everyInstructionPaysItsCost : Obligations.EveryInstructionPaysItsCost := by
  refine ⟨fun i s t e => ?_, fun s t e hr => step_cyc_le e hr⟩
  obtain ⟨n, hn, hcyc, hno⟩ := exec_cyc e
  refine ⟨⟨cycAfterDma^[n] s.cpu.cyc, hcyc, ?dmas⟩, fun hs => ?noDma⟩
  case dmas =>
    obtain rfl | rfl | ⟨rfl, hjsr⟩ := dmas_cases hn
    · exact .inl rfl
    · exact .inr (.inl rfl)
    · exact .inr (.inr ⟨rfl, hjsr⟩)
  case noDma => rw [hcyc, hno hs, Function.iterate_zero_apply]

end Sys2Proof.Machine
